-- ==== Sys2Proof/Word.lean ====
section
/-! DEFINITION. The word types (00_scope.md R9: every value is an unsigned bit vector of a stated width). -/

namespace Sys2Proof

/-- A byte: a register of the flash macro, a flash cell, a buffer element (D5, R27). -/
abbrev Byte := BitVec 8

/-- A 32-bit word: every operand, address, counter and verify word (D4). -/
abbrev Word := BitVec 32

/-- A value of the watchdog's divisor field. Its width is OPEN in the spec; 32 bits here (log 20, DESIGN CHOICE). -/
abbrev Divisor := BitVec 32

/-- `ONES32` of R9. -/
abbrev ones32 : Word := 0xFFFFFFFF#32

end Sys2Proof
end

