-- ==== Sys2Proof/Config.lean ====
section
/-! DEFINITION. What an implementation fixes (the DeviceProfile of 00_scope.md R6 to R8) with the names it is
written in, and the free values: constants without a body, for what the spec leaves open (93 U1 to U5). -/

namespace Sys2Proof

/-- ControlBank number, `k ∈ {0, 1}` (R14, R23). -/
inductive Bank where
  | b0
  | b1
deriving DecidableEq, Repr

/-- The seven writable fields of `FCR[k]` (R33). -/
inductive Field where
  | swe
  | esu
  | psu
  | ev
  | pv
  | e
  | p
deriving DecidableEq, Repr

/-- The named registers that `RegRead` and `RegWrite` reach (R42, R110). -/
inductive Reg where
  | fcr (k : Bank)
  | ebr (k : Bank)
deriving DecidableEq, Repr

/-- The status taxonomy (R231). -/
inductive Status where
  | ok
  | badBlock
  | outOfBounds
  | misaligned
  | badLength
  | deviceError
  | eraseVerifyFailed
  | programVerifyFatal
  | writeMaxRetries
deriving DecidableEq, Repr

/-- `PAGE`: 128 or 32, no other value is admitted (R6). -/
inductive PageSize where
  | p32
  | p128
deriving DecidableEq, Repr

/-- The eighteen delay counts of R7, in the order of its table. -/
structure Delays where
  sweSetup : Word
  sweHold : Word
  esuSetup : Word
  esuHold : Word
  ePulse : Word
  eHold : Word
  evSetup : Word
  evRead : Word
  evHold : Word
  psuSetup : Word
  psuHold : Word
  pShort : Word
  pLong : Word
  pAdd : Word
  pHold : Word
  pvSetup : Word
  pvRead : Word
  pvHold : Word
deriving DecidableEq, Repr

/-- `REG_LAYOUT`: the bit number of each field of `FCR[k]` (R33, D5). -/
structure RegLayout where
  status : Fin 8
  swe : Fin 8
  esu : Fin 8
  psu : Fin 8
  ev : Fin 8
  pv : Fin 8
  e : Fin 8
  p : Fin 8
deriving DecidableEq, Repr

/-- `STATUS_ENC`: the 4-bit code of each status (R94, D3). -/
structure StatusEnc where
  ok : BitVec 4
  badBlock : BitVec 4
  outOfBounds : BitVec 4
  misaligned : BitVec 4
  badLength : BitVec 4
  deviceError : BitVec 4
  eraseVerifyFailed : BitVec 4
  programVerifyFatal : BitVec 4
  writeMaxRetries : BitVec 4
deriving DecidableEq, Repr

/-- `MISMATCH_REF` (R8, D17). -/
inductive MismatchRef where
  | reprogram
  | source
deriving DecidableEq, Repr

/-- The immutable DeviceProfile (R6) with the further parameters of R8. `REG_ADDR` has no field: R37 says the
model needs none. -/
structure DeviceProfile where
  /-- `F_CLK` in hertz -/
  fClk : Nat
  /-- numerator of `CYC_PER_US` -/
  cycPerUsNum : Nat
  /-- denominator of `CYC_PER_US` -/
  cycPerUsDen : Nat
  delays : Delays
  /-- `FLASH_MAX` -/
  flashMax : Word
  /-- `PAGE` -/
  page : PageSize
  maxEraseRetries : Word
  maxWriteRetries : Word
  overwriteCount : Word
  hasOverwrite : Bool
  /-- `TABLE[0..N]` -/
  table : List Word
  bankSplit : Word
  wdtDivProgram : Divisor
  wdtDivErase : Divisor
  regLayout : RegLayout
  /-- `EBR_BIT`: none for the default (the ordinal in the bank), or the bit number of each block (R153) -/
  ebrBits : Option (List (Fin 8))
  statusEnc : StatusEnc
  mismatchRef : MismatchRef
  /-- `CYC_PER_ITER` (OPEN) -/
  cycPerIter : Nat
  /-- `WDT_INTERVAL` (OPEN): the interval, in clock cycles, of each divisor the timer has -/
  wdtIntervals : List (Divisor × Nat)
  /-- `GUARD_OVERHEAD_MAX` (OPEN), in clock cycles -/
  guardOverheadMax : Nat
deriving DecidableEq, Repr

/-- The default `REG_LAYOUT` (R33). -/
def RegLayout.standard : RegLayout :=
  { status := 7, swe := 6, esu := 5, psu := 4, ev := 3, pv := 2, e := 1, p := 0 }

/-- The default `STATUS_ENC` (R94). -/
def StatusEnc.standard : StatusEnc :=
  { ok := 0, badBlock := 1, outOfBounds := 2, misaligned := 3, badLength := 4, deviceError := 5,
    eraseVerifyFailed := 6, programVerifyFatal := 7, writeMaxRetries := 8 }

/-- Delay counts for the profile in `State.reset`: eighteen different numbers, so that no two are confused.
DESIGN CHOICE (log 1): the spec gives none a value. -/
def Delays.distinct : Delays :=
  { sweSetup := 1, sweHold := 2, esuSetup := 3, esuHold := 4, ePulse := 5, eHold := 6, evSetup := 7, evRead := 8,
    evHold := 9, psuSetup := 10, psuHold := 11, pShort := 12, pLong := 13, pAdd := 14, pHold := 15, pvSetup := 16,
    pvRead := 17, pvHold := 18 }

namespace Config

/-- The profile that stands in `State.reset`: the toy profile TP32 of 95_test_vectors.md section 2, with numbers
for the parameters that section leaves symbolic. DESIGN CHOICE (log 1); no statement rests on it. -/
def bootProfile : DeviceProfile :=
  { fClk := 40000000, cycPerUsNum := 40, cycPerUsDen := 1, delays := Delays.distinct, flashMax := 0x0FF, page := .p32,
    maxEraseRetries := 3, maxWriteRetries := 4, overwriteCount := 2, hasOverwrite := false,
    table := [0x000, 0x040, 0x080, 0x100], bankSplit := 0x080, wdtDivProgram := 0, wdtDivErase := 1,
    regLayout := .standard, ebrBits := none, statusEnc := .standard, mismatchRef := .reprogram, cycPerIter := 4,
    wdtIntervals := [(0, 1000), (1, 2000)], guardOverheadMax := 100 }

/-- The answer of the flash macro to the `FlashRead32` made at a moment (93 U1, U15; log 5, log 14, log 35). Free. -/
opaque freeReadback : Nat → Word

/-- The level of the `FWE` input seen by the register read made at a moment (93 U2; log 6). Free. -/
opaque freeFwe : Nat → Bool

/-- The level of the `FLER` input seen by the register read made at a moment (93 U2; log 6). Free. -/
opaque freeFler : Nat → Bool

/-- Whether the watchdog overflows at a moment at which R143 admits it without its being certain (93 U3; log 7). Free. -/
opaque freeOverflow : Nat → Bool

/-- What a flash cell (second argument: its address) holds after a pulse that ended, or was cut short, at a moment
(93 U4, U5; log 12). Free. -/
opaque freeCell : Nat → Nat → Byte

end Config

end Sys2Proof
end

