-- ==== Sys2Proof/Syntax.lean ====
section
/-! DEFINITION. Instructions: one constructor of `Instr` for each row of opcode_table.json; the micro-operations
as a type of their own; and the micro-operations as a procedure's pseudocode writes them (`Act`). -/

namespace Sys2Proof

/-- The eleven event-making micro-operations with their operands (30_encoding.md R96). -/
inductive MicroOp where
  | regRead (r : Reg)
  | regWrite (r : Reg) (v : Byte)
  | flashWrite8 (a : Word) (v : Byte)
  | flashWrite32 (a : Word) (v : Word)
  | flashRead32 (a : Word)
  | srcRead8 (a : Word)
  | wait (c : Word)
  | wdtStop
  | wdtStart (d : Divisor)
  | irqMask
  | irqRestore
deriving DecidableEq, Repr

/-- One micro-operation as it stands in the pseudocode of files 40 to 46: its operands may be registers, so they
are known only when it is performed (`Act.op`). -/
inductive Act where
  /-- `v <- RegRead(r)` -/
  | read (r : Reg)
  /-- `RegWrite(r, v)` with a constant -/
  | write (r : Reg) (v : Byte)
  /-- second half of `BitSet(FCR[k], f)`: `RegWrite(FCR[k], v | (1 << b))` -/
  | setBit (k : Bank) (f : Field)
  /-- second half of `BitClr(FCR[k], f)`: `RegWrite(FCR[k], v & ~(1 << b))` -/
  | clrBit (k : Bank) (f : Field)
  /-- `rbuf[i] <- SrcRead8(pg_src + i)` -/
  | copy (i : Nat)
  /-- `FlashWrite8(pg_dest + i, rbuf[i])` -/
  | latch (i : Nat)
  /-- `FlashWrite8(pg_dest + i, obuf[i])` -/
  | latchOvw (i : Nat)
  /-- `FlashWrite32(vaddr, ONES32)` -/
  | probe
  /-- `v <- FlashRead32(vaddr)` -/
  | readBack
  /-- `SrcRead8(a)`, its byte shifted into the source word -/
  | srcByte (a : Word)
  | wait (c : Word)
  | wdtStop
  | wdtStart (d : Divisor)
  | irqMask
  | irqRestore
deriving DecidableEq, Repr

/-- Every row of opcode_table.json. -/
inductive Instr where
  /-- `init` (R220) -/
  | init
  /-- `unprotect` (R221) -/
  | unprotect
  /-- `erase_block` (R170) -/
  | eraseBlock (index : Word)
  /-- `write_range` (R190) -/
  | writeRange (dest src len : Word)
  /-- `RegRead` (R110) -/
  | regRead (r : Reg)
  /-- `RegWrite` (R111) -/
  | regWrite (r : Reg) (v : Byte)
  /-- `FlashWrite8` (R114) -/
  | flashWrite8 (a : Word) (v : Byte)
  /-- `FlashWrite32` (R115) -/
  | flashWrite32 (a : Word) (v : Word)
  /-- `FlashRead32` (R116) -/
  | flashRead32 (a : Word)
  /-- `SrcRead8` (R117) -/
  | srcRead8 (a : Word)
  /-- `Wait` (R130) -/
  | waitOp (c : Word)
  /-- `WdtStop` (R120) -/
  | wdtStop
  /-- `WdtStart` (R121) -/
  | wdtStart (d : Divisor)
  /-- `IrqMask` (R118) -/
  | irqMask
  /-- `IrqRestore` (R119) -/
  | irqRestore
  /-- `BitSet` (R112) -/
  | bitSet (k : Bank) (f : Field)
  /-- `BitClr` (R113) -/
  | bitClr (k : Bank) (f : Field)
  /-- `SrcWord` (R123) -/
  | srcWord (a : Word)
  /-- `Precond` (R122) -/
  | precond
  /-- `wait`, the document's name for `Wait` (R130) -/
  | waitProc (cycles : Word)
  /-- `scoped_guard(divisor) { body }` (R142), its body a straight line of micro-operations -/
  | scopedGuard (d : Divisor) (body : List Act)
  /-- `GuardAcquire` (R140) -/
  | guardAcquire (d : Divisor)
  /-- `GuardRelease` (R141) -/
  | guardRelease
  /-- `resolve_block` (R150) -/
  | resolveBlock (index : Word)
  /-- `SelectBlock` (R154) -/
  | selectBlock (index : Word)
  /-- `resolve_address_range` (R160) -/
  | resolveAddressRange (dest len : Word)
  /-- `ValidateRange` (R161) -/
  | validateRange (dest len : Word)
  /-- `PageLoop` (R162), on the operand registers -/
  | pageLoop
  /-- `ErasePulse` (R171) -/
  | erasePulse (k : Bank)
  /-- `EraseVerify` (R172) -/
  | eraseVerify (k : Bank) (start stop : Word)
  /-- `write_page` (R191) -/
  | writePage (dest src : Word)
  /-- `ProgramPulse` (R192) -/
  | programPulse (k : Bank) (width : Word)
  /-- `VerifyWord` (R193) -/
  | verifyWord (k : Bank) (j : Nat) (n : Word)
  /-- `SystemReset` (R240) -/
  | systemReset
deriving DecidableEq, Repr

/-- The row of the opcode table a micro-operation is. -/
def MicroOp.toInstr : MicroOp → Instr
  | .regRead r => .regRead r
  | .regWrite r v => .regWrite r v
  | .flashWrite8 a v => .flashWrite8 a v
  | .flashWrite32 a v => .flashWrite32 a v
  | .flashRead32 a => .flashRead32 a
  | .srcRead8 a => .srcRead8 a
  | .wait c => .waitOp c
  | .wdtStop => .wdtStop
  | .wdtStart d => .wdtStart d
  | .irqMask => .irqMask
  | .irqRestore => .irqRestore

end Sys2Proof
end

