-- ==== Sys2Proof/Machine/Profile.lean ====
section
/-! DEFINITION. What the DeviceProfile says: page size, banks, block-enable bits, register masks, status codes,
watchdog intervals, delay counts (00_scope.md R6 to R8; 43_block_table_selector.md). -/

namespace Sys2Proof

/-- `PAGE` in bytes (R6). -/
def PageSize.bytes : PageSize → Nat
  | .p32 => 32
  | .p128 => 128

/-- The other ControlBank, `1 - k` (R154). -/
def Bank.other : Bank → Bank
  | .b0 => .b1
  | .b1 => .b0

/-- The bit number of a writable field (R33). -/
def RegLayout.bit (l : RegLayout) : Field → Fin 8
  | .swe => l.swe
  | .esu => l.esu
  | .psu => l.psu
  | .ev => l.ev
  | .pv => l.pv
  | .e => l.e
  | .p => l.p

/-- `1 << b` of a field (R112). -/
def RegLayout.mask (l : RegLayout) (f : Field) : Byte := 1#8 <<< (l.bit f).val

/-- The mask of the read-only status bit (`FWE` or `FLER`, R33, R35). -/
def RegLayout.statusMask (l : RegLayout) : Byte := 1#8 <<< l.status.val

/-- The seven writable fields (R33). -/
def Field.all : List Field := [.swe, .esu, .psu, .ev, .pv, .e, .p]

/-- `STATUS_ENC(S)` (R94). -/
def StatusEnc.code (c : StatusEnc) : Status → BitVec 4
  | .ok => c.ok
  | .badBlock => c.badBlock
  | .outOfBounds => c.outOfBounds
  | .misaligned => c.misaligned
  | .badLength => c.badLength
  | .deviceError => c.deviceError
  | .eraseVerifyFailed => c.eraseVerifyFailed
  | .programVerifyFatal => c.programVerifyFatal
  | .writeMaxRetries => c.writeMaxRetries

namespace DeviceProfile

/-- `PAGE` as a number. -/
def pageBytes (p : DeviceProfile) : Nat := p.page.bytes

/-- `PAGE` as a 32-bit word, for the page stepping of R162. -/
def pageWord (p : DeviceProfile) : Word := BitVec.ofNat 32 p.pageBytes

/-- `N`, the block count (R6). -/
def blockCount (p : DeviceProfile) : Nat := p.table.length - 1

/-- `TABLE[i]`. -/
def tableAt (p : DeviceProfile) (i : Nat) : Word := p.table.getD i 0

/-- `BANK(a) = 0 if a < BANK_SPLIT else 1` (R152). -/
def bankOf (p : DeviceProfile) (a : Word) : Bank := if a < p.bankSplit then .b0 else .b1

/-- The bank of block `i`: the bank of its first address (R150, R153). -/
def blockBank (p : DeviceProfile) (i : Nat) : Bank := p.bankOf (p.tableAt i)

/-- The default block-enable bit: `b = i - (least j with BANK(TABLE[j]) = k)` (R153). -/
def ordinal (p : DeviceProfile) (i : Nat) : Nat :=
  i - ((List.range (i + 1)).find? (fun j => p.blockBank j == p.blockBank i)).getD i

/-- The bit number `b` of `EBR_BIT(i) = (k, b)` (R153); `k` is `blockBank`. -/
def ebrBit (p : DeviceProfile) (i : Nat) : Nat :=
  match p.ebrBits with
  | none => p.ordinal i
  | some bits => (bits.getD i 0).val

/-- `1 << b` for block `i` (R154). -/
def ebrMask (p : DeviceProfile) (i : Nat) : Byte := 1#8 <<< p.ebrBit i

/-- `WDT_INTERVAL(d)`; at a divisor the timer does not list an overflow is admitted at once (R143, log 20). -/
def wdtInterval (p : DeviceProfile) (d : Divisor) : Nat := (p.wdtIntervals.lookup d).getD 0

/-- Whether a time in clock cycles reaches `WDT_INTERVAL(d)`, for certain: a divisor without an interval has none to
reach (R143, R275; log 20). -/
def intervalReached (p : DeviceProfile) (d : Divisor) (cycles : Nat) : Bool :=
  (p.wdtIntervals.lookup d).any (fun t => decide (t ≤ cycles))

/-- A flash address exists: at most `FLASH_MAX` (R40). -/
def hasFlashByte (p : DeviceProfile) (a : Word) : Bool := decide (a ≤ p.flashMax)

/-- A whole flash word exists. -/
def hasFlashWord (p : DeviceProfile) (a : Word) : Bool := decide (a.toNat + 3 ≤ p.flashMax.toNat)

/-- The length of `obuf`, which exists only when `HAS_OVERWRITE` (R27). -/
def obufBytes (p : DeviceProfile) : Nat := if p.hasOverwrite then p.pageBytes else 0

/-- The number of verify words of a page, `PAGE/4` (R191). -/
def pageWords (p : DeviceProfile) : Nat := p.pageBytes / 4

/-- `ceil(t × CYC_PER_US / CYC_PER_ITER)`: the count of a delay of `t` microseconds (R133). It is taken once,
outside the block, when a profile is made. That `t` is a whole number of microseconds is a DESIGN CHOICE (log 41). -/
def delayCount (p : DeviceProfile) (t : Nat) : Nat :=
  (t * p.cycPerUsNum + (p.cycPerUsDen * p.cycPerIter - 1)) / (p.cycPerUsDen * p.cycPerIter)

/-- The width of the main program pulse of attempt `n` (R199). -/
def pulseWidth (p : DeviceProfile) (n : Word) : Word :=
  if n ≤ p.overwriteCount then p.delays.pShort else p.delays.pLong

/-- Whether attempt `n` carries the overwrite pass: `HAS_OVERWRITE and n ≤ OVERWRITE_COUNT` (R195, R198). -/
def overwritePass (p : DeviceProfile) (n : Word) : Bool := p.hasOverwrite && decide (n ≤ p.overwriteCount)

end DeviceProfile

end Sys2Proof
end

