-- ==== Sys2Proof/WellFormed.lean ====
section
/-! DEFINITION. Well-formed profiles (43_block_table_selector.md R151, 00_scope.md R6, R8; the watchdog constraint
of R146 apart, since 93 U10 says a short interval alone is not refused) and well-formed instructions. -/

namespace Sys2Proof

/-- `TABLE[0] < TABLE[1] < … < TABLE[N]` (R151). -/
def strictlyRising : List Word → Bool
  | a :: b :: l => decide (a < b) && strictlyRising (b :: l)
  | _ => true

/-- The eight bits of `FCR[k]` are eight distinct bits (R33). -/
def RegLayout.wf (l : RegLayout) : Bool := decide [l.status, l.swe, l.esu, l.psu, l.ev, l.pv, l.e, l.p].Nodup

/-- An injective map with `ok ↦ 0` (R94). -/
def StatusEnc.wf (c : StatusEnc) : Bool :=
  decide (c.ok = 0) && decide
    [c.ok, c.badBlock, c.outOfBounds, c.misaligned, c.badLength, c.deviceError, c.eraseVerifyFailed,
      c.programVerifyFatal, c.writeMaxRetries].Nodup

namespace DeviceProfile

/-- The blocks of a bank. -/
def blocksOf (p : DeviceProfile) (k : Bank) : List Nat := (List.range p.blockCount).filter (fun i => p.blockBank i == k)

/-- R151: strictly increasing, `N ≥ 1`, (a), (b) and (c). -/
def tableWf (p : DeviceProfile) : Bool :=
  strictlyRising p.table && decide (2 ≤ p.table.length) && decide (p.tableAt 0 = 0)
    && decide ((p.tableAt p.blockCount).toNat = p.flashMax.toNat + 1)
    && decide ((p.tableAt p.blockCount).toNat ≤ 2 ^ 32 - p.pageBytes)
    && p.table.all (fun a => decide (a.toNat % p.pageBytes = 0))
    && decide (p.bankSplit ∈ p.table)

/-- R151(d), and each block's enable bit is its own within its bank (R153, R34). -/
def ebrWf (p : DeviceProfile) : Bool :=
  [Bank.b0, Bank.b1].all (fun k =>
    decide ((p.blocksOf k).length ≤ 8) && decide ((p.blocksOf k).map p.ebrBit).Nodup)
    && (List.range p.blockCount).all (fun i => decide (p.ebrBit i < 8))

/-- The positive parameters (R6, R8), and `CYC_PER_US = F_CLK / 10^6` (R133). -/
def clockWf (p : DeviceProfile) : Bool :=
  decide (0 < p.fClk) && decide (0 < p.cycPerUsNum) && decide (0 < p.cycPerUsDen) && decide (0 < p.cycPerIter)
    && decide (p.cycPerUsNum * 10 ^ 6 = p.fClk * p.cycPerUsDen)

/-- A profile the model is defined for (R151; 93 U10). -/
def wf (p : DeviceProfile) : Bool := p.tableWf && p.ebrWf && p.clockWf && p.regLayout.wf && p.statusEnc.wf

/-- The longest legitimate guarded erase body, in clock cycles (R146). -/
def eraseBodyCycles (p : DeviceProfile) : Nat :=
  p.cycPerIter * (p.delays.esuSetup.toNat + p.delays.ePulse.toNat + p.delays.eHold.toNat + p.delays.esuHold.toNat)
    + p.guardOverheadMax

/-- The longest legitimate guarded program body, in clock cycles (R146). -/
def programBodyCycles (p : DeviceProfile) : Nat :=
  p.cycPerIter * (p.delays.psuSetup.toNat
    + max (max p.delays.pShort.toNat p.delays.pLong.toNat) p.delays.pAdd.toNat
    + p.delays.pHold.toNat + p.delays.psuHold.toNat)
    + p.guardOverheadMax

/-- The profile constraint of R146. -/
def guardWf (p : DeviceProfile) : Bool :=
  decide (p.eraseBodyCycles < p.wdtInterval p.wdtDivErase)
    && decide (p.programBodyCycles < p.wdtInterval p.wdtDivProgram)

end DeviceProfile

/-- Well-formed operands: a flash word address is a multiple of 4 (R115, R116), so is a scan's first address
(R61, R172), and a page holds at most 32 verify words (R191). Every other operand admits every value (R92, R95). -/
def Instr.wf : Instr → Bool
  | .flashWrite32 a _ => decide (a.toNat % 4 = 0)
  | .flashRead32 a => decide (a.toNat % 4 = 0)
  | .eraseVerify _ start _ => decide (start.toNat % 4 = 0)
  | .verifyWord _ j _ => decide (j < 32)
  | .init | .unprotect | .eraseBlock _ | .writeRange _ _ _ | .regRead _ | .regWrite _ _ | .flashWrite8 _ _
  | .srcRead8 _ | .waitOp _ | .wdtStop | .wdtStart _ | .irqMask | .irqRestore | .bitSet _ _ | .bitClr _ _
  | .srcWord _ | .precond | .waitProc _ | .scopedGuard _ _ | .guardAcquire _ | .guardRelease | .resolveBlock _
  | .selectBlock _ | .resolveAddressRange _ _ | .validateRange _ _ | .pageLoop | .erasePulse _ | .writePage _ _
  | .programPulse _ _ | .systemReset => true

end Sys2Proof
end

