-- ==== Sys2Proof/Decode.lean ====
section
/-! DEFINITION. The decoder and the encoder. Command words: 98 bits, R91 to R95, a total map. Micro-operation
words: the 4-bit event code of R96 with operand words of the model's own (log 4), since the spec gives
micro-operations no operand encoding and the host cannot issue one. -/

namespace Sys2Proof

/-- Which port a word stands at: the command port (R90) or the model's own micro-operation word (log 4). -/
inductive Space where
  | command
  | micro
deriving DecidableEq, Repr

/-- Why a word is no instruction. -/
inductive DecodeError where
  /-- A command word has 98 bits and no more (R91). -/
  | bitsAboveCommand
  /-- Event codes `0xB` to `0xF` are unused (R96). -/
  | unusedEventCode
  /-- A bit of a micro-operation word that the operation does not use is set (log 4). -/
  | reservedBits
  /-- The register space has four registers (R110). -/
  | noSuchRegister
deriving DecidableEq, Repr

/-! ### Command words -/

/-- `cmd_word[97:96]` (R91). -/
def cmdOp (w : BitVec 98) : BitVec 2 := w.extractLsb' 96 2

/-- `cmd_word[95:64]` (R91). -/
def cmdA (w : BitVec 98) : Word := w.extractLsb' 64 32

/-- `cmd_word[63:32]` (R91). -/
def cmdB (w : BitVec 98) : Word := w.extractLsb' 32 32

/-- `cmd_word[31:0]` (R91). -/
def cmdC (w : BitVec 98) : Word := w.extractLsb' 0 32

/-- The command decoder: total, and it needs `op` and nothing else to know the command (R93, R95). -/
def decodeCommand (w : BitVec 98) : Instr :=
  if cmdOp w = 0#2 then .init
  else if cmdOp w = 1#2 then .unprotect
  else if cmdOp w = 2#2 then .eraseBlock (cmdA w)
  else .writeRange (cmdA w) (cmdB w) (cmdC w)

/-- A command word from its fields (R91). -/
def commandWord (op : BitVec 2) (a b c : Word) : BitVec 98 := op ++ a ++ b ++ c

/-! ### Micro-operation words (the model's own layout, log 4)

Bits 3:0 the event code of R96, bits 7:4 zero, bits 39:8 the operand X, bits 71:40 the operand Y. -/

/-- Event code. -/
def microCode (w : BitVec 72) : BitVec 4 := w.extractLsb' 0 4

/-- Bits 7:4. -/
def microPad (w : BitVec 72) : BitVec 4 := w.extractLsb' 4 4

/-- Operand X. -/
def microX (w : BitVec 72) : Word := w.extractLsb' 8 32

/-- Operand Y. -/
def microY (w : BitVec 72) : Word := w.extractLsb' 40 32

/-- A micro-operation word from its fields. -/
def microWord (code : BitVec 4) (x y : Word) : BitVec 72 := y ++ x ++ 0#4 ++ code

/-- Register numbers of operand X: `FCR[0]`, `FCR[1]`, `EBR[0]`, `EBR[1]` in the order of R110. -/
def regOfNumber (x : Word) : Option Reg :=
  if x = 0 then some (.fcr .b0)
  else if x = 1 then some (.fcr .b1)
  else if x = 2 then some (.ebr .b0)
  else if x = 3 then some (.ebr .b1)
  else none

/-- The number of a register. -/
def Reg.number : Reg → Word
  | .fcr .b0 => 0
  | .fcr .b1 => 1
  | .ebr .b0 => 2
  | .ebr .b1 => 3

/-- A word whose operand Y is unused. -/
def onlyX (w : BitVec 72) (i : Instr) : Except DecodeError Instr :=
  if microY w = 0 then .ok i else .error .reservedBits

/-- A word with no operand. -/
def noOperand (w : BitVec 72) (i : Instr) : Except DecodeError Instr :=
  if microX w = 0 ∧ microY w = 0 then .ok i else .error .reservedBits

/-- `RegRead` and `RegWrite` words. -/
def decodeRegRead (w : BitVec 72) : Except DecodeError Instr :=
  match regOfNumber (microX w) with
  | some r => onlyX w (.regRead r)
  | none => .error .noSuchRegister

/-- See `decodeRegRead`. -/
def decodeRegWrite (w : BitVec 72) : Except DecodeError Instr :=
  match regOfNumber (microX w) with
  | some r => if (microY w).toNat < 256 then .ok (.regWrite r ((microY w).setWidth 8)) else .error .reservedBits
  | none => .error .noSuchRegister

/-- `FlashWrite8` words. -/
def decodeFlashWrite8 (w : BitVec 72) : Except DecodeError Instr :=
  if (microY w).toNat < 256 then .ok (.flashWrite8 (microX w) ((microY w).setWidth 8)) else .error .reservedBits

/-- The micro-operation decoder, by the event codes of R96; codes `0xB` to `0xF` are unused. -/
def decodeMicro (w : BitVec 72) : Except DecodeError Instr :=
  if microPad w ≠ 0 then .error .reservedBits
  else if microCode w = 0x0#4 then decodeRegRead w
  else if microCode w = 0x1#4 then decodeRegWrite w
  else if microCode w = 0x2#4 then decodeFlashWrite8 w
  else if microCode w = 0x3#4 then .ok (.flashWrite32 (microX w) (microY w))
  else if microCode w = 0x4#4 then onlyX w (.flashRead32 (microX w))
  else if microCode w = 0x5#4 then onlyX w (.srcRead8 (microX w))
  else if microCode w = 0x6#4 then onlyX w (.waitOp (microX w))
  else if microCode w = 0x7#4 then noOperand w .wdtStop
  else if microCode w = 0x8#4 then onlyX w (.wdtStart (microX w))
  else if microCode w = 0x9#4 then noOperand w .irqMask
  else if microCode w = 0xA#4 then noOperand w .irqRestore
  else .error .unusedEventCode

/-- The decoder, total on any number of any width at either port. -/
def decode (sp : Space) (w : Nat) : Except DecodeError Instr :=
  match sp with
  | .command => if w < 2 ^ 98 then .ok (decodeCommand (BitVec.ofNat 98 w)) else .error .bitsAboveCommand
  | .micro => if w < 2 ^ 72 then decodeMicro (BitVec.ofNat 72 w) else .error .reservedBits

/-- The bytes of a word as they are numbered in opcode_table.json: byte 0 holds bits 7:0. -/
def bytesToNat : List Byte → Nat
  | [] => 0
  | b :: l => b.toNat + 256 * bytesToNat l

/-- The decoder on bytes. -/
def decodeBytes (sp : Space) (l : List Byte) : Except DecodeError Instr := decode sp (bytesToNat l)

/-- The instruction the decoder reads from a row of opcode_table.json: the four 98-bit command rows at the command
port, the 4-bit event-code rows (with operand words of zeros) at the micro-operation word. -/
def decodeTableWord (nbits w : Nat) : Option Instr :=
  if nbits ≤ 8 then (decode .micro w).toOption else (decode .command w).toOption

/-! ### The encoder -/

/-- The command word of an instruction, unused operand fields zero (R91, R93). -/
def encodeCommand : Instr → Option (BitVec 98)
  | .init => some (commandWord 0#2 0 0 0)
  | .unprotect => some (commandWord 1#2 0 0 0)
  | .eraseBlock index => some (commandWord 2#2 index 0 0)
  | .writeRange dest src len => some (commandWord 3#2 dest src len)
  | .regRead _ | .regWrite _ _ | .flashWrite8 _ _ | .flashWrite32 _ _ | .flashRead32 _ | .srcRead8 _ | .waitOp _
  | .wdtStop | .wdtStart _ | .irqMask | .irqRestore | .bitSet _ _ | .bitClr _ _ | .srcWord _ | .precond
  | .waitProc _ | .scopedGuard _ _ | .guardAcquire _ | .guardRelease | .resolveBlock _ | .selectBlock _
  | .resolveAddressRange _ _ | .validateRange _ _ | .pageLoop | .erasePulse _ | .eraseVerify _ _ _
  | .writePage _ _ | .programPulse _ _ | .verifyWord _ _ _ | .systemReset => none

/-- The micro-operation word of an instruction. -/
def encodeMicro : Instr → Option (BitVec 72)
  | .regRead r => some (microWord 0x0 r.number 0)
  | .regWrite r v => some (microWord 0x1 r.number (v.setWidth 32))
  | .flashWrite8 a v => some (microWord 0x2 a (v.setWidth 32))
  | .flashWrite32 a v => some (microWord 0x3 a v)
  | .flashRead32 a => some (microWord 0x4 a 0)
  | .srcRead8 a => some (microWord 0x5 a 0)
  | .waitOp c => some (microWord 0x6 c 0)
  | .wdtStop => some (microWord 0x7 0 0)
  | .wdtStart d => some (microWord 0x8 d 0)
  | .irqMask => some (microWord 0x9 0 0)
  | .irqRestore => some (microWord 0xA 0 0)
  | .init | .unprotect | .eraseBlock _ | .writeRange _ _ _ | .bitSet _ _ | .bitClr _ _ | .srcWord _ | .precond
  | .waitProc _ | .scopedGuard _ _ | .guardAcquire _ | .guardRelease | .resolveBlock _ | .selectBlock _
  | .resolveAddressRange _ _ | .validateRange _ _ | .pageLoop | .erasePulse _ | .eraseVerify _ _ _
  | .writePage _ _ | .programPulse _ _ | .verifyWord _ _ _ | .systemReset => none

/-- The word of an instruction and the port it stands at; the internal procedures have no encoding (R97). -/
def encode (i : Instr) : Option (Space × Nat) :=
  match encodeCommand i with
  | some w => some (.command, w.toNat)
  | none =>
    match encodeMicro i with
    | some w => some (.micro, w.toNat)
    | none => none

end Sys2Proof
end

