-- ==== Sys2Proof/Machine/Memory.lean ====
section
/-! DEFINITION. A byte-addressed space as a list of (address, byte) pairs in one canonical form: addresses strictly
rising, and no entry equal to what an unlisted address reads as. Big-endian words (20_memory.md R60). -/

namespace Sys2Proof.Machine

/-- A byte-addressed space, or the page latch of the flash macro (a partial map, R81). -/
abbrev Memory := List Host.Cell

/-- What an unlisted address reads as: 0xFF, the erased value. DESIGN CHOICE (log 11). -/
def Memory.blank : Byte := 0xFF#8

/-- The entry of an address. -/
def Memory.find : Memory → Nat → Option Byte
  | [], _ => none
  | (b, x) :: m, a => if a = b then some x else Memory.find m a

/-- The byte at an address. -/
def Memory.read (m : Memory) (a : Nat) : Byte := (m.find a).getD Memory.blank

/-- Set the entry of an address, in its place in the rising order. -/
def Memory.insert : Memory → Nat → Byte → Memory
  | [], a, v => [(a, v)]
  | (b, x) :: m, a, v =>
    if a < b then (a, v) :: (b, x) :: m
    else if a = b then (a, v) :: m
    else (b, x) :: Memory.insert m a v

/-- Remove the entry of an address. -/
def Memory.erase : Memory → Nat → Memory
  | [], _ => []
  | (b, x) :: m, a => if a = b then m else (b, x) :: Memory.erase m a

/-- Write a byte, keeping the canonical form. -/
def Memory.write (m : Memory) (a : Nat) (v : Byte) : Memory := if v = Memory.blank then m.erase a else m.insert a v

/-- Write `n` bytes from address `a` on, each from its address. -/
def Memory.fill (f : Nat → Byte) : Memory → Nat → Nat → Memory
  | m, _, 0 => m
  | m, a, n + 1 => Memory.fill f (m.write a (f a)) (a + 1) n

/-- Write a 32-bit word, its most significant byte at the lowest address (R60). -/
def Memory.writeWord (m : Memory) (a : Nat) (v : Word) : Memory :=
  (((m.write a (v.extractLsb' 24 8)).write (a + 1) (v.extractLsb' 16 8)).write (a + 2) (v.extractLsb' 8 8)).write
    (a + 3) (v.extractLsb' 0 8)

/-- `byte(a) ++ byte(a+1) ++ byte(a+2) ++ byte(a+3)` (R60). -/
def Memory.word (m : Memory) (a : Nat) : Word := m.read a ++ m.read (a + 1) ++ m.read (a + 2) ++ m.read (a + 3)

/-- Addresses strictly rise. -/
def Memory.rising : Memory → Bool
  | (a, _) :: (b, y) :: m => decide (a < b) && Memory.rising ((b, y) :: m)
  | _ => true

/-- The canonical form. -/
def Memory.wf (m : Memory) : Bool := m.rising && m.all (fun c => decide (c.2 ≠ Memory.blank))

end Sys2Proof.Machine
end

