-- ==== Sys2Proof/Machine/State.lean ====
section
/-! DEFINITION. State as plain data: everything 10_state.md gives the block and its environment, and the model's
own bookkeeping; the reasons a step can stop; the state after reset (10_state.md R48). -/

namespace Sys2Proof.Machine

/-- An event of the trace (R47, R96): one micro-operation, its operands and, for reads, the value returned. -/
inductive Event where
  | rr (r : Reg) (v : Byte)
  | rw (r : Reg) (v : Byte)
  | fw8 (a : Word) (v : Byte)
  | fw32 (a : Word) (v : Word)
  | fr32 (a : Word) (v : Word)
  | sr8 (a : Word) (v : Byte)
  | wait (c : Word)
  | wdtStop
  | wdtStart (d : Divisor)
  | irqMask
  | irqRestore
deriving DecidableEq, Repr

/-- The values of the state register `st` as the spec names them: `Idle` and `Validate` (R24), the erase engine's
(R25) and the write engine's (R26). -/
inductive St where
  | idle
  | validate
  | enabled
  | eraseArmed
  | pulsing
  | settling
  | verifying
  | retryErase
  | success
  | failed
  | wPrecheck
  | wCopy
  | wEnabled
  | latching
  | programArmed
  | progPulsing
  | progSettling
  | progVerifying
  | ovwLatching
  | ovwArmed
  | ovwPulsing
  | ovwSettling
  | retryWrite
  | wSuccess
  | wFatal
  | wFailed
  | nextPage
deriving DecidableEq, Repr

/-- A stretch of the pseudocode of files 45 to 47: the sequencer's place, finer than `St` (log 21). `e` is the
erase engine, `w` the write engine, `o` its overwrite pass, `g` the gate. -/
inductive Seg where
  | idle
  | validate
  | gInit
  | ePre
  | eSwe
  | eEnabled
  | eSelect
  | eArm
  | eArmed
  | ePulse
  | eSettle
  | evEnter
  | evWord
  | evExit
  | eRetry
  | eDone
  | eFail
  | wPre
  | wCopy
  | wSwe
  | wLatch
  | wArm
  | wPulse
  | wSettle
  | pvEnter
  | pvWord
  | pvExit
  | oLatch
  | oArm
  | oPulse
  | oSettle
  | wRetry
  | wDone
  | wFatal
  | wFail
  | nextPage
deriving DecidableEq, Repr

/-- The command in progress. -/
inductive Op where
  | init
  | unprotect
  | eraseBlock
  | writeRange
deriving DecidableEq, Repr

/-- The host's side of the ports (R49). -/
structure Port where
  /-- `cmd_valid` is 1 and `cmd_word` is the head while this is not empty; the rest is issued after it -/
  cmds : List (BitVec 98)
  rspValid : Bool
  /-- `status`, driven as `rsp_status` (R32) -/
  status : BitVec 4
  /-- the `reset` input -/
  resetPin : Bool
  /-- a micro-operation word placed from outside the machine; no step ever sets it (log 3) -/
  uword : Option (BitVec 72)
deriving DecidableEq, Repr

/-- The sequencer's place: `st` of R24 is `State.st`, computed from the stretch and the position in it. -/
structure Seq where
  op : Op
  seg : Seg
  pos : Nat
deriving DecidableEq, Repr

/-- The operand registers (R22). -/
structure Operands where
  index : Word
  dest : Word
  src : Word
  len : Word
deriving DecidableEq, Repr

/-- The PulseContext registers (R23, R27, R30). -/
structure PulseContext where
  bank : Bank
  blkStart : Word
  blkEnd : Word
  pgDest : Word
  pgSrc : Word
  vaddr : Word
  n : Word
  m : Bool
  rbuf : List Byte
  obuf : List Byte
deriving DecidableEq, Repr

/-- The local variables and results of the pseudocode (log 23). -/
structure Locals where
  /-- value of the last `RegRead` -/
  rd : Byte
  /-- value of the `RegRead` before it (`a` of `Precond`) -/
  rdPrev : Byte
  /-- value of the last `FlashRead32` (`v`) -/
  fword : Word
  /-- value of the last `SrcRead8` -/
  sbyte : Byte
  /-- the source word (`s`) -/
  sword : Word
  /-- the word index of the verify loop -/
  j : Nat
  /-- a procedure's boolean result (`Precond`; `pass` of `EraseVerify`) -/
  flag : Bool
  /-- a procedure's status result; of `VerifyWord`, `ok` for continue -/
  result : Status
deriving DecidableEq, Repr

/-- The interrupt mask and the block's copy of it (R31). -/
structure Irq where
  mask : Bool
  saved : Bool
deriving DecidableEq, Repr

/-- `FCR[k]` (its read-only status bit stored as 0) and `EBR[k]` (R33, R34). -/
structure FlashRegs where
  fcr0 : Byte
  fcr1 : Byte
  ebr0 : Byte
  ebr1 : Byte
deriving DecidableEq, Repr

/-- The watchdog (R36). `cnt` counts the delay iterations begun since the last start, while it runs (R143, log 20). -/
structure Watchdog where
  run : Bool
  div : Divisor
  rste : Bool
  cnt : Nat
deriving DecidableEq, Repr

/-- What the environment gives at the reads of one input: the scripted values first, then a held level, or with
none a free value at each read. -/
structure Feed (α : Type) where
  queue : List α
  held : Option α
deriving DecidableEq, Repr

/-- The oracle of R80, or the deterministic reference environment of R81. -/
inductive EnvMode where
  | oracle
  | reference
deriving DecidableEq, Repr

/-- A word armed for read-back by its probe write, and the delay iterations waited in all when it was (R64, R268). -/
structure Probe where
  addr : Word
  since : Nat
deriving DecidableEq, Repr

/-- What the macro's verify reads depend on beside the cells (log 34, log 35). -/
structure VerifyView where
  /-- the words armed since the last reset, the latest probe of a word alone (R64, R268) -/
  probes : List Probe
  /-- the delay iterations waited since the last reset, against which a read delay is measured (R268) -/
  waited : Nat
  /-- the address ranges (first, one past the last) the last pulse that ended worked on (R46, R70) -/
  pulsed : List (Nat × Nat)
deriving DecidableEq, Repr

/-- The flash macro, the source memory and the status inputs (R35, R41, R44, R46, R80). -/
structure Env where
  mode : EnvMode
  cells : Memory
  latch : Memory
  view : VerifyView
  source : Memory
  answers : Feed Word
  fwe : Feed Bool
  fler : Feed Bool
deriving DecidableEq, Repr

/-- The machine. -/
structure State where
  profile : DeviceProfile
  port : Port
  seq : Seq
  opr : Operands
  ctx : PulseContext
  loc : Locals
  dlyCnt : Word
  armed : Bool
  irq : Irq
  regs : FlashRegs
  wdt : Watchdog
  env : Env
  trace : List Event
  /-- the counter the free values are applied to: one tick a micro-operation (log 32) -/
  moment : Nat
deriving DecidableEq, Repr

/-- Why the machine stops with a fault. -/
inductive Fault where
  /-- The watchdog overflowed inside a guard scope and reset the system (R240: a fault outcome, never a final
  state). Raised by any micro-operation made while the watchdog runs. It carries the state the reset leaves, from
  which the system goes on. Safe. -/
  | watchdogReset (after : State)
  /-- A flash micro-operation at an address above `FLASH_MAX`: the flash space ends there (R40, R164). Raised by
  `FlashWrite8`, `FlashWrite32`, `FlashRead32`. Safe. -/
  | noSuchFlashAddress (a : Word)
  /-- A 32-bit flash micro-operation at an address that is no multiple of 4, which cannot occur (R61, R62). Raised
  by `FlashWrite32`, `FlashRead32`. Safe. -/
  | misalignedFlashWord (a : Word)
deriving DecidableEq, Repr

/-- Why the model gives no meaning. -/
inductive Refusal where
  /-- An instruction that has no meaning yet: raised by the dispatch only. Safe. -/
  | notModelled (mnemonic : String)
  /-- A command under a profile that is not well-formed: the model refuses it (R151; 93 U10). Raised by the four
  commands. Safe. -/
  | illFormedProfile
  /-- `write_page` of a page above `FLASH_MAX`: the model refuses it (R164, R276; 93 U6). Raised by `write_page` and
  what calls it. Safe. -/
  | rangeOverrun (dest : Word)
  /-- A command issued while one runs: no meaning given (R270; 93 U7). Raised by `exec` of the four commands; on the
  command port it cannot happen. Safe. -/
  | commandWhileBusy
  /-- `SelectBlock` of an index that names no block: `EBR_BIT` has no value there (R153). Safe. -/
  | noSuchBlock (index : Word)
  /-- `VerifyWord` of a word the page does not have (R191, R193). Safe. -/
  | noSuchPageWord (j : Nat)
  /-- The word at the model's own micro-operation port is no micro-operation (log 4). Raised by the step. Safe. -/
  | reservedMicroWord (e : DecodeError)
deriving DecidableEq, Repr

/-- The outcome of an operation. -/
abbrev Res := Host.Outcome State Fault Refusal

/-- An input nothing is said of: every read takes any value. -/
def Feed.free (α : Type) : Feed α := { queue := [], held := none }

/-- The environment before anything is known of it: an oracle, inputs at any value (R48, R80), nothing listed in
the flash and source spaces (log 11), an empty latch (log 13), no word armed and no pulse ended (log 34, log 35). -/
def Env.unknown : Env :=
  { mode := .oracle, cells := [], latch := [], view := { probes := [], waited := 0, pulsed := [] }, source := [],
    answers := .free Word, fwe := .free Bool, fler := .free Bool }

/-- The state after any reset (R48, R260), for a profile, an environment and a moment. Registers without a reset
value hold the values that log 8 and log 9 name. -/
def State.afterReset (p : DeviceProfile) (env : Env) (moment : Nat) : State :=
  { profile := p
    port := { cmds := [], rspValid := false, status := 0, resetPin := false, uword := none }
    seq := { op := .init, seg := .idle, pos := 0 }
    opr := { index := 0, dest := 0, src := 0, len := 0 }
    ctx := { bank := .b0, blkStart := 0, blkEnd := 0, pgDest := 0, pgSrc := 0, vaddr := 0, n := 0, m := false,
             rbuf := List.replicate p.pageBytes 0, obuf := List.replicate p.obufBytes 0 }
    loc := { rd := 0, rdPrev := 0, fword := 0, sbyte := 0, sword := 0, j := 0, flag := false, result := .ok }
    dlyCnt := 0
    armed := false
    irq := { mask := false, saved := false }
    regs := { fcr0 := 0, fcr1 := 0, ebr0 := 0, ebr1 := 0 }
    wdt := { run := false, div := 0, rste := false, cnt := 0 }
    env := env
    trace := []
    moment := moment }

/-- The machine right after reset. -/
def State.reset : State := State.afterReset Config.bootProfile Env.unknown 0

end Sys2Proof.Machine
end

