-- ==== Sys2Proof/Machine/Ops.lean ====
section
/-! DEFINITION. The named operations over registers, memory and the environment: sequencing of outcomes, the
register accessors, the pulse's effect on the cells, the system reset (the one event that stands for an exception,
60_exceptions.md R240), the watchdog's overflow (42_watchdog_guard_fsm.md R143), and the eleven micro-operations
(40_micro_operations.md, 41_calibrated_delay_timer.md R130). -/

namespace Sys2Proof.Machine

/-- Perform one operation and then another (R67: each completes before the next begins). -/
def andThen (r : Res) (f : State → Res) : Res :=
  match r with
  | .next s => f s
  | .fault e => .fault e
  | .refused e => .refused e

/-! ### Registers -/

/-- `FCR[k]` as stored: its read-only status bit is 0. -/
def State.fcr (s : State) : Bank → Byte
  | .b0 => s.regs.fcr0
  | .b1 => s.regs.fcr1

/-- `EBR[k]` (R34). -/
def State.ebr (s : State) : Bank → Byte
  | .b0 => s.regs.ebr0
  | .b1 => s.regs.ebr1

/-- Store `FCR[k]`. -/
def FlashRegs.setFcr (r : FlashRegs) (k : Bank) (v : Byte) : FlashRegs :=
  match k with
  | .b0 => { r with fcr0 := v }
  | .b1 => { r with fcr1 := v }

/-- Store `EBR[k]`. -/
def FlashRegs.setEbr (r : FlashRegs) (k : Bank) (v : Byte) : FlashRegs :=
  match k with
  | .b0 => { r with ebr0 := v }
  | .b1 => { r with ebr1 := v }

/-- One control bit of `FCR[k]` (R33). -/
def State.bit (s : State) (k : Bank) (f : Field) : Bool := (s.fcr k).getLsbD (s.profile.regLayout.bit f).val

/-- The value of an input at one read. -/
def Feed.now {α : Type} (f : Feed α) (free : α) : α :=
  match f.queue with
  | v :: _ => v
  | [] => f.held.getD free

/-- The input after one read. -/
def Feed.later {α : Type} (f : Feed α) : Feed α := { f with queue := f.queue.tail }

/-- The level of the status input that bit 7 of `FCR[k]` shows: `FWE` in bank 0, `FLER` in bank 1 (R33, R35, D6). -/
def State.statusInput (s : State) : Bank → Bool
  | .b0 => s.env.fwe.now (Config.freeFwe s.moment)
  | .b1 => s.env.fler.now (Config.freeFler s.moment)

/-- What `RegRead(r)` returns (R110): for `FCR[k]` the last value written, with the status input in its bit. -/
def State.content (s : State) : Reg → Byte
  | .fcr k =>
    (s.fcr k &&& ~~~s.profile.regLayout.statusMask)
      ||| (if s.statusInput k then s.profile.regLayout.statusMask else 0)
  | .ebr k => s.ebr k

/-- The environment after `RegRead(r)`: one read of the status input of `FCR[k]`. -/
def Env.afterRead (e : Env) : Reg → Env
  | .fcr .b0 => { e with fwe := e.fwe.later }
  | .fcr .b1 => { e with fler := e.fler.later }
  | .ebr _ => e

/-! ### The flash macro (20_memory.md R80, R81) -/

/-- Whether the block-enable bit of block `i` is set (R34). -/
def State.selected (s : State) (i : Nat) : Bool := (s.ebr (s.profile.blockBank i)).getLsbD (s.profile.ebrBit i)

/-- Give every cell of block `i` a value. -/
def State.fillBlock (s : State) (f : Nat → Byte) (m : Memory) (i : Nat) : Memory :=
  m.fill f (s.profile.tableAt i).toNat ((s.profile.tableAt (i + 1)).toNat - (s.profile.tableAt i).toNat)

/-- Give every cell of every selected block a value. -/
def State.fillSelected (s : State) (f : Nat → Byte) (m : Memory) : Memory :=
  ((List.range s.profile.blockCount).filter s.selected).foldl (s.fillBlock f) m

/-- Give every latched cell a value, from the cell's address and the byte latched for it. -/
def fillLatched (f : Nat → Byte → Byte) (latch : Memory) (m : Memory) : Memory :=
  latch.foldl (fun m c => m.write c.1 (f c.1 c.2)) m

/-- What an erased cell holds: 0xFF in the reference environment (R81), any value for the oracle (93 U5, log 12). -/
def State.erasedCell (s : State) (a : Nat) : Byte :=
  match s.env.mode with
  | .reference => 0xFF#8
  | .oracle => Config.freeCell s.moment a

/-- What a programmed cell holds: `cell[a] & latch[a]` in the reference environment (R81), any value for the oracle. -/
def State.programmedCell (s : State) (m : Memory) (a : Nat) (v : Byte) : Byte :=
  match s.env.mode with
  | .reference => m.read a &&& v
  | .oracle => Config.freeCell s.moment a

/-- Whether writing `v` to `FCR[k]` makes a control bit fall from 1 to 0 (R81). -/
def State.falls (s : State) (k : Bank) (v : Byte) (f : Field) : Bool :=
  s.bit k f && !v.getLsbD (s.profile.regLayout.bit f).val

/-- The end of an erase pulse: `E` falls (R81). -/
def State.eraseEnd (s : State) (k : Bank) (v : Byte) (m : Memory) : Memory :=
  if s.falls k v .e then s.fillSelected s.erasedCell m else m

/-- The end of a program pulse: `P` falls (R81). -/
def State.programEnd (s : State) (k : Bank) (v : Byte) (m : Memory) : Memory :=
  if s.falls k v .p then fillLatched (s.programmedCell m) s.env.latch m else m

/-- The address ranges of the selected blocks: what an erase pulse works on (R34). -/
def State.selectedRanges (s : State) : List (Nat × Nat) :=
  ((List.range s.profile.blockCount).filter s.selected).map
    (fun i => ((s.profile.tableAt i).toNat, (s.profile.tableAt (i + 1)).toNat))

/-- The address ranges of the latched cells: what a program pulse works on (R44). -/
def latchedRanges (latch : Memory) : List (Nat × Nat) := latch.map (fun c => (c.1, c.1 + 1))

/-- The ranges of the last pulse that ended, after a write of `v` to `FCR[k]` (R46, R70; log 35). -/
def State.pulsedAfter (s : State) (k : Bank) (v : Byte) : List (Nat × Nat) :=
  if s.falls k v .e || s.falls k v .p then
    (if s.falls k v .e then s.selectedRanges else []) ++ (if s.falls k v .p then latchedRanges s.env.latch else [])
  else s.env.view.pulsed

/-- The environment after a write of `v` to `FCR[k]`: a pulse that ends changes cells, and a program pulse empties
the latch (R81; log 13). Where one write ends both pulses the erase comes first: DESIGN CHOICE (log 36), the spec gives
no order and the block never holds both (R33). -/
def State.envAfterFcr (s : State) (k : Bank) (v : Byte) : Env :=
  { s.env with
    cells := s.programEnd k v (s.eraseEnd k v s.env.cells)
    latch := if s.falls k v .p then [] else s.env.latch
    view := { s.env.view with pulsed := s.pulsedAfter k v } }

/-- Whether the macro is in a verify mode at an address: `EV` or `PV` set in the bank that controls it (R81, R152,
log 24). -/
def State.verifying (s : State) (a : Word) : Bool := s.bit (s.profile.bankOf a) .ev || s.bit (s.profile.bankOf a) .pv

/-- Whether a byte write at an address loads the latch: `SWE=1, PV=0, EV=0` (R81, log 24). R81 says so of the reference
environment; that the oracle's latch is loaded under the same condition is a DESIGN CHOICE (log 40): R64 names `SWE=1`
alone, and R44 and R114 no condition. -/
def State.latching (s : State) (a : Word) : Bool := s.bit (s.profile.bankOf a) .swe && !s.verifying a

/-- The read delay a verify read at an address needs after its probe: `T_EV_READ` or `T_PV_READ` (R172, R193, R268). -/
def State.readDelay (s : State) (a : Word) : Nat :=
  max (if s.bit (s.profile.bankOf a) .ev then s.profile.delays.evRead.toNat else 0)
    (if s.bit (s.profile.bankOf a) .pv then s.profile.delays.pvRead.toNat else 0)

/-- The iterations waited in all when an address was armed, if it was. -/
def VerifyView.probedAt (w : VerifyView) (a : Word) : Option Nat :=
  (w.probes.find? (fun q => decide (q.addr = a))).map Probe.since

/-- Whether a verify read has its probe: the probe write to the same address, and the verify bit (R64, R81, R268). -/
def State.probed (s : State) (a : Word) : Bool := s.verifying a && (s.env.view.probedAt a).isSome

/-- Whether a verify read is meaningful: the probe write to the same address, the read delay, the verify bit (R268). -/
def State.meaningful (s : State) (a : Word) : Bool :=
  s.verifying a && (s.env.view.probedAt a).any (fun n => decide (n + s.readDelay a ≤ s.env.view.waited))

/-- Whether the last pulse that ended worked on an address. -/
def VerifyView.covers (w : VerifyView) (a : Nat) : Bool := w.pulsed.any (fun r => decide (r.1 ≤ a) && decide (a < r.2))

/-- Whether the last pulse that ended worked on all four bytes of a word. -/
def VerifyView.coversWord (w : VerifyView) (a : Nat) : Bool :=
  w.covers a && w.covers (a + 1) && w.covers (a + 2) && w.covers (a + 3)

/-- What the oracle answers where its script gives nothing: for a word the last pulse worked on, what that pulse left
(R46, R70); for any other word, any value (R80; log 35). -/
def State.unscripted (s : State) (a : Word) : Word :=
  if s.env.view.coversWord a.toNat then s.env.cells.word a.toNat else Config.freeReadback s.moment

/-- The answer to `FlashRead32(a)`. In the reference environment a read with a verify bit set returns the cells (R81), but
for a read without its probe (93 U16); under the oracle a meaningful read gets the oracle's next answer (R80, R268). Any
other read gets any value (R268; 93 U15, U16; log 14). -/
def State.readBack (s : State) (a : Word) : Word :=
  match s.env.mode with
  | .reference => if s.probed a then s.env.cells.word a.toNat else Config.freeReadback s.moment
  | .oracle => if s.meaningful a then s.env.answers.now (s.unscripted a) else Config.freeReadback s.moment

/-- The environment after `FlashRead32(a)`: a meaningful read takes one answer of the oracle, and the answer is the cell
state as the verify mode shows it (R46, R80; 93 U5; log 35). -/
def State.envAfterReadBack (s : State) (a : Word) : Env :=
  if s.meaningful a && decide (s.env.mode = .oracle) then
    { s.env with
      cells := s.env.cells.writeWord a.toNat (s.readBack a)
      answers := s.env.answers.later }
  else s.env

/-- Arm the read-back of a word: its latest probe alone counts. -/
def VerifyView.probe (w : VerifyView) (a : Word) : VerifyView :=
  { w with probes := { addr := a, since := w.waited } :: w.probes.filter (fun q => decide (q.addr ≠ a)) }

/-- The environment after `FlashWrite32(a, v)`: in a verify mode the probe write of `ONES32` arms the read-back of that
word, and any other value arms none (R64, R268; log 34); no cell and no latch entry changes (R81, R115). Outside a verify
mode it has no effect, in the oracle environment too: DESIGN CHOICE (log 37), the block makes none there (R115). -/
def State.envAfterProbe (s : State) (a v : Word) : Env :=
  if s.verifying a && decide (v = ones32) then { s.env with view := s.env.view.probe a } else s.env

/-- The delay of a `Wait(c)` counts for the words that are armed (R268). -/
def VerifyView.wait (w : VerifyView) (c : Word) : VerifyView := { w with waited := w.waited + c.toNat }

/-! ### System reset (R240, R260, R261) -/

/-- The cells a reset leaves: those of the blocks selected under an erase pulse, and those latched under a program
pulse, at any value (R261, 93 U4; log 28). R261 speaks of the page whose latch was loaded: that of a partly loaded latch
only the bytes that were loaded are at any value, and the page's other bytes are kept, is a DESIGN CHOICE (log 43). -/
def State.cellsAfterReset (s : State) : Memory :=
  let m :=
    if s.bit .b0 .e || s.bit .b1 .e then s.fillSelected (Config.freeCell s.moment) s.env.cells else s.env.cells
  if s.bit .b0 .p || s.bit .b1 .p then fillLatched (fun a _ => Config.freeCell s.moment a) s.env.latch m else m

/-- `SystemReset()`: every register takes its reset value, the command in progress is lost without a status, the
flash keeps its content but for a pulse cut short; the host is reset with the system (log 19). -/
def State.systemReset (s : State) : State :=
  State.afterReset s.profile { s.env with cells := s.cellsAfterReset, latch := [], view := Env.unknown.view }
    (s.moment + 1)

/-! ### Trace and watchdog -/

/-- Append one event (R47) and let one moment pass. -/
def State.emit (s : State) (e : Event) : State := { s with trace := s.trace ++ [e], moment := s.moment + 1 }

/-- The 4-bit event code (R96). -/
def Event.code : Event → BitVec 4
  | .rr _ _ => 0x0
  | .rw _ _ => 0x1
  | .fw8 _ _ => 0x2
  | .fw32 _ _ => 0x3
  | .fr32 _ _ => 0x4
  | .sr8 _ _ => 0x5
  | .wait _ => 0x6
  | .wdtStop => 0x7
  | .wdtStart _ => 0x8
  | .irqMask => 0x9
  | .irqRestore => 0xA

/-- Whether R143 admits an overflow now: the watchdog runs with its reset enabled and
`CYC_PER_ITER × (sum of the counts of the Waits begun so far) + GUARD_OVERHEAD_MAX ≥ WDT_INTERVAL(d)`. R143 says so of a
guarded body; a watchdog that runs outside one is judged by the same inequality: DESIGN CHOICE (log 42). -/
def State.overflowAdmitted (s : State) : Bool :=
  s.wdt.run && s.wdt.rste
    && decide (s.profile.wdtInterval s.wdt.div ≤ s.profile.cycPerIter * s.wdt.cnt + s.profile.guardOverheadMax)

/-- Whether the overflow is certain: the floors of the `Wait`s since the start (R131) reach the interval by themselves, so
the elapsed time does and the watchdog resets the system (R143, R275; log 7). -/
def State.overflowForced (s : State) : Bool :=
  s.wdt.run && s.wdt.rste && s.profile.intervalReached s.wdt.div (s.profile.cycPerIter * s.wdt.cnt)

/-- Whether the watchdog overflows now: where it is certain, and by a free choice wherever R143 admits it (log 7). -/
def State.overflows (s : State) : Bool := s.overflowForced || s.overflowAdmitted && Config.freeOverflow s.moment

/-- The end of a micro-operation: the watchdog may strike before the next one (R240, R143; log 10). -/
def settle (s : State) : Res := if s.overflows then .fault (.watchdogReset s.systemReset) else .next s

/-! ### The micro-operations -/

/-- The state after `RegRead(r)` (R110). -/
def State.regRead (s : State) (r : Reg) : State :=
  { s with loc := { s.loc with rdPrev := s.loc.rd, rd := s.content r }, env := s.env.afterRead r }.emit
    (.rr r (s.content r))

/-- The state after `RegWrite(r, v)` (R111): bit 7 of `FCR[k]` is ignored (log 33), the event records `v` as written.
Whether the macro ignores a write of a control bit or of `EBR` while `SWE = 0` is the macro's business in R111; here
every write takes effect whatever `SWE`: DESIGN CHOICE (log 38). -/
def State.regWrite (s : State) (r : Reg) (v : Byte) : State :=
  match r with
  | .fcr k =>
    { s with
      regs := s.regs.setFcr k (v &&& ~~~s.profile.regLayout.statusMask)
      env := s.envAfterFcr k v }.emit (.rw (.fcr k) v)
  | .ebr k => { s with regs := s.regs.setEbr k v }.emit (.rw (.ebr k) v)

/-- The state after `FlashWrite8(a, v)` (R114): a page-latch transfer. -/
def State.flashWrite8 (s : State) (a : Word) (v : Byte) : State :=
  { s with
    env := if s.latching a then { s.env with latch := s.env.latch.insert a.toNat v } else s.env }.emit (.fw8 a v)

/-- The state after `FlashWrite32(a, v)` (R115): the verify probe. -/
def State.flashWrite32 (s : State) (a : Word) (v : Word) : State :=
  { s with env := s.envAfterProbe a v }.emit (.fw32 a v)

/-- The state after `FlashRead32(a)` (R116). -/
def State.flashRead32 (s : State) (a : Word) : State :=
  { s with loc := { s.loc with fword := s.readBack a }, env := s.envAfterReadBack a }.emit (.fr32 a (s.readBack a))

/-- The byte of the source space at an address (R41). -/
def State.sourceByte (s : State) (a : Word) : Byte := s.env.source.read a.toNat

/-- The state after `SrcRead8(a)` (R117). -/
def State.srcRead8 (s : State) (a : Word) : State :=
  { s with loc := { s.loc with sbyte := s.sourceByte a } }.emit (.sr8 a (s.sourceByte a))

/-- The watchdog while a `Wait(c)` is begun: its count advances with the delay while it runs (R143, R45). -/
def Watchdog.begin (w : Watchdog) (c : Word) : Watchdog := if w.run then { w with cnt := w.cnt + c.toNat } else w

/-- The state after `Wait(c)` (R130): `dly_cnt` was loaded with `c` and has counted down to 0. -/
def State.wait (s : State) (c : Word) : State :=
  { s with dlyCnt := 0, wdt := s.wdt.begin c, env := { s.env with view := s.env.view.wait c } }.emit (.wait c)

/-- The state after `WdtStop()` (R120). -/
def State.wdtStop (s : State) : State := { s with wdt := { s.wdt with run := false } }.emit .wdtStop

/-- The state after `WdtStart(d)` (R121). -/
def State.wdtStart (s : State) (d : Divisor) : State :=
  { s with wdt := { run := true, div := d, rste := true, cnt := 0 } }.emit (.wdtStart d)

/-- The state after `IrqMask()` (R118). -/
def State.irqMask (s : State) : State := { s with irq := { mask := true, saved := s.irq.mask } }.emit .irqMask

/-- The state after `IrqRestore()` (R119): the saved value, not a forced unmask. -/
def State.irqRestore (s : State) : State := { s with irq := { s.irq with mask := s.irq.saved } }.emit .irqRestore

/-- A 32-bit flash access: aligned (R61) and inside the flash space (R40), or a fault (log 15). -/
def flashWordAccess (s : State) (a : Word) (done : State) : Res :=
  if a.toNat % 4 ≠ 0 then .fault (.misalignedFlashWord a)
  else if s.profile.hasFlashWord a then settle done
  else .fault (.noSuchFlashAddress a)

/-- A byte flash access (log 15). -/
def flashByteAccess (s : State) (a : Word) (done : State) : Res :=
  if s.profile.hasFlashByte a then settle done else .fault (.noSuchFlashAddress a)

/-- One micro-operation. -/
def micro (u : MicroOp) (s : State) : Res :=
  match u with
  | .regRead r => settle (s.regRead r)
  | .regWrite r v => settle (s.regWrite r v)
  | .flashWrite8 a v => flashByteAccess s a (s.flashWrite8 a v)
  | .flashWrite32 a v => flashWordAccess s a (s.flashWrite32 a v)
  | .flashRead32 a => flashWordAccess s a (s.flashRead32 a)
  | .srcRead8 a => settle (s.srcRead8 a)
  | .wait c => settle (s.wait c)
  | .wdtStop => settle s.wdtStop
  | .wdtStart d => settle (s.wdtStart d)
  | .irqMask => settle s.irqMask
  | .irqRestore => settle s.irqRestore

end Sys2Proof.Machine
end

