-- ==== Sys2Proof/Machine/Operands.lean ====
section
/-! DEFINITION. The operands of the micro-operations of a procedure, computed from the registers when each is
performed, and runs of micro-operations. -/

namespace Sys2Proof.Machine

/-- `buf[i]` (R10). -/
def bufByte (buf : List Byte) (i : Nat) : Byte := buf.getD i 0

/-- `word(buf, j)`: `buf[4j] ++ buf[4j+1] ++ buf[4j+2] ++ buf[4j+3]` (R10, R60). -/
def bufWord (buf : List Byte) (j : Nat) : Word :=
  bufByte buf (4 * j) ++ bufByte buf (4 * j + 1) ++ bufByte buf (4 * j + 2) ++ bufByte buf (4 * j + 3)

/-- `word(buf, j) <- v` (R10, R60): the most significant byte at the lowest index. -/
def setBufWord (buf : List Byte) (j : Nat) (v : Word) : List Byte :=
  (((buf.set (4 * j) (v.extractLsb' 24 8)).set (4 * j + 1) (v.extractLsb' 16 8)).set (4 * j + 2)
    (v.extractLsb' 8 8)).set (4 * j + 3) (v.extractLsb' 0 8)

/-- A byte offset from an address, modulo 2^32 (R15). -/
def offset (a : Word) (i : Nat) : Word := a + BitVec.ofNat 32 i

end Sys2Proof.Machine

namespace Sys2Proof

/-- The micro-operation an act is, its operands taken from the registers as they now stand. -/
def Act.op (a : Act) (s : Machine.State) : MicroOp :=
  match a with
  | .read r => .regRead r
  | .write r v => .regWrite r v
  | .setBit k f => .regWrite (.fcr k) (s.loc.rd ||| s.profile.regLayout.mask f)
  | .clrBit k f => .regWrite (.fcr k) (s.loc.rd &&& ~~~s.profile.regLayout.mask f)
  | .copy i => .srcRead8 (Machine.offset s.ctx.pgSrc i)
  | .latch i => .flashWrite8 (Machine.offset s.ctx.pgDest i) (Machine.bufByte s.ctx.rbuf i)
  | .latchOvw i => .flashWrite8 (Machine.offset s.ctx.pgDest i) (Machine.bufByte s.ctx.obuf i)
  | .probe => .flashWrite32 s.ctx.vaddr ones32
  | .readBack => .flashRead32 s.ctx.vaddr
  | .srcByte a => .srcRead8 a
  | .wait c => .wait c
  | .wdtStop => .wdtStop
  | .wdtStart d => .wdtStart d
  | .irqMask => .irqMask
  | .irqRestore => .irqRestore

/-- Where the value an act read goes: `rbuf[i]` for the copy (R191 step 2), the source word for `SrcWord` (R123,
R60: each byte below those read before it). -/
def Act.store (a : Act) (s : Machine.State) : Machine.State :=
  match a with
  | .copy i => { s with ctx := { s.ctx with rbuf := s.ctx.rbuf.set i s.loc.sbyte } }
  | .srcByte _ => { s with loc := { s.loc with sword := (s.loc.sword <<< 8) ||| s.loc.sbyte.setWidth 32 } }
  | .read _ | .write _ _ | .setBit _ _ | .clrBit _ _ | .latch _ | .latchOvw _ | .probe | .readBack | .wait _
  | .wdtStop | .wdtStart _ | .irqMask | .irqRestore => s

end Sys2Proof

namespace Sys2Proof.Machine

/-- Perform one act. -/
def perform (a : Act) (s : State) : Res := andThen (micro (a.op s) s) (fun t => .next (a.store t))

/-- Perform a straight line of acts, one after the other (R67). -/
def runActs : List Act → State → Res
  | [], s => .next s
  | a :: l, s => andThen (perform a s) (runActs l)

/-! ### The straight lines of the pseudocode -/

/-- `BitSet(FCR[k], f)` (R112). -/
def bitOn (k : Bank) (f : Field) : List Act := [.read (.fcr k), .setBit k f]

/-- `BitClr(FCR[k], f)` (R113). -/
def bitOff (k : Bank) (f : Field) : List Act := [.read (.fcr k), .clrBit k f]

/-- `Precond()` (R122): always both reads, in this order. -/
def precondActs : List Act := [.read (.fcr .b0), .read (.fcr .b1)]

/-- `SrcWord(a)` (R123): four reads in ascending address order. -/
def srcWordActs (a : Word) : List Act :=
  [.srcByte a, .srcByte (offset a 1), .srcByte (offset a 2), .srcByte (offset a 3)]

/-- `GuardAcquire(d)` (R140). -/
def acquireActs (d : Divisor) : List Act := [.wdtStop, .wdtStart d]

/-- `GuardRelease()` (R141). -/
def releaseActs : List Act := [.wdtStop]

/-- `scoped_guard(d) { body }` (R142). -/
def guardedActs (d : Divisor) (body : List Act) : List Act := acquireActs d ++ body ++ releaseActs

/-- `SelectBlock(index)` (R154): the other bank's register first, then the one-hot value. -/
def selectActs (p : DeviceProfile) (index : Nat) : List Act :=
  [.write (.ebr (p.blockBank index).other) 0, .write (.ebr (p.blockBank index)) (p.ebrMask index)]

/-- `BitSet(SWE); Wait(T_SWE_SETUP)` (R170 step 3, R191). -/
def unlockActs (p : DeviceProfile) (k : Bank) : List Act := bitOn k .swe ++ [.wait p.delays.sweSetup]

/-- `BitClr(SWE); Wait(T_SWE_HOLD)` (R170, R191). -/
def lockActs (p : DeviceProfile) (k : Bank) : List Act := bitOff k .swe ++ [.wait p.delays.sweHold]

/-- The masked window of a pulse: `IrqMask`, `BitSet` of the pulse bit, the pulse width, `BitClr`; `IrqRestore` is
the first act after it (R171, R192, R269). -/
def windowActs (k : Bank) (f : Field) (width : Word) : List Act := [.irqMask] ++ bitOn k f ++ [.wait width] ++ bitOff k f

/-- What follows the masked window inside the guard: the mask restored, the cleanup delay, the setup bit cleared,
its hold delay (R171, R192). -/
def cleanupActs (k : Bank) (f : Field) (hold setupHold : Word) : List Act :=
  [.irqRestore, .wait hold] ++ bitOff k f ++ [.wait setupHold]

/-- The guarded body of `ErasePulse(k)` (R171). -/
def eraseBody (p : DeviceProfile) (k : Bank) : List Act :=
  bitOn k .esu ++ [.wait p.delays.esuSetup] ++ windowActs k .e p.delays.ePulse
    ++ cleanupActs k .esu p.delays.eHold p.delays.esuHold

/-- `ErasePulse(k)` (R171). -/
def erasePulseActs (p : DeviceProfile) (k : Bank) : List Act := guardedActs p.wdtDivErase (eraseBody p k)

/-- The guarded body of `ProgramPulse(k, width)` (R192). -/
def programBody (p : DeviceProfile) (k : Bank) (width : Word) : List Act :=
  bitOn k .psu ++ [.wait p.delays.psuSetup] ++ windowActs k .p width
    ++ cleanupActs k .psu p.delays.pHold p.delays.psuHold

/-- `ProgramPulse(k, width)` (R192). -/
def programPulseActs (p : DeviceProfile) (k : Bank) (width : Word) : List Act :=
  guardedActs p.wdtDivProgram (programBody p k width)

/-- `BitSet(EV); Wait(T_EV_SETUP)` (R172). -/
def evEnterActs (p : DeviceProfile) (k : Bank) : List Act := bitOn k .ev ++ [.wait p.delays.evSetup]

/-- One word of the erase scan: probe, delay, read back (R172). -/
def evWordActs (p : DeviceProfile) : List Act := [.probe, .wait p.delays.evRead, .readBack]

/-- `BitClr(EV); Wait(T_EV_HOLD)` (R172). -/
def evExitActs (p : DeviceProfile) (k : Bank) : List Act := bitOff k .ev ++ [.wait p.delays.evHold]

/-- Step 2 of `write_page`: the copy of the source page (R191). -/
def copyActs (p : DeviceProfile) : List Act := (List.range p.pageBytes).map .copy

/-- Step 3a: latch all `PAGE` bytes of `rbuf`, ascending (R191, D33). -/
def latchActs (p : DeviceProfile) : List Act := (List.range p.pageBytes).map .latch

/-- Step 3e: latch all `PAGE` bytes of `obuf`, ascending (R198). -/
def latchOvwActs (p : DeviceProfile) : List Act := (List.range p.pageBytes).map .latchOvw

/-- `BitSet(PV); Wait(T_PV_SETUP)` (R191 step 3c). -/
def pvEnterActs (p : DeviceProfile) (k : Bank) : List Act := bitOn k .pv ++ [.wait p.delays.pvSetup]

/-- The accesses of one verify word: probe, delay, read back, the source word read afresh (R193). -/
def pvWordActs (p : DeviceProfile) (src : Word) : List Act :=
  [.probe, .wait p.delays.pvRead, .readBack] ++ srcWordActs src

/-- `BitClr(PV); Wait(T_PV_HOLD)` (R191 step 3d). -/
def pvExitActs (p : DeviceProfile) (k : Bank) : List Act := bitOff k .pv ++ [.wait p.delays.pvHold]

end Sys2Proof.Machine
end

