-- ==== Sys2Proof/Machine/Flags.lean ====
section
/-! DEFINITION. The verdicts the block computes: the precondition, the erase scan, the program-verify word with its
mismatch flag and its two buffer formulas, the argument checks, the status of a command. The block has no
arithmetic condition codes (10_state.md R32). -/

namespace Sys2Proof.Machine

/-- The verdict of `Precond()` (R122): `a[7] = 1 and b[7] = 0`, `a` read from `FCR[0]` and `b` from `FCR[1]`. -/
def State.precondHolds (s : State) : Bool :=
  s.loc.rdPrev.getLsbD s.profile.regLayout.status.val && !s.loc.rd.getLsbD s.profile.regLayout.status.val

/-- Hold the verdict of `Precond()`. -/
def State.judgePrecond (s : State) : State := { s with loc := { s.loc with flag := s.precondHolds } }

/-- `pass <- true; vaddr <- start` (R172). -/
def State.startScan (s : State) (start : Word) : State :=
  { s with ctx := { s.ctx with vaddr := start }, loc := { s.loc with flag := true } }

/-- `if v ≠ ONES32: pass <- false` and `vaddr <- vaddr + 4` (R172). -/
def State.judgeScan (s : State) : State :=
  { s with
    ctx := { s.ctx with vaddr := s.ctx.vaddr + 4 }
    loc := { s.loc with flag := s.loc.flag && decide (s.loc.fword = ones32) } }

/-- `vaddr < end and pass` (R172). -/
def State.scanGoesOn (s : State) (stop : Word) : Bool := decide (s.ctx.vaddr < stop) && s.loc.flag

/-- The verify address of word `j` of the page, `pg_dest + 4j` (R193). -/
def State.startWord (s : State) (j : Nat) : State :=
  { s with ctx := { s.ctx with vaddr := offset s.ctx.pgDest (4 * j) }, loc := { s.loc with j := j } }

/-- The reference word of the mismatch test (R193, R196). -/
def State.reference (s : State) (j : Nat) : Word :=
  match s.profile.mismatchRef with
  | .reprogram => bufWord s.ctx.rbuf j
  | .source => s.loc.sword

/-- The mismatch flag after a verify word: set by a read-back that differs from the reference word (R196, R30). -/
def State.mismatch (s : State) (j : Nat) : Bool := s.ctx.m || decide (s.loc.fword ≠ s.reference j)

/-- The fatal test: the source requested a 1 that read back 0 (R197). -/
def State.fatalWord (s : State) : Bool := decide (s.loc.sword &&& ~~~s.loc.fword ≠ 0)

/-- The next reprogram word, `source | ~readback` (R194; 90_conflicts.md C1). -/
def State.reprogramWord (s : State) : Word := s.loc.sword ||| ~~~s.loc.fword

/-- The overwrite word, `readback | reprogram_word` with the word latched in this attempt (R195, D18). -/
def State.overwriteWord (s : State) (j : Nat) : Word := s.loc.fword ||| bufWord s.ctx.rbuf j

/-- The overwrite buffer after word `j` of attempt `n` (R195): written only in an overwrite pass. -/
def State.nextObuf (s : State) (j : Nat) (n : Word) : List Byte :=
  if s.profile.overwritePass n then setBufWord s.ctx.obuf j (s.overwriteWord j) else s.ctx.obuf

/-- The checks of `VerifyWord` after its accesses, in their order (R193): mismatch, fatal, overwrite word,
reprogram word. A fatal word updates no buffer (R197). -/
def State.judgeWord (s : State) (j : Nat) (n : Word) : State :=
  if s.fatalWord then
    { s with
      ctx := { s.ctx with m := s.mismatch j }
      loc := { s.loc with result := .programVerifyFatal } }
  else
    { s with
      ctx := { s.ctx with
        m := s.mismatch j
        obuf := s.nextObuf j n
        rbuf := setBufWord s.ctx.rbuf j s.reprogramWord }
      loc := { s.loc with result := .ok } }

/-- The argument checks of `write_range`, in their order (R161). -/
def rangeStatus (p : DeviceProfile) (dest len : Word) : Status :=
  if p.flashMax < dest then .outOfBounds
  else if dest.toNat % p.pageBytes ≠ 0 then .misaligned
  else if len.toNat % p.pageBytes ≠ 0 then .badLength
  else .ok

/-- Hold a status result. -/
def State.withResult (s : State) (r : Status) : State := { s with loc := { s.loc with result := r } }

/-- Complete a command (R94, R230): the status on the response port, the sequencer back in `Idle`. -/
def State.respond (s : State) (r : Status) : State :=
  { s with
    port := { s.port with status := s.profile.statusEnc.code r, rspValid := true }
    seq := { s.seq with seg := .idle, pos := 0 } }

end Sys2Proof.Machine
end

