-- ==== Sys2Proof/Machine/MicroOps.lean ====
section
/-! DEFINITION. The meanings of the micro-operations (40_micro_operations.md), of `Wait` (41_calibrated_delay_timer.md)
and of the composites made of them: `BitSet`, `BitClr`, `SrcWord`, `Precond`, `wait`, and the guard
(42_watchdog_guard_fsm.md). -/

namespace Sys2Proof.Machine

/-- `RegRead(r)` (R110). -/
def execRegRead (r : Reg) (s : State) : Res := micro (.regRead r) s

/-- `RegWrite(r, v)` (R111). -/
def execRegWrite (r : Reg) (v : Byte) (s : State) : Res := micro (.regWrite r v) s

/-- `FlashWrite8(a, v)` (R114). -/
def execFlashWrite8 (a : Word) (v : Byte) (s : State) : Res := micro (.flashWrite8 a v) s

/-- `FlashWrite32(a, v)` (R115). -/
def execFlashWrite32 (a v : Word) (s : State) : Res := micro (.flashWrite32 a v) s

/-- `FlashRead32(a)` (R116). -/
def execFlashRead32 (a : Word) (s : State) : Res := micro (.flashRead32 a) s

/-- `SrcRead8(a)` (R117). -/
def execSrcRead8 (a : Word) (s : State) : Res := micro (.srcRead8 a) s

/-- `Wait(c)` (R130). -/
def execWaitOp (c : Word) (s : State) : Res := micro (.wait c) s

/-- `WdtStop()` (R120). -/
def execWdtStop (s : State) : Res := micro .wdtStop s

/-- `WdtStart(d)` (R121). -/
def execWdtStart (d : Divisor) (s : State) : Res := micro (.wdtStart d) s

/-- `IrqMask()` (R118). -/
def execIrqMask (s : State) : Res := micro .irqMask s

/-- `IrqRestore()` (R119). -/
def execIrqRestore (s : State) : Res := micro .irqRestore s

/-- `BitSet(FCR[k], f)` (R112). -/
def execBitSet (k : Bank) (f : Field) (s : State) : Res := runActs (bitOn k f) s

/-- `BitClr(FCR[k], f)` (R113). -/
def execBitClr (k : Bank) (f : Field) (s : State) : Res := runActs (bitOff k f) s

/-- `SrcWord(a)` (R123): its result is the local `sword`. -/
def execSrcWord (a : Word) (s : State) : Res := runActs (srcWordActs a) s

/-- `Precond()` (R122): its result is the local `flag`. -/
def execPrecond (s : State) : Res := andThen (runActs precondActs s) (fun t => .next t.judgePrecond)

/-- `wait(cycles)`, the document's name for `Wait` (R130). -/
def execWaitProc (cycles : Word) (s : State) : Res := runActs [.wait cycles] s

/-- `GuardAcquire(d)` (R140). -/
def execGuardAcquire (d : Divisor) (s : State) : Res := runActs (acquireActs d) s

/-- `GuardRelease()` (R141). -/
def execGuardRelease (s : State) : Res := runActs releaseActs s

/-- `scoped_guard(d) { body }` (R142). -/
def execScopedGuard (d : Divisor) (body : List Act) (s : State) : Res := runActs (guardedActs d body) s

end Sys2Proof.Machine
end

