-- ==== Sys2Proof/Machine/Mapper.lean ====
section
/-! DEFINITION. The block_table_selector and the page_address_mapper (43, 44): the meanings of `resolve_block`,
`SelectBlock`, `resolve_address_range` and `ValidateRange`. -/

namespace Sys2Proof.Machine

/-- The registers `resolve_block` loads (R150). -/
def State.loadBlock (s : State) (index : Word) : State :=
  { s with ctx := { s.ctx with
      blkStart := s.profile.tableAt index.toNat
      blkEnd := s.profile.tableAt (index.toNat + 1)
      bank := s.profile.blockBank index.toNat } }

/-- `resolve_block(index)` (R150): its status result is `bad-block` or `ok`. -/
def State.resolveBlock (s : State) (index : Word) : State :=
  if s.profile.blockCount ≤ index.toNat then s.withResult .badBlock else (s.loadBlock index).withResult .ok

/-- `resolve_block(index)` (R150). -/
def execResolveBlock (index : Word) (s : State) : Res := .next (s.resolveBlock index)

/-- `SelectBlock(index)` (R154); `EBR_BIT` has a value for the N blocks only (R153, log 25). -/
def execSelectBlock (index : Word) (s : State) : Res :=
  if s.profile.blockCount ≤ index.toNat then .refused (.noSuchBlock index)
  else runActs (selectActs s.profile index.toNat) s

/-- `resolve_address_range(dest, len)` (R160): `len` does not enter the result. -/
def State.resolveRange (s : State) (dest : Word) : State :=
  { s with ctx := { s.ctx with bank := s.profile.bankOf dest } }

/-- `resolve_address_range(dest, len)` (R160). -/
def execResolveAddressRange (dest _len : Word) (s : State) : Res := .next (s.resolveRange dest)

/-- `ValidateRange(dest, len)` (R161): its status result. -/
def execValidateRange (dest len : Word) (s : State) : Res := .next (s.withResult (rangeStatus s.profile dest len))

end Sys2Proof.Machine
end

