-- ==== Sys2Proof/Machine/Gate.lean ====
section
/-! DEFINITION. Command acceptance (30_encoding.md R90, R92), the protection gate (47_protection_gate.md: `init`,
`unprotect`) and the reset event (60_exceptions.md R240). -/

namespace Sys2Proof.Machine

/-- What acceptance of a command does first: the response is over, the command is in progress. -/
def State.begin (s : State) (op : Op) : State :=
  { s with port := { s.port with rspValid := false }, seq := { op := op, seg := .validate, pos := 0 } }

/-- Acceptance of `init`. -/
def State.acceptInit (s : State) : State := s.begin .init

/-- Acceptance of `unprotect`. -/
def State.acceptUnprotect (s : State) : State := s.begin .unprotect

/-- Acceptance of `erase_block`: `index <- A` (R92). -/
def State.acceptErase (s : State) (index : Word) : State :=
  { s.begin .eraseBlock with opr := { s.opr with index := index } }

/-- Acceptance of `write_range`: `dest <- A`, `src <- B`, `len <- C` (R92). -/
def State.acceptWrite (s : State) (dest src len : Word) : State :=
  { s.begin .writeRange with opr := { s.opr with dest := dest, src := src, len := len } }

/-- A command runs from `Idle` only (R90; R270), under a well-formed profile only (R151, 93 U10). -/
def whenReady (s : State) (run : Res) : Res :=
  if s.seq.seg ≠ .idle then .refused .commandWhileBusy
  else if s.profile.wf then run
  else .refused .illFormedProfile

/-- `armed <- 0` (R220). -/
def State.disarm (s : State) : State := { s with armed := false }

/-- `armed <- 1` (R221). -/
def State.arm (s : State) : State := { s with armed := true }

/-- The status of a precondition verdict (R220). -/
def precondStatus (holds : Bool) : Status := if holds then .ok else .deviceError

/-- `init()` (R220): the gate disarmed on both outcomes, then the precondition. -/
def execInit (s : State) : Res :=
  whenReady s (andThen (execPrecond s.acceptInit.disarm) (fun t => .next (t.respond (precondStatus t.loc.flag))))

/-- `unprotect()` (R221): the gate armed, no access. -/
def execUnprotect (s : State) : Res := whenReady s (.next (s.acceptUnprotect.arm.respond .ok))

/-- `SystemReset()` (R240, R260, R261). -/
def execSystemReset (s : State) : Res := .next s.systemReset

end Sys2Proof.Machine
end

