-- ==== Sys2Proof/Machine/Erase.lean ====
section
/-! DEFINITION. The flash_erase_engine (45_flash_erase_engine.md): the meanings of `erase_block`, `ErasePulse` and
`EraseVerify`. -/

namespace Sys2Proof.Machine

/-- `ErasePulse(k)` (R171). -/
def execErasePulse (k : Bank) (s : State) : Res := runActs (erasePulseActs s.profile k) s

/-- The scan of `EraseVerify`: `while vaddr < end and pass` (R172). The first argument bounds the words of the
range, which the loop never exceeds (log 31). -/
def eraseScan (stop : Word) : Nat → State → Res
  | 0, s => .next s
  | n + 1, s =>
    if s.scanGoesOn stop then
      andThen (runActs (evWordActs s.profile) s) (fun t => eraseScan stop n t.judgeScan)
    else .next s

/-- How many words a range can have: one for each started word. -/
def scanWords (start stop : Word) : Nat := (stop.toNat - start.toNat + 3) / 4

/-- `EraseVerify(k, start, end)` (R172): its result is the local `flag`. -/
def execEraseVerify (k : Bank) (start stop : Word) (s : State) : Res :=
  andThen (runActs (evEnterActs s.profile k) s) (fun t =>
  andThen (eraseScan stop (scanWords start stop) (t.startScan start)) (fun u =>
  runActs (evExitActs u.profile k) u))

/-- One attempt of the erase loop: `SelectBlock`, `ErasePulse`, `EraseVerify` (R170 step 4). -/
def eraseAttempt (s : State) : Res :=
  andThen (execSelectBlock s.opr.index s) (fun t =>
  andThen (execErasePulse t.ctx.bank t) (fun u =>
  execEraseVerify u.ctx.bank u.ctx.blkStart u.ctx.blkEnd u))

/-- `n <- v`: the retry counter (R23). -/
def State.setN (s : State) (v : Word) : State := { s with ctx := { s.ctx with n := v } }

/-- Clear `SWE`, wait its hold time and complete the command (R170: Success and Failed). -/
def lockAndRespond (r : Status) (s : State) : Res :=
  andThen (runActs (lockActs s.profile s.ctx.bank) s) (fun t => .next (t.respond r))

/-- `for n in …`: the attempts that are left, the register `n` at the number of the next one (R170 steps 4, 5). -/
def eraseAttempts : Nat → State → Res
  | 0, s => lockAndRespond .eraseVerifyFailed s
  | left + 1, s =>
    andThen (eraseAttempt s) (fun t =>
    if t.loc.flag then lockAndRespond .ok t
    else eraseAttempts left (if left = 0 then t else t.setN (t.ctx.n + 1)))

/-- Enter a retry loop of `budget` attempts: `n` is 1 when there is a first attempt (R12: zero times when K = 0). -/
def State.firstAttempt (s : State) (budget : Word) : State := if budget = 0 then s else s.setN 1

/-- Steps 3 to 5 of `erase_block` (R170). -/
def eraseUnlocked (s : State) : Res :=
  andThen (runActs (unlockActs s.profile s.ctx.bank) s) (fun t =>
  eraseAttempts t.profile.maxEraseRetries.toNat (t.firstAttempt t.profile.maxEraseRetries))

/-- `erase_block(index)` after acceptance (R170): the index check, the gate, the precondition, the attempts. -/
def eraseAccepted (index : Word) (s : State) : Res :=
  if s.profile.blockCount ≤ index.toNat then .next (s.respond .badBlock)
  else if s.armed = false then .next (s.respond .ok)
  else
    andThen (execPrecond (s.resolveBlock index)) (fun t =>
    if t.loc.flag then eraseUnlocked t else .next (t.respond .deviceError))

/-- `erase_block(index)` (R170). -/
def execEraseBlock (index : Word) (s : State) : Res := whenReady s (eraseAccepted index (s.acceptErase index))

end Sys2Proof.Machine
end

