-- ==== Sys2Proof/Machine/Write.lean ====
section
/-! DEFINITION. The flash_write_engine (46_flash_write_engine.md) and the page loop (44_page_address_mapper.md R162):
the meanings of `write_range`, `PageLoop`, `write_page`, `ProgramPulse` and `VerifyWord`. -/

namespace Sys2Proof.Machine

/-- `ProgramPulse(k, width)` (R192). The bank and the width are operands; the delays are the profile's. -/
def execProgramPulse (k : Bank) (width : Word) (s : State) : Res := runActs (programPulseActs s.profile k width) s

/-- `VerifyWord(k, j, n)` (R193): its status result is `program-verify-fatal` for fatal, `ok` for continue. The bank
does not enter: the accesses are to the flash and source spaces. A word the page does not have is refused (log 25). -/
def execVerifyWord (_k : Bank) (j : Nat) (n : Word) (s : State) : Res :=
  if s.profile.pageWords ≤ j then .refused (.noSuchPageWord j)
  else
    andThen (runActs (pvWordActs s.profile (offset s.ctx.pgSrc (4 * j))) (s.startWord j)) (fun t =>
    .next (t.judgeWord j n))

/-- The word loop of step 3c from word `j` on: it never stops early except on a fatal word (R191, R193). -/
def verifyWords : Nat → Nat → State → Res
  | 0, _, s => .next s
  | left + 1, j, s =>
    andThen (execVerifyWord s.ctx.bank j s.ctx.n s) (fun t =>
    if t.loc.result = .programVerifyFatal then .next t else verifyWords left (j + 1) t)

/-- `m <- 0` at the top of an attempt (R191, D16). -/
def State.clearMismatch (s : State) : State := { s with ctx := { s.ctx with m := false } }

/-- Steps 3a and 3b: latch the reprogram buffer and pulse (R191, R199). -/
def programAttempt (s : State) : Res :=
  andThen (runActs (latchActs s.profile) s) (fun t =>
  execProgramPulse t.ctx.bank (t.profile.pulseWidth t.ctx.n) t)

/-- Step 3c: enter program-verify mode and verify the words (R191). -/
def verifyAttempt (s : State) : Res :=
  andThen (runActs (pvEnterActs s.profile s.ctx.bank) s) (fun t => verifyWords t.profile.pageWords 0 t)

/-- Step 3e: the overwrite pass, when the profile has it and `n` is within `overwrite_count` (R198). -/
def overwriteAttempt (s : State) : Res :=
  if s.profile.overwritePass s.ctx.n then
    andThen (runActs (latchOvwActs s.profile) s) (fun t => execProgramPulse t.ctx.bank t.profile.delays.pAdd t)
  else .next s

/-- Clear `SWE`, wait its hold time and end the page with a status (R191: WSuccess, WFatal, WFailed). -/
def lockPage (r : Status) (s : State) : Res :=
  andThen (runActs (lockActs s.profile s.ctx.bank) s) (fun t => .next (t.withResult r))

/-- The fatal path: leave program-verify mode, then lock (R191, R197, D20). -/
def fatalExit (s : State) : Res :=
  andThen (runActs (pvExitActs s.profile s.ctx.bank) s) (lockPage .programVerifyFatal)

/-- Steps 3d and 3e (R191). -/
def finishAttempt (s : State) : Res :=
  andThen (runActs (pvExitActs s.profile s.ctx.bank) s) overwriteAttempt

/-- `for n in …`: the attempts that are left (R191 steps 3, 4). -/
def writeAttempts : Nat → State → Res
  | 0, s => lockPage .writeMaxRetries s
  | left + 1, s =>
    andThen (programAttempt s.clearMismatch) (fun t =>
    andThen (verifyAttempt t) (fun u =>
    if u.loc.result = .programVerifyFatal then fatalExit u
    else
      andThen (finishAttempt u) (fun v =>
      if v.ctx.m then writeAttempts left (if left = 0 then v else v.setN (v.ctx.n + 1))
      else lockPage .ok v)))

/-- `pg_dest <- dest; pg_src <- src` and the bank of the page (R191 step 1, R160). -/
def State.enterPage (s : State) (dest src : Word) : State :=
  { s with ctx := { s.ctx with pgDest := dest, pgSrc := src } }.resolveRange dest

/-- Step 2 and the attempts (R191). -/
def writeUnlocked (s : State) : Res :=
  andThen (runActs (copyActs s.profile) s) (fun t =>
  andThen (runActs (unlockActs t.profile t.ctx.bank) t) (fun u =>
  writeAttempts u.profile.maxWriteRetries.toNat (u.firstAttempt u.profile.maxWriteRetries)))

/-- `write_page(dest, src)` (R191): its status result is the local `result`. A page above `FLASH_MAX` is refused
(R164). -/
def execWritePage (dest src : Word) (s : State) : Res :=
  if s.profile.flashMax < dest then .refused (.rangeOverrun dest)
  else
    andThen (execPrecond (s.enterPage dest src)) (fun t =>
    if t.loc.flag then writeUnlocked t else .next (t.withResult .deviceError))

/-- Step to the next page (R162). -/
def State.stepPage (s : State) : State :=
  { s with opr := { s.opr with
      dest := s.opr.dest + s.profile.pageWord
      src := s.opr.src + s.profile.pageWord
      len := s.opr.len - s.profile.pageWord } }

/-- `while len ≠ 0` of `PageLoop` (R162). The first argument bounds the pages, which the loop never exceeds: `dest`
rises with every page and a page above `FLASH_MAX` is refused (R164, log 31). -/
def pages : Nat → State → Res
  | 0, s => .next (s.withResult .ok)
  | n + 1, s =>
    if s.opr.len = 0 then .next (s.withResult .ok)
    else
      andThen (execWritePage s.opr.dest s.opr.src s) (fun t =>
      if t.loc.result = .ok then pages n t.stepPage else .next t)

/-- The most pages a loop can reach. -/
def maxPages (p : DeviceProfile) : Nat := p.flashMax.toNat / p.pageBytes + 2

/-- `PageLoop()` (R162), on the operand registers: its status result is the local `result`. -/
def execPageLoop (s : State) : Res := pages (maxPages s.profile) s

/-- `write_range(dest, src, len)` after acceptance (R190): the argument checks, the gate, the pages. -/
def writeAccepted (dest len : Word) (s : State) : Res :=
  andThen (execValidateRange dest len s) (fun t =>
  if t.loc.result ≠ .ok then .next (t.respond t.loc.result)
  else if t.armed = false then .next (t.respond .ok)
  else andThen (execPageLoop t) (fun u => .next (u.respond u.loc.result)))

/-- `write_range(dest, src, len)` (R190). -/
def execWriteRange (dest src len : Word) (s : State) : Res :=
  whenReady s (writeAccepted dest len (s.acceptWrite dest src len))

end Sys2Proof.Machine
end

