-- ==== Sys2Proof/Machine/Dispatch.lean ====
section
/-! DEFINITION. One arm per instruction. -/

namespace Sys2Proof.Machine

/-- The meaning of an instruction: its whole effect, run to its return. -/
def exec (i : Instr) (s : State) : Host.Outcome State Fault Refusal :=
  match i with
  | .init => Sys2Proof.Machine.execInit s
  | .unprotect => Sys2Proof.Machine.execUnprotect s
  | .eraseBlock index => Sys2Proof.Machine.execEraseBlock index s
  | .writeRange dest src len => Sys2Proof.Machine.execWriteRange dest src len s
  | .regRead r => Sys2Proof.Machine.execRegRead r s
  | .regWrite r v => Sys2Proof.Machine.execRegWrite r v s
  | .flashWrite8 a v => Sys2Proof.Machine.execFlashWrite8 a v s
  | .flashWrite32 a v => Sys2Proof.Machine.execFlashWrite32 a v s
  | .flashRead32 a => Sys2Proof.Machine.execFlashRead32 a s
  | .srcRead8 a => Sys2Proof.Machine.execSrcRead8 a s
  | .waitOp c => Sys2Proof.Machine.execWaitOp c s
  | .wdtStop => Sys2Proof.Machine.execWdtStop s
  | .wdtStart d => Sys2Proof.Machine.execWdtStart d s
  | .irqMask => Sys2Proof.Machine.execIrqMask s
  | .irqRestore => Sys2Proof.Machine.execIrqRestore s
  | .bitSet k f => Sys2Proof.Machine.execBitSet k f s
  | .bitClr k f => Sys2Proof.Machine.execBitClr k f s
  | .srcWord a => Sys2Proof.Machine.execSrcWord a s
  | .precond => Sys2Proof.Machine.execPrecond s
  | .waitProc cycles => Sys2Proof.Machine.execWaitProc cycles s
  | .scopedGuard d body => Sys2Proof.Machine.execScopedGuard d body s
  | .guardAcquire d => Sys2Proof.Machine.execGuardAcquire d s
  | .guardRelease => Sys2Proof.Machine.execGuardRelease s
  | .resolveBlock index => Sys2Proof.Machine.execResolveBlock index s
  | .selectBlock index => Sys2Proof.Machine.execSelectBlock index s
  | .resolveAddressRange dest len => Sys2Proof.Machine.execResolveAddressRange dest len s
  | .validateRange dest len => Sys2Proof.Machine.execValidateRange dest len s
  | .pageLoop => Sys2Proof.Machine.execPageLoop s
  | .erasePulse k => Sys2Proof.Machine.execErasePulse k s
  | .eraseVerify k start stop => Sys2Proof.Machine.execEraseVerify k start stop s
  | .writePage dest src => Sys2Proof.Machine.execWritePage dest src s
  | .programPulse k width => Sys2Proof.Machine.execProgramPulse k width s
  | .verifyWord k j n => Sys2Proof.Machine.execVerifyWord k j n s
  | .systemReset => Sys2Proof.Machine.execSystemReset s

end Sys2Proof.Machine
end

