-- ==== Sys2Proof/Machine/Sequencer.lean ====
section
/-! DEFINITION. The hardwired sequencer: the micro-operations of each stretch of the pseudocode (files 45 to 47), where
the sequencer goes at the end of a stretch (45 R173, 46 R201), and one step: one micro-operation through `exec`, or
one move that makes no access (D1; 10_state.md R24 to R26). -/

namespace Sys2Proof

/-- The spec's name of a stretch (R24 to R26; log 21). -/
def Machine.Seg.st : Machine.Seg → Machine.St
  | .idle => .idle
  | .validate | .gInit | .ePre | .eSwe => .validate
  | .eEnabled | .eSelect | .eArm => .enabled
  | .eArmed => .eraseArmed
  | .ePulse => .pulsing
  | .eSettle => .settling
  | .evEnter | .evWord | .evExit => .verifying
  | .eRetry => .retryErase
  | .eDone => .success
  | .eFail => .failed
  | .wPre => .wPrecheck
  | .wCopy => .wCopy
  | .wSwe => .wEnabled
  | .wLatch => .latching
  | .wArm => .programArmed
  | .wPulse => .progPulsing
  | .wSettle => .progSettling
  | .pvEnter | .pvWord | .pvExit => .progVerifying
  | .oLatch => .ovwLatching
  | .oArm => .ovwArmed
  | .oPulse => .ovwPulsing
  | .oSettle => .ovwSettling
  | .wRetry => .retryWrite
  | .wDone => .wSuccess
  | .wFatal => .wFatal
  | .wFail => .wFailed
  | .nextPage => .nextPage

end Sys2Proof

namespace Sys2Proof.Machine

/-- `st`, the state register as the spec names its values (R24). -/
def State.st (s : State) : St := s.seq.seg.st

/-- `cmd_ready`: raised only while `st = Idle` (R90). -/
def State.cmdReady (s : State) : Bool := decide (s.st = .idle)

/-- The micro-operations of a stretch, in order (R170 to R172, R191, R192). -/
def Seg.acts (g : Seg) (s : State) : List Act :=
  let p := s.profile
  let k := s.ctx.bank
  match g with
  | .idle | .validate | .eRetry | .wRetry | .nextPage => []
  | .gInit | .ePre | .wPre => precondActs
  | .eSwe => bitOn k .swe
  | .eEnabled => [.wait p.delays.sweSetup]
  | .eSelect => selectActs p s.opr.index.toNat
  | .eArm => acquireActs p.wdtDivErase ++ bitOn k .esu
  | .eArmed => [.wait p.delays.esuSetup]
  | .ePulse => windowActs k .e p.delays.ePulse
  | .eSettle => cleanupActs k .esu p.delays.eHold p.delays.esuHold ++ releaseActs
  | .evEnter => evEnterActs p k
  | .evWord => evWordActs p
  | .evExit => evExitActs p k
  | .eDone | .eFail | .wDone | .wFail => lockActs p k
  | .wCopy => copyActs p
  | .wSwe => unlockActs p k
  | .wLatch => latchActs p
  | .wArm | .oArm => acquireActs p.wdtDivProgram ++ bitOn k .psu ++ [.wait p.delays.psuSetup]
  | .wPulse => windowActs k .p (p.pulseWidth s.ctx.n)
  | .oPulse => windowActs k .p p.delays.pAdd
  | .wSettle | .oSettle => cleanupActs k .psu p.delays.pHold p.delays.psuHold ++ releaseActs
  | .pvEnter => pvEnterActs p k
  | .pvWord => pvWordActs p (offset s.ctx.pgSrc (4 * s.loc.j))
  | .pvExit => pvExitActs p k
  | .oLatch => latchOvwActs p
  | .wFatal => pvExitActs p k ++ lockActs p k

/-- Move the sequencer to the first micro-operation of a stretch. -/
def State.goto (s : State) (g : Seg) : State := { s with seq := { s.seq with seg := g, pos := 0 } }

/-- Acceptance of a decoded command (R90, R92); a word at the command port is always one of the four. -/
def accept (i : Instr) (s : State) : State :=
  match i with
  | .init => s.acceptInit
  | .unprotect => s.acceptUnprotect
  | .eraseBlock index => s.acceptErase index
  | .writeRange dest src len => s.acceptWrite dest src len
  | .regRead _ | .regWrite _ _ | .flashWrite8 _ _ | .flashWrite32 _ _ | .flashRead32 _ | .srcRead8 _ | .waitOp _
  | .wdtStop | .wdtStart _ | .irqMask | .irqRestore | .bitSet _ _ | .bitClr _ _ | .srcWord _ | .precond
  | .waitProc _ | .scopedGuard _ _ | .guardAcquire _ | .guardRelease | .resolveBlock _ | .selectBlock _
  | .resolveAddressRange _ _ | .validateRange _ _ | .pageLoop | .erasePulse _ | .eraseVerify _ _ _
  | .writePage _ _ | .programPulse _ _ | .verifyWord _ _ _ | .systemReset => s

/-- The state with the next command word taken from the port: the handshake of R90. -/
def State.withCmds (s : State) (l : List (BitVec 98)) : State := { s with port := { s.port with cmds := l } }

/-- The response was driven for one handshake (R94, log 22). -/
def State.responseTaken (s : State) : State := { s with port := { s.port with rspValid := false } }

/-- `Idle`: accept the command on the port, if there is one (R90), under a well-formed profile only (R151). -/
def stepIdle (s : State) : Res :=
  match s.port.cmds with
  | [] => .next s.responseTaken
  | w :: l => whenReady s (.next (accept (decodeCommand w) (s.withCmds l)))

/-- Enter `write_page` of the page the operand registers name (R191; refused above `FLASH_MAX`, R164). -/
def beginPage (s : State) : Res :=
  if s.profile.flashMax < s.opr.dest then .refused (.rangeOverrun s.opr.dest)
  else .next ((s.enterPage s.opr.dest s.opr.src).goto .wPre)

/-- The page loop at its head (R162): the next page, or the end. -/
def nextPageOrEnd (s : State) : Res :=
  if s.opr.len = 0 then .next ((s.withResult .ok).respond .ok) else beginPage s

/-- `Validate` (R170 step 1, R190, R220, R221). -/
def validateCommand (s : State) : Res :=
  match s.seq.op with
  | .init => .next (s.disarm.goto .gInit)
  | .unprotect => .next (s.arm.respond .ok)
  | .eraseBlock =>
    if s.profile.blockCount ≤ s.opr.index.toNat then .next (s.respond .badBlock)
    else if s.armed = false then .next (s.respond .ok)
    else .next ((s.resolveBlock s.opr.index).goto .ePre)
  | .writeRange =>
    let t := s.withResult (rangeStatus s.profile s.opr.dest s.opr.len)
    if t.loc.result ≠ .ok then .next (t.respond t.loc.result)
    else if t.armed = false then .next (t.respond .ok)
    else nextPageOrEnd t

/-- The next stretch of an erase scan (R172). -/
def scanNext (s : State) : State := s.goto (if s.scanGoesOn s.ctx.blkEnd then .evWord else .evExit)

/-- After a write attempt (R191 step 3f and the head of the loop). -/
def afterAttempt (s : State) : State :=
  s.goto (if s.ctx.m then (if s.ctx.n < s.profile.maxWriteRetries then .wRetry else .wFail) else .wDone)

/-- The end of a stretch: the register moves of the pseudocode that make no access, and the next stretch (R173, R201).
R26's row WEnabled says the state is re-entered at the top of each attempt, its row RetryWrite and R201 that a retry goes
back to Latching: the model follows R201. DESIGN CHOICE (log 39). -/
def Seg.finish (g : Seg) (s : State) : Res :=
  match g with
  | .idle => stepIdle s
  | .validate => validateCommand s
  | .gInit => .next (s.judgePrecond.respond (precondStatus s.precondHolds))
  | .ePre =>
    if s.precondHolds then .next (s.judgePrecond.goto .eSwe) else .next (s.judgePrecond.respond .deviceError)
  | .eSwe => .next (s.goto .eEnabled)
  | .eEnabled =>
    .next ((s.firstAttempt s.profile.maxEraseRetries).goto (if s.profile.maxEraseRetries = 0 then .eFail else .eSelect))
  | .eSelect => .next (s.goto .eArm)
  | .eArm => .next (s.goto .eArmed)
  | .eArmed => .next (s.goto .ePulse)
  | .ePulse => .next (s.goto .eSettle)
  | .eSettle => .next (s.goto .evEnter)
  | .evEnter => .next (scanNext (s.startScan s.ctx.blkStart))
  | .evWord => .next (scanNext s.judgeScan)
  | .evExit =>
    .next (s.goto (if s.loc.flag then .eDone else if s.ctx.n < s.profile.maxEraseRetries then .eRetry else .eFail))
  | .eRetry => .next ((s.setN (s.ctx.n + 1)).goto .eSelect)
  | .eDone => .next (s.respond .ok)
  | .eFail => .next (s.respond .eraseVerifyFailed)
  | .wPre =>
    if s.precondHolds then .next (s.judgePrecond.goto .wCopy)
    else .next ((s.judgePrecond.withResult .deviceError).goto .nextPage)
  | .wCopy => .next (s.goto .wSwe)
  | .wSwe =>
    if s.profile.maxWriteRetries = 0 then .next (s.goto .wFail)
    else .next ((s.firstAttempt s.profile.maxWriteRetries).clearMismatch.goto .wLatch)
  | .wLatch => .next (s.goto .wArm)
  | .wArm => .next (s.goto .wPulse)
  | .wPulse => .next (s.goto .wSettle)
  | .wSettle => .next (s.goto .pvEnter)
  | .pvEnter => .next ((s.startWord 0).goto .pvWord)
  | .pvWord =>
    let t := s.judgeWord s.loc.j s.ctx.n
    if t.loc.result = .programVerifyFatal then .next (t.goto .wFatal)
    else if s.loc.j + 1 < s.profile.pageWords then .next ((t.startWord (s.loc.j + 1)).goto .pvWord)
    else .next (t.goto .pvExit)
  | .pvExit => .next (if s.profile.overwritePass s.ctx.n then s.goto .oLatch else afterAttempt s)
  | .oLatch => .next (s.goto .oArm)
  | .oArm => .next (s.goto .oPulse)
  | .oPulse => .next (s.goto .oSettle)
  | .oSettle => .next (afterAttempt s)
  | .wRetry => .next ((s.setN (s.ctx.n + 1)).clearMismatch.goto .wLatch)
  | .wDone => .next ((s.withResult .ok).goto .nextPage)
  | .wFatal => .next ((s.withResult .programVerifyFatal).goto .nextPage)
  | .wFail => .next ((s.withResult .writeMaxRetries).goto .nextPage)
  | .nextPage => if s.loc.result = .ok then nextPageOrEnd s.stepPage else .next (s.respond s.loc.result)

/-- After a micro-operation: the next one of the stretch, or the end of the stretch (R24). -/
def advance (s : State) : Res :=
  if s.seq.pos + 1 < (s.seq.seg.acts s).length then .next { s with seq := { s.seq with pos := s.seq.pos + 1 } }
  else s.seq.seg.finish s

/-- The act the sequencer stands at, if its stretch has one there. -/
def State.act (s : State) : Option Act := (s.seq.seg.acts s)[s.seq.pos]?

/-- The sequencer's own step: the micro-operation it stands at, through `exec`, then the move to the next; in a
stretch without micro-operations, the move alone. -/
def runPoint (s : State) : Res :=
  match s.act with
  | none => s.seq.seg.finish s
  | some a => andThen (exec (a.op s).toInstr s) (fun t => advance (a.store t))

/-- The state with the micro-operation word taken. -/
def State.clearUword (s : State) : State := { s with port := { s.port with uword := none } }

/-- Run a micro-operation word placed from outside the machine (log 3). -/
def runMicroWord (w : BitVec 72) (s : State) : Res :=
  match decodeMicro w with
  | .ok i => exec i s.clearUword
  | .error e => .refused (.reservedMicroWord e)

/-- One step: reset has priority over everything (R260), then a placed micro-operation word, then the sequencer. -/
def oneStep (s : State) : Res :=
  if s.port.resetPin then exec .systemReset s
  else
    match s.port.uword with
    | some w => runMicroWord w s
    | none => runPoint s

/-- Stand the sequencer before a table row's word: a command word on the command port of an idle block, or a
micro-operation word (log 3). -/
def State.placeWord (s : State) (nbits w : Nat) : State :=
  if nbits ≤ 8 then { s with port := { s.port with resetPin := false, uword := some (BitVec.ofNat 72 w) } }
  else
    { s with
      port := { s.port with resetPin := false, uword := none, cmds := BitVec.ofNat 98 w :: s.port.cmds }
      seq := { s.seq with seg := .idle, pos := 0 } }

end Sys2Proof.Machine
end

