-- ==== Sys2Proof/Machine/Step.lean ====
section
/-! DEFINITION. The step function and the placing of a word where the step fetches its next instruction. -/

namespace Sys2Proof.Machine

/-- One step of the machine. -/
def step (s : State) : Host.Outcome State Fault Refusal := oneStep s

/-- `s` with a table row's word stored where `step` fetches next. -/
def State.withFetchWord (s : State) (nbits w : Nat) : State := s.placeWord nbits w

end Sys2Proof.Machine
end

