-- ==== Sys2Proof/Safety.lean ====
section
/-! DEFINITION. What counts as a safe run: the vocabulary of the claims. Event counts (R47, R145); the control bits,
the guard and the mask at every sequencer point (10 R25, R33; 70 R264 to R269); the transitions of 45 R173 and 46
R201; the invariant of the sequencer. -/

namespace Sys2Proof.Machine

/-! ### Events -/

/-- A register write in the sense of section 8 (R47). -/
def Event.isRegisterWrite : Event → Bool
  | .rw _ _ | .wdtStop | .wdtStart _ | .fw8 _ _ | .fw32 _ _ => true
  | .rr _ _ | .fr32 _ _ | .sr8 _ _ | .wait _ | .irqMask | .irqRestore => false

/-- A watchdog start (R121). -/
def Event.isWdtStart : Event → Bool
  | .wdtStart _ => true
  | .rr _ _ | .rw _ _ | .fw8 _ _ | .fw32 _ _ | .fr32 _ _ | .sr8 _ _ | .wait _ | .wdtStop | .irqMask
  | .irqRestore => false

/-- A watchdog stop (R120). -/
def Event.isWdtStop : Event → Bool
  | .wdtStop => true
  | .rr _ _ | .rw _ _ | .fw8 _ _ | .fw32 _ _ | .fr32 _ _ | .sr8 _ _ | .wait _ | .wdtStart _ | .irqMask
  | .irqRestore => false

/-- A write of a block-enable register (R154). -/
def Event.isBlockEnable : Event → Bool
  | .rw (.ebr _) _ => true
  | .rw (.fcr _) _ | .rr _ _ | .fw8 _ _ | .fw32 _ _ | .fr32 _ _ | .sr8 _ _ | .wait _ | .wdtStop | .wdtStart _
  | .irqMask | .irqRestore => false

/-- The flash words read by a list of events, each with the value returned, in order (R116). -/
def wordsRead : List Event → List (Word × Word)
  | [] => []
  | .fr32 a v :: l => (a, v) :: wordsRead l
  | .rr _ _ :: l | .rw _ _ :: l | .fw8 _ _ :: l | .fw32 _ _ :: l | .sr8 _ _ :: l | .wait _ :: l | .wdtStop :: l
  | .wdtStart _ :: l | .irqMask :: l | .irqRestore :: l => wordsRead l

/-- The flash words probed by a list of events, in order (R115). -/
def wordsProbed : List Event → List (Word × Word)
  | [] => []
  | .fw32 a v :: l => (a, v) :: wordsProbed l
  | .rr _ _ :: l | .rw _ _ :: l | .fw8 _ _ :: l | .fr32 _ _ :: l | .sr8 _ _ :: l | .wait _ :: l | .wdtStop :: l
  | .wdtStart _ :: l | .irqMask :: l | .irqRestore :: l => wordsProbed l

/-- A read of a register or a write of an `FCR`: the accesses whose values depend on the control bits and on the status
inputs (R110 to R113). -/
def Event.isControl : Event → Bool
  | .rr _ _ | .rw (.fcr _) _ => true
  | .rw (.ebr _) _ | .fw8 _ _ | .fw32 _ _ | .fr32 _ _ | .sr8 _ _ | .wait _ | .wdtStop | .wdtStart _ | .irqMask
  | .irqRestore => false

/-- The events of an operation but for its accesses of the control registers. -/
def shown (es : List Event) : List Event := es.filter (fun e => !e.isControl)

/-! ### Where the watchdog cannot overflow (R143), and which addresses exist (R40, R61) -/

/-- R143 admits no overflow now. -/
def Watchdog.calm (p : DeviceProfile) (w : Watchdog) : Bool :=
  !(w.run && w.rste) || decide (p.cycPerIter * w.cnt + p.guardOverheadMax < p.wdtInterval w.div)

/-- R143 admits no overflow now. -/
def State.calm (s : State) : Bool := s.wdt.calm s.profile

end Sys2Proof.Machine

namespace Sys2Proof

/-- A flash word access that R40 and R61 allow. -/
def DeviceProfile.wordReachable (p : DeviceProfile) (a : Word) : Bool := decide (a.toNat % 4 = 0) && p.hasFlashWord a

/-- A range of whole pages inside the flash space: what `write_range` asks of its host (R161, R164, R276). -/
def DeviceProfile.rangeFits (p : DeviceProfile) (dest len : Word) : Bool :=
  decide (dest ≤ p.flashMax) && decide (dest.toNat % p.pageBytes = 0) && decide (len.toNat % p.pageBytes = 0)
    && decide (dest.toNat + len.toNat ≤ p.flashMax.toNat + 1)

/-- One of the four host commands (R93). -/
def Instr.isCommand : Instr → Bool
  | .init | .unprotect | .eraseBlock _ | .writeRange _ _ _ => true
  | .regRead _ | .regWrite _ _ | .flashWrite8 _ _ | .flashWrite32 _ _ | .flashRead32 _ | .srcRead8 _ | .waitOp _
  | .wdtStop | .wdtStart _ | .irqMask | .irqRestore | .bitSet _ _ | .bitClr _ _ | .srcWord _ | .precond
  | .waitProc _ | .scopedGuard _ _ | .guardAcquire _ | .guardRelease | .resolveBlock _ | .selectBlock _
  | .resolveAddressRange _ _ | .validateRange _ _ | .pageLoop | .erasePulse _ | .eraseVerify _ _ _
  | .writePage _ _ | .programPulse _ _ | .verifyWord _ _ _ | .systemReset => false

/-- A block of the table: its first address and its exclusive end (R151). -/
def DeviceProfile.inBlock (p : DeviceProfile) (i : Nat) (a : Nat) : Bool :=
  decide ((p.tableAt i).toNat ≤ a) && decide (a < (p.tableAt (i + 1)).toNat)

/-- The watchdog after an act: only a `Wait`, a start and a stop change it (R120, R121, R130). -/
def Act.watchdog (w : Machine.Watchdog) : Act → Machine.Watchdog
  | .wait c => w.begin c
  | .wdtStop => { w with run := false }
  | .wdtStart d => { run := true, div := d, rste := true, cnt := 0 }
  | .read _ | .write _ _ | .setBit _ _ | .clrBit _ _ | .copy _ | .latch _ | .latchOvw _ | .probe | .readBack
  | .srcByte _ | .irqMask | .irqRestore => w

/-- Whether the flash address of an act exists and is aligned (R40, R61). -/
def Act.reaches (s : Machine.State) : Act → Bool
  | .latch i | .latchOvw i => s.profile.hasFlashByte (Machine.offset s.ctx.pgDest i)
  | .probe | .readBack => s.profile.wordReachable s.ctx.vaddr
  | .read _ | .write _ _ | .setBit _ _ | .clrBit _ _ | .copy _ | .srcByte _ | .wait _ | .wdtStop | .wdtStart _
  | .irqMask | .irqRestore => true

/-- The event code of the micro-operation an act is (R96). -/
def Act.code : Act → BitVec 4
  | .read _ => 0x0
  | .write _ _ | .setBit _ _ | .clrBit _ _ => 0x1
  | .latch _ | .latchOvw _ => 0x2
  | .probe => 0x3
  | .readBack => 0x4
  | .copy _ | .srcByte _ => 0x5
  | .wait _ => 0x6
  | .wdtStop => 0x7
  | .wdtStart _ => 0x8
  | .irqMask => 0x9
  | .irqRestore => 0xA

end Sys2Proof

namespace Sys2Proof.Machine

/-- No overflow is admitted after any act of a run (R143). -/
def calmRun (p : DeviceProfile) : Watchdog → List Act → Bool
  | _, [] => true
  | w, a :: l => (a.watchdog w).calm p && calmRun p (a.watchdog w) l

/-- Every act of a run can be performed from `s`: its flash address exists, and no overflow is admitted. -/
def State.fits (s : State) (l : List Act) : Bool := calmRun s.profile s.wdt l && l.all (Act.reaches s)

/-! ### Control bits at every sequencer point -/

/-- The control bits of `FCR[bank]` while the sequencer stands before micro-operation `pos` of a stretch (R25, R265). -/
def controlAt (g : Seg) (pos : Nat) : List Field :=
  match g with
  | .idle | .validate | .gInit | .ePre | .eSwe | .wPre | .wCopy | .nextPage => []
  | .eEnabled | .eSelect | .eArm | .eRetry | .wLatch | .oLatch | .wRetry => [.swe]
  | .eArmed => [.swe, .esu]
  | .ePulse => if pos ≤ 2 then [.swe, .esu] else [.swe, .esu, .e]
  | .eSettle => if pos ≤ 3 then [.swe, .esu] else [.swe]
  | .evEnter => if pos ≤ 1 then [.swe] else [.swe, .ev]
  | .evWord => [.swe, .ev]
  | .evExit => if pos ≤ 1 then [.swe, .ev] else [.swe]
  | .eDone | .eFail | .wDone | .wFail => if pos ≤ 1 then [.swe] else []
  | .wSwe => if pos ≤ 1 then [] else [.swe]
  | .wArm | .oArm => if pos ≤ 3 then [.swe] else [.swe, .psu]
  | .wPulse | .oPulse => if pos ≤ 2 then [.swe, .psu] else [.swe, .psu, .p]
  | .wSettle | .oSettle => if pos ≤ 3 then [.swe, .psu] else [.swe]
  | .pvEnter => if pos ≤ 1 then [.swe] else [.swe, .pv]
  | .pvWord => [.swe, .pv]
  | .pvExit => if pos ≤ 1 then [.swe, .pv] else [.swe]
  | .wFatal => if pos ≤ 1 then [.swe, .pv] else if pos ≤ 4 then [.swe] else []

/-- The sets of control bits one `FCR[k]` may hold (R33), each in the order of `Field.all`. -/
def legalControls : List (List Field) :=
  [[], [.swe], [.swe, .esu], [.swe, .esu, .e], [.swe, .ev], [.swe, .psu], [.swe, .psu, .p], [.swe, .pv]]

/-- Whether a point lies inside a guard scope: after `WdtStart` and before the `WdtStop` of the release (R142). -/
def guardedAt (g : Seg) (pos : Nat) : Bool :=
  match g with
  | .eArm | .wArm | .oArm => decide (2 ≤ pos)
  | .eArmed | .ePulse | .eSettle | .wPulse | .wSettle | .oPulse | .oSettle => true
  | .idle | .validate | .gInit | .ePre | .eSwe | .eEnabled | .eSelect | .evEnter | .evWord | .evExit | .eRetry
  | .eDone | .eFail | .wPre | .wCopy | .wSwe | .wLatch | .pvEnter | .pvWord | .pvExit | .oLatch | .wRetry | .wDone
  | .wFatal | .wFail | .nextPage => false

/-- The divisor of the guard scopes of a stretch (R144). -/
def guardDivisor (p : DeviceProfile) (g : Seg) : Divisor :=
  match g with
  | .eArm | .eArmed | .ePulse | .eSettle => p.wdtDivErase
  | .idle | .validate | .gInit | .ePre | .eSwe | .eEnabled | .eSelect | .evEnter | .evWord | .evExit | .eRetry
  | .eDone | .eFail | .wPre | .wCopy | .wSwe | .wLatch | .wArm | .wPulse | .wSettle | .pvEnter | .pvWord | .pvExit
  | .oLatch | .oArm | .oPulse | .oSettle | .wRetry | .wDone | .wFatal | .wFail | .nextPage => p.wdtDivProgram

/-- The delay iterations begun since the guard's start, at a point of a pulse with these four delays: setup, pulse,
cleanup, setup hold (R143). The stretches after the arming one are numbered 1 (pulse window) and 2 (cleanup). -/
def pulseCount (part : Nat) (pos : Nat) (setup width hold setupHold : Word) : Nat :=
  match part with
  | 1 => if pos ≤ 3 then setup.toNat else setup.toNat + width.toNat
  | _ =>
    if pos ≤ 1 then setup.toNat + width.toNat
    else if pos ≤ 4 then setup.toNat + width.toNat + hold.toNat
    else setup.toNat + width.toNat + hold.toNat + setupHold.toNat

/-- The delay iterations begun since the guard's start at the sequencer's point (R143). -/
def State.guardCount (s : State) : Nat :=
  let d := s.profile.delays
  match s.seq.seg with
  | .ePulse => pulseCount 1 s.seq.pos d.esuSetup d.ePulse d.eHold d.esuHold
  | .eSettle => pulseCount 2 s.seq.pos d.esuSetup d.ePulse d.eHold d.esuHold
  | .wPulse => pulseCount 1 s.seq.pos d.psuSetup (s.profile.pulseWidth s.ctx.n) d.pHold d.psuHold
  | .wSettle => pulseCount 2 s.seq.pos d.psuSetup (s.profile.pulseWidth s.ctx.n) d.pHold d.psuHold
  | .oPulse => pulseCount 1 s.seq.pos d.psuSetup d.pAdd d.pHold d.psuHold
  | .oSettle => pulseCount 2 s.seq.pos d.psuSetup d.pAdd d.pHold d.psuHold
  | .idle | .validate | .gInit | .ePre | .eSwe | .eEnabled | .eSelect | .eArm | .eArmed | .evEnter | .evWord
  | .evExit | .eRetry | .eDone | .eFail | .wPre | .wCopy | .wSwe | .wLatch | .wArm | .pvEnter | .pvWord | .pvExit
  | .oLatch | .oArm | .wRetry | .wDone | .wFatal | .wFail | .nextPage => 0

/-- Whether a point lies between `IrqMask` and `IrqRestore` (R118, R119, R269). -/
def maskedAt (g : Seg) (pos : Nat) : Bool :=
  match g with
  | .ePulse | .wPulse | .oPulse => decide (1 ≤ pos)
  | .eSettle | .wSettle | .oSettle => decide (pos = 0)
  | .idle | .validate | .gInit | .ePre | .eSwe | .eEnabled | .eSelect | .eArm | .eArmed | .evEnter | .evWord
  | .evExit | .eRetry | .eDone | .eFail | .wPre | .wCopy | .wSwe | .wLatch | .wArm | .pvEnter | .pvWord | .pvExit
  | .oLatch | .oArm | .wRetry | .wDone | .wFatal | .wFail | .nextPage => false

/-- Whether a stretch belongs to an erase whose block is resolved (R170). -/
def Seg.erasing : Seg → Bool
  | .ePre | .eSwe | .eEnabled | .eSelect | .eArm | .eArmed | .ePulse | .eSettle | .evEnter | .evWord | .evExit
  | .eRetry | .eDone | .eFail => true
  | .idle | .validate | .gInit | .wPre | .wCopy | .wSwe | .wLatch | .wArm | .wPulse | .wSettle | .pvEnter | .pvWord
  | .pvExit | .oLatch | .oArm | .oPulse | .oSettle | .wRetry | .wDone | .wFatal | .wFail | .nextPage => false

/-- Whether a stretch lies between `SelectBlock` and the end of the erase pulse's guard (R154, R175). -/
def Seg.selectedBlock : Seg → Bool
  | .eArm | .eArmed | .ePulse | .eSettle => true
  | .idle | .validate | .gInit | .ePre | .eSwe | .eEnabled | .eSelect | .evEnter | .evWord | .evExit | .eRetry
  | .eDone | .eFail | .wPre | .wCopy | .wSwe | .wLatch | .wArm | .wPulse | .wSettle | .pvEnter | .pvWord | .pvExit
  | .oLatch | .oArm | .oPulse | .oSettle | .wRetry | .wDone | .wFatal | .wFail | .nextPage => false

/-! ### The invariant of the sequencer -/

/-- Memory in canonical form, the latch in address order (R81). -/
def Env.wf (e : Env) : Bool := e.cells.wf && e.source.wf && e.latch.rising

/-- The buffers have `PAGE` bytes (R27). -/
def State.buffersWf (s : State) : Bool :=
  decide (s.ctx.rbuf.length = s.profile.pageBytes) && decide (s.ctx.obuf.length = s.profile.obufBytes)

/-- The read-only status bit is stored as 0 in both `FCR[k]` (R33, R111). -/
def State.statusBitsClear (s : State) : Bool :=
  [Bank.b0, Bank.b1].all (fun k => decide (s.fcr k &&& s.profile.regLayout.statusMask = 0))

/-- The position names a micro-operation of the stretch, or is 0 in a stretch that has none. -/
def State.posWf (s : State) : Bool :=
  decide (s.seq.pos < (s.seq.seg.acts s).length) || (decide (s.seq.seg.acts s = []) && decide (s.seq.pos = 0))

/-- Only the selected bank has control bits, and exactly those of the point (R33, R265). -/
def State.controlWf (s : State) : Bool :=
  [Bank.b0, Bank.b1].all (fun k => Field.all.all (fun f =>
    s.bit k f == (decide (k = s.ctx.bank) && decide (f ∈ controlAt s.seq.seg s.seq.pos))))

/-- The watchdog runs exactly inside the guard scopes, with its reset enabled, at the divisor of the engine, its
count the sum of the delays begun (R142 to R145). -/
def State.watchdogWf (s : State) : Bool :=
  if guardedAt s.seq.seg s.seq.pos then
    s.wdt.run && s.wdt.rste && decide (s.wdt.div = guardDivisor s.profile s.seq.seg)
      && decide (s.wdt.cnt = s.guardCount)
  else !s.wdt.run

/-- Interrupts are masked between `IrqMask` and `IrqRestore` (R118, R269). -/
def State.maskWf (s : State) : Bool := !maskedAt s.seq.seg s.seq.pos || s.irq.mask

/-- An erase in progress has the bank of its block, and its block's enable bit alone is set from `SelectBlock` to
the end of the pulse (R154, R175, R266). -/
def State.selectionWf (s : State) : Bool :=
  (!s.seq.seg.erasing
    || (decide (s.opr.index.toNat < s.profile.blockCount)
      && decide (s.ctx.bank = s.profile.blockBank s.opr.index.toNat)))
  && (!s.seq.seg.selectedBlock
    || (decide (s.ebr s.ctx.bank = s.profile.ebrMask s.opr.index.toNat) && decide (s.ebr s.ctx.bank.other = 0)))
  && (!(decide (s.seq.seg = .eSelect) && decide (s.seq.pos = 1)) || decide (s.ebr s.ctx.bank.other = 0))

/-- Before the second half of a `BitSet` or `BitClr` the value read is the register's (R64, R271). -/
def State.readWf (s : State) : Bool :=
  match s.act with
  | some (.setBit k _) | some (.clrBit k _) => decide (s.loc.rd &&& ~~~s.profile.regLayout.statusMask = s.fcr k)
  | _ => true

/-- The invariant that every step of the sequencer keeps. -/
def State.Inv (s : State) : Bool :=
  s.profile.wf && s.env.wf && s.buffersWf && s.statusBitsClear && s.posWf && s.controlWf && s.watchdogWf && s.maskWf
    && s.selectionWf && s.readWf && decide (s.port.uword = none)

/-- Whether a stretch works on a page (R191). -/
def Seg.writing : Seg → Bool
  | .wPre | .wCopy | .wSwe | .wLatch | .wArm | .wPulse | .wSettle | .pvEnter | .pvWord | .pvExit | .oLatch | .oArm
  | .oPulse | .oSettle | .wRetry | .wDone | .wFatal | .wFail => true
  | .idle | .validate | .gInit | .ePre | .eSwe | .eEnabled | .eSelect | .eArm | .eArmed | .ePulse | .eSettle
  | .evEnter | .evWord | .evExit | .eRetry | .eDone | .eFail | .nextPage => false

/-- The operand registers stand at a whole page of the flash space, of a range of whole pages (R161, R162). -/
def State.pageWf (s : State) : Bool :=
  decide (s.opr.dest.toNat % s.profile.pageBytes = 0) && decide (s.opr.len.toNat % s.profile.pageBytes = 0)
    && decide (s.opr.len ≠ 0) && decide (s.opr.dest ≤ s.profile.flashMax)

/-- In a verify word, the probe write has armed the word before its delay, and the read-back is meaningful when it is
made (R172, R193, R268). -/
def State.probeWf (s : State) : Bool :=
  !(decide (s.seq.seg = .evWord) || decide (s.seq.seg = .pvWord))
  || ((!decide (s.seq.pos = 1) || decide (s.env.view.probedAt s.ctx.vaddr = some s.env.view.waited))
    && (!decide (s.seq.pos = 2) || s.meaningful s.ctx.vaddr))

/-- The address registers: those of the page (R191), of the verify word (R193), of the block (R150) and of the scan
(R172); and the word armed for its read-back (R268). -/
def State.addressesWf (s : State) : Bool :=
  (!(s.seq.seg.writing || decide (s.seq.seg = .nextPage)) || s.pageWf)
  && (!s.seq.seg.writing
    || (decide (s.ctx.pgDest = s.opr.dest) && decide (s.ctx.pgSrc = s.opr.src)
      && decide (s.ctx.bank = s.profile.bankOf s.opr.dest)))
  && (!decide (s.seq.seg = .pvWord)
    || (decide (s.loc.j < s.profile.pageWords) && decide (s.ctx.vaddr = offset s.ctx.pgDest (4 * s.loc.j))))
  && (!s.seq.seg.erasing
    || (decide (s.ctx.blkStart = s.profile.tableAt s.opr.index.toNat)
      && decide (s.ctx.blkEnd = s.profile.tableAt (s.opr.index.toNat + 1))))
  && (!decide (s.seq.seg = .evWord)
    || (decide (s.ctx.vaddr.toNat % 4 = 0) && decide (s.ctx.blkStart ≤ s.ctx.vaddr)
      && decide (s.ctx.vaddr < s.ctx.blkEnd)))
  && s.probeWf

/-! ### Transitions of the state register -/

/-- The transitions of R173: `Idle`, `Validate` and the erase engine. -/
def eraseArrows : List (St × St) :=
  [(.idle, .validate), (.validate, .idle), (.validate, .enabled), (.enabled, .eraseArmed), (.enabled, .failed),
    (.eraseArmed, .pulsing), (.pulsing, .settling), (.settling, .verifying), (.verifying, .success),
    (.verifying, .retryErase), (.retryErase, .enabled), (.verifying, .failed), (.success, .idle), (.failed, .idle)]

/-- The transitions of R201 up to the supplemental pulse: the write engine. -/
def writeArrows : List (St × St) :=
  [(.validate, .wPrecheck), (.wPrecheck, .nextPage), (.wPrecheck, .wCopy), (.wCopy, .wEnabled),
    (.wEnabled, .latching), (.wEnabled, .wFailed), (.latching, .programArmed), (.programArmed, .progPulsing),
    (.progPulsing, .progSettling), (.progSettling, .progVerifying), (.progVerifying, .wFatal),
    (.progVerifying, .ovwLatching), (.ovwLatching, .ovwArmed), (.ovwArmed, .ovwPulsing), (.ovwPulsing, .ovwSettling)]

/-- The transitions of R201 that end an attempt and a page. -/
def pageArrows : List (St × St) :=
  [(.progVerifying, .wSuccess), (.progVerifying, .retryWrite), (.progVerifying, .wFailed), (.ovwSettling, .wSuccess),
    (.ovwSettling, .retryWrite), (.ovwSettling, .wFailed), (.retryWrite, .latching), (.wSuccess, .nextPage),
    (.wFatal, .nextPage), (.wFailed, .nextPage), (.nextPage, .wPrecheck), (.nextPage, .idle)]

/-- The transitions of R173 and R201. -/
def arrows : List (St × St) := eraseArrows ++ writeArrows ++ pageArrows

/-! ### The runs of the two engines, from the words they read back

An attempt is given by the words its scan reads back, in order; a run is the list of its attempts. -/

/-- The guard, the delays and the mask window of a pulse (R171, R192). -/
def pulseEvents (d : Divisor) (setup width hold setupHold : Word) : List Event :=
  [.wdtStop, .wdtStart d, .wait setup, .irqMask, .wait width, .irqRestore, .wait hold, .wait setupHold, .wdtStop]

/-- Whether every word of a scan read `ONES32`. -/
def allOnes (vs : List Word) : Bool := vs.all (fun v => decide (v = ones32))

/-- One attempt of `erase_block` (R170 step 4): the two block-enable writes (R154), the pulse (R171), the scan from the
block's first address on (R172). -/
def eraseAttemptEvents (p : DeviceProfile) (index : Nat) (vs : List Word) : List Event :=
  [.rw (.ebr (p.blockBank index).other) 0, .rw (.ebr (p.blockBank index)) (1#8 <<< p.ebrBit index)]
    ++ pulseEvents p.wdtDivErase p.delays.esuSetup p.delays.ePulse p.delays.eHold p.delays.esuHold
    ++ [.wait p.delays.evSetup]
    ++ vs.zipIdx.flatMap (fun c =>
      let a := offset (p.tableAt index) (4 * c.2)
      [Event.fw32 a ones32, .wait p.delays.evRead, .fr32 a c.1])
    ++ [.wait p.delays.evHold]

/-- The status of an erase from its scans, `n` attempts having been made before (R170, R172, R177, R237): `ok` at the first
scan that read the whole block as `ONES32`; `erase-verify-failed` when the budget is used up; every other scan
stops at its first word that is not `ONES32`. -/
def eraseRun (p : DeviceProfile) (words : Nat) : Nat → List (List Word) → Status → Prop
  | n, [], r => r = .eraseVerifyFailed ∧ n = p.maxEraseRetries.toNat
  | n, vs :: rest, r =>
    n < p.maxEraseRetries.toNat ∧
      if allOnes vs then vs.length = words ∧ rest = [] ∧ r = .ok
      else vs.length ≤ words ∧ allOnes vs.dropLast = true ∧ eraseRun p words (n + 1) rest r

/-- The byte reads of the source from offset `first` on (R117, R123). -/
def sourceEvents (m : Memory) (src : Word) (first n : Nat) : List Event :=
  (List.range n).map (fun i => .sr8 (offset src (first + i)) (m.read (offset src (first + i)).toNat))

/-- The source words of a page, most significant byte first (R60, R123). -/
def sourceWords (p : DeviceProfile) (m : Memory) (src : Word) : List Word :=
  (List.range p.pageWords).map (fun j =>
    m.read (offset src (4 * j)).toNat ++ m.read (offset src (4 * j + 1)).toNat ++ m.read (offset src (4 * j + 2)).toNat
      ++ m.read (offset src (4 * j + 3)).toNat)

/-- A latch pass: every byte of a buffer given as words, to ascending addresses (R191 step 3a, R198, R267; R60). -/
def latchEvents (dest : Word) (buf : List Word) : List Event :=
  (buf.flatMap (fun w => [w.extractLsb' 24 8, w.extractLsb' 16 8, w.extractLsb' 8 8, w.extractLsb' 0 8])).zipIdx.map
    (fun c => .fw8 (offset dest c.2) c.1)

/-- A program pulse of a width (R192). -/
def programEvents (p : DeviceProfile) (width : Word) : List Event :=
  pulseEvents p.wdtDivProgram p.delays.psuSetup width p.delays.pHold p.delays.psuHold

/-- Whether some word read back shows a 0 where the source has a 1 (R197). -/
def anyFatal (source vs : List Word) : Bool := (source.zip vs).any (fun c => decide (c.1 &&& ~~~c.2 ≠ 0))

/-- The next reprogram buffer, `source | ~readback` word by word (R194). -/
def nextReprogram (source vs : List Word) : List Word := List.zipWith (fun s v => s ||| ~~~v) source vs

/-- One attempt of `write_page` after `n` others, with the reprogram buffer `r` (R191 steps 3a to 3e, R193): the latch pass
of `r`, the main pulse, short for the first `OVERWRITE_COUNT` attempts and long thereafter (R199), the verify words; then,
unless a word was fatal (R197), the overwrite pass with `readback | r` (R195, R198). -/
def pageAttemptEvents (p : DeviceProfile) (m : Memory) (dest src : Word) (n : Nat) (r vs : List Word) : List Event :=
  latchEvents dest r
    ++ programEvents p (if n < p.overwriteCount.toNat then p.delays.pShort else p.delays.pLong)
    ++ [.wait p.delays.pvSetup]
    ++ vs.zipIdx.flatMap (fun c =>
      let a := offset dest (4 * c.2)
      [Event.fw32 a ones32, .wait p.delays.pvRead, .fr32 a c.1] ++ sourceEvents m src (4 * c.2) 4)
    ++ [.wait p.delays.pvHold]
    ++ if p.hasOverwrite && decide (n < p.overwriteCount.toNat) && !anyFatal (sourceWords p m src) vs then
        latchEvents dest (List.zipWith (fun v w => v ||| w) vs r) ++ programEvents p p.delays.pAdd
      else []

/-- The attempts of a page, one after the other, each with the reprogram buffer the one before it left (R194). -/
def pageAttemptsEvents (p : DeviceProfile) (m : Memory) (dest src : Word) :
    Nat → List Word → List (List Word) → List Event
  | _, _, [] => []
  | n, r, vs :: rest =>
    pageAttemptEvents p m dest src n r vs
      ++ pageAttemptsEvents p m dest src (n + 1) (nextReprogram (sourceWords p m src) vs) rest

/-- The status of a page from the words its attempts read back, `n` attempts having been made before and `r` latched in
this one (R191, R196, R197, R238, R239): `program-verify-fatal` in the attempt in which a word is fatal, that word its last;
`ok` after the first complete attempt without a mismatch; `write-max-retries` when the budget is used up. -/
def pageRun (p : DeviceProfile) (source : List Word) : Nat → List Word → List (List Word) → Status → Prop
  | n, _, [], res => res = .writeMaxRetries ∧ n = p.maxWriteRetries.toNat
  | n, r, vs :: rest, res =>
    n < p.maxWriteRetries.toNat ∧
      if anyFatal source vs then
        anyFatal source vs.dropLast = false ∧ vs.length ≤ source.length ∧ rest = [] ∧ res = .programVerifyFatal
      else
        vs.length = source.length ∧
          if vs = (match p.mismatchRef with | .reprogram => r | .source => source) then rest = [] ∧ res = .ok
          else pageRun p source (n + 1) (nextReprogram source vs) rest res

/-! ### Premises of claims -/

/-- A command can be accepted: the block is idle and its profile is well-formed (R90, R151). -/
def State.ready (s : State) : Bool := decide (s.seq.seg = .idle) && s.profile.wf

/-- Every control bit is 0 in both banks, as every command leaves them (R174, R200) and as reset does (R48). -/
def State.locked (s : State) : Bool := [Bank.b0, Bank.b1].all (fun k => Field.all.all (fun f => !s.bit k f))

/-- The precondition as the two reads of `Precond` will find it: `FWE` at this moment, `FLER` at the next (R122, R236). -/
def State.precondNow (s : State) : Bool := s.statusInput .b0 && !{ s with moment := s.moment + 1 }.statusInput .b1

/-- The state after a command that made no access: its operands loaded, its status on the response port, the block
idle (R92, R94, R230). -/
def State.completed (s : State) (op : Op) (opr : Operands) (r : Status) : State :=
  { s with
    opr := opr
    port := { s.port with status := s.profile.statusEnc.code r, rspValid := true }
    seq := { op := op, seg := .idle, pos := 0 } }

end Sys2Proof.Machine
end

