-- ==== Sys2Proof/Certificates/Slice0/Obligations.lean ====
section
/-! DEFINITION. The statements for the provers: what the numbered rules of spec/ say of this machine, one definition a
statement. Where a clause rests on a choice of the model and not on the spec, its docstring names the log entry. -/

open Sys2Proof Sys2Proof.Machine

/-! ### Encoding (30_encoding.md) -/

/-- Decoding the word of an instruction gives the instruction back, with every operand at every value (R91 to R93 for
commands; the operand layout of micro-operation words is the model's, log 4). -/
def Obligations.DecodeEncodeRoundTrip : Prop :=
  ∀ (i : Instr) (sp : Space) (w : Nat), encode i = some (sp, w) → decode sp w = .ok i

/-- R91 to R93: bits 97:96 select the command and nothing else does; the operands are the fields bit by bit. -/
def Obligations.CommandDecoderReadsOpAndFields : Prop :=
  ∀ w : BitVec 98,
    (w.getLsbD 97 = false → w.getLsbD 96 = false → decodeCommand w = .init) ∧
    (w.getLsbD 97 = false → w.getLsbD 96 = true → decodeCommand w = .unprotect) ∧
    (w.getLsbD 97 = true → w.getLsbD 96 = false → ∃ index, decodeCommand w = .eraseBlock index ∧
      ∀ b < 32, index.getLsbD b = w.getLsbD (64 + b)) ∧
    (w.getLsbD 97 = true → w.getLsbD 96 = true → ∃ dest src len, decodeCommand w = .writeRange dest src len ∧
      ∀ b < 32, dest.getLsbD b = w.getLsbD (64 + b) ∧ src.getLsbD b = w.getLsbD (32 + b) ∧
        len.getLsbD b = w.getLsbD b)

/-- R96, R97: the four commands and the eleven micro-operations have an encoding, no internal procedure has one; and a
word at the command port is never a micro-operation. -/
def Obligations.OnlyCommandsAndMicroOpsAreEncoded : Prop :=
  (∀ i : Instr, (encode i).isSome = true ↔ i.isCommand = true ∨ ∃ u : MicroOp, i = u.toInstr) ∧
    ∀ (w : Nat) (i : Instr), decode .command w = .ok i → i.isCommand = true

/-- Words written out from 95_test_vectors.md section 7 and from the event codes of R96. -/
def Obligations.SpecWordsDecode : Prop :=
  decode .command 0x0000000000000000000000000 = .ok .init ∧
  decode .command 0x1000000000000000000000000 = .ok .unprotect ∧
  decode .command 0x2000000010000000000000000 = .ok (.eraseBlock 1) ∧
  decode .command 0x3000000400000100000000020 = .ok (.writeRange 0x40 0x1000 32) ∧
  decode .command 0x3000000410000100000000021 = .ok (.writeRange 0x41 0x1000 33) ∧
  decodeTableWord 8 0x7 = some .wdtStop ∧ decodeTableWord 8 0xA = some .irqRestore ∧ decodeTableWord 8 0xB = none

/-! ### The step -/

/-- A step runs the decoded instruction (log 2, log 3). A command word on the command port of an idle block is
accepted (R90); a placed micro-operation word is run by `exec`; and every micro-operation of the sequencer is run by
`exec`, its value stored and the sequencer moved on. -/
def Obligations.StepRunsDecoded : Prop :=
  ∀ s : State, s.port.resetPin = false →
    (∀ w i, s.port.uword = some w → decode .micro w.toNat = .ok i → step s = exec i s.clearUword) ∧
    (s.port.uword = none → s.ready = true → ∀ w l i, s.port.cmds = w :: l → decode .command w.toNat = .ok i →
      step s = .next (accept i (s.withCmds l))) ∧
    (s.port.uword = none → ∀ a, s.act = some a →
      step s = andThen (exec (a.op s).toInstr s) (fun t => advance (a.store t)))

/-- The sequencer, run from a command word on the port of an idle block, comes to exactly the outcome that `exec` gives
the command: to the same state after the response, to the same fault, to the same refusal (log 2). -/
def Obligations.CommandRunIsOperation : Prop :=
  ∀ (s : State) (w : BitVec 98), s.ready = true → s.port.uword = none → s.port.resetPin = false →
    ∃ k, Host.Core.run Sys2Proof.core k (s.withCmds (w :: s.port.cmds)) = exec (decodeCommand w) s

/-- R24, R67: a step makes at most one micro-operation, and a micro-operation appends one event. -/
def Obligations.OneEventPerStep : Prop :=
  ∀ s t : State, s.port.resetPin = false → s.port.uword = none → step s = .next t →
    t.trace = s.trace ∨ ∃ e, t.trace = s.trace ++ [e]

/-- R90, R92: a command is taken only while the block is idle, and then its operands are loaded as they stand in the
word; from acceptance until the response nothing is taken from the port. That an idle step lowers `rsp_valid`, and that it
is 0 after an acceptance, is log 22. -/
def Obligations.CommandPortHandshake : Prop :=
  ∀ s t : State, s.port.resetPin = false → s.port.uword = none → step s = .next t →
    (s.cmdReady = false → t.port.cmds = s.port.cmds) ∧
    (s.cmdReady = true → s.port.cmds = [] → t = { s with port := { s.port with rspValid := false } }) ∧
    (s.cmdReady = true → ∀ w l, s.port.cmds = w :: l →
      t.port.cmds = l ∧ t.st = .validate ∧ t.port.rspValid = false ∧ t.trace = s.trace ∧ t.env = s.env ∧
      t.regs = s.regs ∧
      t.opr =
        (if w.extractLsb' 96 2 = 2#2 then { s.opr with index := w.extractLsb' 64 32 }
        else if w.extractLsb' 96 2 = 3#2 then
          { s.opr with dest := w.extractLsb' 64 32, src := w.extractLsb' 32 32, len := w.extractLsb' 0 32 }
        else s.opr))

/-- R173, R201: the state register moves along the arrows of the two state machines only. -/
def Obligations.TransitionsAllowed : Prop :=
  ∀ s t : State, s.port.resetPin = false → s.port.uword = none → step s = .next t →
    t.st = s.st ∨ (s.st, t.st) ∈ arrows

/-! ### Invariants of the sequencer -/

/-- The invariant holds after a reset, under every well-formed profile and environment (the watchdog stopped at reset
is log 8, the memory's form log 11). -/
def Obligations.InvAtReset : Prop :=
  (∀ (p : DeviceProfile) (env : Env) (moment : Nat), p.wf = true → env.wf = true →
    (State.afterReset p env moment).Inv = true ∧ (State.afterReset p env moment).addressesWf = true) ∧
  State.reset.Inv = true ∧ State.reset.addressesWf = true

/-- Every step keeps the invariant: memory canonical, control bits those of the sequencer's point in the selected bank
alone (R33, R265), the watchdog running exactly inside guard scopes with the delays begun as its count (R142 to R145),
interrupts masked in the pulse window (R269), the block's enable bit alone set up to the end of its pulse (R175). -/
def Obligations.StepKeepsInv : Prop :=
  ∀ s t : State, s.Inv = true → step s = .next t → t.Inv = true

/-- Every step keeps the address registers in place: the page aligned, inside the flash space and in its bank, the scan
inside its block (R61, R150, R162, R163); and every verify read the sequencer makes is meaningful, its word armed by the
probe and the read delay waited (R172, R193, R268). -/
def Obligations.StepKeepsAddresses : Prop :=
  ∀ s t : State, s.Inv = true → s.addressesWf = true → step s = .next t → t.addressesWf = true

/-- Under the profile constraint of R146 no step faults: the watchdog never fires in a run of this block (R143), and no
access is misaligned (R62) or outside the flash space (R40). -/
def Obligations.StepNeverFaults : Prop :=
  ∀ (s : State) (e : Fault), s.Inv = true → s.addressesWf = true → s.profile.guardWf = true → step s ≠ .fault e

/-- R175, R264, R266, R269: while `E` or `P` is 1 the watchdog runs with its reset enabled, interrupts are masked and
the setup bit and `SWE` are set; while `E` is 1 the one bit set across `EBR[0]` and `EBR[1]` is that of the requested
block; from `SelectBlock` to the end of the erase pulse, and while `P` is 1, no step writes a block-enable register, not
even with the value it holds: no event it appends is such a write. For a program pulse the spec asks no block to be
selected. -/
def Obligations.PulseMomentIsSafe : Prop :=
  ∀ s : State, s.Inv = true →
    (∀ k : Bank, s.bit k .e = true ∨ s.bit k .p = true →
      s.wdt.run = true ∧ s.wdt.rste = true ∧ s.irq.mask = true ∧ s.bit k .swe = true ∧
      (s.bit k .e = true → s.bit k .esu = true ∧ ∀ j : Bank, ∀ b < 8,
        ((s.ebr j).getLsbD b = true ↔
          j = s.profile.blockBank s.opr.index.toNat ∧ b = s.profile.ebrBit s.opr.index.toNat)) ∧
      (s.bit k .p = true → s.bit k .psu = true ∧
        (s.port.resetPin = false → ∀ t, step s = .next t →
          (∀ e ∈ t.trace.drop s.trace.length, e.isBlockEnable = false) ∧ ∀ j, t.ebr j = s.ebr j))) ∧
    (s.seq.seg.selectedBlock = true → s.port.resetPin = false → ∀ t, step s = .next t →
      (∀ e ∈ t.trace.drop s.trace.length, e.isBlockEnable = false) ∧ ∀ j, t.ebr j = s.ebr j)

/-- R33, R265: the control bits of the selected bank form one of the legal sets, the other bank has none set; so at most
one of `ESU`, `PSU`, `EV`, `PV` is 1, a pulse bit only with its setup bit, and none of them without `SWE`. -/
def Obligations.ControlBitsLegal : Prop :=
  ∀ s : State, s.Inv = true →
    Field.all.filter (s.bit s.ctx.bank) ∈ legalControls ∧ Field.all.filter (s.bit s.ctx.bank.other) = []

/-! ### Reset and the watchdog (60_exceptions.md, 70_reset_and_hazards.md) -/

/-- R48, R240, R260, R261: what any reset leaves. Cells outside the blocks selected under an erase pulse and outside the
latched bytes under a program pulse keep their content (those of a page whose latch is partly loaded by log 43). The reset
input has priority over everything. -/
def Obligations.SystemResetResult : Prop :=
  ∀ s : State, ∃ t, exec .systemReset s = .next t ∧
    t.armed = false ∧ t.st = .idle ∧ t.port.rspValid = false ∧ t.dlyCnt = 0 ∧ t.trace = [] ∧
    t.regs = { fcr0 := 0, fcr1 := 0, ebr0 := 0, ebr1 := 0 } ∧ t.profile = s.profile ∧ t.env.source = s.env.source ∧
    (∀ a : Nat,
      (s.bit .b0 .e || s.bit .b1 .e) = false ∨
        (∀ i < s.profile.blockCount, s.selected i = true → s.profile.inBlock i a = false) →
      (s.bit .b0 .p || s.bit .b1 .p) = false ∨ s.env.latch.find a = none →
      t.env.cells.read a = s.env.cells.read a) ∧
    (s.port.resetPin = true → step s = .next t)

/-- R143, R240, R275: the state a watchdog fault carries is a reset state: disarmed, idle, no status, the registers 0, the
trace empty. A `Wait` whose floor, with those before it (R131), reaches the interval is struck for certain; one at which
R143 merely admits the overflow is struck where the free choice of log 7 takes it, and only there (that a watchdog outside
a guarded body is judged alike is log 42). Under an interval that the floors of a pulse reach, every attempt at the pulse
ends in the reset. -/
def Obligations.WatchdogFaultIsReset : Prop :=
  (∀ (i : Instr) (s after : State), exec i s = .fault (.watchdogReset after) →
    after.armed = false ∧ after.st = .idle ∧ after.port.rspValid = false ∧ after.dlyCnt = 0 ∧ after.trace = [] ∧
    after.regs = { fcr0 := 0, fcr1 := 0, ebr0 := 0, ebr1 := 0 } ∧ after.profile = s.profile ∧
    after.env.source = s.env.source) ∧
  (∀ (c : Word) (s : State) (d : Nat), s.wdt.run = true → s.wdt.rste = true →
    s.profile.wdtIntervals.lookup s.wdt.div = some d →
    (d ≤ s.profile.cycPerIter * (s.wdt.cnt + c.toNat) →
      ∃ after, exec (.waitOp c) s = .fault (.watchdogReset after)) ∧
    (s.profile.cycPerIter * (s.wdt.cnt + c.toNat) < d →
      d ≤ s.profile.cycPerIter * (s.wdt.cnt + c.toNat) + s.profile.guardOverheadMax →
      ∃ after t, exec (.waitOp c) s =
          (if Config.freeOverflow (s.moment + 1) then .fault (.watchdogReset after) else .next t) ∧
        t.trace = s.trace ++ [.wait c])) ∧
  (∀ (k : Bank) (s : State) (d : Nat), s.profile.wdtIntervals.lookup s.profile.wdtDivErase = some d →
    d ≤ s.profile.cycPerIter * (s.profile.delays.esuSetup.toNat + s.profile.delays.ePulse.toNat +
      s.profile.delays.eHold.toNat + s.profile.delays.esuHold.toNat) →
    ∃ after, exec (.erasePulse k) s = .fault (.watchdogReset after)) ∧
  (∀ (k : Bank) (width : Word) (s : State) (d : Nat),
    s.profile.wdtIntervals.lookup s.profile.wdtDivProgram = some d →
    d ≤ s.profile.cycPerIter * (s.profile.delays.psuSetup.toNat + width.toNat + s.profile.delays.pHold.toNat +
      s.profile.delays.psuHold.toNat) →
    ∃ after, exec (.programPulse k width) s = .fault (.watchdogReset after))

/-! ### The gate (47_protection_gate.md) and the argument checks -/

/-- R220, R221, R236: `unprotect` arms the gate, makes no access and cannot fail; `init` disarms it on both outcomes and
makes two register reads and no write, its status `device-error` exactly when `FWE` read 0 or `FLER` read 1. -/
def Obligations.GateCommandResults : Prop :=
  ∀ s : State, s.ready = true →
    exec .unprotect s = .next ({ s with armed := true }.completed .unprotect s.opr .ok) ∧
    (s.calm = true → ∃ t a b, exec .init s = .next t ∧
      a = s.content (.fcr .b0) ∧ b = { s with moment := s.moment + 1 }.content (.fcr .b1) ∧
      t = { s with
        armed := false
        port := { s.port with status := s.profile.statusEnc.code (if s.precondNow then .ok else .deviceError),
                              rspValid := true }
        seq := { op := .init, seg := .idle, pos := 0 }
        loc := { s.loc with rdPrev := a, rd := b, flag := s.precondNow }
        env := { s.env with fwe := s.env.fwe.later, fler := s.env.fler.later }
        trace := s.trace ++ [.rr (.fcr .b0) a, .rr (.fcr .b1) b]
        moment := s.moment + 2 })

/-- R29, R223: the gate has three writers, reset, `init` and `unprotect`; no engine operation changes it. -/
def Obligations.GateLifecycle : Prop :=
  (∀ (i : Instr) (s t : State), exec i s = .next t →
    (i = .init ∨ i = .systemReset → t.armed = false) ∧ (i = .unprotect → t.armed = true) ∧
    (i ≠ .init → i ≠ .systemReset → i ≠ .unprotect → t.armed = s.armed)) ∧
  (∀ s t : State, s.port.resetPin = false → s.port.uword = none → step s = .next t → t.armed ≠ s.armed →
    s.st = .validate ∧ (s.seq.op = .init ∨ s.seq.op = .unprotect))

/-- R222: a disarmed `erase_block` or `write_range` checks its arguments as when armed and then does nothing: its
operands are loaded, its status is on the response port, and everything else is as it was. The gate has no effect on
`init` and `unprotect`. -/
def Obligations.DisarmedCommandsDoNothing : Prop :=
  ∀ s : State, s.ready = true → s.armed = false →
    (∀ index, exec (.eraseBlock index) s = .next (s.completed .eraseBlock { s.opr with index := index }
      (if s.profile.blockCount ≤ index.toNat then .badBlock else .ok))) ∧
    (∀ dest src len, ∃ r, r = (if s.profile.flashMax < dest then .outOfBounds
        else if dest.toNat % s.profile.pageBytes ≠ 0 then .misaligned
        else if len.toNat % s.profile.pageBytes ≠ 0 then .badLength else Status.ok) ∧
      exec (.writeRange dest src len) s = .next ({ s with loc := { s.loc with result := r } }.completed .writeRange
        { s.opr with dest := dest, src := src, len := len } r)) ∧
    exec .init { s with armed := true } = exec .init s ∧ exec .unprotect { s with armed := true } = exec .unprotect s

/-- R232: `erase_block` of an index out of range answers `bad-block`, whatever the gate, without any access; the
sequencer raises it in `Validate`, as its first move after the acceptance. -/
def Obligations.BadBlockStatus : Prop :=
  ∀ (s : State) (index : Word), s.ready = true → s.profile.blockCount ≤ index.toNat →
    exec (.eraseBlock index) s = .next (s.completed .eraseBlock { s.opr with index := index } .badBlock) ∧
    (accept (.eraseBlock index) s).st = .validate ∧
    (s.port.resetPin = false → s.port.uword = none → step (accept (.eraseBlock index) s) =
      .next (s.completed .eraseBlock { s.opr with index := index } .badBlock))

/-- R233 to R235, R242: the three argument statuses of `write_range`, in their order, whatever the gate, without any
access; the sequencer raises them in `Validate`, as its first move after the acceptance. -/
def Obligations.RangeArgumentStatuses : Prop :=
  ∀ (s : State) (dest src len : Word) (r : Status), s.ready = true →
    (r = .outOfBounds ∧ s.profile.flashMax < dest) ∨
    (r = .misaligned ∧ dest ≤ s.profile.flashMax ∧ dest.toNat % s.profile.pageBytes ≠ 0) ∨
    (r = .badLength ∧ dest ≤ s.profile.flashMax ∧ dest.toNat % s.profile.pageBytes = 0 ∧
      len.toNat % s.profile.pageBytes ≠ 0) →
    exec (.writeRange dest src len) s = .next ({ s with loc := { s.loc with result := r } }.completed .writeRange
      { s.opr with dest := dest, src := src, len := len } r) ∧
    (accept (.writeRange dest src len) s).st = .validate ∧
    (s.port.resetPin = false → s.port.uword = none → step (accept (.writeRange dest src len) s) =
      .next ({ s with loc := { s.loc with result := r } }.completed .writeRange
        { s.opr with dest := dest, src := src, len := len } r))

/-- R161: `ValidateRange`, with its corner cases at `FLASH_MAX` and at length 0. -/
def Obligations.ValidateRangeResult : Prop :=
  ∀ (s : State) (dest len : Word), ∃ r,
    exec (.validateRange dest len) s = .next { s with loc := { s.loc with result := r } } ∧
    (s.profile.flashMax < dest → r = .outOfBounds) ∧
    (dest ≤ s.profile.flashMax → dest.toNat % s.profile.pageBytes ≠ 0 → r = .misaligned) ∧
    (dest ≤ s.profile.flashMax → dest.toNat % s.profile.pageBytes = 0 → len.toNat % s.profile.pageBytes ≠ 0 →
      r = .badLength) ∧
    (dest ≤ s.profile.flashMax → dest.toNat % s.profile.pageBytes = 0 → len.toNat % s.profile.pageBytes = 0 → r = .ok) ∧
    (s.profile.wf = true → dest = s.profile.flashMax → r = .misaligned) ∧
    (s.profile.wf = true → dest = s.profile.flashMax + 1 → r = .outOfBounds)

/-! ### Blocks, banks and pages (43_block_table_selector.md, 44_page_address_mapper.md) -/

/-- R150, R152, R160: `resolve_block` gives the block's bounds and the bank of its first address, or `bad-block` and
nothing; `resolve_address_range` gives the bank of `dest`, and `len` does not enter. Neither makes an access. -/
def Obligations.ResolveResults : Prop :=
  ∀ s : State,
    (∀ index : Word, s.profile.blockCount ≤ index.toNat →
      exec (.resolveBlock index) s = .next { s with loc := { s.loc with result := .badBlock } }) ∧
    (∀ index : Word, index.toNat < s.profile.blockCount →
      exec (.resolveBlock index) s = .next { s with
        loc := { s.loc with result := .ok }
        ctx := { s.ctx with
          blkStart := s.profile.tableAt index.toNat
          blkEnd := s.profile.tableAt (index.toNat + 1)
          bank := if s.profile.tableAt index.toNat < s.profile.bankSplit then .b0 else .b1 } }) ∧
    (∀ dest len : Word, exec (.resolveAddressRange dest len) s = .next { s with
      ctx := { s.ctx with bank := if dest < s.profile.bankSplit then .b0 else .b1 } })

/-- R153, R154: `SelectBlock` clears the other bank's register and then writes the one-hot value; afterwards exactly one
block of the table is selected; nothing else changes. -/
def Obligations.SelectBlockResult : Prop :=
  ∀ (s : State) (index : Word), index.toNat < s.profile.blockCount → s.calm = true →
    ∃ t, exec (.selectBlock index) s = .next t ∧
      t = { s with
        regs := t.regs
        trace := s.trace ++ [.rw (.ebr (s.profile.blockBank index.toNat).other) 0,
          .rw (.ebr (s.profile.blockBank index.toNat)) (1#8 <<< s.profile.ebrBit index.toNat)]
        moment := s.moment + 2 } ∧
      t.ebr (s.profile.blockBank index.toNat) = 1#8 <<< s.profile.ebrBit index.toNat ∧
      t.ebr (s.profile.blockBank index.toNat).other = 0 ∧ (∀ k, t.fcr k = s.fcr k) ∧
      (s.profile.wf = true → ∀ i < s.profile.blockCount, (t.selected i = true ↔ i = index.toNat))

/-- R150, R151, R163: under a well-formed profile every address of a block is in the block's bank, and every byte of an
aligned page is in the page's bank and in the page's block. -/
def Obligations.PagesAndBlocksInOneBank : Prop :=
  ∀ p : DeviceProfile, p.wf = true →
    (∀ i < p.blockCount, ∀ a : Word, p.inBlock i a.toNat = true → p.bankOf a = p.blockBank i) ∧
    (∀ dest : Word, dest ≤ p.flashMax → dest.toNat % p.pageBytes = 0 → ∀ i < p.pageBytes,
      p.hasFlashByte (offset dest i) = true ∧ p.bankOf (offset dest i) = p.bankOf dest ∧
      ∀ b < p.blockCount, p.inBlock b dest.toNat = true → p.inBlock b (offset dest i).toNat = true)

/-- R131, R133: the count of a delay is the least whose iterations last at least the required time, a whole number of
microseconds (log 41); under a well-formed profile, `CYC_PER_US` being `F_CLK / 10^6`, they last at least `t`
microseconds of the clock: `c × CYC_PER_ITER` cycles of `F_CLK` are no fewer than `t × F_CLK / 10^6`. -/
def Obligations.DelayCountIsCeiling : Prop :=
  ∀ (p : DeviceProfile) (t : Nat), 0 < p.cycPerIter → 0 < p.cycPerUsDen →
    t * p.cycPerUsNum ≤ p.delayCount t * (p.cycPerUsDen * p.cycPerIter) ∧
    (∀ c : Nat, t * p.cycPerUsNum ≤ c * (p.cycPerUsDen * p.cycPerIter) → p.delayCount t ≤ c) ∧
    (p.wf = true → t * p.fClk ≤ p.delayCount t * p.cycPerIter * 10 ^ 6)

/-! ### Micro-operations (40_micro_operations.md, 41_calibrated_delay_timer.md, 42_watchdog_guard_fsm.md)

`s.calm` says that R143 admits no watchdog overflow at `s`; it holds whenever the watchdog is stopped. -/

/-- R110: the value read is the register's, for `FCR[k]` the stored bits with the input `FWE` or `FLER` in the status bit;
the read is recorded and nothing but the inputs' script moves on. -/
def Obligations.RegReadResult : Prop :=
  ∀ (s : State) (r : Reg), s.calm = true →
    ∃ t v, exec (.regRead r) s = .next t ∧
      t = { s with
        loc := { s.loc with rd := v, rdPrev := s.loc.rd }
        env := { s.env with fwe := t.env.fwe, fler := t.env.fler }
        trace := s.trace ++ [.rr r v]
        moment := s.moment + 1 } ∧
      (∀ k, r = .ebr k → v = s.ebr k ∧ t.env = s.env) ∧
      (∀ k, r = .fcr k → ∀ b < 8, v.getLsbD b =
        if b = s.profile.regLayout.status.val then s.statusInput k else (s.fcr k).getLsbD b)

/-- R111: `FCR[k]` takes the value written but for its read-only status bit, `EBR[k]` takes it whole; the event records
the value as written; no other register changes, and without an ending pulse nothing in the flash macro does. -/
def Obligations.RegWriteResult : Prop :=
  ∀ (s : State) (r : Reg) (v : Byte), s.calm = true →
    ∃ t, exec (.regWrite r v) s = .next t ∧
      t = { s with
        regs := t.regs
        env := { s.env with
          cells := t.env.cells, latch := t.env.latch, view := { s.env.view with pulsed := t.env.view.pulsed } }
        trace := s.trace ++ [.rw r v]
        moment := s.moment + 1 } ∧
      (∀ k, r = .ebr k → t.ebr k = v ∧ t.ebr k.other = s.ebr k.other ∧ (∀ j, t.fcr j = s.fcr j) ∧ t.env = s.env) ∧
      (∀ k, r = .fcr k → t.fcr k.other = s.fcr k.other ∧ (∀ j, t.ebr j = s.ebr j) ∧
        (∀ b < 8, (t.fcr k).getLsbD b = (v.getLsbD b && decide (b ≠ s.profile.regLayout.status.val))) ∧
        (s.falls k v .e = false → s.falls k v .p = false → t.env = s.env))

/-- R81: the end of a pulse in the reference environment. When `E` falls every cell of every selected block becomes
0xFF; when `P` falls every latched cell becomes `cell & latch` and the latch is emptied (for the oracle too, log 13);
every other cell is as it was, in the oracle environment too (log 12). The addresses the pulse worked on are the ones
remembered for the verify reads that follow (R46, R70; log 35). -/
def Obligations.PulseEndInFlash : Prop :=
  ∀ (s t : State) (k : Bank) (v : Byte), s.env.wf = true → exec (.regWrite (.fcr k) v) s = .next t →
    (s.falls k v .p = true → t.env.latch = []) ∧ (s.falls k v .p = false → t.env.latch = s.env.latch) ∧
    ∀ a : Nat,
      (s.falls k v .e = true → s.falls k v .p = false →
        (t.env.view.covers a = true ↔ ∃ i < s.profile.blockCount, s.selected i = true ∧ s.profile.inBlock i a = true) ∧
        ((∃ i < s.profile.blockCount, s.selected i = true ∧ s.profile.inBlock i a = true) →
          s.env.mode = .reference → t.env.cells.read a = 0xFF) ∧
        ((∀ i < s.profile.blockCount, s.selected i = true → s.profile.inBlock i a = false) →
          t.env.cells.read a = s.env.cells.read a)) ∧
      (s.falls k v .p = true → s.falls k v .e = false →
        (t.env.view.covers a = true ↔ s.env.latch.find a ≠ none) ∧
        (∀ x, s.env.latch.find a = some x → s.env.mode = .reference →
          t.env.cells.read a = s.env.cells.read a &&& x) ∧
        (s.env.latch.find a = none → t.env.cells.read a = s.env.cells.read a))

/-- R112, R64: `BitSet` reads the register and writes back what it read with the bit set: two events, the bit set, every
other control bit, the other bank, the block-enable registers, the cells and the latch as they were. -/
def Obligations.BitSetResult : Prop :=
  ∀ (s : State) (k : Bank) (f : Field), s.calm = true → s.profile.regLayout.wf = true →
    ∃ t, exec (.bitSet k f) s = .next t ∧
      t = { s with
        regs := t.regs
        loc := { s.loc with rdPrev := s.loc.rd, rd := s.content (.fcr k) }
        env := { s.env with fwe := t.env.fwe, fler := t.env.fler }
        trace := s.trace ++ [.rr (.fcr k) (s.content (.fcr k)),
          .rw (.fcr k) (s.content (.fcr k) ||| (1#8 <<< (s.profile.regLayout.bit f).val))]
        moment := s.moment + 2 } ∧
      (∀ g, t.bit k g = (decide (g = f) || s.bit k g)) ∧ t.fcr k.other = s.fcr k.other ∧ ∀ j, t.ebr j = s.ebr j

/-- R113, R81: `BitClr` reads the register and writes back what it read with the bit cleared; cells and latch change only
where the bit is `E` or `P` and was set: the pulse ends. Then, for `E`, every cell of every selected block is 0xFF and the
latch is kept (log 13); for `P`, every latched cell is `cell & latch` and the latch is empty (log 13 for the oracle): the
new values in the reference environment, every other cell as it was in both environments (log 12). -/
def Obligations.BitClrResult : Prop :=
  ∀ (s : State) (k : Bank) (f : Field), s.calm = true → s.profile.regLayout.wf = true →
    ∃ t, exec (.bitClr k f) s = .next t ∧
      t = { s with
        regs := t.regs
        loc := { s.loc with rdPrev := s.loc.rd, rd := s.content (.fcr k) }
        env := { s.env with
          cells := t.env.cells, latch := t.env.latch, fwe := t.env.fwe, fler := t.env.fler
          view := { s.env.view with pulsed := t.env.view.pulsed } }
        trace := s.trace ++ [.rr (.fcr k) (s.content (.fcr k)),
          .rw (.fcr k) (s.content (.fcr k) &&& ~~~(1#8 <<< (s.profile.regLayout.bit f).val))]
        moment := s.moment + 2 } ∧
      (∀ g, t.bit k g = (decide (g ≠ f) && s.bit k g)) ∧ t.fcr k.other = s.fcr k.other ∧ (∀ j, t.ebr j = s.ebr j) ∧
      (s.bit k f = false ∨ (f ≠ .e ∧ f ≠ .p) →
        t.env.cells = s.env.cells ∧ t.env.latch = s.env.latch ∧ t.env.view.pulsed = s.env.view.pulsed) ∧
      (s.bit k f = true → f = .e → t.env.latch = s.env.latch ∧ (s.env.wf = true → ∀ a : Nat,
        ((∃ i < s.profile.blockCount, s.selected i = true ∧ s.profile.inBlock i a = true) → s.env.mode = .reference →
          t.env.cells.read a = 0xFF) ∧
        ((∀ i < s.profile.blockCount, s.selected i = true → s.profile.inBlock i a = false) →
          t.env.cells.read a = s.env.cells.read a))) ∧
      (s.bit k f = true → f = .p → t.env.latch = [] ∧ (s.env.wf = true → ∀ a : Nat,
        (∀ x, s.env.latch.find a = some x → s.env.mode = .reference →
          t.env.cells.read a = s.env.cells.read a &&& x) ∧
        (s.env.latch.find a = none → t.env.cells.read a = s.env.cells.read a)))

/-- R114, R115, R81, R64: a byte write loads the page latch while `SWE=1, PV=0, EV=0` (in the bank of the address, log 24;
under the oracle by log 40) and changes no cell; a word write changes no cell and no latch entry, and in a verify mode (of
that bank) the probe write of `ONES32` arms the read-back of its word from then on; another value arms none (log 34).
Outside a verify mode a word write changes nothing but the trace (log 37). -/
def Obligations.FlashWriteResults : Prop :=
  ∀ (s : State) (a : Word), s.calm = true →
    (∀ v : Byte, a ≤ s.profile.flashMax → ∃ t, exec (.flashWrite8 a v) s = .next t ∧
      t = { s with
        env := { s.env with latch := t.env.latch }
        trace := s.trace ++ [.fw8 a v]
        moment := s.moment + 1 } ∧
      ∀ b, t.env.latch.find b =
        if s.bit (s.profile.bankOf a) .swe = true ∧ s.bit (s.profile.bankOf a) .pv = false ∧
          s.bit (s.profile.bankOf a) .ev = false ∧ b = a.toNat then some v else s.env.latch.find b) ∧
    (∀ v : Word, a.toNat % 4 = 0 → a.toNat + 3 ≤ s.profile.flashMax.toNat →
      exec (.flashWrite32 a v) s = .next { s with
        env := { s.env with
          view := { s.env.view with
            probes :=
              if (s.bit (s.profile.bankOf a) .ev = true ∨ s.bit (s.profile.bankOf a) .pv = true) ∧ v = ones32 then
                { addr := a, since := s.env.view.waited } :: s.env.view.probes.filter (fun q => decide (q.addr ≠ a))
              else s.env.view.probes } }
        trace := s.trace ++ [.fw32 a v]
        moment := s.moment + 1 })

/-- R116, R268, R64, R70, R80, R81: every word read completes and is recorded, and no byte outside the word changes. With a
verify bit of its bank (log 24) set and its word armed by a probe, the value is the cells, most significant byte first
(R60), in the reference environment. Under the oracle, once the delays of the verify bits have been waited since the probe,
it is the next answer of the script, or, with none scripted, what the last pulse left in a word it worked on, and the
word's cells then hold it (log 35). In any other condition the value is free (log 14) and nothing in the macro changes. -/
def Obligations.FlashReadResult : Prop :=
  ∀ (s : State) (a : Word), s.calm = true → a.toNat % 4 = 0 → a.toNat + 3 ≤ s.profile.flashMax.toNat →
    ∃ t v, exec (.flashRead32 a) s = .next t ∧
      t = { s with
        loc := { s.loc with fword := v }
        env := { s.env with cells := t.env.cells, answers := t.env.answers }
        trace := s.trace ++ [.fr32 a v]
        moment := s.moment + 1 } ∧
      (∀ b : Nat, b < a.toNat ∨ a.toNat + 4 ≤ b → t.env.cells.read b = s.env.cells.read b) ∧
      (s.env.mode = .reference ∨ s.meaningful a = false → t.env = s.env) ∧
      (∀ n : Nat, s.env.view.probedAt a = some n →
        s.bit (s.profile.bankOf a) .ev = true ∨ s.bit (s.profile.bankOf a) .pv = true →
        (s.env.mode = .reference → v = s.env.cells.read a.toNat ++ s.env.cells.read (a.toNat + 1) ++
          s.env.cells.read (a.toNat + 2) ++ s.env.cells.read (a.toNat + 3)) ∧
        (s.env.mode = .oracle →
          (s.bit (s.profile.bankOf a) .ev = true → n + s.profile.delays.evRead.toNat ≤ s.env.view.waited) →
          (s.bit (s.profile.bankOf a) .pv = true → n + s.profile.delays.pvRead.toNat ≤ s.env.view.waited) →
          (∀ x q, s.env.answers.queue = x :: q → v = x ∧ t.env.answers.queue = q) ∧
          (s.env.answers.queue = [] → s.env.answers.held = none →
            (∀ i < 4, s.env.view.covers (a.toNat + i) = true) → v = s.env.cells.word a.toNat) ∧
          (s.env.wf = true → t.env.cells.word a.toNat = v)))

/-- R117, R123, R60: `SrcRead8` reads one byte of the source space; `SrcWord` makes four such reads in ascending address
order, modulo 2^32, and puts them together most significant byte first. -/
def Obligations.SourceReadResults : Prop :=
  ∀ (s : State) (a : Word), s.calm = true →
    (exec (.srcRead8 a) s = .next { s with
      loc := { s.loc with sbyte := s.env.source.read a.toNat }
      trace := s.trace ++ [.sr8 a (s.env.source.read a.toNat)]
      moment := s.moment + 1 }) ∧
    (exec (.srcWord a) s = .next { s with
      loc := { s.loc with
        sbyte := s.env.source.read (a + 3).toNat
        sword := s.env.source.read a.toNat ++ s.env.source.read (a + 1).toNat ++ s.env.source.read (a + 2).toNat ++
          s.env.source.read (a + 3).toNat }
      trace := s.trace ++ [.sr8 a (s.env.source.read a.toNat), .sr8 (a + 1) (s.env.source.read (a + 1).toNat),
        .sr8 (a + 2) (s.env.source.read (a + 2).toNat), .sr8 (a + 3) (s.env.source.read (a + 3).toNat)]
      moment := s.moment + 4 })

/-- R130, R132: `Wait(c)` and `wait(c)` are one step that appends its event, whatever the count, and leaves `dly_cnt` at
0; while the watchdog runs its count advances with the delay (R143; that it is the sum of the counts is log 20), and the
delay counts for the words armed for read-back (R268; log 34). -/
def Obligations.WaitResult : Prop :=
  ∀ (s : State) (c : Word),
    (s.wdt.run = true → s.wdt.rste = true → s.profile.cycPerIter * (s.wdt.cnt + c.toNat) + s.profile.guardOverheadMax <
      s.profile.wdtInterval s.wdt.div) →
    ∃ t, exec (.waitOp c) s = .next t ∧ exec (.waitProc c) s = .next t ∧
      t = { s with
        dlyCnt := 0
        wdt := { s.wdt with cnt := if s.wdt.run then s.wdt.cnt + c.toNat else s.wdt.cnt }
        env := { s.env with view := { s.env.view with waited := s.env.view.waited + c.toNat } }
        trace := s.trace ++ [.wait c]
        moment := s.moment + 1 }

/-- R120, R121, R140, R141: `WdtStop` stops the watchdog whether or not it ran; `WdtStart(d)` starts it at divisor `d`
with its reset enabled and its count 0; `GuardAcquire(d)` is the one and then the other, `GuardRelease` is `WdtStop`. -/
def Obligations.WatchdogResults : Prop :=
  ∀ (s : State),
    (∃ t, exec .wdtStop s = .next t ∧ exec .guardRelease s = .next t ∧
      t = { s with wdt := { s.wdt with run := false }, trace := s.trace ++ [.wdtStop], moment := s.moment + 1 }) ∧
    ∀ d : Divisor, s.profile.guardOverheadMax < s.profile.wdtInterval d →
      exec (.wdtStart d) s = .next { s with
        wdt := { run := true, div := d, rste := true, cnt := 0 }
        trace := s.trace ++ [.wdtStart d]
        moment := s.moment + 1 } ∧
      exec (.guardAcquire d) s = .next { s with
        wdt := { run := true, div := d, rste := true, cnt := 0 }
        trace := s.trace ++ [.wdtStop, .wdtStart d]
        moment := s.moment + 2 }

/-- R118, R119: `IrqMask` saves the mask and sets it; `IrqRestore` puts the saved value back and does not force an unmask. -/
def Obligations.InterruptMaskResults : Prop :=
  ∀ s : State, s.calm = true →
    exec .irqMask s = .next { s with
      irq := { mask := true, saved := s.irq.mask }
      trace := s.trace ++ [.irqMask]
      moment := s.moment + 1 } ∧
    exec .irqRestore s = .next { s with
      irq := { mask := s.irq.saved, saved := s.irq.saved }
      trace := s.trace ++ [.irqRestore]
      moment := s.moment + 1 }

/-- R122: `Precond` makes both reads always, in this order, and is true exactly when `FWE` read 1 and `FLER` read 0. -/
def Obligations.PrecondResult : Prop :=
  ∀ s : State, s.calm = true →
    ∃ t a b, exec .precond s = .next t ∧
      t = { s with
        loc := { s.loc with rdPrev := a, rd := b,
                            flag := a.getLsbD s.profile.regLayout.status.val &&
                              !b.getLsbD s.profile.regLayout.status.val }
        env := { s.env with fwe := s.env.fwe.later, fler := s.env.fler.later }
        trace := s.trace ++ [.rr (.fcr .b0) a, .rr (.fcr .b1) b]
        moment := s.moment + 2 } ∧
      a.getLsbD s.profile.regLayout.status.val = s.statusInput .b0 ∧
      b.getLsbD s.profile.regLayout.status.val = { s with moment := s.moment + 1 }.statusInput .b1

/-- R142, R145: `scoped_guard(d) { body }` is `GuardAcquire(d)`, then each of the body's micro-operations, its operands
taken from the registers as they then stand and its value stored, then `GuardRelease()`, from every state and however it
ends. A guard scope whose acts can all be performed runs to its end: one stop, one start, the body's micro-operations one
after the other, one stop; afterwards the watchdog is stopped. -/
def Obligations.ScopedGuardCompletes : Prop :=
  (∀ (s : State) (d : Divisor) (body : List Act),
    exec (.scopedGuard d body) s =
      andThen
        (body.foldl
          (fun r a => andThen r (fun u => andThen (exec (a.op u).toInstr u) (fun v => .next (a.store v))))
          (exec (.guardAcquire d) s))
        (exec .guardRelease)) ∧
  ∀ (s : State) (d : Divisor) (body : List Act), s.fits (guardedActs d body) = true →
    ∃ t es, exec (.scopedGuard d body) s = .next t ∧ t.wdt.run = false ∧
      t.trace = s.trace ++ [.wdtStop, .wdtStart d] ++ es ++ [.wdtStop] ∧ es.map Event.code = body.map Act.code ∧
      t.profile = s.profile ∧ t.port = s.port ∧ t.seq = s.seq ∧ t.opr = s.opr ∧ t.armed = s.armed ∧
      t.env.source = s.env.source

/-! ### Pulses and verifies (45_flash_erase_engine.md, 46_flash_write_engine.md) -/

/-- R171: the seventeen events of `ErasePulse`, in order, with the four values read; afterwards `E` and `ESU` are 0, every
other control bit as it was, the interrupt mask as it was, the watchdog stopped, and every cell outside the selected
blocks as it was (in the oracle environment by log 12), the latch too (log 13). The ranges of the selected blocks are
those the verify reads reflect (log 35), and the four delays count for the words armed (log 34). -/
def Obligations.ErasePulseResult : Prop :=
  ∀ (s : State) (k : Bank), s.profile.regLayout.wf = true →
    s.profile.eraseBodyCycles < s.profile.wdtInterval s.profile.wdtDivErase →
    ∃ t v1 v2 v3 v4, exec (.erasePulse k) s = .next t ∧
      t.trace = s.trace ++
        [.wdtStop, .wdtStart s.profile.wdtDivErase, .rr (.fcr k) v1, .rw (.fcr k) (v1 ||| s.profile.regLayout.mask .esu),
          .wait s.profile.delays.esuSetup, .irqMask, .rr (.fcr k) v2, .rw (.fcr k) (v2 ||| s.profile.regLayout.mask .e),
          .wait s.profile.delays.ePulse, .rr (.fcr k) v3, .rw (.fcr k) (v3 &&& ~~~s.profile.regLayout.mask .e),
          .irqRestore, .wait s.profile.delays.eHold, .rr (.fcr k) v4,
          .rw (.fcr k) (v4 &&& ~~~s.profile.regLayout.mask .esu), .wait s.profile.delays.esuHold, .wdtStop] ∧
      (∀ f, t.bit k f = (decide (f ≠ .e) && decide (f ≠ .esu) && s.bit k f)) ∧ t.fcr k.other = s.fcr k.other ∧
      (∀ j, t.ebr j = s.ebr j) ∧ t.irq = { mask := s.irq.mask, saved := s.irq.mask } ∧ t.wdt.run = false ∧
      t.env.latch = s.env.latch ∧
      (∀ a, (∀ i < s.profile.blockCount, s.selected i = true → s.profile.inBlock i a = false) →
        t.env.cells.read a = s.env.cells.read a) ∧
      t = { s with
        regs := t.regs, irq := t.irq, wdt := t.wdt, trace := t.trace, dlyCnt := 0
        loc := { s.loc with rd := t.loc.rd, rdPrev := t.loc.rdPrev }
        env := { s.env with
          cells := t.env.cells, fwe := t.env.fwe, fler := t.env.fler
          view := { s.env.view with
            waited := s.env.view.waited + s.profile.delays.esuSetup.toNat + s.profile.delays.ePulse.toNat +
              s.profile.delays.eHold.toNat + s.profile.delays.esuHold.toNat
            pulsed := s.selectedRanges } }
        moment := s.moment + 17 }

/-- R192: the seventeen events of `ProgramPulse`; afterwards `P` and `PSU` are 0, every other control bit as it was, the
interrupt mask as it was, the watchdog stopped, the latch empty (log 13), and every cell that was not latched as it was (in
the oracle environment, partial loads included, by log 12). The latched addresses are those the verify reads reflect (log
35), and the four delays count for the words armed (log 34). The width is any operand with which the guarded body stays inside the watchdog's
interval (R146). -/
def Obligations.ProgramPulseResult : Prop :=
  ∀ (s : State) (k : Bank) (width : Word), s.profile.regLayout.wf = true →
    s.profile.cycPerIter * (s.profile.delays.psuSetup.toNat + width.toNat + s.profile.delays.pHold.toNat +
      s.profile.delays.psuHold.toNat) + s.profile.guardOverheadMax < s.profile.wdtInterval s.profile.wdtDivProgram →
    ∃ t v1 v2 v3 v4, exec (.programPulse k width) s = .next t ∧
      t.trace = s.trace ++
        [.wdtStop, .wdtStart s.profile.wdtDivProgram, .rr (.fcr k) v1,
          .rw (.fcr k) (v1 ||| s.profile.regLayout.mask .psu), .wait s.profile.delays.psuSetup, .irqMask,
          .rr (.fcr k) v2, .rw (.fcr k) (v2 ||| s.profile.regLayout.mask .p), .wait width, .rr (.fcr k) v3,
          .rw (.fcr k) (v3 &&& ~~~s.profile.regLayout.mask .p), .irqRestore, .wait s.profile.delays.pHold,
          .rr (.fcr k) v4, .rw (.fcr k) (v4 &&& ~~~s.profile.regLayout.mask .psu), .wait s.profile.delays.psuHold,
          .wdtStop] ∧
      (∀ f, t.bit k f = (decide (f ≠ .p) && decide (f ≠ .psu) && s.bit k f)) ∧ t.fcr k.other = s.fcr k.other ∧
      (∀ j, t.ebr j = s.ebr j) ∧ t.irq = { mask := s.irq.mask, saved := s.irq.mask } ∧ t.wdt.run = false ∧
      (∀ a, s.env.latch.find a = none → t.env.cells.read a = s.env.cells.read a) ∧
      t = { s with
        regs := t.regs, irq := t.irq, wdt := t.wdt, trace := t.trace, dlyCnt := 0
        loc := { s.loc with rd := t.loc.rd, rdPrev := t.loc.rdPrev }
        env := { s.env with
          cells := t.env.cells, latch := [], fwe := t.env.fwe, fler := t.env.fler
          view := { s.env.view with
            waited := s.env.view.waited + s.profile.delays.psuSetup.toNat + width.toNat +
              s.profile.delays.pHold.toNat + s.profile.delays.psuHold.toNat
            pulsed := latchedRanges s.env.latch } }
        moment := s.moment + 17 }

/-- R172: `EraseVerify` probes and reads the words of the range in ascending order, stops after the first that is not
`ONES32`, and is true exactly when the whole range read `ONES32`; `EV` is left on every path, and no other register, no
latch entry and no cell outside the words read changes, in the reference environment no cell at all. The words of bank `k`
read what R70, R80 and R81 say: the cells in the reference environment; in the oracle environment, while `PV` is 0 there,
the answer, which the cells then hold (log 35). No other word is armed than those read (log 34). -/
def Obligations.EraseVerifyResult : Prop :=
  ∀ (s : State) (k : Bank) (start stop : Word), s.profile.regLayout.wf = true → s.wdt.run = false →
    start.toNat % 4 = 0 → start.toNat + 4 * ((stop.toNat - start.toNat + 3) / 4) ≤ s.profile.flashMax.toNat + 1 →
    ∃ t es, exec (.eraseVerify k start stop) s = .next t ∧ t.trace = s.trace ++ es ∧
      (let vs := (wordsRead es).map Prod.snd
       (wordsRead es).map Prod.fst = (List.range vs.length).map (fun i => start + BitVec.ofNat 32 (4 * i)) ∧
       wordsProbed es = (wordsRead es).map (fun c => (c.1, ones32)) ∧
       vs.length ≤ (stop.toNat - start.toNat + 3) / 4 ∧ (∀ v ∈ vs.dropLast, v = ones32) ∧
       (t.loc.flag = true ↔ vs.length = (stop.toNat - start.toNat + 3) / 4 ∧ ∀ v ∈ vs, v = ones32) ∧
       (t.loc.flag = false → ∃ v, vs.getLast? = some v ∧ v ≠ ones32) ∧
       es.length = 6 + 3 * vs.length ∧
       (∀ b : Nat, b < start.toNat ∨ start.toNat + 4 * vs.length ≤ b → t.env.cells.read b = s.env.cells.read b)) ∧
      (s.env.mode = .reference → t.env.cells = s.env.cells) ∧
      (∀ c ∈ wordsRead es, s.profile.bankOf c.1 = k →
        (s.env.mode = .reference → c.2 = s.env.cells.word c.1.toNat) ∧
        (s.env.mode = .oracle → s.bit k .pv = false → s.env.wf = true → t.env.cells.word c.1.toNat = c.2)) ∧
      (∀ a, a ∉ (wordsRead es).map Prod.fst → t.env.view.probedAt a = s.env.view.probedAt a) ∧
      t.env.view.waited = s.env.view.waited + s.profile.delays.evSetup.toNat +
        (wordsRead es).length * s.profile.delays.evRead.toNat + s.profile.delays.evHold.toNat ∧
      (∀ f, t.bit k f = (decide (f ≠ .ev) && s.bit k f)) ∧ t.fcr k.other = s.fcr k.other ∧
      (∀ j, t.ebr j = s.ebr j) ∧ t.irq = s.irq ∧ t.wdt = s.wdt ∧ t.ctx = { s.ctx with vaddr := t.ctx.vaddr } ∧
      t.env.latch = s.env.latch ∧ t.env.view.pulsed = s.env.view.pulsed ∧ t.opr = s.opr ∧
      t.armed = s.armed ∧ t.port = s.port ∧ t.seq = s.seq

/-- R193 to R197: `VerifyWord` on word `j` in attempt `n`. With `v` read back and `s_w` the source word read afresh: the
mismatch flag is set where `v` differs from the reference word; a source 1 that read 0 is fatal and updates no
buffer; otherwise the overwrite word is `v | r` in an overwrite pass, and the reprogram word is `s_w | ~v`. No register
changes and no cell outside the word, in the reference environment no cell at all. In program-verify mode of the word's
bank (log 24) `v` is what the cells hold in the reference environment, and, while `EV` is 0, the oracle's scripted answer
otherwise, which the cells then hold (log 35). No other word is armed than this one (log 34). -/
def Obligations.VerifyWordResult : Prop :=
  ∀ (s : State) (k : Bank) (j : Nat) (n : Word), j < s.profile.pageWords → s.wdt.run = false →
    (offset s.ctx.pgDest (4 * j)).toNat % 4 = 0 →
    (offset s.ctx.pgDest (4 * j)).toNat + 3 ≤ s.profile.flashMax.toNat →
    s.ctx.rbuf.length = s.profile.pageBytes → s.ctx.obuf.length = s.profile.obufBytes →
    ∃ t v w, exec (.verifyWord k j n) s = .next t ∧
      w = (let b := fun i => s.env.source.read (s.ctx.pgSrc + BitVec.ofNat 32 (4 * j) + BitVec.ofNat 32 i).toNat
           b 0 ++ b 1 ++ b 2 ++ b 3) ∧
      wordsRead (t.trace.drop s.trace.length) = [(s.ctx.pgDest + BitVec.ofNat 32 (4 * j), v)] ∧
      wordsProbed (t.trace.drop s.trace.length) = [(s.ctx.pgDest + BitVec.ofNat 32 (4 * j), ones32)] ∧
      t.trace.length = s.trace.length + 7 ∧
      (t.ctx.m = true ↔ s.ctx.m = true ∨
        v ≠ match s.profile.mismatchRef with | .reprogram => bufWord s.ctx.rbuf j | .source => w) ∧
      (w &&& ~~~v ≠ 0 → t.loc.result = .programVerifyFatal ∧ t.ctx.rbuf = s.ctx.rbuf ∧ t.ctx.obuf = s.ctx.obuf) ∧
      (w &&& ~~~v = 0 → t.loc.result = .ok ∧
        (∀ i < s.profile.pageWords, bufWord t.ctx.rbuf i = if i = j then w ||| ~~~v else bufWord s.ctx.rbuf i) ∧
        (s.profile.hasOverwrite = true ∧ n ≤ s.profile.overwriteCount →
          ∀ i < s.profile.pageWords, bufWord t.ctx.obuf i =
            if i = j then v ||| bufWord s.ctx.rbuf j else bufWord s.ctx.obuf i) ∧
        (s.profile.hasOverwrite = false ∨ s.profile.overwriteCount < n → t.ctx.obuf = s.ctx.obuf)) ∧
      (s.bit (s.profile.bankOf (offset s.ctx.pgDest (4 * j))) .pv = true →
        (s.env.mode = .reference → v = s.env.cells.word (offset s.ctx.pgDest (4 * j)).toNat) ∧
        (s.env.mode = .oracle → s.bit (s.profile.bankOf (offset s.ctx.pgDest (4 * j))) .ev = false →
          (∀ x q, s.env.answers.queue = x :: q → v = x ∧ t.env.answers.queue = q) ∧
          (s.env.wf = true → t.env.cells.word (offset s.ctx.pgDest (4 * j)).toNat = v))) ∧
      (s.env.mode = .reference → t.env.cells = s.env.cells) ∧
      (∀ b : Nat, b < (offset s.ctx.pgDest (4 * j)).toNat ∨ (offset s.ctx.pgDest (4 * j)).toNat + 4 ≤ b →
        t.env.cells.read b = s.env.cells.read b) ∧
      t.ctx = { s.ctx with
        vaddr := offset s.ctx.pgDest (4 * j), m := t.ctx.m, rbuf := t.ctx.rbuf, obuf := t.ctx.obuf } ∧
      t.regs = s.regs ∧ t.irq = s.irq ∧ t.wdt = s.wdt ∧ t.env.latch = s.env.latch ∧
      t.env.view.pulsed = s.env.view.pulsed ∧
      t.env.view.waited = s.env.view.waited + s.profile.delays.pvRead.toNat ∧
      (∀ a, a ≠ offset s.ctx.pgDest (4 * j) → t.env.view.probedAt a = s.env.view.probedAt a) ∧
      t.opr = s.opr ∧ t.armed = s.armed ∧ t.port = s.port ∧ t.seq = s.seq

/-! ### The engines -/

/-- R170, R174, R178, R230: from a locked device with the watchdog stopped, under the constraint of R146, `erase_block` of
any index ends with one of its statuses whatever the flash answers; then every control bit is 0, the watchdog stopped,
the interrupt mask as it was on entry, the gate as it was, and the block-enable registers either untouched or holding
the block's bit alone. R170 step 2, R236, R243: armed, for a block of the table, with the precondition false it answers
`device-error` after exactly the two register reads, and nothing is written. -/
def Obligations.EraseBlockCompletes : Prop :=
  (∀ (s : State) (index : Word), s.ready = true → s.profile.guardWf = true → s.wdt.run = false → s.locked = true →
    ∃ t, exec (.eraseBlock index) s = .next t ∧ t.st = .idle ∧ t.port.rspValid = true ∧
      (∃ r ∈ [Status.ok, .badBlock, .deviceError, .eraseVerifyFailed], t.port.status = s.profile.statusEnc.code r) ∧
      t.locked = true ∧ t.wdt.run = false ∧ t.irq.mask = s.irq.mask ∧ t.armed = s.armed ∧
      t.opr = { s.opr with index := index } ∧ t.port.cmds = s.port.cmds ∧
      ((∀ k, t.ebr k = s.ebr k) ∨ (t.ebr (s.profile.blockBank index.toNat) = s.profile.ebrMask index.toNat ∧
        t.ebr (s.profile.blockBank index.toNat).other = 0))) ∧
  (∀ (s : State) (index : Word), s.ready = true → s.calm = true → s.armed = true →
    index.toNat < s.profile.blockCount → s.precondNow = false →
    ∃ t a b, exec (.eraseBlock index) s = .next t ∧ t.st = .idle ∧ t.port.rspValid = true ∧
      t.port.status = s.profile.statusEnc.code .deviceError ∧
      t.trace = s.trace ++ [.rr (.fcr .b0) a, .rr (.fcr .b1) b] ∧ t.regs = s.regs ∧ t.wdt = s.wdt ∧ t.irq = s.irq ∧
      t.dlyCnt = s.dlyCnt ∧ t.armed = s.armed ∧
      t.env = { s.env with fwe := s.env.fwe.later, fler := s.env.fler.later })

/-- R191, R200: from a locked device with the watchdog stopped, under the constraint of R146, `write_page` of any aligned
page inside the flash space ends by one of its four exits whatever the flash answers; then every control bit is 0,
the watchdog stopped and the interrupt mask as it was. R191 step 1, R236, R243: with the precondition false it ends with
`device-error` after exactly the two register reads, and nothing is written. -/
def Obligations.WritePageCompletes : Prop :=
  (∀ (s : State) (dest src : Word), s.profile.wf = true → s.profile.guardWf = true → s.wdt.run = false →
    s.locked = true → dest ≤ s.profile.flashMax → dest.toNat % s.profile.pageBytes = 0 →
    ∃ t, exec (.writePage dest src) s = .next t ∧
      t.loc.result ∈ [Status.ok, .deviceError, .programVerifyFatal, .writeMaxRetries] ∧
      t.locked = true ∧ t.wdt.run = false ∧ t.irq.mask = s.irq.mask ∧ t.armed = s.armed ∧ t.opr = s.opr ∧
      t.port = s.port ∧ t.seq = s.seq ∧ ∀ k, t.ebr k = s.ebr k) ∧
  (∀ (s : State) (dest src : Word), s.calm = true → dest ≤ s.profile.flashMax → s.precondNow = false →
    ∃ t a b, exec (.writePage dest src) s = .next t ∧ t.loc.result = .deviceError ∧
      t.trace = s.trace ++ [.rr (.fcr .b0) a, .rr (.fcr .b1) b] ∧ t.regs = s.regs ∧ t.wdt = s.wdt ∧ t.irq = s.irq ∧
      t.dlyCnt = s.dlyCnt ∧ t.armed = s.armed ∧ t.port = s.port ∧ t.seq = s.seq ∧ t.opr = s.opr ∧
      t.env = { s.env with fwe := s.env.fwe.later, fler := s.env.fler.later })

/-- R162, R100: under a well-formed profile `PageLoop` with `len = 0` answers `ok` and makes no access; with another `len`
it is `write_page(dest, src)` and, where that answers `ok`, the step of `dest`, `src` and `len` by one page and `PageLoop`
again; where it answers another status, or stops, that is the outcome. On a range of whole pages inside the flash space it
ends; with `ok` it has stepped over the whole range, otherwise it stands at the first page that failed and returns that
page's status. -/
def Obligations.PageLoopCompletes : Prop :=
  (∀ s : State, s.profile.wf = true →
    (s.opr.len = 0 → exec .pageLoop s = .next (s.withResult .ok)) ∧
    (s.opr.len ≠ 0 → exec .pageLoop s =
      andThen (exec (.writePage s.opr.dest s.opr.src) s) (fun t =>
        if t.loc.result = .ok then
          exec .pageLoop { t with opr := { t.opr with
            dest := t.opr.dest + BitVec.ofNat 32 s.profile.pageBytes
            src := t.opr.src + BitVec.ofNat 32 s.profile.pageBytes
            len := t.opr.len - BitVec.ofNat 32 s.profile.pageBytes } }
        else .next t))) ∧
  ∀ s : State, s.profile.wf = true → s.profile.guardWf = true → s.wdt.run = false → s.locked = true →
    s.profile.rangeFits s.opr.dest s.opr.len = true →
    ∃ t, exec .pageLoop s = .next t ∧ t.locked = true ∧ t.wdt.run = false ∧ t.irq.mask = s.irq.mask ∧
      t.armed = s.armed ∧ t.port = s.port ∧ t.seq = s.seq ∧ (∀ k, t.ebr k = s.ebr k) ∧ t.opr.index = s.opr.index ∧
      (∃ i : Nat, t.opr.dest = s.opr.dest + BitVec.ofNat 32 (i * s.profile.pageBytes) ∧
        t.opr.src = s.opr.src + BitVec.ofNat 32 (i * s.profile.pageBytes) ∧
        t.opr.len = s.opr.len - BitVec.ofNat 32 (i * s.profile.pageBytes) ∧
        (if t.loc.result = .ok then i * s.profile.pageBytes = s.opr.len.toNat ∧ t.opr.len = 0
         else i * s.profile.pageBytes < s.opr.len.toNat ∧
           t.loc.result ∈ [Status.deviceError, .programVerifyFatal, .writeMaxRetries]))

/-- R190, R200, R230: from a locked device with the watchdog stopped, under the constraint of R146, `write_range` ends
with one of its statuses for every operand but a range that passes the argument checks and overruns `FLASH_MAX`
(R164); then every control bit is 0, the watchdog stopped, the interrupt mask and the gate as they were. -/
def Obligations.WriteRangeCompletes : Prop :=
  ∀ (s : State) (dest src len : Word), s.ready = true → s.profile.guardWf = true → s.wdt.run = false →
    s.locked = true → (s.profile.rangeFits dest len = true ∨ s.armed = false ∨ s.profile.flashMax < dest ∨
      dest.toNat % s.profile.pageBytes ≠ 0 ∨ len.toNat % s.profile.pageBytes ≠ 0) →
    ∃ t, exec (.writeRange dest src len) s = .next t ∧ t.st = .idle ∧ t.port.rspValid = true ∧
      (∃ r ∈ [Status.ok, .outOfBounds, .misaligned, .badLength, .deviceError, .programVerifyFatal, .writeMaxRetries],
        t.port.status = s.profile.statusEnc.code r) ∧
      t.locked = true ∧ t.wdt.run = false ∧ t.irq.mask = s.irq.mask ∧ t.armed = s.armed ∧
      t.opr.index = s.opr.index ∧ t.port.cmds = s.port.cmds ∧ ∀ k, t.ebr k = s.ebr k

/-- R145: over a whole command the trace grows by twice as many watchdog stops as starts; the last watchdog event, if
there is one, is a stop, and then the watchdog is stopped at the response. -/
def Obligations.GuardStopsTwicePerStart : Prop :=
  ∀ (i : Instr) (s t : State), i.isCommand = true → exec i s = .next t →
    ∃ es, t.trace = s.trace ++ es ∧ es.countP Event.isWdtStop = 2 * es.countP Event.isWdtStart ∧
      ((es.filter (fun e => e.isWdtStop || e.isWdtStart)).getLast? = none ∧ t.wdt.run = s.wdt.run ∨
        (es.filter (fun e => e.isWdtStop || e.isWdtStart)).getLast? = some .wdtStop ∧ t.wdt.run = false)

/-- R177, R178, R280: an armed, well-conditioned `erase_block` of a block of the table appends `8 + 25·a + 3·w` events,
`a` being its pulses (at most `MAX_ERASE_RETRIES`) and `w` the words it verified (at most the block's, each
attempt), and writes the block-enable registers twice a pulse. R170, R172, R177, R237: its status follows from the words its
scans read (`eraseRun`): `ok` exactly when the last scan read the whole block as `ONES32`, `erase-verify-failed` exactly when
`MAX_ERASE_RETRIES` pulses were made and every scan ended in a word other than `ONES32`; and those words give every event
but the accesses of the control registers, in order (`eraseAttemptEvents`). -/
def Obligations.EraseEventCount : Prop :=
  ∀ (s t : State) (index : Word), s.armed = true → index.toNat < s.profile.blockCount → s.precondNow = true →
    exec (.eraseBlock index) s = .next t →
    ∃ es, t.trace = s.trace ++ es ∧
      es.length = 8 + 25 * es.countP Event.isWdtStart + 3 * (wordsRead es).length ∧
      es.countP Event.isWdtStart ≤ s.profile.maxEraseRetries.toNat ∧
      4 * (wordsRead es).length ≤ es.countP Event.isWdtStart *
        ((s.profile.tableAt (index.toNat + 1)).toNat - (s.profile.tableAt index.toNat).toNat) ∧
      es.countP Event.isBlockEnable = 2 * es.countP Event.isWdtStart ∧
      ∃ (vss : List (List Word)) (r : Status),
        t.port.status = s.profile.statusEnc.code r ∧
        eraseRun s.profile
          (((s.profile.tableAt (index.toNat + 1)).toNat - (s.profile.tableAt index.toNat).toNat) / 4) 0 vss r ∧
        shown es = [.wait s.profile.delays.sweSetup] ++ vss.flatMap (eraseAttemptEvents s.profile index.toNat) ++
          [.wait s.profile.delays.sweHold]

/-- R199, R280: an armed, well-conditioned `write_page` that ends at step 3f or 4 after `a` attempts, `o` of them with a
supplemental pulse, appends `8 + PAGE + a·(PAGE + 23 + 7·PAGE/4) + o·(PAGE + 17)` events and runs `a + o` guard
scopes; `o` is 0 without the overwrite pass and otherwise the number of attempts within `OVERWRITE_COUNT`. R191, R196 to
R199, R238, R239, R267: however it ends, its status follows from the words its attempts read back (`pageRun`):
`program-verify-fatal` exactly when the last word read shows a 0 where the source has a 1, no word before it having done
so, with no further pulse; `ok` exactly when the last attempt was complete and had no mismatch; `write-max-retries`
exactly when all `MAX_WRITE_RETRIES` attempts had one. And those words and the source give every event but the accesses of
the control registers, in order: the copy, and in each attempt the latch pass of the reprogram buffer, the main pulse with
its width, the verify words, the latch pass of the overwrite buffer and the supplemental pulse (`pageAttemptEvents`). -/
def Obligations.PageEventCount : Prop :=
  ∀ (s t : State) (dest src : Word), s.precondNow = true → exec (.writePage dest src) s = .next t →
    (t.loc.result = .ok ∨ t.loc.result = .writeMaxRetries →
      ∃ es a o, t.trace = s.trace ++ es ∧ a ≤ s.profile.maxWriteRetries.toNat ∧
        o = (if s.profile.hasOverwrite then min a s.profile.overwriteCount.toNat else 0) ∧
        es.length = 8 + s.profile.pageBytes + a * (s.profile.pageBytes + 23 + 7 * s.profile.pageWords) +
          o * (s.profile.pageBytes + 17) ∧
        es.countP Event.isWdtStart = a + o) ∧
    (s.ctx.rbuf.length = s.profile.pageBytes → s.ctx.obuf.length = s.profile.obufBytes →
      ∃ (es : List Event) (vss : List (List Word)), t.trace = s.trace ++ es ∧
        pageRun s.profile (sourceWords s.profile s.env.source src) 0 (sourceWords s.profile s.env.source src) vss
          t.loc.result ∧
        shown es = sourceEvents s.env.source src 0 s.profile.pageBytes ++ [.wait s.profile.delays.sweSetup] ++
          pageAttemptsEvents s.profile s.env.source dest src 0 (sourceWords s.profile s.env.source src) vss ++
          [.wait s.profile.delays.sweHold])

/-- R34, R175, R266: `erase_block` changes no cell outside its block, whatever the registers held before it (in the oracle
environment by log 12). -/
def Obligations.EraseTouchesOnlyItsBlock : Prop :=
  ∀ (s t : State) (index : Word) (a : Nat), exec (.eraseBlock index) s = .next t →
    s.profile.inBlock index.toNat a = false → t.env.cells.read a = s.env.cells.read a

/-- R162, R191: `write_range` changes no cell outside `[dest, dest + len)`, and `write_page` none outside its page, but for
a cell that was already latched before (in the oracle environment by log 12). -/
def Obligations.WriteTouchesOnlyItsRange : Prop :=
  ∀ (s t : State) (dest src len : Word) (a : Nat), s.profile.wf = true → s.env.latch.find a = none →
    (exec (.writeRange dest src len) s = .next t → a < dest.toNat ∨ dest.toNat + len.toNat ≤ a →
      t.env.cells.read a = s.env.cells.read a) ∧
    (exec (.writePage dest src) s = .next t → a < dest.toNat ∨ dest.toNat + s.profile.pageBytes ≤ a →
      t.env.cells.read a = s.env.cells.read a)

/-- R202: under the reference environment a write to an erased page converges on attempt 1, for every source page and
every profile with at least one attempt, and leaves the page holding the source. -/
def Obligations.WriteConvergesWhenErased : Prop :=
  ∀ (s : State) (dest src : Word), s.profile.wf = true → s.profile.guardWf = true → s.profile.maxWriteRetries ≠ 0 →
    s.env.mode = .reference → s.env.wf = true → s.env.latch = [] → s.wdt.run = false → s.locked = true →
    s.precondNow = true → s.ctx.rbuf.length = s.profile.pageBytes → s.ctx.obuf.length = s.profile.obufBytes →
    dest ≤ s.profile.flashMax → dest.toNat % s.profile.pageBytes = 0 →
    (∀ i < s.profile.pageBytes, s.env.cells.read (dest.toNat + i) = 0xFF) →
    ∃ t, exec (.writePage dest src) s = .next t ∧ t.loc.result = .ok ∧ t.ctx.n = 1 ∧
      ∀ i < s.profile.pageBytes, t.env.cells.read (dest.toNat + i) = s.env.source.read (offset src i).toNat

/-- R162, R190, R202: under the reference environment, with `FWE` held at 1 and `FLER` at 0, an armed `write_range` onto
erased flash answers `ok` and leaves the whole range holding the source. -/
def Obligations.WriteRangeStoresTheSource : Prop :=
  ∀ (s : State) (dest src len : Word), s.ready = true → s.profile.guardWf = true → s.profile.maxWriteRetries ≠ 0 →
    s.env.mode = .reference → s.env.wf = true → s.env.latch = [] → s.wdt.run = false → s.locked = true →
    s.armed = true → s.env.fwe = { queue := [], held := some true } → s.env.fler = { queue := [], held := some false } →
    s.ctx.rbuf.length = s.profile.pageBytes → s.ctx.obuf.length = s.profile.obufBytes →
    s.profile.rangeFits dest len = true → (∀ i < len.toNat, s.env.cells.read (dest.toNat + i) = 0xFF) →
    ∃ t, exec (.writeRange dest src len) s = .next t ∧ t.port.status = s.profile.statusEnc.code .ok ∧
      ∀ i < len.toNat, t.env.cells.read (dest.toNat + i) = s.env.source.read (offset src i).toNat

/-- R81, R170, R176: under the reference environment an armed, well-conditioned erase succeeds on attempt 1 with one
pulse, blank block or not, and leaves every cell of the block at 0xFF. -/
def Obligations.EraseSucceedsOnReference : Prop :=
  ∀ (s : State) (index : Word), s.ready = true → s.profile.guardWf = true → s.profile.maxEraseRetries ≠ 0 →
    s.env.mode = .reference → s.env.wf = true → s.wdt.run = false → s.locked = true → s.armed = true →
    index.toNat < s.profile.blockCount → s.precondNow = true →
    ∃ t, exec (.eraseBlock index) s = .next t ∧ t.port.status = s.profile.statusEnc.code .ok ∧ t.ctx.n = 1 ∧
      (t.trace.drop s.trace.length).countP Event.isWdtStart = 1 ∧
      ∀ a, s.profile.inBlock index.toNat a = true → t.env.cells.read a = 0xFF

/-- R186, R204: with a budget of 0 an armed, well-conditioned command opens and closes `SWE`, applies no pulse and
answers its retry status: the exact events of `erase_block`, and of `write_page` after the copy of its source page. -/
def Obligations.ZeroBudgets : Prop :=
  ∀ s : State, s.ready = true → s.wdt.run = false → s.locked = true → s.precondNow = true →
    (∀ index : Word, s.armed = true → s.profile.maxEraseRetries = 0 → index.toNat < s.profile.blockCount →
      ∃ t a b v1 v2, exec (.eraseBlock index) s = .next t ∧
        t.port.status = s.profile.statusEnc.code .eraseVerifyFailed ∧
        (let k := s.profile.blockBank index.toNat
         t.trace = s.trace ++
           [.rr (.fcr .b0) a, .rr (.fcr .b1) b, .rr (.fcr k) v1, .rw (.fcr k) (v1 ||| s.profile.regLayout.mask .swe),
            .wait s.profile.delays.sweSetup, .rr (.fcr k) v2,
            .rw (.fcr k) (v2 &&& ~~~s.profile.regLayout.mask .swe), .wait s.profile.delays.sweHold]) ∧
        t.locked = true ∧ t.wdt = s.wdt ∧ t.irq = s.irq ∧ t.env.cells = s.env.cells ∧ t.env.latch = s.env.latch ∧
        ∀ k, t.ebr k = s.ebr k) ∧
    (∀ dest src : Word, s.profile.maxWriteRetries = 0 → dest ≤ s.profile.flashMax →
      ∃ t a b v1 v2, exec (.writePage dest src) s = .next t ∧ t.loc.result = .writeMaxRetries ∧
        (let k := s.profile.bankOf dest
         t.trace = s.trace ++ [.rr (.fcr .b0) a, .rr (.fcr .b1) b] ++
           (List.range s.profile.pageBytes).map
             (fun i => .sr8 (offset src i) (s.env.source.read (offset src i).toNat)) ++
           [.rr (.fcr k) v1, .rw (.fcr k) (v1 ||| s.profile.regLayout.mask .swe),
            .wait s.profile.delays.sweSetup, .rr (.fcr k) v2,
            .rw (.fcr k) (v2 &&& ~~~s.profile.regLayout.mask .swe), .wait s.profile.delays.sweHold]) ∧
        t.locked = true ∧ t.wdt = s.wdt ∧ t.irq = s.irq ∧ t.env.cells = s.env.cells ∧ t.env.latch = s.env.latch ∧
        ∀ k, t.ebr k = s.ebr k)

/-- R40, R61, R62, R151, R164, R270, R276: what the spec gives no meaning stops by name: a command while one runs, a
command under a profile that is not well-formed, a page above `FLASH_MAX`, operands outside the table and the page
(log 25), and flash accesses outside the flash space or off a word boundary (log 15). -/
def Obligations.StopsByName : Prop :=
  (∀ (i : Instr) (s : State), i.isCommand = true → s.cmdReady = false → exec i s = .refused .commandWhileBusy) ∧
  (∀ (i : Instr) (s : State), i.isCommand = true → s.cmdReady = true → s.profile.wf = false →
    exec i s = .refused .illFormedProfile) ∧
  (∀ (dest src : Word) (s : State), s.profile.flashMax < dest →
    exec (.writePage dest src) s = .refused (.rangeOverrun dest)) ∧
  (∀ (index : Word) (s : State), s.profile.blockCount ≤ index.toNat →
    exec (.selectBlock index) s = .refused (.noSuchBlock index)) ∧
  (∀ (k : Bank) (j : Nat) (n : Word) (s : State), s.profile.pageWords ≤ j →
    exec (.verifyWord k j n) s = .refused (.noSuchPageWord j)) ∧
  (∀ (a : Word) (v : Byte) (s : State), s.profile.flashMax < a →
    exec (.flashWrite8 a v) s = .fault (.noSuchFlashAddress a)) ∧
  (∀ (a v : Word) (s : State), a.toNat % 4 ≠ 0 →
    exec (.flashRead32 a) s = .fault (.misalignedFlashWord a) ∧
    exec (.flashWrite32 a v) s = .fault (.misalignedFlashWord a)) ∧
  (∀ (a v : Word) (s : State), a.toNat % 4 = 0 → s.profile.flashMax.toNat < a.toNat + 3 →
    exec (.flashRead32 a) s = .fault (.noSuchFlashAddress a) ∧
    exec (.flashWrite32 a v) s = .fault (.noSuchFlashAddress a))

/-! ### Frames over all instructions -/

/-- R6, R39, R41, R47, R70: no instruction changes the profile or the source space, every instruction keeps the memories
in their canonical form, and every instruction but the reset only appends to the trace, one event and one moment a
micro-operation. -/
def Obligations.EveryInstructionFrame : Prop :=
  ∀ (i : Instr) (s t : State), exec i s = .next t →
    t.profile = s.profile ∧ t.env.source = s.env.source ∧ t.env.mode = s.env.mode ∧
    (s.env.wf = true → t.env.wf = true) ∧
    (i ≠ .systemReset → ∃ es, t.trace = s.trace ++ es ∧ t.moment = s.moment + es.length)

/-- R33, R34, R44, R46: which instructions leave the flash alone. No instruction but those that can end a pulse changes a
cell, nor, in the oracle environment, any but those and the verify reads, whose answers the cells then hold (log 35); the
latch changes only by byte writes and at the end of a program pulse (that an erase pulse leaves it is log 13), or by a
reset. -/
def Obligations.CellsChangeOnlyByPulses : Prop :=
  ∀ (i : Instr) (s t : State), exec i s = .next t → s.profile.regLayout.wf = true →
    ((∀ k v, i ≠ .regWrite (.fcr k) v) → (∀ k, i ≠ .bitClr k .e ∧ i ≠ .bitClr k .p) → (∀ d b, i ≠ .scopedGuard d b) →
      (∀ k, i ≠ .erasePulse k) → (∀ k w, i ≠ .programPulse k w) → (∀ n, i ≠ .eraseBlock n) →
      (∀ d r, i ≠ .writePage d r) → (∀ d r l, i ≠ .writeRange d r l) → i ≠ .pageLoop → i ≠ .systemReset →
      s.env.mode = .reference ∨ ((∀ a, i ≠ .flashRead32 a) ∧ (∀ k a b, i ≠ .eraseVerify k a b) ∧
        ∀ k j n, i ≠ .verifyWord k j n) →
      ∀ a, t.env.cells.read a = s.env.cells.read a) ∧
    ((∀ k v, i ≠ .regWrite (.fcr k) v) → (∀ k, i ≠ .bitClr k .p) → (∀ a v, i ≠ .flashWrite8 a v) →
      (∀ d b, i ≠ .scopedGuard d b) → (∀ k w, i ≠ .programPulse k w) → (∀ d r, i ≠ .writePage d r) →
      (∀ d r l, i ≠ .writeRange d r l) → i ≠ .pageLoop → i ≠ .systemReset → t.env.latch = s.env.latch)
end

