-- ==== Sys2Proof/Laws/State.lean ====
section
/-! SUPPORT. What each update of a state does to each field: one simp lemma per update, its clauses one per field
in the order of `State`, so that no proof unfolds a record update. -/

namespace Sys2Proof.Machine

variable (s : State)

@[simp] theorem emit_fields (e : Event) :
    (s.emit e).profile = s.profile ∧ (s.emit e).port = s.port ∧ (s.emit e).seq = s.seq ∧
    (s.emit e).opr = s.opr ∧ (s.emit e).ctx = s.ctx ∧ (s.emit e).loc = s.loc ∧ (s.emit e).dlyCnt = s.dlyCnt ∧
    (s.emit e).armed = s.armed ∧ (s.emit e).irq = s.irq ∧ (s.emit e).regs = s.regs ∧ (s.emit e).wdt = s.wdt ∧
    (s.emit e).env = s.env ∧ (s.emit e).trace = s.trace ++ [e] ∧ (s.emit e).moment = s.moment + 1 :=
  ⟨rfl, rfl, rfl, rfl, rfl, rfl, rfl, rfl, rfl, rfl, rfl, rfl, rfl, rfl⟩

@[simp] theorem regRead_fields (r : Reg) :
    (s.regRead r).profile = s.profile ∧ (s.regRead r).port = s.port ∧ (s.regRead r).seq = s.seq ∧
    (s.regRead r).opr = s.opr ∧ (s.regRead r).ctx = s.ctx ∧
    (s.regRead r).loc = { s.loc with rdPrev := s.loc.rd, rd := s.content r } ∧
    (s.regRead r).dlyCnt = s.dlyCnt ∧ (s.regRead r).armed = s.armed ∧ (s.regRead r).irq = s.irq ∧
    (s.regRead r).regs = s.regs ∧ (s.regRead r).wdt = s.wdt ∧ (s.regRead r).env = s.env.afterRead r ∧
    (s.regRead r).trace = s.trace ++ [.rr r (s.content r)] ∧ (s.regRead r).moment = s.moment + 1 :=
  ⟨rfl, rfl, rfl, rfl, rfl, rfl, rfl, rfl, rfl, rfl, rfl, rfl, rfl, rfl⟩

@[simp] theorem regWriteFcr_fields (k : Bank) (v : Byte) :
    (s.regWrite (.fcr k) v).profile = s.profile ∧ (s.regWrite (.fcr k) v).port = s.port ∧
    (s.regWrite (.fcr k) v).seq = s.seq ∧ (s.regWrite (.fcr k) v).opr = s.opr ∧
    (s.regWrite (.fcr k) v).ctx = s.ctx ∧ (s.regWrite (.fcr k) v).loc = s.loc ∧
    (s.regWrite (.fcr k) v).dlyCnt = s.dlyCnt ∧ (s.regWrite (.fcr k) v).armed = s.armed ∧
    (s.regWrite (.fcr k) v).irq = s.irq ∧
    (s.regWrite (.fcr k) v).regs = s.regs.setFcr k (v &&& ~~~s.profile.regLayout.statusMask) ∧
    (s.regWrite (.fcr k) v).wdt = s.wdt ∧ (s.regWrite (.fcr k) v).env = s.envAfterFcr k v ∧
    (s.regWrite (.fcr k) v).trace = s.trace ++ [.rw (.fcr k) v] ∧
    (s.regWrite (.fcr k) v).moment = s.moment + 1 :=
  ⟨rfl, rfl, rfl, rfl, rfl, rfl, rfl, rfl, rfl, rfl, rfl, rfl, rfl, rfl⟩

@[simp] theorem regWriteEbr_fields (k : Bank) (v : Byte) :
    (s.regWrite (.ebr k) v).profile = s.profile ∧ (s.regWrite (.ebr k) v).port = s.port ∧
    (s.regWrite (.ebr k) v).seq = s.seq ∧ (s.regWrite (.ebr k) v).opr = s.opr ∧
    (s.regWrite (.ebr k) v).ctx = s.ctx ∧ (s.regWrite (.ebr k) v).loc = s.loc ∧
    (s.regWrite (.ebr k) v).dlyCnt = s.dlyCnt ∧ (s.regWrite (.ebr k) v).armed = s.armed ∧
    (s.regWrite (.ebr k) v).irq = s.irq ∧ (s.regWrite (.ebr k) v).regs = s.regs.setEbr k v ∧
    (s.regWrite (.ebr k) v).wdt = s.wdt ∧ (s.regWrite (.ebr k) v).env = s.env ∧
    (s.regWrite (.ebr k) v).trace = s.trace ++ [.rw (.ebr k) v] ∧
    (s.regWrite (.ebr k) v).moment = s.moment + 1 :=
  ⟨rfl, rfl, rfl, rfl, rfl, rfl, rfl, rfl, rfl, rfl, rfl, rfl, rfl, rfl⟩

@[simp] theorem regWrite_fields (r : Reg) (v : Byte) :
    (s.regWrite r v).profile = s.profile ∧ (s.regWrite r v).port = s.port ∧ (s.regWrite r v).seq = s.seq ∧
    (s.regWrite r v).opr = s.opr ∧ (s.regWrite r v).ctx = s.ctx ∧ (s.regWrite r v).loc = s.loc ∧
    (s.regWrite r v).dlyCnt = s.dlyCnt ∧ (s.regWrite r v).armed = s.armed ∧ (s.regWrite r v).irq = s.irq ∧
    (s.regWrite r v).wdt = s.wdt ∧ (s.regWrite r v).trace = s.trace ++ [.rw r v] ∧
    (s.regWrite r v).moment = s.moment + 1 :=
  by cases r <;> exact ⟨rfl, rfl, rfl, rfl, rfl, rfl, rfl, rfl, rfl, rfl, rfl, rfl⟩

@[simp] theorem flashWrite8_fields (a : Word) (v : Byte) :
    (s.flashWrite8 a v).profile = s.profile ∧ (s.flashWrite8 a v).port = s.port ∧
    (s.flashWrite8 a v).seq = s.seq ∧ (s.flashWrite8 a v).opr = s.opr ∧ (s.flashWrite8 a v).ctx = s.ctx ∧
    (s.flashWrite8 a v).loc = s.loc ∧ (s.flashWrite8 a v).dlyCnt = s.dlyCnt ∧
    (s.flashWrite8 a v).armed = s.armed ∧ (s.flashWrite8 a v).irq = s.irq ∧ (s.flashWrite8 a v).regs = s.regs ∧
    (s.flashWrite8 a v).wdt = s.wdt ∧
    (s.flashWrite8 a v).env = (if s.latching a then { s.env with latch := s.env.latch.insert a.toNat v } else s.env) ∧
    (s.flashWrite8 a v).trace = s.trace ++ [.fw8 a v] ∧ (s.flashWrite8 a v).moment = s.moment + 1 :=
  ⟨rfl, rfl, rfl, rfl, rfl, rfl, rfl, rfl, rfl, rfl, rfl, rfl, rfl, rfl⟩

@[simp] theorem flashWrite32_fields (a v : Word) :
    (s.flashWrite32 a v).profile = s.profile ∧ (s.flashWrite32 a v).port = s.port ∧
    (s.flashWrite32 a v).seq = s.seq ∧ (s.flashWrite32 a v).opr = s.opr ∧ (s.flashWrite32 a v).ctx = s.ctx ∧
    (s.flashWrite32 a v).loc = s.loc ∧ (s.flashWrite32 a v).dlyCnt = s.dlyCnt ∧
    (s.flashWrite32 a v).armed = s.armed ∧ (s.flashWrite32 a v).irq = s.irq ∧
    (s.flashWrite32 a v).regs = s.regs ∧ (s.flashWrite32 a v).wdt = s.wdt ∧
    (s.flashWrite32 a v).env = s.envAfterProbe a v ∧ (s.flashWrite32 a v).trace = s.trace ++ [.fw32 a v] ∧
    (s.flashWrite32 a v).moment = s.moment + 1 :=
  ⟨rfl, rfl, rfl, rfl, rfl, rfl, rfl, rfl, rfl, rfl, rfl, rfl, rfl, rfl⟩

@[simp] theorem flashRead32_fields (a : Word) :
    (s.flashRead32 a).profile = s.profile ∧ (s.flashRead32 a).port = s.port ∧ (s.flashRead32 a).seq = s.seq ∧
    (s.flashRead32 a).opr = s.opr ∧ (s.flashRead32 a).ctx = s.ctx ∧
    (s.flashRead32 a).loc = { s.loc with fword := s.readBack a } ∧ (s.flashRead32 a).dlyCnt = s.dlyCnt ∧
    (s.flashRead32 a).armed = s.armed ∧ (s.flashRead32 a).irq = s.irq ∧ (s.flashRead32 a).regs = s.regs ∧
    (s.flashRead32 a).wdt = s.wdt ∧ (s.flashRead32 a).env = s.envAfterReadBack a ∧
    (s.flashRead32 a).trace = s.trace ++ [.fr32 a (s.readBack a)] ∧ (s.flashRead32 a).moment = s.moment + 1 :=
  ⟨rfl, rfl, rfl, rfl, rfl, rfl, rfl, rfl, rfl, rfl, rfl, rfl, rfl, rfl⟩

@[simp] theorem srcRead8_fields (a : Word) :
    (s.srcRead8 a).profile = s.profile ∧ (s.srcRead8 a).port = s.port ∧ (s.srcRead8 a).seq = s.seq ∧
    (s.srcRead8 a).opr = s.opr ∧ (s.srcRead8 a).ctx = s.ctx ∧
    (s.srcRead8 a).loc = { s.loc with sbyte := s.sourceByte a } ∧ (s.srcRead8 a).dlyCnt = s.dlyCnt ∧
    (s.srcRead8 a).armed = s.armed ∧ (s.srcRead8 a).irq = s.irq ∧ (s.srcRead8 a).regs = s.regs ∧
    (s.srcRead8 a).wdt = s.wdt ∧ (s.srcRead8 a).env = s.env ∧
    (s.srcRead8 a).trace = s.trace ++ [.sr8 a (s.sourceByte a)] ∧ (s.srcRead8 a).moment = s.moment + 1 :=
  ⟨rfl, rfl, rfl, rfl, rfl, rfl, rfl, rfl, rfl, rfl, rfl, rfl, rfl, rfl⟩

@[simp] theorem wait_fields (c : Word) :
    (s.wait c).profile = s.profile ∧ (s.wait c).port = s.port ∧ (s.wait c).seq = s.seq ∧
    (s.wait c).opr = s.opr ∧ (s.wait c).ctx = s.ctx ∧ (s.wait c).loc = s.loc ∧ (s.wait c).dlyCnt = 0 ∧
    (s.wait c).armed = s.armed ∧ (s.wait c).irq = s.irq ∧ (s.wait c).regs = s.regs ∧
    (s.wait c).wdt = s.wdt.begin c ∧ (s.wait c).env = { s.env with view := s.env.view.wait c } ∧
    (s.wait c).trace = s.trace ++ [.wait c] ∧ (s.wait c).moment = s.moment + 1 :=
  ⟨rfl, rfl, rfl, rfl, rfl, rfl, rfl, rfl, rfl, rfl, rfl, rfl, rfl, rfl⟩

@[simp] theorem wdtStop_fields :
    s.wdtStop.profile = s.profile ∧ s.wdtStop.port = s.port ∧ s.wdtStop.seq = s.seq ∧ s.wdtStop.opr = s.opr ∧
    s.wdtStop.ctx = s.ctx ∧ s.wdtStop.loc = s.loc ∧ s.wdtStop.dlyCnt = s.dlyCnt ∧ s.wdtStop.armed = s.armed ∧
    s.wdtStop.irq = s.irq ∧ s.wdtStop.regs = s.regs ∧ s.wdtStop.wdt = { s.wdt with run := false } ∧
    s.wdtStop.env = s.env ∧ s.wdtStop.trace = s.trace ++ [.wdtStop] ∧ s.wdtStop.moment = s.moment + 1 :=
  ⟨rfl, rfl, rfl, rfl, rfl, rfl, rfl, rfl, rfl, rfl, rfl, rfl, rfl, rfl⟩

@[simp] theorem wdtStart_fields (d : Divisor) :
    (s.wdtStart d).profile = s.profile ∧ (s.wdtStart d).port = s.port ∧ (s.wdtStart d).seq = s.seq ∧
    (s.wdtStart d).opr = s.opr ∧ (s.wdtStart d).ctx = s.ctx ∧ (s.wdtStart d).loc = s.loc ∧
    (s.wdtStart d).dlyCnt = s.dlyCnt ∧ (s.wdtStart d).armed = s.armed ∧ (s.wdtStart d).irq = s.irq ∧
    (s.wdtStart d).regs = s.regs ∧ (s.wdtStart d).wdt = { run := true, div := d, rste := true, cnt := 0 } ∧
    (s.wdtStart d).env = s.env ∧ (s.wdtStart d).trace = s.trace ++ [.wdtStart d] ∧
    (s.wdtStart d).moment = s.moment + 1 :=
  ⟨rfl, rfl, rfl, rfl, rfl, rfl, rfl, rfl, rfl, rfl, rfl, rfl, rfl, rfl⟩

@[simp] theorem irqMask_fields :
    s.irqMask.profile = s.profile ∧ s.irqMask.port = s.port ∧ s.irqMask.seq = s.seq ∧ s.irqMask.opr = s.opr ∧
    s.irqMask.ctx = s.ctx ∧ s.irqMask.loc = s.loc ∧ s.irqMask.dlyCnt = s.dlyCnt ∧ s.irqMask.armed = s.armed ∧
    s.irqMask.irq = { mask := true, saved := s.irq.mask } ∧ s.irqMask.regs = s.regs ∧ s.irqMask.wdt = s.wdt ∧
    s.irqMask.env = s.env ∧ s.irqMask.trace = s.trace ++ [.irqMask] ∧ s.irqMask.moment = s.moment + 1 :=
  ⟨rfl, rfl, rfl, rfl, rfl, rfl, rfl, rfl, rfl, rfl, rfl, rfl, rfl, rfl⟩

@[simp] theorem irqRestore_fields :
    s.irqRestore.profile = s.profile ∧ s.irqRestore.port = s.port ∧ s.irqRestore.seq = s.seq ∧
    s.irqRestore.opr = s.opr ∧ s.irqRestore.ctx = s.ctx ∧ s.irqRestore.loc = s.loc ∧
    s.irqRestore.dlyCnt = s.dlyCnt ∧ s.irqRestore.armed = s.armed ∧
    s.irqRestore.irq = { s.irq with mask := s.irq.saved } ∧ s.irqRestore.regs = s.regs ∧
    s.irqRestore.wdt = s.wdt ∧ s.irqRestore.env = s.env ∧ s.irqRestore.trace = s.trace ++ [.irqRestore] ∧
    s.irqRestore.moment = s.moment + 1 :=
  ⟨rfl, rfl, rfl, rfl, rfl, rfl, rfl, rfl, rfl, rfl, rfl, rfl, rfl, rfl⟩

@[simp] theorem withResult_fields (r : Status) :
    (s.withResult r).profile = s.profile ∧ (s.withResult r).port = s.port ∧ (s.withResult r).seq = s.seq ∧
    (s.withResult r).opr = s.opr ∧ (s.withResult r).ctx = s.ctx ∧
    (s.withResult r).loc = { s.loc with result := r } ∧ (s.withResult r).dlyCnt = s.dlyCnt ∧
    (s.withResult r).armed = s.armed ∧ (s.withResult r).irq = s.irq ∧ (s.withResult r).regs = s.regs ∧
    (s.withResult r).wdt = s.wdt ∧ (s.withResult r).env = s.env ∧ (s.withResult r).trace = s.trace ∧
    (s.withResult r).moment = s.moment :=
  ⟨rfl, rfl, rfl, rfl, rfl, rfl, rfl, rfl, rfl, rfl, rfl, rfl, rfl, rfl⟩

@[simp] theorem judgePrecond_fields :
    s.judgePrecond.profile = s.profile ∧ s.judgePrecond.port = s.port ∧ s.judgePrecond.seq = s.seq ∧
    s.judgePrecond.opr = s.opr ∧ s.judgePrecond.ctx = s.ctx ∧
    s.judgePrecond.loc = { s.loc with flag := s.precondHolds } ∧ s.judgePrecond.dlyCnt = s.dlyCnt ∧
    s.judgePrecond.armed = s.armed ∧ s.judgePrecond.irq = s.irq ∧ s.judgePrecond.regs = s.regs ∧
    s.judgePrecond.wdt = s.wdt ∧ s.judgePrecond.env = s.env ∧ s.judgePrecond.trace = s.trace ∧
    s.judgePrecond.moment = s.moment :=
  ⟨rfl, rfl, rfl, rfl, rfl, rfl, rfl, rfl, rfl, rfl, rfl, rfl, rfl, rfl⟩

@[simp] theorem startScan_fields (a : Word) :
    (s.startScan a).profile = s.profile ∧ (s.startScan a).port = s.port ∧ (s.startScan a).seq = s.seq ∧
    (s.startScan a).opr = s.opr ∧ (s.startScan a).ctx = { s.ctx with vaddr := a } ∧
    (s.startScan a).loc = { s.loc with flag := true } ∧ (s.startScan a).dlyCnt = s.dlyCnt ∧
    (s.startScan a).armed = s.armed ∧ (s.startScan a).irq = s.irq ∧ (s.startScan a).regs = s.regs ∧
    (s.startScan a).wdt = s.wdt ∧ (s.startScan a).env = s.env ∧ (s.startScan a).trace = s.trace ∧
    (s.startScan a).moment = s.moment :=
  ⟨rfl, rfl, rfl, rfl, rfl, rfl, rfl, rfl, rfl, rfl, rfl, rfl, rfl, rfl⟩

@[simp] theorem judgeScan_fields :
    s.judgeScan.profile = s.profile ∧ s.judgeScan.port = s.port ∧ s.judgeScan.seq = s.seq ∧
    s.judgeScan.opr = s.opr ∧ s.judgeScan.ctx = { s.ctx with vaddr := s.ctx.vaddr + 4 } ∧
    s.judgeScan.loc = { s.loc with flag := s.loc.flag && decide (s.loc.fword = ones32) } ∧
    s.judgeScan.dlyCnt = s.dlyCnt ∧ s.judgeScan.armed = s.armed ∧ s.judgeScan.irq = s.irq ∧
    s.judgeScan.regs = s.regs ∧ s.judgeScan.wdt = s.wdt ∧ s.judgeScan.env = s.env ∧
    s.judgeScan.trace = s.trace ∧ s.judgeScan.moment = s.moment :=
  ⟨rfl, rfl, rfl, rfl, rfl, rfl, rfl, rfl, rfl, rfl, rfl, rfl, rfl, rfl⟩

@[simp] theorem startWord_fields (j : Nat) :
    (s.startWord j).profile = s.profile ∧ (s.startWord j).port = s.port ∧ (s.startWord j).seq = s.seq ∧
    (s.startWord j).opr = s.opr ∧ (s.startWord j).ctx = { s.ctx with vaddr := offset s.ctx.pgDest (4 * j) } ∧
    (s.startWord j).loc = { s.loc with j := j } ∧ (s.startWord j).dlyCnt = s.dlyCnt ∧
    (s.startWord j).armed = s.armed ∧ (s.startWord j).irq = s.irq ∧ (s.startWord j).regs = s.regs ∧
    (s.startWord j).wdt = s.wdt ∧ (s.startWord j).env = s.env ∧ (s.startWord j).trace = s.trace ∧
    (s.startWord j).moment = s.moment :=
  ⟨rfl, rfl, rfl, rfl, rfl, rfl, rfl, rfl, rfl, rfl, rfl, rfl, rfl, rfl⟩

@[simp] theorem judgeWord_fields (j : Nat) (n : Word) :
    (s.judgeWord j n).profile = s.profile ∧ (s.judgeWord j n).port = s.port ∧ (s.judgeWord j n).seq = s.seq ∧
    (s.judgeWord j n).opr = s.opr ∧ (s.judgeWord j n).dlyCnt = s.dlyCnt ∧ (s.judgeWord j n).armed = s.armed ∧
    (s.judgeWord j n).irq = s.irq ∧ (s.judgeWord j n).regs = s.regs ∧ (s.judgeWord j n).wdt = s.wdt ∧
    (s.judgeWord j n).env = s.env ∧ (s.judgeWord j n).trace = s.trace ∧ (s.judgeWord j n).moment = s.moment :=
  by unfold State.judgeWord; split <;> exact ⟨rfl, rfl, rfl, rfl, rfl, rfl, rfl, rfl, rfl, rfl, rfl, rfl⟩

@[simp] theorem respond_fields (r : Status) :
    (s.respond r).profile = s.profile ∧
    (s.respond r).port = { s.port with status := s.profile.statusEnc.code r, rspValid := true } ∧
    (s.respond r).seq = { s.seq with seg := .idle, pos := 0 } ∧ (s.respond r).opr = s.opr ∧
    (s.respond r).ctx = s.ctx ∧ (s.respond r).loc = s.loc ∧ (s.respond r).dlyCnt = s.dlyCnt ∧
    (s.respond r).armed = s.armed ∧ (s.respond r).irq = s.irq ∧ (s.respond r).regs = s.regs ∧
    (s.respond r).wdt = s.wdt ∧ (s.respond r).env = s.env ∧ (s.respond r).trace = s.trace ∧
    (s.respond r).moment = s.moment :=
  ⟨rfl, rfl, rfl, rfl, rfl, rfl, rfl, rfl, rfl, rfl, rfl, rfl, rfl, rfl⟩

@[simp] theorem acceptInit_fields :
    s.acceptInit.profile = s.profile ∧ s.acceptInit.port = { s.port with rspValid := false } ∧
    s.acceptInit.seq = { op := .init, seg := .validate, pos := 0 } ∧ s.acceptInit.opr = s.opr ∧
    s.acceptInit.ctx = s.ctx ∧ s.acceptInit.loc = s.loc ∧ s.acceptInit.dlyCnt = s.dlyCnt ∧
    s.acceptInit.armed = s.armed ∧ s.acceptInit.irq = s.irq ∧ s.acceptInit.regs = s.regs ∧
    s.acceptInit.wdt = s.wdt ∧ s.acceptInit.env = s.env ∧ s.acceptInit.trace = s.trace ∧
    s.acceptInit.moment = s.moment :=
  ⟨rfl, rfl, rfl, rfl, rfl, rfl, rfl, rfl, rfl, rfl, rfl, rfl, rfl, rfl⟩

@[simp] theorem acceptUnprotect_fields :
    s.acceptUnprotect.profile = s.profile ∧ s.acceptUnprotect.port = { s.port with rspValid := false } ∧
    s.acceptUnprotect.seq = { op := .unprotect, seg := .validate, pos := 0 } ∧ s.acceptUnprotect.opr = s.opr ∧
    s.acceptUnprotect.ctx = s.ctx ∧ s.acceptUnprotect.loc = s.loc ∧ s.acceptUnprotect.dlyCnt = s.dlyCnt ∧
    s.acceptUnprotect.armed = s.armed ∧ s.acceptUnprotect.irq = s.irq ∧ s.acceptUnprotect.regs = s.regs ∧
    s.acceptUnprotect.wdt = s.wdt ∧ s.acceptUnprotect.env = s.env ∧ s.acceptUnprotect.trace = s.trace ∧
    s.acceptUnprotect.moment = s.moment :=
  ⟨rfl, rfl, rfl, rfl, rfl, rfl, rfl, rfl, rfl, rfl, rfl, rfl, rfl, rfl⟩

@[simp] theorem acceptErase_fields (index : Word) :
    (s.acceptErase index).profile = s.profile ∧
    (s.acceptErase index).port = { s.port with rspValid := false } ∧
    (s.acceptErase index).seq = { op := .eraseBlock, seg := .validate, pos := 0 } ∧
    (s.acceptErase index).opr = { s.opr with index := index } ∧ (s.acceptErase index).ctx = s.ctx ∧
    (s.acceptErase index).loc = s.loc ∧ (s.acceptErase index).dlyCnt = s.dlyCnt ∧
    (s.acceptErase index).armed = s.armed ∧ (s.acceptErase index).irq = s.irq ∧
    (s.acceptErase index).regs = s.regs ∧ (s.acceptErase index).wdt = s.wdt ∧
    (s.acceptErase index).env = s.env ∧ (s.acceptErase index).trace = s.trace ∧
    (s.acceptErase index).moment = s.moment :=
  ⟨rfl, rfl, rfl, rfl, rfl, rfl, rfl, rfl, rfl, rfl, rfl, rfl, rfl, rfl⟩

@[simp] theorem acceptWrite_fields (dest src len : Word) :
    (s.acceptWrite dest src len).profile = s.profile ∧
    (s.acceptWrite dest src len).port = { s.port with rspValid := false } ∧
    (s.acceptWrite dest src len).seq = { op := .writeRange, seg := .validate, pos := 0 } ∧
    (s.acceptWrite dest src len).opr = { s.opr with dest := dest, src := src, len := len } ∧
    (s.acceptWrite dest src len).ctx = s.ctx ∧ (s.acceptWrite dest src len).loc = s.loc ∧
    (s.acceptWrite dest src len).dlyCnt = s.dlyCnt ∧ (s.acceptWrite dest src len).armed = s.armed ∧
    (s.acceptWrite dest src len).irq = s.irq ∧ (s.acceptWrite dest src len).regs = s.regs ∧
    (s.acceptWrite dest src len).wdt = s.wdt ∧ (s.acceptWrite dest src len).env = s.env ∧
    (s.acceptWrite dest src len).trace = s.trace ∧ (s.acceptWrite dest src len).moment = s.moment :=
  ⟨rfl, rfl, rfl, rfl, rfl, rfl, rfl, rfl, rfl, rfl, rfl, rfl, rfl, rfl⟩

@[simp] theorem disarm_fields :
    s.disarm.profile = s.profile ∧ s.disarm.port = s.port ∧ s.disarm.seq = s.seq ∧ s.disarm.opr = s.opr ∧
    s.disarm.ctx = s.ctx ∧ s.disarm.loc = s.loc ∧ s.disarm.dlyCnt = s.dlyCnt ∧ s.disarm.armed = false ∧
    s.disarm.irq = s.irq ∧ s.disarm.regs = s.regs ∧ s.disarm.wdt = s.wdt ∧ s.disarm.env = s.env ∧
    s.disarm.trace = s.trace ∧ s.disarm.moment = s.moment :=
  ⟨rfl, rfl, rfl, rfl, rfl, rfl, rfl, rfl, rfl, rfl, rfl, rfl, rfl, rfl⟩

@[simp] theorem arm_fields :
    s.arm.profile = s.profile ∧ s.arm.port = s.port ∧ s.arm.seq = s.seq ∧ s.arm.opr = s.opr ∧
    s.arm.ctx = s.ctx ∧ s.arm.loc = s.loc ∧ s.arm.dlyCnt = s.dlyCnt ∧ s.arm.armed = true ∧ s.arm.irq = s.irq ∧
    s.arm.regs = s.regs ∧ s.arm.wdt = s.wdt ∧ s.arm.env = s.env ∧ s.arm.trace = s.trace ∧
    s.arm.moment = s.moment :=
  ⟨rfl, rfl, rfl, rfl, rfl, rfl, rfl, rfl, rfl, rfl, rfl, rfl, rfl, rfl⟩

@[simp] theorem loadBlock_fields (index : Word) :
    (s.loadBlock index).profile = s.profile ∧ (s.loadBlock index).port = s.port ∧
    (s.loadBlock index).seq = s.seq ∧ (s.loadBlock index).opr = s.opr ∧
    (s.loadBlock index).ctx = { s.ctx with
      blkStart := s.profile.tableAt index.toNat, blkEnd := s.profile.tableAt (index.toNat + 1),
      bank := s.profile.blockBank index.toNat } ∧
    (s.loadBlock index).loc = s.loc ∧ (s.loadBlock index).dlyCnt = s.dlyCnt ∧
    (s.loadBlock index).armed = s.armed ∧ (s.loadBlock index).irq = s.irq ∧ (s.loadBlock index).regs = s.regs ∧
    (s.loadBlock index).wdt = s.wdt ∧ (s.loadBlock index).env = s.env ∧ (s.loadBlock index).trace = s.trace ∧
    (s.loadBlock index).moment = s.moment :=
  ⟨rfl, rfl, rfl, rfl, rfl, rfl, rfl, rfl, rfl, rfl, rfl, rfl, rfl, rfl⟩

@[simp] theorem resolveBlock_fields (index : Word) :
    (s.resolveBlock index).profile = s.profile ∧ (s.resolveBlock index).port = s.port ∧
    (s.resolveBlock index).seq = s.seq ∧ (s.resolveBlock index).opr = s.opr ∧
    (s.resolveBlock index).dlyCnt = s.dlyCnt ∧ (s.resolveBlock index).armed = s.armed ∧
    (s.resolveBlock index).irq = s.irq ∧ (s.resolveBlock index).regs = s.regs ∧
    (s.resolveBlock index).wdt = s.wdt ∧ (s.resolveBlock index).env = s.env ∧
    (s.resolveBlock index).trace = s.trace ∧ (s.resolveBlock index).moment = s.moment :=
  by unfold State.resolveBlock; split <;> exact ⟨rfl, rfl, rfl, rfl, rfl, rfl, rfl, rfl, rfl, rfl, rfl, rfl⟩

@[simp] theorem resolveRange_fields (dest : Word) :
    (s.resolveRange dest).profile = s.profile ∧ (s.resolveRange dest).port = s.port ∧
    (s.resolveRange dest).seq = s.seq ∧ (s.resolveRange dest).opr = s.opr ∧
    (s.resolveRange dest).ctx = { s.ctx with bank := s.profile.bankOf dest } ∧
    (s.resolveRange dest).loc = s.loc ∧ (s.resolveRange dest).dlyCnt = s.dlyCnt ∧
    (s.resolveRange dest).armed = s.armed ∧ (s.resolveRange dest).irq = s.irq ∧
    (s.resolveRange dest).regs = s.regs ∧ (s.resolveRange dest).wdt = s.wdt ∧
    (s.resolveRange dest).env = s.env ∧ (s.resolveRange dest).trace = s.trace ∧
    (s.resolveRange dest).moment = s.moment :=
  ⟨rfl, rfl, rfl, rfl, rfl, rfl, rfl, rfl, rfl, rfl, rfl, rfl, rfl, rfl⟩

@[simp] theorem setN_fields (v : Word) :
    (s.setN v).profile = s.profile ∧ (s.setN v).port = s.port ∧ (s.setN v).seq = s.seq ∧
    (s.setN v).opr = s.opr ∧ (s.setN v).ctx = { s.ctx with n := v } ∧ (s.setN v).loc = s.loc ∧
    (s.setN v).dlyCnt = s.dlyCnt ∧ (s.setN v).armed = s.armed ∧ (s.setN v).irq = s.irq ∧
    (s.setN v).regs = s.regs ∧ (s.setN v).wdt = s.wdt ∧ (s.setN v).env = s.env ∧ (s.setN v).trace = s.trace ∧
    (s.setN v).moment = s.moment :=
  ⟨rfl, rfl, rfl, rfl, rfl, rfl, rfl, rfl, rfl, rfl, rfl, rfl, rfl, rfl⟩

@[simp] theorem firstAttempt_fields (b : Word) :
    (s.firstAttempt b).profile = s.profile ∧ (s.firstAttempt b).port = s.port ∧
    (s.firstAttempt b).seq = s.seq ∧ (s.firstAttempt b).opr = s.opr ∧
    (s.firstAttempt b).ctx = { s.ctx with n := if b = 0 then s.ctx.n else 1 } ∧
    (s.firstAttempt b).loc = s.loc ∧ (s.firstAttempt b).dlyCnt = s.dlyCnt ∧
    (s.firstAttempt b).armed = s.armed ∧ (s.firstAttempt b).irq = s.irq ∧ (s.firstAttempt b).regs = s.regs ∧
    (s.firstAttempt b).wdt = s.wdt ∧ (s.firstAttempt b).env = s.env ∧ (s.firstAttempt b).trace = s.trace ∧
    (s.firstAttempt b).moment = s.moment :=
  by unfold State.firstAttempt; split <;> simp [State.setN]

@[simp] theorem clearMismatch_fields :
    s.clearMismatch.profile = s.profile ∧ s.clearMismatch.port = s.port ∧ s.clearMismatch.seq = s.seq ∧
    s.clearMismatch.opr = s.opr ∧ s.clearMismatch.ctx = { s.ctx with m := false } ∧
    s.clearMismatch.loc = s.loc ∧ s.clearMismatch.dlyCnt = s.dlyCnt ∧ s.clearMismatch.armed = s.armed ∧
    s.clearMismatch.irq = s.irq ∧ s.clearMismatch.regs = s.regs ∧ s.clearMismatch.wdt = s.wdt ∧
    s.clearMismatch.env = s.env ∧ s.clearMismatch.trace = s.trace ∧ s.clearMismatch.moment = s.moment :=
  ⟨rfl, rfl, rfl, rfl, rfl, rfl, rfl, rfl, rfl, rfl, rfl, rfl, rfl, rfl⟩

@[simp] theorem enterPage_fields (dest src : Word) :
    (s.enterPage dest src).profile = s.profile ∧ (s.enterPage dest src).port = s.port ∧
    (s.enterPage dest src).seq = s.seq ∧ (s.enterPage dest src).opr = s.opr ∧
    (s.enterPage dest src).ctx = { s.ctx with pgDest := dest, pgSrc := src, bank := s.profile.bankOf dest } ∧
    (s.enterPage dest src).loc = s.loc ∧ (s.enterPage dest src).dlyCnt = s.dlyCnt ∧
    (s.enterPage dest src).armed = s.armed ∧ (s.enterPage dest src).irq = s.irq ∧
    (s.enterPage dest src).regs = s.regs ∧ (s.enterPage dest src).wdt = s.wdt ∧
    (s.enterPage dest src).env = s.env ∧ (s.enterPage dest src).trace = s.trace ∧
    (s.enterPage dest src).moment = s.moment :=
  ⟨rfl, rfl, rfl, rfl, rfl, rfl, rfl, rfl, rfl, rfl, rfl, rfl, rfl, rfl⟩

@[simp] theorem stepPage_fields :
    s.stepPage.profile = s.profile ∧ s.stepPage.port = s.port ∧ s.stepPage.seq = s.seq ∧
    s.stepPage.opr = { s.opr with
      dest := s.opr.dest + s.profile.pageWord, src := s.opr.src + s.profile.pageWord,
      len := s.opr.len - s.profile.pageWord } ∧
    s.stepPage.ctx = s.ctx ∧ s.stepPage.loc = s.loc ∧ s.stepPage.dlyCnt = s.dlyCnt ∧
    s.stepPage.armed = s.armed ∧ s.stepPage.irq = s.irq ∧ s.stepPage.regs = s.regs ∧ s.stepPage.wdt = s.wdt ∧
    s.stepPage.env = s.env ∧ s.stepPage.trace = s.trace ∧ s.stepPage.moment = s.moment :=
  ⟨rfl, rfl, rfl, rfl, rfl, rfl, rfl, rfl, rfl, rfl, rfl, rfl, rfl, rfl⟩

@[simp] theorem goto_fields (g : Seg) :
    (s.goto g).profile = s.profile ∧ (s.goto g).port = s.port ∧
    (s.goto g).seq = { s.seq with seg := g, pos := 0 } ∧ (s.goto g).opr = s.opr ∧ (s.goto g).ctx = s.ctx ∧
    (s.goto g).loc = s.loc ∧ (s.goto g).dlyCnt = s.dlyCnt ∧ (s.goto g).armed = s.armed ∧
    (s.goto g).irq = s.irq ∧ (s.goto g).regs = s.regs ∧ (s.goto g).wdt = s.wdt ∧ (s.goto g).env = s.env ∧
    (s.goto g).trace = s.trace ∧ (s.goto g).moment = s.moment :=
  ⟨rfl, rfl, rfl, rfl, rfl, rfl, rfl, rfl, rfl, rfl, rfl, rfl, rfl, rfl⟩

@[simp] theorem withCmds_fields (l : List (BitVec 98)) :
    (s.withCmds l).profile = s.profile ∧ (s.withCmds l).port = { s.port with cmds := l } ∧
    (s.withCmds l).seq = s.seq ∧ (s.withCmds l).opr = s.opr ∧ (s.withCmds l).ctx = s.ctx ∧
    (s.withCmds l).loc = s.loc ∧ (s.withCmds l).dlyCnt = s.dlyCnt ∧ (s.withCmds l).armed = s.armed ∧
    (s.withCmds l).irq = s.irq ∧ (s.withCmds l).regs = s.regs ∧ (s.withCmds l).wdt = s.wdt ∧
    (s.withCmds l).env = s.env ∧ (s.withCmds l).trace = s.trace ∧ (s.withCmds l).moment = s.moment :=
  ⟨rfl, rfl, rfl, rfl, rfl, rfl, rfl, rfl, rfl, rfl, rfl, rfl, rfl, rfl⟩

@[simp] theorem responseTaken_fields :
    s.responseTaken.profile = s.profile ∧ s.responseTaken.port = { s.port with rspValid := false } ∧
    s.responseTaken.seq = s.seq ∧ s.responseTaken.opr = s.opr ∧ s.responseTaken.ctx = s.ctx ∧
    s.responseTaken.loc = s.loc ∧ s.responseTaken.dlyCnt = s.dlyCnt ∧ s.responseTaken.armed = s.armed ∧
    s.responseTaken.irq = s.irq ∧ s.responseTaken.regs = s.regs ∧ s.responseTaken.wdt = s.wdt ∧
    s.responseTaken.env = s.env ∧ s.responseTaken.trace = s.trace ∧ s.responseTaken.moment = s.moment :=
  ⟨rfl, rfl, rfl, rfl, rfl, rfl, rfl, rfl, rfl, rfl, rfl, rfl, rfl, rfl⟩

@[simp] theorem clearUword_fields :
    s.clearUword.profile = s.profile ∧ s.clearUword.port = { s.port with uword := none } ∧
    s.clearUword.seq = s.seq ∧ s.clearUword.opr = s.opr ∧ s.clearUword.ctx = s.ctx ∧ s.clearUword.loc = s.loc ∧
    s.clearUword.dlyCnt = s.dlyCnt ∧ s.clearUword.armed = s.armed ∧ s.clearUword.irq = s.irq ∧
    s.clearUword.regs = s.regs ∧ s.clearUword.wdt = s.wdt ∧ s.clearUword.env = s.env ∧
    s.clearUword.trace = s.trace ∧ s.clearUword.moment = s.moment :=
  ⟨rfl, rfl, rfl, rfl, rfl, rfl, rfl, rfl, rfl, rfl, rfl, rfl, rfl, rfl⟩

@[simp] theorem systemReset_fields :
    s.systemReset.profile = s.profile ∧ s.systemReset.seq = { op := .init, seg := .idle, pos := 0 } ∧
    s.systemReset.dlyCnt = 0 ∧ s.systemReset.armed = false ∧
    s.systemReset.regs = { fcr0 := 0, fcr1 := 0, ebr0 := 0, ebr1 := 0 } ∧
    s.systemReset.wdt = { run := false, div := 0, rste := false, cnt := 0 } ∧
    s.systemReset.env = { s.env with cells := s.cellsAfterReset, latch := [], view := Env.unknown.view } ∧
    s.systemReset.trace = [] ∧ s.systemReset.moment = s.moment + 1 :=
  ⟨rfl, rfl, rfl, rfl, rfl, rfl, rfl, rfl, rfl⟩

@[simp] theorem actStore_fields (a : Act) :
    (a.store s).profile = s.profile ∧ (a.store s).port = s.port ∧ (a.store s).seq = s.seq ∧
    (a.store s).opr = s.opr ∧ (a.store s).dlyCnt = s.dlyCnt ∧ (a.store s).armed = s.armed ∧
    (a.store s).irq = s.irq ∧ (a.store s).regs = s.regs ∧ (a.store s).wdt = s.wdt ∧ (a.store s).env = s.env ∧
    (a.store s).trace = s.trace ∧ (a.store s).moment = s.moment :=
  by cases a <;> exact ⟨rfl, rfl, rfl, rfl, rfl, rfl, rfl, rfl, rfl, rfl, rfl, rfl⟩

end Sys2Proof.Machine
end

