-- ==== Sys2Proof/Laws/Ops.lean ====
section
/-! SUPPORT. Spec lemmas of the shared operations: sequencing of outcomes, the end of a micro-operation, what one
micro-operation does and leaves alone, when it completes, and the same of a run of acts. -/

namespace Sys2Proof.Machine

/-! ### Sequencing -/

@[simp] theorem andThen_of_next (s : State) (f : State → Res) : andThen (.next s) f = f s := rfl

@[simp] theorem andThen_of_fault (e : Fault) (f : State → Res) : andThen (.fault e) f = .fault e := rfl

@[simp] theorem andThen_of_refused (e : Refusal) (f : State → Res) : andThen (.refused e) f = .refused e := rfl

theorem andThen_assoc (r : Res) (f g : State → Res) :
    andThen (andThen r f) g = andThen r (fun s => andThen (f s) g) := by cases r <;> rfl

@[simp] theorem andThen_next_id (r : Res) : andThen r Host.Outcome.next = r := by cases r <;> rfl

/-- A next state of a sequence is a next state of its second part from a next state of its first. -/
theorem andThen_eq_next {r : Res} {f : State → Res} {t : State} :
    andThen r f = .next t ↔ ∃ u, r = .next u ∧ f u = .next t := by
  cases r <;> simp

/-- A sequence faults in its first part or in its second. -/
theorem andThen_eq_fault {r : Res} {f : State → Res} {e : Fault} :
    andThen r f = .fault e ↔ r = .fault e ∨ ∃ u, r = .next u ∧ f u = .fault e := by
  cases r <;> simp

/-- A sequence is refused in its first part or in its second. -/
theorem andThen_eq_refused {r : Res} {f : State → Res} {e : Refusal} :
    andThen r f = .refused e ↔ r = .refused e ∨ ∃ u, r = .next u ∧ f u = .refused e := by
  cases r <;> simp

/-! ### The watchdog -/

theorem overflowAdmitted_eq (s : State) : s.overflowAdmitted = !s.calm := by
  simp only [State.overflowAdmitted, State.calm, Watchdog.calm, Bool.not_or, Bool.not_not, ← decide_not, Nat.not_lt]

/-- A certain overflow is an admitted one: the overhead only lengthens the elapsed time. -/
theorem overflowAdmitted_of_forced {s : State} (h : s.overflowForced = true) : s.overflowAdmitted = true := by
  simp only [State.overflowForced, DeviceProfile.intervalReached, Bool.and_eq_true, Option.any_eq_true,
    decide_eq_true_eq] at h
  obtain ⟨hr, d, hd, hle⟩ := h
  simp only [State.overflowAdmitted, DeviceProfile.wdtInterval, hd, Option.getD_some, Bool.and_eq_true,
    decide_eq_true_eq]
  exact ⟨hr, by omega⟩

theorem overflows_of_calm {s : State} (h : s.calm = true) : s.overflows = false := by
  have ha : s.overflowAdmitted = false := by simp [overflowAdmitted_eq, h]
  have hf : s.overflowForced = false := by
    cases hf : s.overflowForced
    · rfl
    · simp [overflowAdmitted_of_forced hf] at ha
  simp [State.overflows, ha, hf]

theorem settle_of_calm {s : State} (h : s.calm = true) : settle s = .next s := by
  simp [settle, overflows_of_calm h]

/-- The end of a micro-operation answers the state itself, where the watchdog does not strike. -/
theorem settle_eq_next {s t : State} : settle s = .next t ↔ s.overflows = false ∧ s = t := by
  unfold settle
  cases s.overflows <;> simp

/-- The only fault at the end of a micro-operation is the watchdog's, with the state a reset leaves (R240). -/
theorem settle_eq_fault {s : State} {e : Fault} :
    settle s = .fault e ↔ s.overflows = true ∧ e = .watchdogReset s.systemReset := by
  unfold settle
  cases s.overflows <;> simp [eq_comm]

theorem settle_ne_refused (s : State) (e : Refusal) : settle s ≠ .refused e := by
  unfold settle
  split <;> simp

theorem calm_of_stopped {p : DeviceProfile} {w : Watchdog} (h : w.run = false) : w.calm p = true := by
  simp [Watchdog.calm, h]

end Sys2Proof.Machine

/-! ### One micro-operation -/

namespace Sys2Proof

/-- The state a micro-operation leaves, where nothing stops it. -/
def MicroOp.after (u : MicroOp) (s : Machine.State) : Machine.State :=
  match u with
  | .regRead r => s.regRead r
  | .regWrite r v => s.regWrite r v
  | .flashWrite8 a v => s.flashWrite8 a v
  | .flashWrite32 a v => s.flashWrite32 a v
  | .flashRead32 a => s.flashRead32 a
  | .srcRead8 a => s.srcRead8 a
  | .wait c => s.wait c
  | .wdtStop => s.wdtStop
  | .wdtStart d => s.wdtStart d
  | .irqMask => s.irqMask
  | .irqRestore => s.irqRestore

/-- Whether the flash address of a micro-operation exists and is aligned. -/
def MicroOp.reaches (u : MicroOp) (p : DeviceProfile) : Bool :=
  match u with
  | .flashWrite8 a _ => p.hasFlashByte a
  | .flashWrite32 a _ | .flashRead32 a => p.wordReachable a
  | .regRead _ | .regWrite _ _ | .srcRead8 _ | .wait _ | .wdtStop | .wdtStart _ | .irqMask | .irqRestore => true

/-- The event of a micro-operation (R96). -/
def MicroOp.event (u : MicroOp) (s : Machine.State) : Machine.Event :=
  match u with
  | .regRead r => .rr r (s.content r)
  | .regWrite r v => .rw r v
  | .flashWrite8 a v => .fw8 a v
  | .flashWrite32 a v => .fw32 a v
  | .flashRead32 a => .fr32 a (s.readBack a)
  | .srcRead8 a => .sr8 a (s.sourceByte a)
  | .wait c => .wait c
  | .wdtStop => .wdtStop
  | .wdtStart d => .wdtStart d
  | .irqMask => .irqMask
  | .irqRestore => .irqRestore

end Sys2Proof

namespace Sys2Proof.Machine

/-- A micro-operation runs through `exec` as it runs in a procedure. -/
theorem exec_toInstr (u : MicroOp) (s : State) : exec u.toInstr s = micro u s := by cases u <;> rfl

theorem micro_of_reaches {u : MicroOp} {s : State} (h : u.reaches s.profile = true) :
    micro u s = settle (u.after s) := by
  cases u <;>
    simp_all [micro, MicroOp.after, MicroOp.reaches, flashByteAccess, flashWordAccess, DeviceProfile.wordReachable]

/-- All that a micro-operation can answer: the watchdog's verdict on the state it leaves, or an address fault. -/
theorem micro_cases (u : MicroOp) (s : State) :
    (u.reaches s.profile = true ∧ micro u s = settle (u.after s)) ∨
      ∃ a, micro u s = .fault (.noSuchFlashAddress a) ∨ micro u s = .fault (.misalignedFlashWord a) := by
  by_cases h : u.reaches s.profile = true
  · exact .inl ⟨h, micro_of_reaches h⟩
  · right
    cases u <;> simp_all [MicroOp.reaches, micro, flashByteAccess, flashWordAccess, DeviceProfile.wordReachable]
    all_goals
      split
      · exact ⟨_, .inl rfl⟩
      · exact ⟨_, .inr rfl⟩

/-- If a micro-operation answers a next state, that state is `u.after s`. -/
theorem micro_eq_next {u : MicroOp} {s t : State} (h : micro u s = .next t) :
    t = u.after s ∧ (u.after s).overflows = false ∧ u.reaches s.profile = true := by
  rcases micro_cases u s with ⟨hr, he⟩ | ⟨a, he | he⟩
  · obtain ⟨ho, rfl⟩ := settle_eq_next.1 (he ▸ h)
    exact ⟨rfl, ho, hr⟩
  · simp [he] at h
  · simp [he] at h

theorem micro_ne_refused (u : MicroOp) (s : State) (e : Refusal) : micro u s ≠ .refused e := by
  rcases micro_cases u s with ⟨-, he⟩ | ⟨a, he | he⟩
  · rw [he]; exact settle_ne_refused _ _
  · simp [he]
  · simp [he]

/-- What every micro-operation leaves alone, and the one event it appends. -/
theorem after_fields (u : MicroOp) (s : State) :
    (u.after s).profile = s.profile ∧ (u.after s).port = s.port ∧ (u.after s).seq = s.seq ∧ (u.after s).opr = s.opr ∧
    (u.after s).ctx = s.ctx ∧ (u.after s).armed = s.armed ∧ (u.after s).trace = s.trace ++ [u.event s] ∧
    (u.after s).moment = s.moment + 1 ∧ (u.after s).env.source = s.env.source ∧ (u.after s).env.mode = s.env.mode := by
  cases u with
  | regRead r => cases r with
    | fcr k => cases k <;> simp [MicroOp.after, MicroOp.event, Env.afterRead]
    | ebr k => simp [MicroOp.after, MicroOp.event, Env.afterRead]
  | regWrite r v => cases r <;> simp [MicroOp.after, MicroOp.event, State.envAfterFcr]
  | flashWrite8 a v => simp only [MicroOp.after, MicroOp.event, flashWrite8_fields]; split <;> simp
  | flashWrite32 a v => simp only [MicroOp.after, MicroOp.event, flashWrite32_fields, State.envAfterProbe]; split <;> simp
  | flashRead32 a => simp only [MicroOp.after, MicroOp.event, flashRead32_fields, State.envAfterReadBack]; split <;> simp
  | _ => simp [MicroOp.after, MicroOp.event]

end Sys2Proof.Machine

/-! ### Verify reads (R64, R70, R268) -/

namespace Sys2Proof.Machine

/-- The latest probe of a word is the one that counts. -/
theorem probedAt_probe (w : VerifyView) (a b : Word) :
    (w.probe a).probedAt b = if b = a then some w.waited else w.probedAt b := by
  unfold VerifyView.probedAt VerifyView.probe
  by_cases h : b = a
  · simp [h]
  · have hne : ¬a = b := fun e => h e.symm
    simp only [List.find?_cons, hne, decide_false, h, if_false, List.find?_filter]
    congr 2
    funext q
    by_cases hq : q.addr = b <;> simp [hq, h]

@[simp] theorem probedAt_wait (w : VerifyView) (c a : Word) : (w.wait c).probedAt a = w.probedAt a := rfl

/-- A read is meaningful exactly with a verify bit set, its own word armed and its delay waited since (R268). -/
theorem meaningful_iff {s : State} {a : Word} :
    s.meaningful a = true ↔
      s.verifying a = true ∧ ∃ n, s.env.view.probedAt a = some n ∧ n + s.readDelay a ≤ s.env.view.waited := by
  simp [State.meaningful, Option.any_eq_true]

/-- A read that is meaningful has its probe. -/
theorem probed_of_meaningful {s : State} {a : Word} (h : s.meaningful a = true) : s.probed a = true := by
  obtain ⟨hv, n, hn, -⟩ := meaningful_iff.1 h
  simp [State.probed, hv, hn]

/-- All that a word read can answer: the cells, the oracle's answer, or a free value. -/
theorem readBack_cases (s : State) (a : Word) :
    (s.env.mode = .reference ∧ s.probed a = true ∧ s.readBack a = s.env.cells.word a.toNat) ∨
    (s.env.mode = .oracle ∧ s.meaningful a = true ∧ s.readBack a = s.env.answers.now (s.unscripted a)) ∨
    ((s.env.mode = .reference ∧ s.probed a = false ∨ s.env.mode = .oracle ∧ s.meaningful a = false) ∧
      s.readBack a = Config.freeReadback s.moment) := by
  unfold State.readBack
  cases hd : s.env.mode
  · cases hm : s.meaningful a <;> simp
  · cases hm : s.probed a <;> simp

/-- What a word read does to the environment: nothing, or, for a meaningful read under the oracle, it takes one answer and
leaves it in the word's cells. -/
theorem envAfterReadBack_cases (s : State) (a : Word) :
    ((s.meaningful a = false ∨ s.env.mode = .reference) ∧ s.envAfterReadBack a = s.env) ∨
    (s.meaningful a = true ∧ s.env.mode = .oracle ∧
      s.envAfterReadBack a = { s.env with
        cells := s.env.cells.writeWord a.toNat (s.readBack a)
        answers := s.env.answers.later }) := by
  unfold State.envAfterReadBack
  cases hm : s.meaningful a <;> cases hd : s.env.mode <;> simp

/-- The addresses an erase pulse worked on are those of the selected blocks (R34). -/
theorem covers_selectedRanges {s : State} {w : VerifyView} {a : Nat} :
    VerifyView.covers { w with pulsed := s.selectedRanges } a = true ↔
      ∃ i < s.profile.blockCount, s.selected i = true ∧ s.profile.inBlock i a = true := by
  simp [VerifyView.covers, State.selectedRanges, DeviceProfile.inBlock]

/-- The addresses a program pulse worked on are the latched ones (R44). -/
theorem covers_latchedRanges {latch : Memory} {w : VerifyView} {a : Nat} :
    VerifyView.covers { w with pulsed := latchedRanges latch } a = true ↔ latch.find a ≠ none := by
  simp only [VerifyView.covers, latchedRanges, List.any_map, List.any_eq_true, Function.comp, Bool.and_eq_true,
    decide_eq_true_eq]
  induction latch with
  | nil => simp [Memory.find]
  | cons c l ih =>
    obtain ⟨b, x⟩ := c
    simp only [List.mem_cons, exists_eq_or_imp, ih, Memory.find]
    split
    · next h => subst h; simp
    · next h => simp only [or_iff_right_iff_imp]; omega

end Sys2Proof.Machine

/-! ### One act of a procedure, and runs of acts -/

namespace Sys2Proof

/-- The state an act leaves, where nothing stops it. -/
def Act.after (a : Act) (s : Machine.State) : Machine.State := a.store ((a.op s).after s)

end Sys2Proof

namespace Sys2Proof.Machine

/-- The state a run of acts leaves, where nothing stops it. -/
def afterActs (l : List Act) (s : State) : State := l.foldl (fun s a => a.after s) s

@[simp] theorem afterActs_nil (s : State) : afterActs [] s = s := rfl

@[simp] theorem afterActs_cons (a : Act) (l : List Act) (s : State) :
    afterActs (a :: l) s = afterActs l (a.after s) := rfl

theorem afterActs_append (l m : List Act) (s : State) : afterActs (l ++ m) s = afterActs m (afterActs l s) := by
  simp [afterActs]

@[simp] theorem runActs_nil (s : State) : runActs [] s = .next s := rfl

@[simp] theorem runActs_cons (a : Act) (l : List Act) (s : State) :
    runActs (a :: l) s = andThen (perform a s) (runActs l) := rfl

/-- A run of two lists is a run of the first and then of the second. -/
theorem runActs_append (l m : List Act) (s : State) :
    runActs (l ++ m) s = andThen (runActs l s) (runActs m) := by
  induction l generalizing s with
  | nil => rfl
  | cons a l ih =>
    simp only [List.cons_append, runActs_cons, andThen_assoc]
    congr 1
    exact funext ih

theorem act_op_reaches (a : Act) (s : State) : (a.op s).reaches s.profile = a.reaches s := by cases a <;> rfl

theorem act_op_event_code (a : Act) (s : State) : ((a.op s).event s).code = a.code := by cases a <;> rfl

theorem after_wdt (a : Act) (s : State) : ((a.op s).after s).wdt = a.watchdog s.wdt := by
  cases a <;> simp [Act.op, MicroOp.after, Act.watchdog]

/-- What an act leaves alone, the watchdog it leaves and the one event it appends. -/
theorem act_after_fields (a : Act) (s : State) :
    (a.after s).profile = s.profile ∧ (a.after s).port = s.port ∧ (a.after s).seq = s.seq ∧ (a.after s).opr = s.opr ∧
    (a.after s).armed = s.armed ∧ (a.after s).env.source = s.env.source ∧ (a.after s).env.mode = s.env.mode ∧
    (a.after s).wdt = a.watchdog s.wdt ∧ (a.after s).trace = s.trace ++ [(a.op s).event s] ∧
    (a.after s).moment = s.moment + 1 := by
  simp only [Act.after, actStore_fields, after_fields, after_wdt, and_self]

/-- An act writes no register of the PulseContext but `rbuf` (R23). -/
theorem act_after_ctx (a : Act) (s : State) :
    (a.after s).ctx = { s.ctx with rbuf := (a.after s).ctx.rbuf } ∧
      (a.after s).ctx.rbuf.length = s.ctx.rbuf.length := by
  have h := (after_fields (a.op s) s).2.2.2.2.1
  cases a <;> simp [Act.after, Act.store, h]

/-- If an act answers a next state, it is `a.after s`. -/
theorem perform_eq_next {a : Act} {s t : State} (h : perform a s = .next t) :
    t = a.after s ∧ ((a.op s).after s).overflows = false ∧ a.reaches s = true := by
  obtain ⟨u, hu, ht⟩ := andThen_eq_next.1 h
  obtain ⟨rfl, ho, hr⟩ := micro_eq_next hu
  exact ⟨by simpa [Act.after] using ht.symm, ho, by rw [← act_op_reaches]; exact hr⟩

/-- An act completes where its address exists and no overflow is admitted after it. -/
theorem perform_of_calm {a : Act} {s : State} (hr : a.reaches s = true) (hc : (a.watchdog s.wdt).calm s.profile = true) :
    perform a s = .next (a.after s) := by
  have hp : (a.op s).reaches s.profile = true := by rw [act_op_reaches]; exact hr
  have hcalm : ((a.op s).after s).calm = true := by
    simp only [State.calm, after_wdt, (after_fields _ s).1]; exact hc
  simp [perform, micro_of_reaches hp, settle_of_calm hcalm, Act.after]

/-- If a run of acts answers a next state, it is `afterActs l s`. -/
theorem runActs_eq_next {l : List Act} {s t : State} (h : runActs l s = .next t) : t = afterActs l s := by
  induction l generalizing s with
  | nil => cases h; rfl
  | cons a l ih =>
    obtain ⟨u, hu, hl⟩ := andThen_eq_next.1 h
    obtain ⟨rfl, -, -⟩ := perform_eq_next hu
    exact ih hl

/-- What a run of acts leaves alone, the watchdog it leaves, and the events it appends, one an act. -/
theorem afterActs_fields (l : List Act) (s : State) :
    (afterActs l s).profile = s.profile ∧ (afterActs l s).port = s.port ∧ (afterActs l s).seq = s.seq ∧
    (afterActs l s).opr = s.opr ∧ (afterActs l s).armed = s.armed ∧ (afterActs l s).env.source = s.env.source ∧
    (afterActs l s).env.mode = s.env.mode ∧ (afterActs l s).wdt = l.foldl (fun w a => a.watchdog w) s.wdt ∧
    (afterActs l s).moment = s.moment + l.length ∧
    ∃ es, (afterActs l s).trace = s.trace ++ es ∧ es.map Event.code = l.map Act.code := by
  induction l generalizing s with
  | nil => simp
  | cons a l ih =>
    have ha := act_after_fields a s
    obtain ⟨h1, h2, h3, h4, h5, h6, h7, h8, h9, es, ht, hc⟩ := ih (a.after s)
    rw [afterActs_cons]
    refine ⟨by simp [h1, ha], by simp [h2, ha], by simp [h3, ha], by simp [h4, ha], by simp [h5, ha], by simp [h6, ha],
      by simp [h7, ha], by simp [h8, ha], ?_, (a.op s).event s :: es, by simp [ht, ha], by simp [hc, act_op_event_code]⟩
    rw [h9, ha.2.2.2.2.2.2.2.2.2, List.length_cons]
    omega

/-- A run of acts writes no register of the PulseContext but `rbuf`. -/
theorem afterActs_ctx (l : List Act) (s : State) :
    (afterActs l s).ctx = { s.ctx with rbuf := (afterActs l s).ctx.rbuf } ∧
      (afterActs l s).ctx.rbuf.length = s.ctx.rbuf.length := by
  induction l generalizing s with
  | nil => simp
  | cons a l ih =>
    obtain ⟨h1, h2⟩ := ih (a.after s)
    obtain ⟨h3, h4⟩ := act_after_ctx a s
    rw [afterActs_cons]
    refine ⟨?_, by rw [h2, h4]⟩
    rw [h1, h3]

/-- No run of acts is refused. -/
theorem runActs_ne_refused (l : List Act) (s : State) (e : Refusal) : runActs l s ≠ .refused e := by
  induction l generalizing s with
  | nil => simp
  | cons a l ih =>
    rw [runActs_cons, Ne, andThen_eq_refused]
    rintro (h | ⟨u, -, h⟩)
    · rcases andThen_eq_refused.1 h with h | ⟨u, -, h⟩
      · exact micro_ne_refused _ _ _ h
      · simp at h
    · exact ih u h

/-- Whether an act's flash address exists depends on the profile and on the address registers only. -/
theorem act_reaches_congr {s t : State} (hp : t.profile = s.profile) (hd : t.ctx.pgDest = s.ctx.pgDest)
    (hv : t.ctx.vaddr = s.ctx.vaddr) (a : Act) : a.reaches t = a.reaches s := by
  cases a <;> simp [Act.reaches, hp, hd, hv]

/-- A run completes where every address exists and no overflow is admitted after any act. -/
theorem runActs_of_fits {l : List Act} {s : State} (h : s.fits l = true) : runActs l s = .next (afterActs l s) := by
  induction l generalizing s with
  | nil => rfl
  | cons a l ih =>
    simp only [State.fits, calmRun, List.all_cons, Bool.and_eq_true] at h
    obtain ⟨⟨hc, hcl⟩, hr, hrl⟩ := h
    have hf := act_after_fields a s
    have hx := (act_after_ctx a s).1
    have hl : State.fits (a.after s) l = true := by
      simp only [State.fits, Bool.and_eq_true]
      refine ⟨by rw [hf.1, hf.2.2.2.2.2.2.2.1]; exact hcl, ?_⟩
      rw [List.all_eq_true] at hrl ⊢
      intro b hb
      rw [act_reaches_congr hf.1 (by rw [hx]) (by rw [hx])]
      exact hrl b hb
    rw [runActs_cons, perform_of_calm hr hc, andThen_of_next, ih hl, afterActs_cons]

/-- With the watchdog stopped, a run that does not start it is calm throughout (R120, R143). -/
theorem calmRun_of_stopped (p : DeviceProfile) {w : Watchdog} {l : List Act} (hw : w.run = false)
    (hl : ∀ a ∈ l, ∀ d, a ≠ .wdtStart d) : calmRun p w l = true := by
  induction l generalizing w with
  | nil => rfl
  | cons a l ih =>
    have ha : (a.watchdog w).run = false := by
      cases a with
      | wdtStart d => exact absurd rfl (hl _ (by simp) d)
      | wait c => simp [Act.watchdog, Watchdog.begin, hw]
      | _ => simp [Act.watchdog, hw]
    simp only [calmRun, calm_of_stopped ha, Bool.true_and]
    exact ih ha (fun b hb d => hl b (by simp [hb]) d)

/-- Acts that neither wait nor touch the watchdog keep it as it is. -/
theorem calmRun_of_calm {p : DeviceProfile} {w : Watchdog} {l : List Act} (hw : w.calm p = true)
    (hl : ∀ a ∈ l, a.watchdog w = w) : calmRun p w l = true := by
  induction l with
  | nil => rfl
  | cons a l ih =>
    have ha := hl a (by simp)
    simp only [calmRun, ha, hw, Bool.true_and]
    exact ih (fun b hb => hl b (by simp [hb]))

end Sys2Proof.Machine
end

