-- ==== Sys2Proof/Laws/Exec.lean ====
section
/-! SUPPORT. What every instruction can do, said once: its effect is a chain of micro-operations and of quiet moves
(register moves of the sequencer that make no access). A relation that both keep holds between the states before and
after every instruction but the reset. -/

namespace Sys2Proof.Machine

/-- A move that makes no access: only the sequencer's own registers and the ports may differ. -/
structure Quiet (s t : State) : Prop where
  profile : t.profile = s.profile
  env : t.env = s.env
  regs : t.regs = s.regs
  wdt : t.wdt = s.wdt
  irq : t.irq = s.irq
  dlyCnt : t.dlyCnt = s.dlyCnt
  armed : t.armed = s.armed
  trace : t.trace = s.trace
  moment : t.moment = s.moment

/-- A relation between states that chains of micro-operations and quiet moves keep. -/
structure Chained (R : State → State → Prop) : Prop where
  trans : ∀ {s t u}, R s t → R t u → R s u
  micro : ∀ (u : MicroOp) (s : State), R s (u.after s)
  quiet : ∀ {s t}, Quiet s t → R s t

/-- The outcome of an operation from `s` answers a state in the relation, or is struck by the watchdog at one. -/
def Leads (R : State → State → Prop) (s : State) : Res → Prop
  | .next t => R s t
  | .fault (.watchdogReset w) => ∃ u, R s u ∧ w = u.systemReset
  | .fault (.noSuchFlashAddress _) | .fault (.misalignedFlashWord _) | .refused _ => True

theorem Quiet.rfl' (s : State) : Quiet s s := ⟨rfl, rfl, rfl, rfl, rfl, rfl, rfl, rfl, rfl⟩

section

variable {R : State → State → Prop}

theorem Chained.refl (h : Chained R) (s : State) : R s s := h.quiet (.rfl' s)

theorem Leads.bind (h : Chained R) {s : State} {r : Res} {f : State → Res} (hr : Leads R s r)
    (hf : ∀ t, r = .next t → Leads R t (f t)) : Leads R s (andThen r f) := by
  cases r with
  | next t =>
    have hst : R s t := hr
    have hft := hf t rfl
    show Leads R s (f t)
    cases hx : f t with
    | next u => rw [hx] at hft; exact h.trans hst hft
    | fault e =>
      rw [hx] at hft
      cases e with
      | watchdogReset w => obtain ⟨u, hu, hw⟩ := hft; exact ⟨u, h.trans hst hu, hw⟩
      | noSuchFlashAddress a => trivial
      | misalignedFlashWord a => trivial
    | refused e => trivial
  | fault e => exact hr
  | refused e => trivial

/-- An operation after a quiet move. -/
theorem Leads.after_quiet (h : Chained R) {s t : State} {r : Res} (hq : Quiet s t) (hr : Leads R t r) : Leads R s r :=
  Leads.bind h (r := .next t) (f := fun _ => r) (h.quiet hq) (fun u hu => by cases hu; exact hr)

theorem leads_next (h : Chained R) {s t : State} (hq : Quiet s t) : Leads R s (.next t) := h.quiet hq

theorem leads_micro (h : Chained R) (u : MicroOp) (s : State) : Leads R s (micro u s) := by
  rcases micro_cases u s with ⟨-, he⟩ | ⟨a, he | he⟩
  · rw [he]
    unfold settle
    split
    · exact ⟨_, h.micro u s, rfl⟩
    · exact h.micro u s
  · rw [he]; trivial
  · rw [he]; trivial

theorem quiet_store (a : Act) (s : State) : Quiet s (a.store s) := by
  constructor <;> simp

theorem leads_perform (h : Chained R) (a : Act) (s : State) : Leads R s (perform a s) :=
  (leads_micro h _ s).bind h (fun t _ => leads_next h (quiet_store a t))

theorem leads_runActs (h : Chained R) (l : List Act) (s : State) : Leads R s (runActs l s) := by
  induction l generalizing s with
  | nil => exact h.refl s
  | cons a l ih => exact (leads_perform h a s).bind h (fun t _ => ih t)

/-! ### Quiet moves -/

theorem quiet_of_fields {s t : State} (h : t.profile = s.profile ∧ t.env = s.env ∧ t.regs = s.regs ∧ t.wdt = s.wdt ∧
    t.irq = s.irq ∧ t.dlyCnt = s.dlyCnt ∧ t.armed = s.armed ∧ t.trace = s.trace ∧ t.moment = s.moment) : Quiet s t :=
  ⟨h.1, h.2.1, h.2.2.1, h.2.2.2.1, h.2.2.2.2.1, h.2.2.2.2.2.1, h.2.2.2.2.2.2.1, h.2.2.2.2.2.2.2.1, h.2.2.2.2.2.2.2.2⟩

theorem quiet_withResult (s : State) (r : Status) : Quiet s (s.withResult r) := quiet_of_fields (by simp)
theorem quiet_judgePrecond (s : State) : Quiet s s.judgePrecond := quiet_of_fields (by simp)
theorem quiet_startScan (s : State) (a : Word) : Quiet s (s.startScan a) := quiet_of_fields (by simp)
theorem quiet_judgeScan (s : State) : Quiet s s.judgeScan := quiet_of_fields (by simp)
theorem quiet_startWord (s : State) (j : Nat) : Quiet s (s.startWord j) := quiet_of_fields (by simp)
theorem quiet_judgeWord (s : State) (j : Nat) (n : Word) : Quiet s (s.judgeWord j n) := quiet_of_fields (by simp)
theorem quiet_respond (s : State) (r : Status) : Quiet s (s.respond r) := quiet_of_fields (by simp)
theorem quiet_acceptInit (s : State) : Quiet s s.acceptInit := quiet_of_fields (by simp)
theorem quiet_acceptUnprotect (s : State) : Quiet s s.acceptUnprotect := quiet_of_fields (by simp)
theorem quiet_acceptErase (s : State) (i : Word) : Quiet s (s.acceptErase i) := quiet_of_fields (by simp)
theorem quiet_acceptWrite (s : State) (d r l : Word) : Quiet s (s.acceptWrite d r l) := quiet_of_fields (by simp)
theorem quiet_resolveBlock (s : State) (i : Word) : Quiet s (s.resolveBlock i) := quiet_of_fields (by simp)
theorem quiet_resolveRange (s : State) (d : Word) : Quiet s (s.resolveRange d) := quiet_of_fields (by simp)
theorem quiet_setN (s : State) (v : Word) : Quiet s (s.setN v) := quiet_of_fields (by simp)
theorem quiet_firstAttempt (s : State) (b : Word) : Quiet s (s.firstAttempt b) := quiet_of_fields (by simp)
theorem quiet_clearMismatch (s : State) : Quiet s s.clearMismatch := quiet_of_fields (by simp)
theorem quiet_enterPage (s : State) (d r : Word) : Quiet s (s.enterPage d r) := quiet_of_fields (by simp)
theorem quiet_stepPage (s : State) : Quiet s s.stepPage := quiet_of_fields (by simp)

/-! ### The instructions -/

theorem leads_precond (h : Chained R) (s : State) : Leads R s (execPrecond s) :=
  (leads_runActs h _ s).bind h (fun t _ => leads_next h (quiet_judgePrecond t))

theorem leads_whenReady {s : State} {r : Res} (hr : Leads R s r) : Leads R s (whenReady s r) := by
  unfold whenReady
  split
  · trivial
  · split
    · exact hr
    · trivial

theorem leads_selectBlock (h : Chained R) (i : Word) (s : State) : Leads R s (execSelectBlock i s) := by
  unfold execSelectBlock
  split
  · trivial
  · exact leads_runActs h _ s

theorem leads_eraseScan (h : Chained R) (stop : Word) (n : Nat) (s : State) : Leads R s (eraseScan stop n s) := by
  induction n generalizing s with
  | zero => exact h.refl s
  | succ n ih =>
    unfold eraseScan
    split
    · exact (leads_runActs h _ s).bind h (fun t _ => .after_quiet h (quiet_judgeScan t) (ih _))
    · exact h.refl s

theorem leads_eraseVerify (h : Chained R) (k : Bank) (start stop : Word) (s : State) :
    Leads R s (execEraseVerify k start stop s) :=
  (leads_runActs h _ s).bind h (fun t _ =>
    (Leads.after_quiet h (quiet_startScan t start) (leads_eraseScan h stop _ _)).bind h (fun u _ =>
      leads_runActs h _ u))

theorem leads_eraseAttempt (h : Chained R) (s : State) : Leads R s (eraseAttempt s) :=
  (leads_selectBlock h _ s).bind h (fun t _ =>
    (leads_runActs h _ t).bind h (fun u _ => leads_eraseVerify h _ _ _ u))

theorem leads_lockAndRespond (h : Chained R) (r : Status) (s : State) : Leads R s (lockAndRespond r s) :=
  (leads_runActs h _ s).bind h (fun t _ => leads_next h (quiet_respond t r))

theorem leads_eraseAttempts (h : Chained R) (n : Nat) (s : State) : Leads R s (eraseAttempts n s) := by
  induction n generalizing s with
  | zero => exact leads_lockAndRespond h _ s
  | succ n ih =>
    refine (leads_eraseAttempt h s).bind h (fun t _ => ?_)
    split
    · exact leads_lockAndRespond h _ t
    · split
      · exact ih t
      · exact .after_quiet h (quiet_setN t _) (ih _)

theorem leads_eraseBlock (h : Chained R) (i : Word) (s : State) : Leads R s (execEraseBlock i s) := by
  refine leads_whenReady (.after_quiet h (quiet_acceptErase s i) ?_)
  unfold eraseAccepted
  split
  · exact leads_next h (quiet_respond _ _)
  · split
    · exact leads_next h (quiet_respond _ _)
    · refine (Leads.after_quiet h (quiet_resolveBlock _ i) (leads_precond h _)).bind h (fun t _ => ?_)
      split
      · exact (leads_runActs h _ t).bind h (fun u _ =>
          .after_quiet h (quiet_firstAttempt u _) (leads_eraseAttempts h _ _))
      · exact leads_next h (quiet_respond _ _)

theorem leads_verifyWord (h : Chained R) (k : Bank) (j : Nat) (n : Word) (s : State) :
    Leads R s (execVerifyWord k j n s) := by
  unfold execVerifyWord
  split
  · trivial
  · exact (Leads.after_quiet h (quiet_startWord s j) (leads_runActs h _ _)).bind h (fun t _ =>
      leads_next h (quiet_judgeWord t j n))

theorem leads_verifyWords (h : Chained R) (n j : Nat) (s : State) : Leads R s (verifyWords n j s) := by
  induction n generalizing j s with
  | zero => exact h.refl s
  | succ n ih =>
    refine (leads_verifyWord h _ j _ s).bind h (fun t _ => ?_)
    split
    · exact h.refl t
    · exact ih (j + 1) t

theorem leads_lockPage (h : Chained R) (r : Status) (s : State) : Leads R s (lockPage r s) :=
  (leads_runActs h _ s).bind h (fun t _ => leads_next h (quiet_withResult t r))

theorem leads_writeAttempts (h : Chained R) (n : Nat) (s : State) : Leads R s (writeAttempts n s) := by
  induction n generalizing s with
  | zero => exact leads_lockPage h _ s
  | succ n ih =>
    refine (Leads.after_quiet h (quiet_clearMismatch s)
      ((leads_runActs h _ _).bind h (fun t _ => leads_runActs h _ t))).bind h (fun t _ => ?_)
    refine ((leads_runActs h _ t).bind h (fun u _ => leads_verifyWords h _ 0 u)).bind h (fun u _ => ?_)
    split
    · exact (leads_runActs h _ u).bind h (fun v _ => leads_lockPage h _ v)
    · refine ((leads_runActs h _ u).bind h (fun v _ => ?_)).bind h (fun v _ => ?_)
      · unfold overwriteAttempt
        split
        · exact (leads_runActs h _ v).bind h (fun w _ => leads_runActs h _ w)
        · exact h.refl v
      · split
        · split
          · exact ih v
          · exact .after_quiet h (quiet_setN v _) (ih _)
        · exact leads_lockPage h _ v

theorem leads_writePage (h : Chained R) (d r : Word) (s : State) : Leads R s (execWritePage d r s) := by
  unfold execWritePage
  split
  · trivial
  · refine (Leads.after_quiet h (quiet_enterPage s d r) (leads_precond h _)).bind h (fun t _ => ?_)
    split
    · exact (leads_runActs h _ t).bind h (fun u _ => (leads_runActs h _ u).bind h (fun v _ =>
        .after_quiet h (quiet_firstAttempt v _) (leads_writeAttempts h _ _)))
    · exact leads_next h (quiet_withResult _ _)

theorem leads_pages (h : Chained R) (n : Nat) (s : State) : Leads R s (pages n s) := by
  induction n generalizing s with
  | zero => exact leads_next h (quiet_withResult s _)
  | succ n ih =>
    unfold pages
    split
    · exact leads_next h (quiet_withResult s _)
    · refine (leads_writePage h _ _ s).bind h (fun t _ => ?_)
      split
      · exact .after_quiet h (quiet_stepPage t) (ih _)
      · exact h.refl t

theorem leads_writeRange (h : Chained R) (d r l : Word) (s : State) : Leads R s (execWriteRange d r l s) := by
  refine leads_whenReady (.after_quiet h (quiet_acceptWrite s d r l) ?_)
  refine (leads_next h (quiet_withResult _ (rangeStatus _ d l))).bind h (fun t _ => ?_)
  split
  · exact leads_next h (quiet_respond t _)
  · split
    · exact leads_next h (quiet_respond t _)
    · exact (leads_pages h _ t).bind h (fun u _ => leads_next h (quiet_respond u _))

/-- An operation after a move of the gate. -/
theorem Leads.after_gate (h : Chained R) (hg : ∀ (s : State) (b : Bool), R s { s with armed := b }) (b : Bool)
    {s : State} {r : Res} (hr : Leads R { s with armed := b } r) : Leads R s r :=
  Leads.bind h (r := .next { s with armed := b }) (f := fun _ => r) (hg s b) (fun u hu => by cases hu; exact hr)

/-- Every instruction but the reset is a chain of micro-operations and quiet moves; only `init` and `unprotect` move the
gate besides. -/
theorem leads_exec (h : Chained R) {i : Instr} (hi : i ≠ .systemReset)
    (hg : i = .init ∨ i = .unprotect → ∀ (s : State) (b : Bool), R s { s with armed := b }) (s : State) :
    Leads R s (exec i s) := by
  cases i with
  | init =>
    exact leads_whenReady ((Leads.after_quiet h (quiet_acceptInit s)
      (.after_gate h (hg (.inl rfl)) false (leads_precond h _))).bind h (fun t _ => leads_next h (quiet_respond t _)))
  | unprotect =>
    exact leads_whenReady (.after_quiet h (quiet_acceptUnprotect s) (.after_gate h (hg (.inr rfl)) true
      (leads_next h (quiet_respond _ _))))
  | eraseBlock n => exact leads_eraseBlock h n s
  | writeRange d r l => exact leads_writeRange h d r l s
  | regRead r => exact leads_micro h (.regRead r) s
  | regWrite r v => exact leads_micro h (.regWrite r v) s
  | flashWrite8 a v => exact leads_micro h (.flashWrite8 a v) s
  | flashWrite32 a v => exact leads_micro h (.flashWrite32 a v) s
  | flashRead32 a => exact leads_micro h (.flashRead32 a) s
  | srcRead8 a => exact leads_micro h (.srcRead8 a) s
  | waitOp c => exact leads_micro h (.wait c) s
  | wdtStop => exact leads_micro h .wdtStop s
  | wdtStart d => exact leads_micro h (.wdtStart d) s
  | irqMask => exact leads_micro h .irqMask s
  | irqRestore => exact leads_micro h .irqRestore s
  | bitSet k f => exact leads_runActs h _ s
  | bitClr k f => exact leads_runActs h _ s
  | srcWord a => exact leads_runActs h _ s
  | precond => exact leads_precond h s
  | waitProc c => exact leads_runActs h _ s
  | scopedGuard d body => exact leads_runActs h _ s
  | guardAcquire d => exact leads_runActs h _ s
  | guardRelease => exact leads_runActs h _ s
  | resolveBlock n => exact leads_next h (quiet_resolveBlock s n)
  | selectBlock n => exact leads_selectBlock h n s
  | resolveAddressRange d l => exact leads_next h (quiet_resolveRange s d)
  | validateRange d l => exact leads_next h (quiet_withResult s _)
  | pageLoop => exact leads_pages h _ s
  | erasePulse k => exact leads_runActs h _ s
  | eraseVerify k a b => exact leads_eraseVerify h k a b s
  | writePage d r => exact leads_writePage h d r s
  | programPulse k w => exact leads_runActs h _ s
  | verifyWord k j n => exact leads_verifyWord h k j n s
  | systemReset => exact absurd rfl hi

/-- A relation that micro-operations, quiet moves and moves of the gate keep holds from before to after every
instruction but the reset. -/
theorem exec_chained (h : Chained R) (hg : ∀ (s : State) (b : Bool), R s { s with armed := b }) {i : Instr}
    (hi : i ≠ .systemReset) {s t : State} (he : exec i s = .next t) : R s t := by
  have := leads_exec h hi (fun _ => hg) s
  rwa [he] at this

/-- A relation that micro-operations and quiet moves keep holds from before to after every instruction but the reset and
the two that move the gate. -/
theorem exec_chained_ungated (h : Chained R) {i : Instr} (hi : i ≠ .systemReset) (h1 : i ≠ .init) (h2 : i ≠ .unprotect)
    {s t : State} (he : exec i s = .next t) : R s t := by
  have := leads_exec h hi (fun hx => absurd hx (by simp [h1, h2])) s
  rwa [he] at this

/-- A watchdog reset inside an instruction strikes at a state in the relation. -/
theorem exec_struck (h : Chained R) (hg : ∀ (s : State) (b : Bool), R s { s with armed := b }) {i : Instr}
    {s after : State} (he : exec i s = .fault (.watchdogReset after)) : ∃ u, R s u ∧ after = u.systemReset := by
  have hi : i ≠ .systemReset := fun e => by subst e; simp [exec, execSystemReset] at he
  have := leads_exec h hi (fun _ => hg) s
  rwa [he] at this

end

end Sys2Proof.Machine
end

