-- ==== Sys2Proof/Laws/Memory.lean ====
section
/-! SUPPORT. Memory: what is read after a write, and that every operation keeps the canonical form. -/

namespace Sys2Proof.Machine

namespace Memory

/-! ### Addresses rise -/

theorem rising_tail {c : Host.Cell} {m : Memory} (h : rising (c :: m) = true) : rising m = true := by
  cases m with
  | nil => rfl
  | cons d m => simp only [rising, Bool.and_eq_true] at h; exact h.2

theorem rising_head {c : Host.Cell} {m : Memory} (h : rising (c :: m) = true) : ∀ d ∈ m, c.1 < d.1 := by
  induction m generalizing c with
  | nil => simp
  | cons e m ih =>
    simp only [rising, Bool.and_eq_true, decide_eq_true_eq] at h
    intro d hd
    rcases List.mem_cons.1 hd with rfl | hd
    · exact h.1
    · exact Nat.lt_trans h.1 (ih h.2 d hd)

/-- A list rises if its first address is below every later one and the rest rises. -/
theorem rising_cons {c : Host.Cell} {m : Memory} :
    rising (c :: m) = true ↔ (∀ d ∈ m, c.1 < d.1) ∧ rising m = true := by
  refine ⟨fun h => ⟨rising_head h, rising_tail h⟩, fun ⟨hl, hr⟩ => ?_⟩
  cases m with
  | nil => rfl
  | cons d m => simp [rising, hr, hl d]

theorem mem_insert {m : Memory} {a : Nat} {v : Byte} {c : Host.Cell} (h : c ∈ m.insert a v) : c = (a, v) ∨ c ∈ m := by
  induction m with
  | nil => exact .inl (by simpa [insert] using h)
  | cons d m ih =>
    obtain ⟨b, x⟩ := d
    simp only [insert] at h
    split at h
    · simpa using h
    · split at h
      · rcases List.mem_cons.1 h with h | h
        · exact .inl h
        · exact .inr (List.mem_cons_of_mem _ h)
      · rcases List.mem_cons.1 h with h | h
        · exact .inr (by simp [h])
        · exact (ih h).imp_right (List.mem_cons_of_mem _)

theorem mem_erase {m : Memory} {a : Nat} {c : Host.Cell} (h : c ∈ m.erase a) : c ∈ m := by
  induction m with
  | nil => simp [erase] at h
  | cons d m ih =>
    obtain ⟨b, x⟩ := d
    simp only [erase] at h
    split at h
    · exact List.mem_cons_of_mem _ h
    · rcases List.mem_cons.1 h with h | h
      · simp [h]
      · exact List.mem_cons_of_mem _ (ih h)

theorem rising_insert {m : Memory} (h : m.rising = true) (a : Nat) (v : Byte) : (m.insert a v).rising = true := by
  induction m with
  | nil => rfl
  | cons d m ih =>
    obtain ⟨b, x⟩ := d
    obtain ⟨hl, hr⟩ := rising_cons.1 h
    simp only [insert]
    split
    · next hab =>
      refine rising_cons.2 ⟨fun d hd => ?_, h⟩
      rcases List.mem_cons.1 hd with rfl | hd
      · exact hab
      · exact Nat.lt_trans hab (hl d hd)
    · split
      · next hab => exact rising_cons.2 ⟨fun d hd => hab ▸ hl d hd, hr⟩
      · next h1 h2 =>
        refine rising_cons.2 ⟨fun d hd => ?_, ih hr⟩
        rcases mem_insert hd with rfl | hd
        · simp only; omega
        · exact hl d hd

theorem rising_erase {m : Memory} (h : m.rising = true) (a : Nat) : (m.erase a).rising = true := by
  induction m with
  | nil => rfl
  | cons d m ih =>
    obtain ⟨b, x⟩ := d
    obtain ⟨hl, hr⟩ := rising_cons.1 h
    simp only [erase]
    split
    · exact hr
    · exact rising_cons.2 ⟨fun d hd => hl d (mem_erase hd), ih hr⟩

/-! ### Read after write -/

theorem find_insert (m : Memory) (a b : Nat) (v : Byte) :
    (m.insert a v).find b = if b = a then some v else m.find b := by
  induction m with
  | nil => simp [insert, find]
  | cons d m ih =>
    obtain ⟨c, x⟩ := d
    simp only [insert]
    split
    · simp [find]
    · split
      · next h => subst h; simp only [find]; split <;> rfl
      · next h1 h2 =>
        simp only [find, ih]
        split <;> split <;> simp_all

theorem find_erase_other (m : Memory) {a b : Nat} (h : b ≠ a) : (m.erase a).find b = m.find b := by
  induction m with
  | nil => rfl
  | cons d m ih =>
    obtain ⟨c, x⟩ := d
    simp only [erase]
    split
    · next hc => subst hc; simp [find, h]
    · simp only [find, ih]

theorem find_eq_none {m : Memory} {a : Nat} (h : ∀ c ∈ m, c.1 ≠ a) : m.find a = none := by
  induction m with
  | nil => rfl
  | cons d m ih =>
    obtain ⟨c, x⟩ := d
    have hc : a ≠ c := fun e => h (c, x) (by simp) e.symm
    simp [find, hc, ih (fun c hc => h c (by simp [hc]))]

theorem find_erase_same {m : Memory} (h : m.rising = true) (a : Nat) : (m.erase a).find a = none := by
  induction m with
  | nil => rfl
  | cons d m ih =>
    obtain ⟨c, x⟩ := d
    obtain ⟨hl, hr⟩ := rising_cons.1 h
    simp only [erase]
    split
    · next hc =>
      refine find_eq_none (fun d hd => ?_)
      have := hl d hd
      simp only at this
      omega
    · next hc => simp [find, hc, ih hr]

/-- A byte written is read back. -/
theorem read_write_same {m : Memory} (h : m.rising = true) (a : Nat) (v : Byte) : (m.write a v).read a = v := by
  unfold write read
  split
  · next hv => simp [find_erase_same h, hv]
  · simp [find_insert]

/-- A write leaves every other byte as it was. -/
theorem read_write_other (m : Memory) {a b : Nat} (v : Byte) (h : b ≠ a) : (m.write a v).read b = m.read b := by
  unfold write read
  split
  · rw [find_erase_other m h]
  · simp [find_insert, h]

/-! ### The canonical form -/

theorem wf_iff {m : Memory} : m.wf = true ↔ m.rising = true ∧ ∀ c ∈ m, c.2 ≠ blank := by
  simp [wf]

theorem wf_write {m : Memory} (h : m.wf = true) (a : Nat) (v : Byte) : (m.write a v).wf = true := by
  obtain ⟨hr, hb⟩ := wf_iff.1 h
  unfold write
  split
  · exact wf_iff.2 ⟨rising_erase hr a, fun c hc => hb c (mem_erase hc)⟩
  · next hv =>
    refine wf_iff.2 ⟨rising_insert hr a v, fun c hc => ?_⟩
    rcases mem_insert hc with rfl | hc
    · exact hv
    · exact hb c hc

theorem rising_write {m : Memory} (h : m.rising = true) (a : Nat) (v : Byte) : (m.write a v).rising = true := by
  unfold write
  split
  · exact rising_erase h a
  · exact rising_insert h a v

theorem wf_fill (f : Nat → Byte) {m : Memory} (h : m.wf = true) (a n : Nat) : (m.fill f a n).wf = true := by
  induction n generalizing m a with
  | zero => exact h
  | succ n ih => exact ih (wf_write h a _) (a + 1)

theorem rising_fill (f : Nat → Byte) {m : Memory} (h : m.rising = true) (a n : Nat) :
    (m.fill f a n).rising = true := by
  induction n generalizing m a with
  | zero => exact h
  | succ n ih => exact ih (rising_write h a _) (a + 1)

/-- A filled range holds its values, every other byte is as it was. -/
theorem read_fill (f : Nat → Byte) {m : Memory} (h : m.rising = true) (a n b : Nat) :
    (m.fill f a n).read b = if a ≤ b ∧ b < a + n then f b else m.read b := by
  induction n generalizing m a with
  | zero =>
    have : ¬(a ≤ b ∧ b < a + 0) := by omega
    simp only [if_neg this]; rfl
  | succ n ih =>
    simp only [fill, ih (rising_write h a _)]
    by_cases hb : b = a
    · subst hb
      have h1 : ¬(b + 1 ≤ b ∧ b < b + 1 + n) := by omega
      have h2 : b ≤ b ∧ b < b + (n + 1) := by omega
      rw [if_neg h1, if_pos h2, read_write_same h]
    · have : (a + 1 ≤ b ∧ b < a + 1 + n) ↔ (a ≤ b ∧ b < a + (n + 1)) := by omega
      simp only [this, read_write_other m _ hb]

/-- A range that is not filled reads as before. -/
theorem read_fill_outside (f : Nat → Byte) (m : Memory) (a n : Nat) {b : Nat} (h : ¬(a ≤ b ∧ b < a + n)) :
    (m.fill f a n).read b = m.read b := by
  induction n generalizing m a with
  | zero => rfl
  | succ n ih =>
    have h1 : ¬(a + 1 ≤ b ∧ b < a + 1 + n) := by omega
    have h2 : b ≠ a := by omega
    rw [fill, ih _ _ h1, read_write_other m _ h2]

/-! ### Words -/

theorem wf_writeWord {m : Memory} (h : m.wf = true) (a : Nat) (v : Word) : (m.writeWord a v).wf = true :=
  wf_write (wf_write (wf_write (wf_write h _ _) _ _) _ _) _ _

theorem rising_writeWord {m : Memory} (h : m.rising = true) (a : Nat) (v : Word) : (m.writeWord a v).rising = true :=
  rising_write (rising_write (rising_write (rising_write h _ _) _ _) _ _) _ _

/-- A word write leaves every byte outside the word as it was. -/
theorem read_writeWord_outside (m : Memory) (a : Nat) (v : Word) {b : Nat} (h : b < a ∨ a + 4 ≤ b) :
    (m.writeWord a v).read b = m.read b := by
  unfold writeWord
  rw [read_write_other _ _ (by omega), read_write_other _ _ (by omega), read_write_other _ _ (by omega),
    read_write_other _ _ (by omega)]

/-- A word written is read back (R60). -/
theorem word_writeWord {m : Memory} (h : m.rising = true) (a : Nat) (v : Word) : (m.writeWord a v).word a = v := by
  have h1 := rising_write h a (v.extractLsb' 24 8)
  have h2 := rising_write h1 (a + 1) (v.extractLsb' 16 8)
  have h3 := rising_write h2 (a + 2) (v.extractLsb' 8 8)
  unfold writeWord word
  rw [read_write_same h3, read_write_other _ (b := a + 2) _ (by omega), read_write_same h2,
    read_write_other _ (b := a + 1) _ (by omega), read_write_other _ (b := a + 1) _ (by omega), read_write_same h1,
    read_write_other _ (b := a) _ (by omega), read_write_other _ (b := a) _ (by omega),
    read_write_other _ (b := a) _ (by omega), read_write_same h]
  ext i hi
  simp only [BitVec.getElem_append, BitVec.getElem_extractLsb']
  repeat' split
  all_goals rw [BitVec.getLsbD_eq_getElem (by omega)]; congr 1; omega

end Memory

/-! ### The flash macro keeps the canonical form -/

theorem foldl_wf {α : Type} (f : Memory → α → Memory) (hf : ∀ m a, m.wf = true → (f m a).wf = true) (l : List α)
    {m : Memory} (h : m.wf = true) : (l.foldl f m).wf = true := by
  induction l generalizing m with
  | nil => exact h
  | cons a l ih => exact ih (hf m a h)

theorem wf_fillSelected (s : State) (f : Nat → Byte) {m : Memory} (h : m.wf = true) : (s.fillSelected f m).wf = true :=
  foldl_wf _ (fun _ _ hm => Memory.wf_fill f hm _ _) _ h

theorem wf_fillLatched (f : Nat → Byte → Byte) (latch : Memory) {m : Memory} (h : m.wf = true) :
    (fillLatched f latch m).wf = true :=
  foldl_wf _ (fun _ _ hm => Memory.wf_write hm _ _) _ h

theorem wf_eraseEnd (s : State) (k : Bank) (v : Byte) {m : Memory} (h : m.wf = true) : (s.eraseEnd k v m).wf = true := by
  unfold State.eraseEnd
  split
  · exact wf_fillSelected s _ h
  · exact h

theorem wf_programEnd (s : State) (k : Bank) (v : Byte) {m : Memory} (h : m.wf = true) :
    (s.programEnd k v m).wf = true := by
  unfold State.programEnd
  split
  · exact wf_fillLatched _ _ h
  · exact h

theorem wf_cellsAfterReset (s : State) (h : s.env.cells.wf = true) : s.cellsAfterReset.wf = true := by
  have h1 : (if s.bit .b0 .e || s.bit .b1 .e then s.fillSelected (Config.freeCell s.moment) s.env.cells
      else s.env.cells).wf = true := by
    split
    · exact wf_fillSelected s _ h
    · exact h
  unfold State.cellsAfterReset
  simp only
  split
  · exact wf_fillLatched _ _ h1
  · exact h1

/-- A verify read keeps the cells in their canonical form, whatever it answers. -/
theorem wf_envAfterReadBack (s : State) (a : Word) (h : s.env.cells.wf = true) :
    (s.envAfterReadBack a).cells.wf = true := by
  unfold State.envAfterReadBack
  simp only
  split
  · exact Memory.wf_writeWord h _ _
  · exact h

end Sys2Proof.Machine
end

