-- ==== Sys2Proof/Laws/PerInstr.lean ====
section
/-! SUPPORT. Facts about every instruction as syntax, one lemma a constructor. `WordWidth`: the word an instruction encodes
to has the width of its port (R91: 98 bits; micro-operation words: 72 bits, log 4). -/

namespace Sys2Proof.Laws.WordWidth

/-- The width of the words of a port. -/
def width : Space → Nat
  | .command => 98
  | .micro => 72

/-- The word of the instruction, if it has one, fits its port. -/
def Statement (i : Instr) : Prop := ∀ sp w, encode i = some (sp, w) → w < 2 ^ width sp

theorem of_command {i : Instr} {v : BitVec 98} (h : encode i = some (.command, v.toNat)) : Statement i := by
  intro sp w hw
  rw [h] at hw
  obtain ⟨rfl, rfl⟩ : Space.command = sp ∧ v.toNat = w := by simpa using hw
  exact v.isLt

theorem of_micro {i : Instr} {v : BitVec 72} (h : encode i = some (.micro, v.toNat)) : Statement i := by
  intro sp w hw
  rw [h] at hw
  obtain ⟨rfl, rfl⟩ : Space.micro = sp ∧ v.toNat = w := by simpa using hw
  exact v.isLt

theorem of_none {i : Instr} (h : encode i = none) : Statement i := by
  intro sp w hw
  simp [h] at hw

theorem init : Statement .init := of_command rfl
theorem unprotect : Statement .unprotect := of_command rfl
theorem eraseBlock (index : Word) : Statement (.eraseBlock index) := of_command rfl
theorem writeRange (dest src len : Word) : Statement (.writeRange dest src len) := of_command rfl
theorem regRead (r : Reg) : Statement (.regRead r) := of_micro rfl
theorem regWrite (r : Reg) (v : Byte) : Statement (.regWrite r v) := of_micro rfl
theorem flashWrite8 (a : Word) (v : Byte) : Statement (.flashWrite8 a v) := of_micro rfl
theorem flashWrite32 (a v : Word) : Statement (.flashWrite32 a v) := of_micro rfl
theorem flashRead32 (a : Word) : Statement (.flashRead32 a) := of_micro rfl
theorem srcRead8 (a : Word) : Statement (.srcRead8 a) := of_micro rfl
theorem waitOp (c : Word) : Statement (.waitOp c) := of_micro rfl
theorem wdtStop : Statement .wdtStop := of_micro rfl
theorem wdtStart (d : Divisor) : Statement (.wdtStart d) := of_micro rfl
theorem irqMask : Statement .irqMask := of_micro rfl
theorem irqRestore : Statement .irqRestore := of_micro rfl
theorem bitSet (k : Bank) (f : Field) : Statement (.bitSet k f) := of_none rfl
theorem bitClr (k : Bank) (f : Field) : Statement (.bitClr k f) := of_none rfl
theorem srcWord (a : Word) : Statement (.srcWord a) := of_none rfl
theorem precond : Statement .precond := of_none rfl
theorem waitProc (cycles : Word) : Statement (.waitProc cycles) := of_none rfl
theorem scopedGuard (d : Divisor) (body : List Act) : Statement (.scopedGuard d body) := of_none rfl
theorem guardAcquire (d : Divisor) : Statement (.guardAcquire d) := of_none rfl
theorem guardRelease : Statement .guardRelease := of_none rfl
theorem resolveBlock (index : Word) : Statement (.resolveBlock index) := of_none rfl
theorem selectBlock (index : Word) : Statement (.selectBlock index) := of_none rfl
theorem resolveAddressRange (dest len : Word) : Statement (.resolveAddressRange dest len) := of_none rfl
theorem validateRange (dest len : Word) : Statement (.validateRange dest len) := of_none rfl
theorem pageLoop : Statement .pageLoop := of_none rfl
theorem erasePulse (k : Bank) : Statement (.erasePulse k) := of_none rfl
theorem eraseVerify (k : Bank) (start stop : Word) : Statement (.eraseVerify k start stop) := of_none rfl
theorem writePage (dest src : Word) : Statement (.writePage dest src) := of_none rfl
theorem programPulse (k : Bank) (width : Word) : Statement (.programPulse k width) := of_none rfl
theorem verifyWord (k : Bank) (j : Nat) (n : Word) : Statement (.verifyWord k j n) := of_none rfl
theorem systemReset : Statement .systemReset := of_none rfl

end Sys2Proof.Laws.WordWidth
end

