-- ==== Sys2Proof/Laws/Step.lean ====
section
/-! SUPPORT. What one step of the sequencer can do, said once: perform the act it stands at and move to the next one, or
come to the end of its stretch; and what the end of a stretch leaves alone. -/

namespace Sys2Proof.Machine

/-- The acts of a stretch depend on the profile, the block index and the address registers only. -/
theorem acts_congr {s t : State} (g : Seg) (hp : t.profile = s.profile) (hi : t.opr.index = s.opr.index)
    (hb : t.ctx.bank = s.ctx.bank) (hn : t.ctx.n = s.ctx.n) (hs : t.ctx.pgSrc = s.ctx.pgSrc) (hj : t.loc.j = s.loc.j) :
    g.acts t = g.acts s := by
  cases g <;> simp only [Seg.acts, hp, hi, hb, hn, hs, hj]

theorem act_after_j (a : Act) (s : State) : (a.after s).loc.j = s.loc.j := by
  cases a with
  | write r v => cases r <;> rfl
  | _ => rfl

/-- Performing an act does not change the acts of its stretch. -/
theorem acts_after (g : Seg) (a : Act) (s : State) : g.acts (a.after s) = g.acts s := by
  have hx := (act_after_ctx a s).1
  refine acts_congr g (act_after_fields a s).1 ?_ ?_ ?_ ?_ (act_after_j a s)
  · rw [(act_after_fields a s).2.2.2.1]
  · rw [hx]
  · rw [hx]
  · rw [hx]

/-- The reset input has priority over everything (R260). -/
theorem step_of_resetPin {s : State} (h : s.port.resetPin = true) : step s = .next s.systemReset := by
  simp [step, oneStep, h, exec, execSystemReset]

theorem step_of_point {s : State} (hr : s.port.resetPin = false) (hu : s.port.uword = none) : step s = runPoint s := by
  simp [step, oneStep, hr, hu]

/-- The sequencer's own step is a micro-operation of the procedure, through `exec`. -/
theorem runPoint_of_act {s : State} {a : Act} (h : s.act = some a) : runPoint s = andThen (perform a s) advance := by
  simp only [runPoint, h, exec_toInstr, perform, andThen_assoc, andThen_of_next]

/-- All that a step of the sequencer can do. -/
theorem step_cases {s t : State} (hr : s.port.resetPin = false) (hu : s.port.uword = none) (h : step s = .next t) :
    (s.act = none ∧ s.seq.seg.finish s = .next t) ∨
    ∃ a, s.act = some a ∧ ((a.op s).after s).overflows = false ∧ a.reaches s = true ∧
      ((s.seq.pos + 1 < (s.seq.seg.acts s).length ∧
          t = { a.after s with seq := { s.seq with pos := s.seq.pos + 1 } }) ∨
        ((s.seq.seg.acts s).length ≤ s.seq.pos + 1 ∧ s.seq.seg.finish (a.after s) = .next t)) := by
  rw [step_of_point hr hu] at h
  cases ha : s.act with
  | none => left; simpa [runPoint, ha] using h
  | some a =>
    right
    rw [runPoint_of_act ha] at h
    obtain ⟨u, hp, h⟩ := andThen_eq_next.1 h
    obtain ⟨rfl, ho, hre⟩ := perform_eq_next hp
    refine ⟨a, rfl, ho, hre, ?_⟩
    have hq := (act_after_fields a s).2.2.1
    simp only [advance, hq, acts_after] at h
    split at h
    · next hlt => exact .inl ⟨hlt, by simpa using h.symm⟩
    · next hge => exact .inr ⟨by omega, h⟩

/-- The end of a stretch makes no access: it moves registers of the sequencer only, and the gate in `Validate`. -/
theorem finish_fields {g : Seg} {s t : State} (h : g.finish s = .next t) :
    Quiet s { t with armed := s.armed } ∧ (g ≠ .validate → t.armed = s.armed) := by
  have hq : ∀ u : State, u.profile = s.profile ∧ u.env = s.env ∧ u.regs = s.regs ∧ u.wdt = s.wdt ∧ u.irq = s.irq ∧
      u.dlyCnt = s.dlyCnt ∧ u.trace = s.trace ∧ u.moment = s.moment → Quiet s { u with armed := s.armed } :=
    fun u h => ⟨h.1, h.2.1, h.2.2.1, h.2.2.2.1, h.2.2.2.2.1, h.2.2.2.2.2.1, rfl, h.2.2.2.2.2.2.1, h.2.2.2.2.2.2.2⟩
  have hb : ∀ {u v : State}, beginPage u = .next v → v = (u.enterPage u.opr.dest u.opr.src).goto .wPre := by
    intro u v h
    unfold beginPage at h
    split at h
    · cases h
    · exact (Host.Outcome.next.inj h).symm
  have hn : ∀ {u v : State}, nextPageOrEnd u = .next v →
      v = (u.withResult .ok).respond .ok ∨ v = (u.enterPage u.opr.dest u.opr.src).goto .wPre := by
    intro u v h
    unfold nextPageOrEnd at h
    split at h
    · exact .inl (Host.Outcome.next.inj h).symm
    · exact .inr (hb h)
  cases g with
  | idle =>
    simp only [Seg.finish, stepIdle, whenReady] at h
    split at h
    · obtain rfl := Host.Outcome.next.inj h
      exact ⟨hq _ (by simp), by simp⟩
    · split at h
      · cases h
      · split at h
        · obtain rfl := Host.Outcome.next.inj h
          generalize decodeCommand _ = i
          cases i <;> exact ⟨hq _ (by simp [accept]), by simp [accept]⟩
        · cases h
  | validate =>
    refine ⟨?_, fun e => absurd rfl e⟩
    simp only [Seg.finish, validateCommand] at h
    split at h
    · obtain rfl := Host.Outcome.next.inj h; exact hq _ (by simp)
    · obtain rfl := Host.Outcome.next.inj h; exact hq _ (by simp)
    · split at h
      · obtain rfl := Host.Outcome.next.inj h; exact hq _ (by simp)
      · split at h <;> (obtain rfl := Host.Outcome.next.inj h; exact hq _ (by simp))
    · split at h
      · obtain rfl := Host.Outcome.next.inj h; exact hq _ (by simp)
      · split at h
        · obtain rfl := Host.Outcome.next.inj h; exact hq _ (by simp)
        · rcases hn h with rfl | rfl <;> exact hq _ (by simp)
  | nextPage =>
    simp only [Seg.finish] at h
    split at h
    · rcases hn h with rfl | rfl <;> exact ⟨hq _ (by simp), by simp⟩
    · obtain rfl := Host.Outcome.next.inj h; exact ⟨hq _ (by simp), by simp⟩
  | ePre => simp only [Seg.finish] at h; split at h <;> (obtain rfl := Host.Outcome.next.inj h; exact ⟨hq _ (by simp), by simp⟩)
  | wPre => simp only [Seg.finish] at h; split at h <;> (obtain rfl := Host.Outcome.next.inj h; exact ⟨hq _ (by simp), by simp⟩)
  | wSwe => simp only [Seg.finish] at h; split at h <;> (obtain rfl := Host.Outcome.next.inj h; exact ⟨hq _ (by simp), by simp⟩)
  | pvWord =>
    simp only [Seg.finish] at h
    split at h
    · obtain rfl := Host.Outcome.next.inj h; exact ⟨hq _ (by simp), by simp⟩
    · split at h <;> (obtain rfl := Host.Outcome.next.inj h; exact ⟨hq _ (by simp), by simp⟩)
  | pvExit =>
    simp only [Seg.finish] at h
    obtain rfl := Host.Outcome.next.inj h
    split <;> exact ⟨hq _ (by simp [afterAttempt]), by simp [afterAttempt]⟩
  | evEnter => obtain rfl := Host.Outcome.next.inj h; exact ⟨hq _ (by simp [scanNext]), by simp [scanNext]⟩
  | evWord => obtain rfl := Host.Outcome.next.inj h; exact ⟨hq _ (by simp [scanNext]), by simp [scanNext]⟩
  | oSettle => obtain rfl := Host.Outcome.next.inj h; exact ⟨hq _ (by simp [afterAttempt]), by simp [afterAttempt]⟩
  | _ => obtain rfl := Host.Outcome.next.inj h; exact ⟨hq _ (by simp), by simp⟩

end Sys2Proof.Machine
end

