-- ==== Sys2Proof/Tests/Slice0.lean ====
section
/-! SUPPORT. The model's own tests. Expected values come from spec/: the toy profile TP32 and the vectors of
95_test_vectors.md, the examples of files 30 to 47. Then one named witness for the hypotheses of each statement. -/

namespace Sys2Proof.Tests

open Sys2Proof Sys2Proof.Machine

/-! ### Helpers -/

/-- The next state of an outcome, if it is one. -/
def nextOf : Res → Option State
  | .next t => some t
  | .fault _ | .refused _ => none

theorem exists_next {r : Res} (h : (nextOf r).isSome = true) : ∃ t, r = .next t := by
  cases r with
  | next t => exact ⟨t, rfl⟩
  | fault e => simp [nextOf] at h
  | refused e => simp [nextOf] at h

/-- Whether an outcome is a given refusal. -/
def refusedWith (r : Res) (e : Refusal) : Bool :=
  match r with
  | .refused x => decide (x = e)
  | .next _ | .fault _ => false

/-- Whether an outcome is the watchdog's fault. -/
def isStruck : Res → Bool
  | .fault (.watchdogReset _) => true
  | .fault (.noSuchFlashAddress _) | .fault (.misalignedFlashWord _) | .next _ | .refused _ => false

/-- TP32 of 95_test_vectors.md section 2. -/
def tp32 : DeviceProfile := Config.bootProfile

/-- The reference environment with `FWE = 1`, `FLER = 0` and the first source bytes of V-W1. -/
def benchEnv : Env :=
  { Env.unknown with
    mode := .reference
    fwe := { queue := [], held := some true }
    fler := { queue := [], held := some false }
    source := [(0x1000, 0x01), (0x1001, 0x08), (0x1002, 0x0F), (0x1003, 0x16)] }

/-- TP32 on the bench, armed. -/
def bench : State := { State.afterReset tp32 benchEnv 0 with armed := true }

/-- The bench under another profile. -/
def benchOf (p : DeviceProfile) : State := { State.afterReset p benchEnv 0 with armed := true }

/-- TP32 with both retry budgets 0. -/
def zeroBudget : DeviceProfile := { tp32 with maxEraseRetries := 0, maxWriteRetries := 0 }

/-- The bench with `FCR[0]` holding a value. -/
def withFcr0 (s : State) (v : Byte) : State := { s with regs := { s.regs with fcr0 := v } }

/-- The events an operation appends to an empty trace. -/
def traceOf (r : Res) : Option (List Event) := (nextOf r).map State.trace

/-! ### WellFormed refuses each ill-formed term -/

theorem test_wf_flashWrite32 : (Instr.flashWrite32 0x42 0).wf = false := by decide
theorem test_wf_flashRead32 : (Instr.flashRead32 0x41).wf = false := by decide
theorem test_wf_eraseVerify : (Instr.eraseVerify .b0 0x43 0x80).wf = false := by decide
theorem test_wf_verifyWord : (Instr.verifyWord .b0 32 1).wf = false := by decide
theorem test_wf_accepts : (Instr.flashWrite32 0x40 0).wf = true ∧ (Instr.verifyWord .b0 31 1).wf = true := by decide

theorem test_wf_tp32 : tp32.wf = true ∧ tp32.guardWf = true := by decide
theorem test_wf_table_rises : { tp32 with table := [0x000, 0x080, 0x040, 0x100] }.wf = false := by decide
theorem test_wf_one_block : { tp32 with table := [0x000] }.wf = false := by decide
theorem test_wf_table_at_zero : { tp32 with table := [0x020, 0x040, 0x080, 0x100] }.wf = false := by decide
theorem test_wf_flash_max : { tp32 with flashMax := 0x0FE }.wf = false := by decide
theorem test_wf_top : { tp32 with table := [0, 0xFFFFFFE0], flashMax := 0xFFFFFFDF, bankSplit := 0 }.wf = true ∧
    { tp32 with page := .p128, table := [0, 0xFFFFFF80 + 0x60], flashMax := 0xFFFFFFDF, bankSplit := 0 }.wf = false := by
  decide
theorem test_wf_page_multiple : { tp32 with table := [0x000, 0x044, 0x080, 0x100] }.wf = false := by decide
theorem test_wf_split : { tp32 with bankSplit := 0x060 }.wf = false := by decide
theorem test_wf_blocks_of_bank :
    { tp32 with table := [0, 32, 64, 96, 128, 160, 192, 224, 256, 288], flashMax := 287, bankSplit := 0 }.wf = false := by
  decide
theorem test_wf_enable_bits : { tp32 with ebrBits := some [0, 0, 0] }.wf = false := by decide
theorem test_wf_clock : { tp32 with fClk := 0 }.wf = false ∧ { tp32 with cycPerUsNum := 0 }.wf = false ∧
    { tp32 with cycPerUsDen := 0 }.wf = false ∧ { tp32 with cycPerIter := 0 }.wf = false := by decide
/-- R133: `CYC_PER_US` is `F_CLK / 10^6`. -/
theorem test_wf_clock_rate : { tp32 with cycPerUsNum := 41 }.wf = false := by decide
theorem test_wf_layout : { tp32 with regLayout := { RegLayout.standard with p := 1 } }.wf = false := by decide
theorem test_wf_status_ok : { tp32 with statusEnc := { StatusEnc.standard with ok := 9 } }.wf = false := by decide
theorem test_wf_status_distinct : { tp32 with statusEnc := { StatusEnc.standard with badBlock := 2 } }.wf = false := by
  decide
theorem test_wf_guard : { tp32 with wdtIntervals := [(0, 1000), (1, 172)] }.guardWf = false ∧
    { tp32 with wdtIntervals := [(0, 260), (1, 2000)] }.guardWf = false := by decide

/-! ### Decoding: words written out from R91, R93, R96 and 95_test_vectors.md section 7 -/

theorem test_decode_init : decode .command 0x0000000000000000000000000 = .ok .init := by decide
theorem test_decode_unprotect : decode .command 0x1000000000000000000000000 = .ok .unprotect := by decide
theorem test_decode_eraseBlock : decode .command 0x2000000010000000000000000 = .ok (.eraseBlock 1) := by decide
theorem test_decode_writeRange :
    decode .command 0x3000000400000100000000020 = .ok (.writeRange 0x40 0x1000 32) := by decide
theorem test_decode_unused_fields : decode .command 0x1FFFFFFFFFFFFFFFFFFFFFFFF = .ok .unprotect := by decide
theorem test_decode_long : decode .command 0x4000000000000000000000000 = .error .bitsAboveCommand := by decide
theorem test_decode_regRead : decode .micro 0x000000000300 = .ok (.regRead (.ebr .b1)) := by decide
theorem test_decode_regWrite : decode .micro 0x00000000E20000000001 = .ok (.regWrite (.fcr .b0) 0xE2) := by decide
theorem test_decode_flashWrite8 : decode .micro 0x00000000010000004002 = .ok (.flashWrite8 0x40 0x01) := by decide
theorem test_decode_flashWrite32 : decode .micro 0xFFFFFFFF0000004003 = .ok (.flashWrite32 0x40 ones32) := by decide
theorem test_decode_flashRead32 : decode .micro 0x0000004004 = .ok (.flashRead32 0x40) := by decide
theorem test_decode_srcRead8 : decode .micro 0x0000100005 = .ok (.srcRead8 0x1000) := by decide
theorem test_decode_wait : decode .micro 0x0000000706 = .ok (.waitOp 7) := by decide
theorem test_decode_wdtStop : decodeTableWord 8 0b0111 = some .wdtStop := by decide
theorem test_decode_wdtStart : decode .micro 0x0000000108 = .ok (.wdtStart 1) := by decide
theorem test_decode_irqMask : decodeTableWord 8 0b1001 = some .irqMask := by decide
theorem test_decode_irqRestore : decodeTableWord 8 0b1010 = some .irqRestore := by decide
theorem test_decode_unused_code : decode .micro 0xB = .error .unusedEventCode ∧
    decode .micro 0xF = .error .unusedEventCode := by decide
theorem test_decode_reserved : decode .micro 0x17 = .error .reservedBits ∧
    decode .micro 0x107 = .error .reservedBits ∧ decode .micro 0x400 = .error .noSuchRegister := by decide
theorem test_decode_bytes : decodeBytes .command [0x20, 0, 0, 0, 0, 0x10, 0, 0, 0x40, 0, 0, 0, 3] =
    .ok (.writeRange 0x40 0x1000 32) := by decide

/-! ### The step -/

/-- A command word placed at the port is accepted by the very next step. -/
theorem test_fetch_command : ((nextOf (step (State.reset.withFetchWord 98 0x2000000010000000000000000))).map
    (fun t => (t.st, t.seq.op, t.opr.index))) = some (.validate, .eraseBlock, 1) := by decide
/-- A micro-operation word placed outside the machine is run by the very next step. -/
theorem test_fetch_micro : traceOf (step (State.reset.withFetchWord 8 0x7)) = some [.wdtStop] := by decide

/-! ### One instruction each -/

/-- V-G1. -/
theorem test_init : (nextOf (exec .init bench)).map (fun t => (t.trace, t.armed, t.port.status)) =
    some ([.rr (.fcr .b0) 0x80, .rr (.fcr .b1) 0x00], false, 0) := by decide
/-- V-G2. -/
theorem test_init_device_error : (nextOf (exec .init { bench with env := { benchEnv with fwe := { queue := [], held := some false } } })).map
    (fun t => (t.trace, t.armed, t.port.status)) = some ([.rr (.fcr .b0) 0x00, .rr (.fcr .b1) 0x00], false, 5) := by decide
/-- V-G4. -/
theorem test_unprotect : (nextOf (exec .unprotect { bench with armed := false })).map (fun t => (t.armed, t.trace, t.port.status)) =
    some (true, [], 0) := by decide
/-- V-E5. -/
theorem test_eraseBlock_bad : (nextOf (exec (.eraseBlock 3) bench)).map (fun t => (t.port.status, t.trace)) =
    some (1, []) := by decide
/-- V-E1: 81 events, end state. -/
theorem test_eraseBlock : (nextOf (exec (.eraseBlock 1) bench)).map
    (fun t => (t.port.status, t.trace.length, t.regs, t.wdt.run, t.irq.mask)) =
    some (0, 81, { fcr0 := 0, fcr1 := 0, ebr0 := 2, ebr1 := 0 }, false, false) := by decide +kernel

/-- V-A3: alignment before length. -/
theorem test_writeRange_misaligned : (nextOf (exec (.writeRange 0x41 0x1000 33) bench)).map
    (fun t => (t.port.status, t.trace)) = some (3, []) := by decide
/-- V-W1: 151 events, the first source bytes in the cells. -/
theorem test_writeRange : (nextOf (exec (.writeRange 0x40 0x1000 32) bench)).map
    (fun t => (t.port.status, t.trace.length, t.env.cells.take 2, t.opr.len, t.regs.fcr0)) =
    some (0, 151, [(0x40, 0x01), (0x41, 0x08)], 0, 0) := by decide +kernel
/-- R110's example. -/
theorem test_regRead : traceOf (exec (.regRead (.fcr .b0)) bench) = some [.rr (.fcr .b0) 0x80] := by decide
/-- R111: the status bit written is ignored, and recorded. -/
theorem test_regWrite : (nextOf (exec (.regWrite (.fcr .b0) 0xC0) bench)).map (fun t => (t.regs.fcr0, t.trace)) =
    some (0x40, [.rw (.fcr .b0) 0xC0]) := by decide
/-- R81: the end of an erase pulse; R34: `EBR[0] = 0x02` selects block 1. -/
theorem test_regWrite_ends_pulse :
    (nextOf (exec (.regWrite (.fcr .b0) 0x60)
      { bench with
        regs := { fcr0 := 0x62, fcr1 := 0, ebr0 := 2, ebr1 := 0 }
        env := { benchEnv with cells := [(0x3F, 0), (0x40, 0), (0x7F, 0), (0x80, 0)] } })).map
      (fun t => t.env.cells) = some [(0x3F, 0), (0x80, 0)] := by decide +kernel
/-- R114, R81: loaded while `SWE = 1`. -/
theorem test_flashWrite8 : (nextOf (exec (.flashWrite8 0x40 0x01) (withFcr0 bench 0x40))).map
    (fun t => (t.env.latch, t.env.cells, t.trace)) = some ([(0x40, 0x01)], [], [.fw8 0x40 0x01]) := by decide
/-- R81: not loaded in program-verify mode. -/
theorem test_flashWrite8_verify : (nextOf (exec (.flashWrite8 0x40 0x01) (withFcr0 bench 0x44))).map
    (fun t => t.env.latch) = some [] := by decide
/-- R115's example; R64: the probe arms the word. -/
theorem test_flashWrite32 : (nextOf (exec (.flashWrite32 0x40 ones32) (withFcr0 bench 0x48))).map
    (fun t => (t.trace, t.env.view.probes, t.env.cells)) =
    some ([.fw32 0x40 0xFFFFFFFF], [{ addr := 0x40, since := 0 }], []) := by decide
/-- R116, R60: big-endian, in erase-verify mode, the word armed and the read delay of 8 waited (R268). -/
theorem test_flashRead32 : traceOf (exec (.flashRead32 0x40)
    { withFcr0 bench 0x48 with
      env := { benchEnv with
        cells := [(0x40, 0x01), (0x43, 0x16)], view := { probes := [{ addr := 0x40, since := 0 }], waited := 8, pulsed := [] } } }) =
    some [.fr32 0x40 0x01FFFF16] := by decide
/-- R268: with the delay too short, or another word probed, the read is not meaningful (log 14). -/
theorem test_flashRead32_early :
    (let s := { withFcr0 bench 0x48 with
        env := { benchEnv with view := { probes := [{ addr := 0x40, since := 5 }], waited := 12, pulsed := [] } } }
     (s.meaningful 0x40, s.probed 0x40, s.probed 0x44)) = (false, true, false) := by decide
/-- R117's example with the source of V-W1. -/
theorem test_srcRead8 : traceOf (exec (.srcRead8 0x1000) bench) = some [.sr8 0x1000 0x01] := by decide
/-- R132: `Wait(0)` appends its event. -/
theorem test_waitOp : traceOf (exec (.waitOp 0) bench) = some [.wait 0] := by decide
/-- R120: unconditional. -/
theorem test_wdtStop : (nextOf (exec .wdtStop { bench with wdt := { run := true, div := 1, rste := true, cnt := 3 } })).map
    (fun t => (t.wdt.run, t.trace)) = some (false, [.wdtStop]) := by decide
/-- R121. -/
theorem test_wdtStart : (nextOf (exec (.wdtStart 1) bench)).map (fun t => (t.wdt, t.trace)) =
    some ({ run := true, div := 1, rste := true, cnt := 0 }, [.wdtStart 1]) := by decide
/-- R118. -/
theorem test_irqMask : (nextOf (exec .irqMask bench)).map (fun t => (t.irq, t.trace)) =
    some ({ mask := true, saved := false }, [.irqMask]) := by decide
/-- R119: a saved 1 leaves interrupts masked. -/
theorem test_irqRestore : (nextOf (exec .irqRestore { bench with irq := { mask := true, saved := true } })).map
    (fun t => t.irq.mask) = some true := by decide
/-- R112's example. -/
theorem test_bitSet : (nextOf (exec (.bitSet .b0 .swe) bench)).map (fun t => (t.trace, t.regs.fcr0)) =
    some ([.rr (.fcr .b0) 0x80, .rw (.fcr .b0) 0xC0], 0x40) := by decide
/-- R113's example. -/
theorem test_bitClr : (nextOf (exec (.bitClr .b0 .e) (withFcr0 bench 0x62))).map (fun t => (t.trace, t.regs.fcr0)) =
    some ([.rr (.fcr .b0) 0xE2, .rw (.fcr .b0) 0xE0], 0x60) := by decide
/-- V-W1: the first source word is `0x01080F16`. -/
theorem test_srcWord : (nextOf (exec (.srcWord 0x1000) bench)).map (fun t => (t.loc.sword, t.trace.length)) =
    some (0x01080F16, 4) := by decide
/-- R122's example. -/
theorem test_precond : (nextOf (exec .precond bench)).map (fun t => (t.loc.flag, t.trace)) =
    some (true, [.rr (.fcr .b0) 0x80, .rr (.fcr .b1) 0x00]) := by decide
/-- R130: `dly_cnt` is 0 afterwards. -/
theorem test_waitProc : (nextOf (exec (.waitProc 7) { bench with dlyCnt := 9 })).map (fun t => (t.dlyCnt, t.trace)) =
    some (0, [.wait 7]) := by decide
/-- R142. -/
theorem test_scopedGuard : (nextOf (exec (.scopedGuard 0 [.irqMask, .wait 5, .irqRestore]) bench)).map
    (fun t => (t.wdt.run, t.trace)) =
    some (false, [.wdtStop, .wdtStart 0, .irqMask, .wait 5, .irqRestore, .wdtStop]) := by decide
/-- R140's example. -/
theorem test_guardAcquire : traceOf (exec (.guardAcquire 1) bench) = some [.wdtStop, .wdtStart 1] := by decide
/-- R141. -/
theorem test_guardRelease : traceOf (exec .guardRelease bench) = some [.wdtStop] := by decide
/-- V-B3. -/
theorem test_resolveBlock : (nextOf (exec (.resolveBlock 2) bench)).map
    (fun t => (t.ctx.blkStart, t.ctx.blkEnd, t.ctx.bank, t.loc.result)) = some (0x80, 0x100, .b1, .ok) := by decide
/-- V-B4, V-B5. -/
theorem test_resolveBlock_bad : (nextOf (exec (.resolveBlock 3) bench)).map (fun t => t.loc.result) = some .badBlock ∧
    (nextOf (exec (.resolveBlock 0xFFFFFFFF) bench)).map (fun t => t.loc.result) = some .badBlock := by decide
/-- V-B8. -/
theorem test_selectBlock : traceOf (exec (.selectBlock 1) bench) = some [.rw (.ebr .b1) 0x00, .rw (.ebr .b0) 0x02] := by
  decide
/-- V-B9. -/
theorem test_selectBlock_bank1 : traceOf (exec (.selectBlock 2) bench) =
    some [.rw (.ebr .b0) 0x00, .rw (.ebr .b1) 0x01] := by decide
/-- V-B7. -/
theorem test_resolveAddressRange : (nextOf (exec (.resolveAddressRange 0x60 32) bench)).map (fun t => t.ctx.bank) = some .b0 ∧
    (nextOf (exec (.resolveAddressRange 0x80 32) bench)).map (fun t => t.ctx.bank) = some .b1 := by decide
/-- V-A1, V-A3, V-A4, V-A7 and the ok case. -/
theorem test_validateRange : [(0x100, 32), (0x41, 33), (0x40, 33), (0xFF, 32), (0x40, 0)].map
    (fun (a : Word × Word) => (nextOf (exec (.validateRange a.1 a.2) bench)).map (fun t => t.loc.result)) =
    [some .outOfBounds, some .misaligned, some .badLength, some .misaligned, some .ok] := by decide
/-- V-A9: the second page is refused. -/
theorem test_pageLoop_overrun : refusedWith (exec .pageLoop { benchOf zeroBudget with opr :=
    { index := 0, dest := 0x100, src := 0x1000, len := 64 } }) (.rangeOverrun 0x100) = true := by decide
/-- R162: `len = 0` runs zero pages. -/
theorem test_pageLoop_empty : (nextOf (exec .pageLoop bench)).map (fun t => (t.loc.result, t.trace)) = some (.ok, []) := by
  decide
/-- R171's example: `FCR[0]` reads `0xC0` on entry. -/
theorem test_erasePulse : traceOf (exec (.erasePulse .b0) (withFcr0 bench 0x40)) = some
    [.wdtStop, .wdtStart 1, .rr (.fcr .b0) 0xC0, .rw (.fcr .b0) 0xE0, .wait 3, .irqMask, .rr (.fcr .b0) 0xE0,
      .rw (.fcr .b0) 0xE2, .wait 5, .rr (.fcr .b0) 0xE2, .rw (.fcr .b0) 0xE0, .irqRestore, .wait 6,
      .rr (.fcr .b0) 0xE0, .rw (.fcr .b0) 0xC0, .wait 4, .wdtStop] := by decide +kernel
/-- R172's example on one word. -/
theorem test_eraseVerify : (nextOf (exec (.eraseVerify .b0 0x40 0x44) (withFcr0 bench 0x40))).map
    (fun t => (t.trace, t.loc.flag)) = some
    ([.rr (.fcr .b0) 0xC0, .rw (.fcr .b0) 0xC8, .wait 7, .fw32 0x40 0xFFFFFFFF, .wait 8, .fr32 0x40 0xFFFFFFFF,
      .rr (.fcr .b0) 0xC8, .rw (.fcr .b0) 0xC0, .wait 9], true) := by decide +kernel
/-- V-E4's first scan: word 0 passes, word 4 fails, the scan stops. -/
theorem test_eraseVerify_fails : (nextOf (exec (.eraseVerify .b0 0x00 0x40)
    { withFcr0 bench 0x40 with env := { benchEnv with cells := [(0x004, 0x00)] } })).map
    (fun t => (wordsRead t.trace, t.loc.flag, t.regs.fcr0)) =
    some ([(0x0, 0xFFFFFFFF), (0x4, 0x00FFFFFF)], false, 0x40) := by decide +kernel
/-- V-G6: `device-error` before the source is read. -/
theorem test_writePage_device_error : (nextOf (exec (.writePage 0 0x1000)
    { bench with env := { benchEnv with fler := { queue := [], held := some true } } })).map
    (fun t => (t.loc.result, t.trace)) =
    some (.deviceError, [.rr (.fcr .b0) 0x80, .rr (.fcr .b1) 0x80]) := by decide
/-- Program 3: writing without erasing is fatal at the first word, after one pulse: 102 events. -/
theorem test_writePage_fatal : (nextOf (exec (.writePage 0x40 0x1000)
    { bench with env := { benchEnv with cells := [(0x40, 0x55), (0x41, 0x55), (0x42, 0x55), (0x43, 0x55)] } })).map
    (fun t => (t.loc.result, t.trace.length, wordsRead t.trace, t.regs.fcr0)) =
    some (.programVerifyFatal, 102, [(0x40, 0x01000514)], 0) := by decide +kernel
/-- R192's example. -/
theorem test_programPulse : traceOf (exec (.programPulse .b0 12) (withFcr0 bench 0x40)) = some
    [.wdtStop, .wdtStart 0, .rr (.fcr .b0) 0xC0, .rw (.fcr .b0) 0xD0, .wait 10, .irqMask, .rr (.fcr .b0) 0xD0,
      .rw (.fcr .b0) 0xD1, .wait 12, .rr (.fcr .b0) 0xD1, .rw (.fcr .b0) 0xD0, .irqRestore, .wait 15,
      .rr (.fcr .b0) 0xD0, .rw (.fcr .b0) 0xC0, .wait 11, .wdtStop] := by decide +kernel
/-- R194, R196: `s = 0`, `v = 0x0000FFFF` gives `m = 1` and the reprogram word `0xFFFF0000`. -/
theorem test_verifyWord : (nextOf (exec (.verifyWord .b0 0 1)
    { withFcr0 bench 0x44 with
      env := { benchEnv with mode := .oracle, answers := { queue := [0x0000FFFF], held := none },
                             source := [(0, 0), (1, 0), (2, 0), (3, 0)] } })).map
    (fun t => (t.loc.result, t.ctx.m, bufWord t.ctx.rbuf 0)) = some (.ok, true, 0xFFFF0000) := by decide +kernel
/-- R197's example: `s = 0xFFFFFFFF`, `v = 0xFF7FFFFF` is fatal and updates no buffer. -/
theorem test_verifyWord_fatal : (nextOf (exec (.verifyWord .b0 0 1)
    { withFcr0 bench 0x44 with
      env := { benchEnv with mode := .oracle, answers := { queue := [0xFF7FFFFF], held := none } } })).map
    (fun t => (t.loc.result, bufWord t.ctx.rbuf 0)) = some (.programVerifyFatal, 0) := by decide +kernel
/-- R261: registers 0, the gate disarmed, the trace empty. -/
theorem test_systemReset : (nextOf (exec .systemReset (withFcr0 bench 0x62))).map
    (fun t => (t.regs.fcr0, t.armed, t.trace, t.st)) = some (0, false, [], .idle) := by decide

/-! ### Witnesses: for each statement with hypotheses, a state and operands that meet them together -/

/-- The bench with command words at the port. -/
def benchCmds (l : List (BitVec 98)) : State := bench.withCmds l

/-- The bench in the middle of an erase pulse of block 1: `E` set, before `Wait(T_E_PULSE)`. -/
def inErasePulse : State :=
  { bench with
    seq := { op := .eraseBlock, seg := .ePulse, pos := 3 }
    opr := { index := 1, dest := 0, src := 0, len := 0 }
    ctx := { bench.ctx with blkStart := 0x40, blkEnd := 0x80, n := 1 }
    regs := { fcr0 := 0x62, fcr1 := 0, ebr0 := 2, ebr1 := 0 }
    irq := { mask := true, saved := false }
    wdt := { run := true, div := 1, rste := true, cnt := 3 } }

/-- The bench in the middle of a program pulse of the page at 0x40: `P` set, before `Wait(T_P_SHORT)`. -/
def inProgramPulse : State :=
  { bench with
    seq := { op := .writeRange, seg := .wPulse, pos := 3 }
    opr := { index := 0, dest := 0x40, src := 0x1000, len := 32 }
    ctx := { bench.ctx with pgDest := 0x40, pgSrc := 0x1000, n := 1 }
    regs := { fcr0 := 0x51, fcr1 := 0, ebr0 := 0, ebr1 := 0 }
    irq := { mask := true, saved := false }
    wdt := { run := true, div := 0, rste := true, cnt := 10 }
    env := { benchEnv with latch := [(0x40, 0x01)] } }

/-- The bench in the scan of block 1 after the probe of its last word, before `Wait(T_EV_READ)`. -/
def inEraseScan : State :=
  { bench with
    seq := { op := .eraseBlock, seg := .evWord, pos := 1 }
    opr := { index := 1, dest := 0, src := 0, len := 0 }
    ctx := { bench.ctx with blkStart := 0x40, blkEnd := 0x80, vaddr := 0x7C, n := 1 }
    regs := { fcr0 := 0x48, fcr1 := 0, ebr0 := 2, ebr1 := 0 }
    env := { benchEnv with view := { probes := [{ addr := 0x7C, since := 20 }], waited := 20, pulsed := [(0x40, 0x80)] } } }

/-- The bench with `FCR[0]` holding a value and the word at `0x7C` armed, a delay waited. -/
def probed (v : Byte) (waited : Nat) : State :=
  { withFcr0 bench v with
    env := { benchEnv with
      view := { probes := [{ addr := 0x7C, since := 3 }], waited := 3 + waited, pulsed := [(0x40, 0x80)] } } }

/-- The bench before `Validate` of a command. -/
def inValidate (op : Op) : State := { bench with seq := { op := op, seg := .validate, pos := 0 } }

/-- The bench with the watchdog running at divisor 1 and a count. -/
def watched (n : Nat) : State := { bench with wdt := { run := true, div := 1, rste := true, cnt := n } }

theorem witness_DecodeEncodeRoundTrip :
    encode (.writeRange 0xFFFFFFFF 0 0xFFFFFFFF) = some (.command, 0x3FFFFFFFF00000000FFFFFFFF) ∧
    encode (.regWrite (.ebr .b1) 0xFF) = some (.micro, 0xFF0000000301) := by decide

theorem witness_CommandDecoderReadsOpAndFields : [0x0000000000000000000000000#98, 0x1000000000000000000000000#98,
    0x2FFFFFFFF0000000000000000#98, 0x3000000400000100000000020#98].map (fun w => (w.getLsbD 97, w.getLsbD 96)) =
    [(false, false), (false, true), (true, false), (true, true)] := by decide

theorem witness_OnlyCommandsAndMicroOpsAreEncoded : decode .command 0x2000000010000000000000000 = .ok (.eraseBlock 1) := by
  decide

theorem witness_StepRunsDecoded :
    (let s := State.reset.withFetchWord 8 0x7
     s.port.resetPin = false ∧ s.port.uword = some 0x7 ∧ decode .micro 0x7 = .ok .wdtStop) ∧
    (let s := benchCmds [0x2000000010000000000000000]
     s.port.resetPin = false ∧ s.port.uword = none ∧ s.ready = true ∧ s.port.cmds = [0x2000000010000000000000000] ∧
      decode .command 0x2000000010000000000000000 = .ok (.eraseBlock 1)) ∧
    inErasePulse.port.resetPin = false ∧ inErasePulse.port.uword = none ∧ inErasePulse.act = some (.wait 5) := by decide

theorem witness_CommandRunIsOperation :
    bench.ready = true ∧ bench.port.uword = none ∧ bench.port.resetPin = false := by decide

theorem witness_OneEventPerStep : inErasePulse.port.resetPin = false ∧ inErasePulse.port.uword = none ∧
    ∃ t, step inErasePulse = .next t := ⟨by decide, by decide, exists_next (by decide +kernel)⟩

theorem witness_CommandPortHandshake_busy : inErasePulse.port.resetPin = false ∧ inErasePulse.port.uword = none ∧
    inErasePulse.cmdReady = false ∧ ∃ t, step inErasePulse = .next t :=
  ⟨by decide, by decide, by decide, exists_next (by decide +kernel)⟩

theorem witness_CommandPortHandshake_idle : bench.port.resetPin = false ∧ bench.port.uword = none ∧
    bench.cmdReady = true ∧ bench.port.cmds = [] ∧ ∃ t, step bench = .next t :=
  ⟨by decide, by decide, by decide, by decide, exists_next (by decide)⟩

theorem witness_CommandPortHandshake_accept : (benchCmds [0x3000000400000100000000020]).cmdReady = true ∧
    (∃ t, step (benchCmds [0x2000000010000000000000000]) = .next t) ∧
    ∃ t, step (benchCmds [0x3000000400000100000000020]) = .next t :=
  ⟨by decide, exists_next (by decide), exists_next (by decide)⟩

theorem witness_TransitionsAllowed : (inValidate .eraseBlock).port.resetPin = false ∧
    (inValidate .eraseBlock).port.uword = none ∧ ∃ t, step (inValidate .eraseBlock) = .next t :=
  ⟨by decide, by decide, exists_next (by decide)⟩

theorem witness_InvAtReset : tp32.wf = true ∧ benchEnv.wf = true := by decide

theorem witness_StepKeepsInv : inErasePulse.Inv = true ∧ inErasePulse.addressesWf = true ∧
    inErasePulse.profile.guardWf = true ∧ (∃ t, step inErasePulse = .next t) ∧
    inProgramPulse.Inv = true ∧ inProgramPulse.addressesWf = true ∧ ∃ t, step inProgramPulse = .next t :=
  ⟨by decide, by decide, by decide, exists_next (by decide +kernel), by decide, by decide,
    exists_next (by decide +kernel)⟩

/-- `StepKeepsAddresses` and `StepNeverFaults`: inside a pulse, and in a verify word between its probe and its delay. -/
theorem witness_StepKeepsAddresses_StepNeverFaults : inProgramPulse.Inv = true ∧ inProgramPulse.addressesWf = true ∧
    inProgramPulse.profile.guardWf = true ∧ (∃ t, step inProgramPulse = .next t) ∧ inEraseScan.Inv = true ∧
    inEraseScan.addressesWf = true ∧ ∃ t, step inEraseScan = .next t :=
  ⟨by decide, by decide, by decide, exists_next (by decide +kernel), by decide, by decide,
    exists_next (by decide +kernel)⟩

theorem witness_PulseMomentIsSafe : inErasePulse.Inv = true ∧ inErasePulse.bit .b0 .e = true ∧
    inErasePulse.seq.seg.selectedBlock = true ∧ inErasePulse.port.resetPin = false ∧
    (∃ t, step inErasePulse = .next t) ∧ inProgramPulse.Inv = true ∧ inProgramPulse.bit .b0 .p = true ∧
    inProgramPulse.port.resetPin = false ∧ ∃ t, step inProgramPulse = .next t :=
  ⟨by decide, by decide, by decide, by decide, exists_next (by decide +kernel), by decide, by decide, by decide,
    exists_next (by decide +kernel)⟩

theorem witness_ControlBitsLegal : inErasePulse.Inv = true := by decide

theorem witness_SystemResetResult : (inErasePulse.bit .b0 .e || inErasePulse.bit .b1 .e) = true ∧
    (∀ i < tp32.blockCount, inErasePulse.selected i = true → tp32.inBlock i 0x3F = false) ∧
    (inErasePulse.bit .b0 .p || inErasePulse.bit .b1 .p) = false ∧
    (inProgramPulse.bit .b0 .p || inProgramPulse.bit .b1 .p) = true ∧ inProgramPulse.env.latch.find 0x41 = none ∧
    { bench with port := { bench.port with resetPin := true } }.port.resetPin = true := by decide

/-- R143 at its boundaries: 4 × 475 + 100 = 2000, the interval of divisor 1, where the strike is a free choice, so each of
its two outcomes is shown under the choice that makes it; 4 × 500 = 2000, where it is certain; and the intervals that the
floors of TP32's two pulses just reach: 4 × (3 + 5 + 6 + 4) and 4 × (10 + 12 + 15 + 11). -/
theorem witness_WatchdogFaultIsReset : (watched 470).wdt.run = true ∧ (watched 470).wdt.rste = true ∧
    tp32.wdtIntervals.lookup 1 = some 2000 ∧
    tp32.wdtInterval 1 = tp32.cycPerIter * (470 + (5 : Word).toNat) + tp32.guardOverheadMax ∧
    isStruck (exec (.waitOp 30) (watched 470)) = true ∧
    (let p := { tp32 with wdtIntervals := [(0, 192), (1, 72)] }
     p.wf = true ∧ p.wdtIntervals.lookup p.wdtDivErase = some 72 ∧
      72 = p.cycPerIter * (p.delays.esuSetup.toNat + p.delays.ePulse.toNat + p.delays.eHold.toNat +
        p.delays.esuHold.toNat) ∧
      p.wdtIntervals.lookup p.wdtDivProgram = some 192 ∧
      192 = p.cycPerIter * (p.delays.psuSetup.toNat + (12 : Word).toNat + p.delays.pHold.toNat +
        p.delays.psuHold.toNat)) ∧
    (Config.freeOverflow 1 = true → isStruck (exec (.waitOp 5) (watched 470)) = true) ∧
    (Config.freeOverflow 1 = false → ∃ t, exec (.waitOp 5) (watched 470) = .next t) := by
  have ha : ((watched 470).wait 5).overflowAdmitted = true := by decide
  have he : exec (.waitOp 5) (watched 470) = settle ((watched 470).wait 5) := rfl
  have ho : ((watched 470).wait 5).overflows = Config.freeOverflow 1 := by
    rw [State.overflows, ha, Bool.true_and]
    rfl
  refine ⟨rfl, rfl, by decide, by decide, by decide, by decide, fun h => ?_, fun h => ⟨(watched 470).wait 5, ?_⟩⟩
  · rw [he, settle, ho, h]
    rfl
  · rw [he]
    exact settle_eq_next.2 ⟨by rw [ho, h], rfl⟩

theorem witness_GateCommandResults : bench.ready = true ∧ bench.calm = true := by decide

theorem witness_GateLifecycle : (∃ t, exec .init bench = .next t) ∧ (∃ t, exec .unprotect bench = .next t) ∧
    (∃ t, exec (.eraseBlock 3) bench = .next t) ∧ (∃ t, exec .systemReset bench = .next t) ∧
    ∃ t, step (inValidate .init) = .next t ∧ t.armed ≠ (inValidate .init).armed :=
  ⟨exists_next (by decide), exists_next (by decide), exists_next (by decide), ⟨_, rfl⟩, _, rfl, by decide⟩

theorem witness_DisarmedCommandsDoNothing :
    { bench with armed := false }.ready = true ∧ { bench with armed := false }.armed = false := by decide

theorem witness_BadBlockStatus : bench.ready = true ∧ bench.profile.blockCount ≤ (3 : Word).toNat := by decide

theorem witness_RangeArgumentStatuses : bench.ready = true ∧ bench.profile.flashMax < 0x100 ∧
    (0xFF ≤ bench.profile.flashMax ∧ (0xFF : Word).toNat % bench.profile.pageBytes ≠ 0) ∧
    (0xE0 ≤ bench.profile.flashMax ∧ (0xE0 : Word).toNat % bench.profile.pageBytes = 0 ∧
      (33 : Word).toNat % bench.profile.pageBytes ≠ 0) := by decide

theorem witness_ValidateRangeResult : bench.profile.wf = true ∧ bench.profile.flashMax < 0x100 ∧
    (0xFF : Word) = bench.profile.flashMax ∧ (0xFF : Word).toNat % bench.profile.pageBytes ≠ 0 ∧
    (0xE0 : Word) ≤ bench.profile.flashMax ∧ (0xE0 : Word).toNat % bench.profile.pageBytes = 0 ∧
    (1 : Word).toNat % bench.profile.pageBytes ≠ 0 ∧ (0 : Word).toNat % bench.profile.pageBytes = 0 := by decide

theorem witness_ResolveResults : (2 : Word).toNat < bench.profile.blockCount ∧
    bench.profile.blockCount ≤ (3 : Word).toNat := by decide

theorem witness_SelectBlockResult : (2 : Word).toNat < bench.profile.blockCount ∧ bench.calm = true ∧
    bench.profile.wf = true := by decide

theorem witness_PagesAndBlocksInOneBank : tp32.wf = true ∧ 2 < tp32.blockCount ∧
    tp32.inBlock 2 (0xFF : Word).toNat = true ∧ (0xE0 : Word) ≤ tp32.flashMax ∧
    (0xE0 : Word).toNat % tp32.pageBytes = 0 ∧ tp32.inBlock 2 (0xE0 : Word).toNat = true := by decide

theorem witness_DelayCountIsCeiling : 0 < tp32.cycPerIter ∧ 0 < tp32.cycPerUsDen ∧
    3 * tp32.cycPerUsNum ≤ 30 * (tp32.cycPerUsDen * tp32.cycPerIter) ∧ tp32.wf = true := by decide

/-- `RegReadResult`, `RegWriteResult`, `SourceReadResults`, `InterruptMaskResults`, `PrecondResult`: a calm state, the
watchdog stopped and the watchdog running below its interval. -/
theorem witness_RegReadResult : bench.calm = true ∧ (watched 474).calm = true ∧ (watched 475).calm = false := by decide

theorem witness_RegWriteResult : inErasePulse.calm = true ∧ inErasePulse.falls .b0 0x62 .e = false ∧
    inErasePulse.falls .b0 0x62 .p = false := by decide

theorem witness_PulseEndInFlash_erase : inErasePulse.env.wf = true ∧ inErasePulse.env.mode = .reference ∧
    inErasePulse.falls .b0 0x60 .e = true ∧ inErasePulse.falls .b0 0x60 .p = false ∧
    (∃ i < inErasePulse.profile.blockCount, inErasePulse.selected i = true ∧ inErasePulse.profile.inBlock i 0x7F = true) ∧
    (∀ i < inErasePulse.profile.blockCount, inErasePulse.selected i = true → inErasePulse.profile.inBlock i 0x80 = false) ∧
    ∃ t, exec (.regWrite (.fcr .b0) 0x60) inErasePulse = .next t :=
  ⟨by decide, by decide, by decide, by decide, by decide, by decide, exists_next (by decide +kernel)⟩

theorem witness_PulseEndInFlash_program : inProgramPulse.env.wf = true ∧ inProgramPulse.env.mode = .reference ∧
    inProgramPulse.falls .b0 0x50 .p = true ∧ inProgramPulse.falls .b0 0x50 .e = false ∧
    inProgramPulse.env.latch.find 0x40 = some 0x01 ∧ inProgramPulse.env.latch.find 0x41 = none ∧
    ∃ t, exec (.regWrite (.fcr .b0) 0x50) inProgramPulse = .next t :=
  ⟨by decide, by decide, by decide, by decide, by decide, by decide, exists_next (by decide +kernel)⟩

/-- `BitSetResult`, `BitClrResult`: a calm state, a layout of eight distinct bits; a pulse bit set and one clear; a cell
of a selected block and one outside, a latched cell and one that is not. -/
theorem witness_BitClrResult : inErasePulse.calm = true ∧ inErasePulse.profile.regLayout.wf = true ∧
    inErasePulse.bit .b0 .e = true ∧ inErasePulse.bit .b0 .p = false ∧ inErasePulse.env.wf = true ∧
    inErasePulse.env.mode = .reference ∧
    (∃ i < inErasePulse.profile.blockCount, inErasePulse.selected i = true ∧ inErasePulse.profile.inBlock i 0x40 = true) ∧
    (∀ i < inErasePulse.profile.blockCount, inErasePulse.selected i = true → inErasePulse.profile.inBlock i 0x3F = false) ∧
    inProgramPulse.calm = true ∧ inProgramPulse.bit .b0 .p = true ∧ inProgramPulse.env.wf = true ∧
    inProgramPulse.env.latch.find 0x40 = some 0x01 ∧ inProgramPulse.env.latch.find 0x3F = none := by decide

theorem witness_FlashWriteResults : bench.calm = true ∧ (0xFF : Word) ≤ bench.profile.flashMax ∧
    (0xFC : Word).toNat % 4 = 0 ∧ (0xFC : Word).toNat + 3 ≤ bench.profile.flashMax.toNat := by decide

/-- The last word of block 1, armed, with exactly the read delay waited: in erase-verify mode on the reference flash; in
program-verify mode under the oracle, scripted and not; and with one iteration too few. -/
theorem witness_FlashReadResult :
    (let s := probed 0x48 8
     s.calm = true ∧ (0x7C : Word).toNat % 4 = 0 ∧ (0x7C : Word).toNat + 3 ≤ s.profile.flashMax.toNat ∧
      s.env.view.probedAt 0x7C = some 3 ∧ s.env.view.waited = 11 ∧ s.bit (s.profile.bankOf 0x7C) .ev = true ∧
      s.bit (s.profile.bankOf 0x7C) .pv = false ∧ s.profile.delays.evRead.toNat = 8 ∧ s.env.mode = .reference) ∧
    (let s := probed 0x44 17
     s.bit (s.profile.bankOf 0x7C) .pv = true ∧ s.bit (s.profile.bankOf 0x7C) .ev = false ∧
      s.profile.delays.pvRead.toNat = 17 ∧ s.env.answers.held = none ∧ s.env.answers.queue = [] ∧
      (∀ i < 4, s.env.view.covers ((0x7C : Word).toNat + i) = true)) ∧
    { (probed 0x44 17).env with mode := .oracle, answers := { queue := [5], held := none } }.wf = true ∧
    (probed 0x48 7).meaningful 0x7C = false := by
  decide

/-- The hypothesis of `WaitResult` at the largest count the running watchdog allows. -/
theorem witness_WaitResult : (watched 470).wdt.run = true ∧ (watched 470).wdt.rste = true ∧
    tp32.cycPerIter * (470 + (4 : Word).toNat) + tp32.guardOverheadMax < tp32.wdtInterval 1 := by decide

theorem witness_WatchdogResults : bench.profile.guardOverheadMax < bench.profile.wdtInterval 0 := by decide

theorem witness_ScopedGuardCompletes :
    bench.fits (guardedActs 0 [.irqMask, .latch 31, .probe, .wait 224, .irqRestore]) = true ∧
    bench.fits (guardedActs 0 [.wait 225]) = false := by decide

theorem witness_ErasePulseResult : bench.profile.regLayout.wf = true ∧
    bench.profile.eraseBodyCycles < bench.profile.wdtInterval bench.profile.wdtDivErase := by decide

/-- The widest program pulse TP32's interval allows: 4 × (10 + 188 + 15 + 11) + 100 < 1000. -/
theorem witness_ProgramPulseResult : bench.profile.regLayout.wf = true ∧
    bench.profile.cycPerIter * (bench.profile.delays.psuSetup.toNat + (188 : Word).toNat +
      bench.profile.delays.pHold.toNat + bench.profile.delays.psuHold.toNat) + bench.profile.guardOverheadMax <
      bench.profile.wdtInterval bench.profile.wdtDivProgram := by decide

/-- The whole flash space, up to its last word, and an empty range; a word of bank 0 read in bank 0's erase-verify mode. -/
theorem witness_EraseVerifyResult : bench.profile.regLayout.wf = true ∧ bench.wdt.run = false ∧
    (0 : Word).toNat % 4 = 0 ∧
    (0 : Word).toNat + 4 * (((0x100 : Word).toNat - (0 : Word).toNat + 3) / 4) ≤ bench.profile.flashMax.toNat + 1 ∧
    (0x80 : Word).toNat + 4 * (((0x40 : Word).toNat - (0x80 : Word).toNat + 3) / 4) ≤ bench.profile.flashMax.toNat + 1 ∧
    bench.bit .b0 .pv = false ∧ bench.env.wf = true ∧ bench.profile.bankOf 0x7C = .b0 ∧
    (nextOf (exec (.eraseVerify .b0 0x7C 0x80) bench)).map (fun t => (wordsRead t.trace).map Prod.fst) = some [0x7C] :=
  ⟨by decide, by decide, by decide, by decide, by decide, by decide, by decide, by decide, by decide +kernel⟩

/-- The last word of the last page, in program-verify mode. -/
theorem witness_VerifyWordResult :
    (let s := { bench with ctx := { bench.ctx with pgDest := 0xE0 }, regs := { bench.regs with fcr1 := 0x44 } }
     7 < s.profile.pageWords ∧ s.wdt.run = false ∧ (offset s.ctx.pgDest (4 * 7)).toNat % 4 = 0 ∧
      (offset s.ctx.pgDest (4 * 7)).toNat + 3 ≤ s.profile.flashMax.toNat ∧
      s.ctx.rbuf.length = s.profile.pageBytes ∧ s.ctx.obuf.length = s.profile.obufBytes ∧
      s.bit (s.profile.bankOf (offset s.ctx.pgDest (4 * 7))) .pv = true ∧
      s.bit (s.profile.bankOf (offset s.ctx.pgDest (4 * 7))) .ev = false ∧ s.env.wf = true) := by decide

/-- The bench with `FWE` at 0: the precondition is false. -/
def notEnabled : State := { bench with env := { benchEnv with fwe := { queue := [], held := some false } } }

theorem witness_EraseBlockCompletes : bench.ready = true ∧ bench.profile.guardWf = true ∧ bench.wdt.run = false ∧
    bench.locked = true ∧ notEnabled.ready = true ∧ notEnabled.calm = true ∧ notEnabled.armed = true ∧
    (2 : Word).toNat < notEnabled.profile.blockCount ∧ notEnabled.precondNow = false := by decide

theorem witness_WritePageCompletes : bench.profile.wf = true ∧ bench.profile.guardWf = true ∧ bench.wdt.run = false ∧
    bench.locked = true ∧ (0xE0 : Word) ≤ bench.profile.flashMax ∧ (0xE0 : Word).toNat % bench.profile.pageBytes = 0 ∧
    notEnabled.calm = true ∧ (0xFF : Word) ≤ notEnabled.profile.flashMax ∧ notEnabled.precondNow = false := by
  decide

/-- The range that ends with the flash space; and an empty range, where the page loop makes no step. -/
theorem witness_PageLoopCompletes :
    (let s := { bench with opr := { index := 0, dest := 0x60, src := 0x1000, len := 0 } }
     s.profile.wf = true ∧ s.opr.len = 0) ∧
    (let s := { bench with opr := { index := 0, dest := 0x60, src := 0x1000, len := 0xA0 } }
     s.profile.wf = true ∧ s.opr.len ≠ 0 ∧ s.profile.guardWf = true ∧ s.wdt.run = false ∧ s.locked = true ∧
      s.profile.rangeFits s.opr.dest s.opr.len = true) := by decide

theorem witness_WriteRangeCompletes : bench.ready = true ∧ bench.profile.guardWf = true ∧ bench.wdt.run = false ∧
    bench.locked = true ∧ bench.profile.rangeFits 0x60 0xA0 = true ∧ bench.profile.rangeFits 0xE0 0 = true ∧
    { bench with armed := false }.armed = false ∧ bench.profile.flashMax < 0x100 ∧
    (0xFF : Word).toNat % bench.profile.pageBytes ≠ 0 ∧ (33 : Word).toNat % bench.profile.pageBytes ≠ 0 := by decide

theorem witness_GuardStopsTwicePerStart : (Instr.eraseBlock 1).isCommand = true ∧
    ∃ t, exec (.eraseBlock 1) bench = .next t := ⟨by decide, exists_next (by decide +kernel)⟩

theorem witness_EraseEventCount : bench.armed = true ∧ (1 : Word).toNat < bench.profile.blockCount ∧
    bench.precondNow = true ∧ ∃ t, exec (.eraseBlock 1) bench = .next t :=
  ⟨by decide, by decide, by decide, exists_next (by decide +kernel)⟩

theorem exists_next_with {r : Res} {p : State → Bool} (h : (nextOf r).any p = true) : ∃ t, r = .next t ∧ p t = true := by
  cases r with
  | next t => exact ⟨t, rfl, by simpa [nextOf] using h⟩
  | fault e => simp [nextOf] at h
  | refused e => simp [nextOf] at h

theorem witness_PageEventCount : bench.precondNow = true ∧
    (∃ t, exec (.writePage 0x40 0x1000) bench = .next t ∧ decide (t.loc.result = .ok) = true) ∧
    (benchOf zeroBudget).precondNow = true ∧
    (∃ t, exec (.writePage 0x40 0x1000) (benchOf zeroBudget) = .next t ∧
      decide (t.loc.result = .writeMaxRetries) = true) ∧
    bench.ctx.rbuf.length = bench.profile.pageBytes ∧ bench.ctx.obuf.length = bench.profile.obufBytes :=
  ⟨by decide, exists_next_with (by decide +kernel), by decide, exists_next_with (by decide +kernel), by decide,
    by decide⟩

theorem witness_EraseTouchesOnlyItsBlock : (∃ t, exec (.eraseBlock 1) bench = .next t) ∧
    bench.profile.inBlock (1 : Word).toNat 0x3F = false ∧ bench.profile.inBlock (1 : Word).toNat 0x80 = false :=
  ⟨exists_next (by decide +kernel), by decide, by decide⟩

theorem witness_WriteTouchesOnlyItsRange : bench.profile.wf = true ∧
    { benchEnv with latch := [(0x10, 0)] }.latch.find 0x3F = none ∧
    { benchEnv with latch := [(0x10, 0)] }.latch.find 0x60 = none ∧ bench.env.latch.find 0x60 = none ∧
    (∃ t, exec (.writeRange 0x40 0x1000 32) bench = .next t) ∧ (∃ t, exec (.writePage 0x40 0x1000) bench = .next t) ∧
    0x3F < (0x40 : Word).toNat ∧ (0x40 : Word).toNat + bench.profile.pageBytes ≤ 0x60 :=
  ⟨by decide, by decide, by decide, by decide, exists_next (by decide +kernel), exists_next (by decide +kernel),
    by decide, by decide⟩

theorem witness_WriteConvergesWhenErased : bench.profile.wf = true ∧ bench.profile.guardWf = true ∧
    bench.profile.maxWriteRetries ≠ 0 ∧ bench.env.mode = .reference ∧ bench.env.wf = true ∧ bench.env.latch = [] ∧
    bench.wdt.run = false ∧ bench.locked = true ∧ bench.precondNow = true ∧
    bench.ctx.rbuf.length = bench.profile.pageBytes ∧ bench.ctx.obuf.length = bench.profile.obufBytes ∧
    (0xE0 : Word) ≤ bench.profile.flashMax ∧ (0xE0 : Word).toNat % bench.profile.pageBytes = 0 ∧
    ∀ i < bench.profile.pageBytes, bench.env.cells.read ((0xE0 : Word).toNat + i) = 0xFF := by decide

theorem witness_WriteRangeStoresTheSource : bench.ready = true ∧ bench.profile.guardWf = true ∧
    bench.profile.maxWriteRetries ≠ 0 ∧ bench.env.mode = .reference ∧ bench.env.wf = true ∧ bench.env.latch = [] ∧
    bench.wdt.run = false ∧ bench.locked = true ∧ bench.armed = true ∧
    bench.env.fwe = { queue := [], held := some true } ∧ bench.env.fler = { queue := [], held := some false } ∧
    bench.ctx.rbuf.length = bench.profile.pageBytes ∧ bench.ctx.obuf.length = bench.profile.obufBytes ∧
    bench.profile.rangeFits 0xC0 0x40 = true ∧
    ∀ i < (0x40 : Word).toNat, bench.env.cells.read ((0xC0 : Word).toNat + i) = 0xFF := by decide

theorem witness_EraseSucceedsOnReference : bench.ready = true ∧ bench.profile.guardWf = true ∧
    bench.profile.maxEraseRetries ≠ 0 ∧ bench.env.mode = .reference ∧ bench.env.wf = true ∧ bench.wdt.run = false ∧
    bench.locked = true ∧ bench.armed = true ∧ (2 : Word).toNat < bench.profile.blockCount ∧
    bench.precondNow = true := by decide

theorem witness_ZeroBudgets :
    (let s := benchOf zeroBudget
     s.ready = true ∧ s.wdt.run = false ∧ s.locked = true ∧ s.precondNow = true ∧ s.armed = true ∧
      s.profile.maxEraseRetries = 0 ∧ (2 : Word).toNat < s.profile.blockCount ∧ s.profile.maxWriteRetries = 0 ∧
      (0xE0 : Word) ≤ s.profile.flashMax) := by decide

theorem witness_StopsByName : (Instr.init).isCommand = true ∧ inErasePulse.cmdReady = false ∧ bench.cmdReady = true ∧
    (benchOf { tp32 with bankSplit := 1 }).cmdReady = true ∧ { tp32 with bankSplit := 1 }.wf = false ∧
    bench.profile.flashMax < 0x100 ∧ bench.profile.blockCount ≤ (3 : Word).toNat ∧ bench.profile.pageWords ≤ 8 ∧
    (0xFE : Word).toNat % 4 ≠ 0 ∧ (0x100 : Word).toNat % 4 = 0 ∧
    bench.profile.flashMax.toNat < (0x100 : Word).toNat + 3 := by decide

theorem witness_EveryInstructionFrame : (∃ t, exec (.bitSet .b0 .swe) bench = .next t) ∧ bench.env.wf = true :=
  ⟨exists_next (by decide), by decide⟩

theorem witness_CellsChangeOnlyByPulses : (∃ t, exec (.bitSet .b0 .swe) bench = .next t) ∧
    bench.profile.regLayout.wf = true ∧ bench.env.mode = .reference ∧ ∃ t, exec .wdtStop State.reset = .next t :=
  ⟨exists_next (by decide), by decide, by decide, exists_next (by decide)⟩

end Sys2Proof.Tests
end

section
/-! The frame of every instruction: what a chain of micro-operations and quiet moves keeps of the profile, the
environment and the trace. -/

namespace Sys2Proof.Machine

theorem env_wf_iff {e : Env} :
    e.wf = true ↔ e.cells.wf = true ∧ e.source.wf = true ∧ e.latch.rising = true := by
  simp [Env.wf, and_assoc]

theorem envAfterFcr_wf (s : State) (k : Bank) (v : Byte) (h : s.env.wf = true) : (s.envAfterFcr k v).wf = true := by
  obtain ⟨hc, hs, hl⟩ := env_wf_iff.1 h
  refine env_wf_iff.2 ⟨wf_programEnd s k v (wf_eraseEnd s k v hc), hs, ?_⟩
  simp only [State.envAfterFcr]
  split
  · rfl
  · exact hl

theorem envAfterReadBack_wf (s : State) (a : Word) (h : s.env.wf = true) : (s.envAfterReadBack a).wf = true := by
  obtain ⟨hc, hs, hl⟩ := env_wf_iff.1 h
  rcases envAfterReadBack_cases s a with ⟨-, he⟩ | ⟨-, -, he⟩
  · rwa [he]
  · rw [he]
    exact env_wf_iff.2 ⟨Memory.wf_writeWord hc _ _, hs, hl⟩

/-- Canonical memories stay canonical under every micro-operation. -/
theorem after_env_wf (u : MicroOp) (s : State) (h : s.env.wf = true) : (u.after s).env.wf = true := by
  obtain ⟨hc, hs, hl⟩ := env_wf_iff.1 h
  cases u with
  | regRead r => rcases r with (k | k) <;> cases k <;> exact h
  | regWrite r v =>
    cases r with
    | fcr k => exact envAfterFcr_wf s k v h
    | ebr k => exact h
  | flashWrite8 a v =>
    simp only [MicroOp.after, flashWrite8_fields]
    split
    · exact env_wf_iff.2 ⟨hc, hs, Memory.rising_insert hl _ _⟩
    · exact h
  | flashWrite32 a v =>
    simp only [MicroOp.after, flashWrite32_fields, State.envAfterProbe]
    split <;> exact h
  | flashRead32 a => exact envAfterReadBack_wf s a h
  | srcRead8 _ | wait _ | wdtStop | wdtStart _ | irqMask | irqRestore => exact h

/-- What every operation but a reset keeps: the profile, the source and the mode of the environment, canonical memories,
and the trace so far, to which it appends one event a moment (R47; log 32). -/
structure Framed (s t : State) : Prop where
  profile : t.profile = s.profile
  source : t.env.source = s.env.source
  mode : t.env.mode = s.env.mode
  wf : s.env.wf = true → t.env.wf = true
  trace : ∃ es, t.trace = s.trace ++ es ∧ t.moment = s.moment + es.length

theorem Framed.trans {s t u : State} (h : Framed s t) (g : Framed t u) : Framed s u := by
  obtain ⟨es, ht, hm⟩ := h.trace
  obtain ⟨fs, hu, hn⟩ := g.trace
  refine ⟨g.profile.trans h.profile, g.source.trans h.source, g.mode.trans h.mode, fun hw => g.wf (h.wf hw),
    es ++ fs, by simp [hu, ht], ?_⟩
  rw [hn, hm, List.length_append, Nat.add_assoc]

theorem framed_after (u : MicroOp) (s : State) : Framed s (u.after s) := by
  obtain ⟨hp, -, -, -, -, -, ht, hm, hs, hd⟩ := after_fields u s
  exact ⟨hp, hs, hd, after_env_wf u s, [u.event s], ht, hm⟩

/-- A state with the same profile, environment, trace and moment is framed. -/
theorem framed_of_eq {s t : State} (hp : t.profile = s.profile) (he : t.env = s.env) (ht : t.trace = s.trace)
    (hm : t.moment = s.moment) : Framed s t :=
  ⟨hp, by rw [he], by rw [he], by rw [he]; exact id, [], by simp [ht], by simp [hm]⟩

theorem framed_chained : Chained Framed :=
  ⟨Framed.trans, framed_after, fun q => framed_of_eq q.profile q.env q.trace q.moment⟩

theorem exec_framed {i : Instr} (hi : i ≠ .systemReset) {s t : State} (h : exec i s = .next t) : Framed s t :=
  exec_chained framed_chained (fun _ _ => framed_of_eq rfl rfl rfl rfl) hi h

/-- A reset empties the latch and keeps canonical memories canonical (R260, R261). -/
theorem systemReset_env_wf (s : State) (h : s.env.wf = true) : s.systemReset.env.wf = true := by
  obtain ⟨hc, hs, -⟩ := env_wf_iff.1 h
  exact env_wf_iff.2 ⟨wf_cellsAfterReset s hc, hs, rfl⟩

/-- Settles O59: every instruction but the reset is a chain of micro-operations and quiet moves, each of which is
framed; the reset keeps the profile, the source and the mode by its definition. -/
theorem everyInstructionFrame : Obligations.EveryInstructionFrame := by
  intro i s t h
  by_cases hi : i = .systemReset
  · subst hi
    obtain rfl : s.systemReset = t := Host.Outcome.next.inj h
    exact ⟨rfl, rfl, rfl, systemReset_env_wf s, fun hne => absurd rfl hne⟩
  · have hf := exec_framed hi h
    exact ⟨hf.profile, hf.source, hf.mode, hf.wf, fun _ => hf.trace⟩

end Sys2Proof.Machine
end

section
/-! The sequencer run against the meanings of the procedures. A run of the sequencer from stretch `g` is stated from
`s.goto g`, with `s` the state the procedure stands at: the two differ in the sequencer's place only, and no access
depends on it. -/

namespace Sys2Proof.Machine

/-! ### What an outcome comes to -/

/-- Some number of steps of the core, from the next state of `r` if it has one, comes to the outcome `r'`. -/
def Lands (r r' : Res) : Prop := ∃ k, andThen r (Host.Core.run Sys2Proof.core k) = r'

theorem run_succ (k : Nat) (s : State) :
    Host.Core.run Sys2Proof.core (k + 1) s = andThen (step s) (Host.Core.run Sys2Proof.core k) := by
  have h : Sys2Proof.core.step s = step s := rfl
  simp only [Host.Core.run, h]
  cases step s <;> rfl

theorem Lands.refl (r : Res) : Lands r r := ⟨0, andThen_next_id r⟩

/-- A step may be made before the rest of the run. -/
theorem Lands.of_step {s : State} {r : Res} (h : Lands (step s) r) : Lands (.next s) r := by
  obtain ⟨k, hk⟩ := h
  exact ⟨k + 1, (run_succ k s).trans hk⟩

/-- Two sequences that begin with one operation agree in its faults and refusals. -/
theorem Lands.bind {r : Res} {f g : State → Res} (h : ∀ t, r = .next t → Lands (f t) (g t)) :
    Lands (andThen r f) (andThen r g) := by
  cases r with
  | next t => exact h t rfl
  | fault e => exact .refl _
  | refused e => exact .refl _

/-! ### The sequencer's place -/

/-- The state with the sequencer before micro-operation `p` of stretch `g`. -/
def State.place (s : State) (g : Seg) (p : Nat) : State := { s with seq := { s.seq with seg := g, pos := p } }

theorem after_place (u : MicroOp) (s : State) (g : Seg) (p : Nat) : u.after (s.place g p) = (u.after s).place g p := by
  cases u with
  | regWrite r v => cases r <;> rfl
  | _ => rfl

theorem settle_place (s : State) (g : Seg) (p : Nat) :
    settle (s.place g p) = andThen (settle s) (fun t => .next (t.place g p)) := by
  show (if s.overflows then _ else _) = _
  unfold settle
  cases s.overflows <;> rfl

/-- An address fault depends on the profile only. -/
theorem micro_congr_of_unreached {u : MicroOp} {s t : State} (hp : t.profile = s.profile)
    (h : u.reaches s.profile = false) : micro u t = micro u s := by
  cases u with
  | flashWrite8 a v =>
    have h : s.profile.hasFlashByte a = false := h
    simp [micro, flashByteAccess, hp, h]
  | flashWrite32 a v | flashRead32 a =>
    have h : a.toNat % 4 = 0 → s.profile.hasFlashWord a = false := by
      simpa [MicroOp.reaches, DeviceProfile.wordReachable] using h
    by_cases ha : a.toNat % 4 = 0 <;> simp [micro, flashWordAccess, hp, ha, h]
  | regRead _ | regWrite _ _ | srcRead8 _ | wait _ | wdtStop | wdtStart _ | irqMask | irqRestore => cases h

/-- No micro-operation depends on the sequencer's place, nor changes it; a watchdog reset forgets it. -/
theorem micro_place (u : MicroOp) (s : State) (g : Seg) (p : Nat) :
    micro u (s.place g p) = andThen (micro u s) (fun t => .next (t.place g p)) := by
  cases h : u.reaches s.profile with
  | true => rw [micro_of_reaches h, micro_of_reaches (s := s.place g p) h, after_place, settle_place]
  | false =>
    have hp : micro u (s.place g p) = micro u s := micro_congr_of_unreached rfl h
    rcases micro_cases u s with ⟨hr, -⟩ | ⟨a, he | he⟩
    · rw [h] at hr; cases hr
    · rw [hp, he]; rfl
    · rw [hp, he]; rfl

theorem perform_place (a : Act) (s : State) (g : Seg) (p : Nat) :
    perform a (s.place g p) = andThen (perform a s) (fun t => .next (t.place g p)) := by
  have hop : a.op (s.place g p) = a.op s := by cases a <;> rfl
  have hst : ∀ t : State, a.store (t.place g p) = (a.store t).place g p := fun t => by cases a <;> rfl
  simp only [perform, hop, micro_place, andThen_assoc, andThen_of_next, hst]

theorem acts_place (g h : Seg) (p : Nat) (s : State) : h.acts (s.place g p) = h.acts s :=
  acts_congr h rfl rfl rfl rfl rfl rfl

/-- The stretches of the two engines and of the gate's precondition: all but `Idle` and `Validate`. -/
def Seg.ofEngine (g : Seg) : Bool := decide (g ≠ .idle ∧ g ≠ .validate)

theorem firstAttempt_place (s : State) (b : Word) (g : Seg) (p : Nat) :
    (s.place g p).firstAttempt b = (s.firstAttempt b).place g p := by
  unfold State.firstAttempt
  split <;> rfl

theorem judgeWord_place (s : State) (j : Nat) (n : Word) (g : Seg) (p : Nat) :
    (s.place g p).judgeWord j n = (s.judgeWord j n).place g p := by
  show (if s.fatalWord then _ else _) = State.place (if s.fatalWord then _ else _) g p
  split <;> rfl

/-- The end of an engine's stretch puts the sequencer in its next place, whatever its place was. -/
theorem finish_place {g : Seg} (hg : g.ofEngine = true) (s : State) (h : Seg) (p : Nat) :
    g.finish (s.place h p) = g.finish s := by
  cases g with
  | idle | validate => cases hg
  | eEnabled | wSwe => simp only [Seg.finish, firstAttempt_place]; rfl
  | pvWord => simp only [Seg.finish, judgeWord_place]; rfl
  | _ => rfl

theorem finish_goto {g : Seg} (hg : g.ofEngine = true) (s : State) (h : Seg) : g.finish (s.goto h) = g.finish s :=
  finish_place hg s h 0

/-! ### What the procedures leave alone between two points of a run -/

/-- The sequencer alone moves the machine: no reset input and no placed word (log 3). -/
def State.undisturbed (s : State) : Prop := s.port.resetPin = false ∧ s.port.uword = none

/-- Two points of one command: the profile, the ports and the operands are the same. -/
structure SameCommand (s t : State) : Prop where
  profile : t.profile = s.profile
  port : t.port = s.port
  opr : t.opr = s.opr

/-- Two points of one attempt: the bank, the block, the source of the page and the number of the attempt are the same
too. -/
structure SameAttempt (s t : State) : Prop extends SameCommand s t where
  bank : t.ctx.bank = s.ctx.bank
  blkStart : t.ctx.blkStart = s.ctx.blkStart
  blkEnd : t.ctx.blkEnd = s.ctx.blkEnd
  pgSrc : t.ctx.pgSrc = s.ctx.pgSrc
  n : t.ctx.n = s.ctx.n

/-- Two points of one stretch: the verify address and the word index are the same too. -/
structure SameStretch (s t : State) : Prop extends SameAttempt s t where
  vaddr : t.ctx.vaddr = s.ctx.vaddr
  j : t.loc.j = s.loc.j

theorem SameAttempt.refl (s : State) : SameAttempt s s := ⟨⟨rfl, rfl, rfl⟩, rfl, rfl, rfl, rfl, rfl⟩

theorem SameCommand.trans {s t u : State} (h : SameCommand s t) (g : SameCommand t u) : SameCommand s u :=
  ⟨g.profile.trans h.profile, g.port.trans h.port, g.opr.trans h.opr⟩

theorem SameAttempt.trans {s t u : State} (h : SameAttempt s t) (g : SameAttempt t u) : SameAttempt s u :=
  ⟨h.toSameCommand.trans g.toSameCommand, g.bank.trans h.bank, g.blkStart.trans h.blkStart, g.blkEnd.trans h.blkEnd,
    g.pgSrc.trans h.pgSrc, g.n.trans h.n⟩

theorem SameCommand.undisturbed {s t : State} (h : SameCommand s t) (hs : s.undisturbed) : t.undisturbed := by
  unfold State.undisturbed
  rw [h.port]
  exact hs

theorem afterActs_j (l : List Act) (s : State) : (afterActs l s).loc.j = s.loc.j := by
  induction l generalizing s with
  | nil => rfl
  | cons a l ih => rw [afterActs_cons, ih, act_after_j]

theorem sameStretch_afterActs (l : List Act) (s : State) : SameStretch s (afterActs l s) := by
  obtain ⟨hp, hq, -, ho, -⟩ := afterActs_fields l s
  have hx := (afterActs_ctx l s).1
  refine ⟨⟨⟨hp, hq, ho⟩, ?_, ?_, ?_, ?_, ?_⟩, ?_, afterActs_j l s⟩ <;> rw [hx]

theorem SameStretch.acts {s t : State} (h : SameStretch s t) (g : Seg) : g.acts t = g.acts s :=
  acts_congr g h.profile (congrArg _ h.opr) h.bank h.n h.pgSrc h.j

theorem sameAttempt_startScan (s : State) (a : Word) : SameAttempt s (s.startScan a) := by
  refine ⟨⟨?_, ?_, ?_⟩, ?_, ?_, ?_, ?_, ?_⟩ <;> simp

theorem sameAttempt_judgeScan (s : State) : SameAttempt s s.judgeScan := by
  refine ⟨⟨?_, ?_, ?_⟩, ?_, ?_, ?_, ?_, ?_⟩ <;> simp

theorem sameAttempt_startWord (s : State) (j : Nat) : SameAttempt s (s.startWord j) := by
  refine ⟨⟨?_, ?_, ?_⟩, ?_, ?_, ?_, ?_, ?_⟩ <;> simp

theorem sameAttempt_judgeWord (s : State) (j : Nat) (n : Word) : SameAttempt s (s.judgeWord j n) := by
  unfold State.judgeWord
  split <;> exact ⟨⟨rfl, rfl, rfl⟩, rfl, rfl, rfl, rfl, rfl⟩

theorem sameCommand_firstAttempt (s : State) (b : Word) : SameCommand s (s.firstAttempt b) := by
  constructor <;> simp

/-! ### A stretch, and stretches that follow each other -/

theorem step_place {s : State} (hs : s.undisturbed) {g : Seg} {p : Nat} {a : Act} (h : (g.acts s)[p]? = some a) :
    step (s.place g p) = andThen (perform a s) (fun t => advance (t.place g p)) := by
  have ha : (s.place g p).act = some a := by
    show (g.acts (s.place g p))[p]? = some a
    rw [acts_place, h]
  rw [step_of_point (s := s.place g p) hs.1 hs.2, runPoint_of_act ha, perform_place, andThen_assoc]
  rfl

/-- A stretch that has no micro-operation ends at once. -/
theorem step_goto_of_no_acts {s : State} (hs : s.undisturbed) {g : Seg} (h : g.acts s = []) :
    step (s.goto g) = g.finish (s.goto g) := by
  have ha : (s.goto g).act = none := by
    show (g.acts (s.place g 0))[0]? = none
    rw [acts_place, h]
    rfl
  rw [step_of_point (s := s.goto g) hs.1 hs.2]
  simp only [runPoint, ha]
  rfl

theorem advance_place {g : Seg} (hg : g.ofEngine = true) (s : State) (p : Nat) :
    advance (s.place g p) = if p + 1 < (g.acts s).length then .next (s.place g (p + 1)) else g.finish s := by
  show (if p + 1 < (g.acts (s.place g p)).length then _ else g.finish (s.place g p)) = _
  rw [acts_place, finish_place hg]
  rfl

/-- One act of a stretch, then the next one or the end of the stretch. -/
theorem lands_act {g : Seg} (hg : g.ofEngine = true) {f : State → Res} {a : Act} {p : Nat} {s : State}
    (hs : s.undisturbed) (ha : (g.acts s)[p]? = some a)
    (hf : Lands (if p + 1 < (g.acts s).length then .next ((a.after s).place g (p + 1)) else g.finish (a.after s))
      (f (a.after s))) :
    Lands (.next (s.place g p)) (andThen (perform a s) f) := by
  refine .of_step ?_
  rw [step_place hs ha]
  refine .bind fun u hu => ?_
  obtain rfl := (perform_eq_next hu).1
  rw [advance_place hg, acts_after]
  exact hf

/-- The rest of a stretch from micro-operation `p` on: its acts one after the other, then its end. -/
theorem lands_rest {g : Seg} (hg : g.ofEngine = true) {f : State → Res} {a : Act} {rest : List Act} {p : Nat}
    {s : State} (hs : s.undisturbed) (hr : (g.acts s).drop p = a :: rest)
    (hf : Lands (g.finish (afterActs (a :: rest) s)) (f (afterActs (a :: rest) s))) :
    Lands (.next (s.place g p)) (andThen (runActs (a :: rest) s) f) := by
  induction rest generalizing a p s with
  | nil =>
    have hlen := congrArg List.length hr
    rw [List.length_drop, List.length_singleton] at hlen
    rw [runActs_cons, andThen_assoc]
    refine lands_act hg hs (by rw [← List.head?_drop, hr]; rfl) ?_
    rw [if_neg (by omega)]
    exact hf
  | cons b rest ih =>
    have hnext : (g.acts s).drop (p + 1) = b :: rest := by rw [← List.drop_drop, hr]; rfl
    have hlen := congrArg List.length hnext
    rw [List.length_drop, List.length_cons] at hlen
    rw [runActs_cons, andThen_assoc]
    refine lands_act hg hs (by rw [← List.head?_drop, hr]; rfl) ?_
    rw [if_pos (by omega)]
    exact ih ((sameStretch_afterActs [a] s).undisturbed hs) (by rw [acts_after, hnext]) hf

/-- A stretch: its acts one after the other, then its end. -/
theorem lands_stretch {g : Seg} (hg : g.ofEngine = true) {f : State → Res} {s : State} (hs : s.undisturbed)
    (hf : ∀ t, SameStretch s t → Lands (g.finish t) (f t)) :
    Lands (.next (s.goto g)) (andThen (runActs (g.acts s) s) f) := by
  have hend := hf _ (sameStretch_afterActs (g.acts s) s)
  cases hl : g.acts s with
  | nil =>
    rw [hl] at hend
    refine .of_step ?_
    rw [step_goto_of_no_acts hs hl, finish_goto hg]
    exact hend
  | cons a l => exact lands_rest hg hs hl (hl ▸ hend)

/-- A stretch of an engine whose end does nothing but move on to stretch `h`. -/
def Precedes (g h : Seg) : Prop := g.ofEngine = true ∧ ∀ s, g.finish s = .next (s.goto h)

/-- Stretches that follow each other are one straight line of acts, up to the end of the last. -/
theorem lands_stretches {g : Seg} {gs : List Seg} (hc : List.IsChain Precedes (g :: gs))
    (hlast : (gs.getLastD g).ofEngine = true) {f : State → Res} {s : State} (hs : s.undisturbed)
    (hf : ∀ t, SameAttempt s t → Lands ((gs.getLastD g).finish t) (f t)) :
    Lands (.next (s.goto g)) (andThen (runActs ((g :: gs).flatMap (fun h => h.acts s)) s) f) := by
  induction gs generalizing g s with
  | nil =>
    rw [List.flatMap_singleton]
    exact lands_stretch hlast hs fun t ht => hf t ht.toSameAttempt
  | cons h gs ih =>
    obtain ⟨⟨hg, hfin⟩, hc⟩ := List.isChain_cons_cons.1 hc
    simp only [List.getLastD_cons] at hlast hf
    rw [List.flatMap_cons, runActs_append, andThen_assoc]
    refine lands_stretch hg hs fun t ht => ?_
    rw [hfin, ← funext ht.acts]
    exact ih hc hlast (ht.undisturbed hs) fun u hu => hf u (ht.toSameAttempt.trans hu)

/-! ### The erase engine (45_flash_erase_engine.md) -/

/-- Success and Failed: `SWE` cleared, its hold time, the response (R170). -/
theorem lands_lockAndRespond {g : Seg} {r : Status} (hg : g.ofEngine = true) {s : State} (hs : s.undisturbed)
    (hacts : g.acts s = lockActs s.profile s.ctx.bank) (hfin : ∀ t, g.finish t = .next (t.respond r)) :
    Lands (.next (s.goto g)) (lockAndRespond r s) := by
  unfold lockAndRespond
  rw [← hacts]
  refine lands_stretch hg hs fun t _ => ?_
  rw [hfin]
  exact .refl _

/-- The scan of the sequencer has no bound but the block's end; that of `exec` has one, which it never meets (R172;
log 31). -/
theorem lands_eraseScan {stop : Word} (hstop : stop.toNat + 4 ≤ 2 ^ 32) {n : Nat} {s : State} (hs : s.undisturbed)
    (hend : s.ctx.blkEnd = stop) (hn : stop.toNat ≤ s.ctx.vaddr.toNat + 4 * n) {f : State → Res}
    (hf : ∀ t, SameAttempt s t → Lands (.next (t.goto .evExit)) (f t)) :
    Lands (.next (scanNext s)) (andThen (eraseScan stop n s) f) := by
  induction n generalizing s with
  | zero =>
    have hge : ¬ s.ctx.vaddr < stop := by rw [BitVec.lt_def]; omega
    simp only [scanNext, State.scanGoesOn, hend, hge]
    exact hf s (.refl s)
  | succ n ih =>
    unfold scanNext
    rw [hend, eraseScan]
    cases hgo : s.scanGoesOn stop with
    | false => exact hf s (.refl s)
    | true =>
      have hlt : s.ctx.vaddr.toNat < stop.toNat := by
        simp only [State.scanGoesOn, Bool.and_eq_true, decide_eq_true_eq] at hgo
        exact hgo.1
      simp only [if_true, andThen_assoc]
      refine lands_stretch (g := .evWord) rfl hs fun t ht => ?_
      have hst := ht.toSameAttempt.trans (sameAttempt_judgeScan t)
      have hv : t.judgeScan.ctx.vaddr.toNat = s.ctx.vaddr.toNat + 4 := by
        show (t.ctx.vaddr + 4).toNat = _
        rw [ht.vaddr, BitVec.toNat_add_of_lt (by simp; omega)]
        rfl
      exact ih (hst.undisturbed hs) (hst.blkEnd.trans hend) (by omega) fun u hu => hf u (hst.trans hu)

/-- One attempt of the erase loop, up to the end of its scan (R170 step 4). -/
theorem lands_eraseAttempt {s : State} (hs : s.undisturbed) (hidx : s.opr.index.toNat < s.profile.blockCount)
    (hend : s.ctx.blkEnd.toNat + 4 ≤ 2 ^ 32) {f : State → Res}
    (hf : ∀ t, SameAttempt s t → Lands (Seg.evExit.finish t) (f t)) :
    Lands (.next (s.goto .eSelect)) (andThen (eraseAttempt s) f) := by
  simp only [eraseAttempt, execSelectBlock, if_neg (Nat.not_le.2 hidx), andThen_assoc]
  refine lands_stretch (g := .eSelect) rfl hs fun t ht => ?_
  replace ht := ht.toSameAttempt
  have hc : List.IsChain Precedes [.eArm, .eArmed, .ePulse, .eSettle] := by
    simp [Precedes, Seg.ofEngine, Seg.finish]
  refine lands_stretches hc rfl (ht.undisturbed hs) fun u hu => ?_
  replace hu := ht.trans hu
  simp only [execEraseVerify, andThen_assoc]
  refine lands_stretch (g := .evEnter) rfl (hu.undisturbed hs) fun v hv => ?_
  have hst := hv.toSameAttempt.trans (sameAttempt_startScan v u.ctx.blkStart)
  show Lands (.next (scanNext (v.startScan v.ctx.blkStart))) _
  rw [hv.blkStart]
  refine lands_eraseScan (by rw [hu.blkEnd]; exact hend) ((hu.trans hst).undisturbed hs) hst.blkEnd ?_ fun w hw => ?_
  · show u.ctx.blkEnd.toNat ≤ u.ctx.blkStart.toNat + 4 * ((u.ctx.blkEnd.toNat - u.ctx.blkStart.toNat + 3) / 4)
    omega
  · replace hw := hst.trans hw
    rw [← hw.bank]
    replace hw := hu.trans hw
    exact lands_stretch (g := .evExit) rfl (hw.undisturbed hs) fun x hx => hf x (hw.trans hx.toSameAttempt)

/-- Between two numbers of a retry counter below its budget nothing wraps. -/
theorem toNat_succ_of_lt {n b : Word} (h : n.toNat < b.toNat) : (n + 1).toNat = n.toNat + 1 := by
  rw [BitVec.toNat_add_of_lt (by simp; omega)]
  rfl

/-- After an attempt: success, another attempt, or the budget used up (R170 steps 4, 5). -/
theorem lands_eraseVerdict {left : Nat} {s : State} (hs : s.undisturbed)
    (hn : s.ctx.n.toNat + left = s.profile.maxEraseRetries.toNat)
    (hretry : left ≠ 0 →
      Lands (.next ((s.setN (s.ctx.n + 1)).goto .eSelect)) (eraseAttempts left (s.setN (s.ctx.n + 1)))) :
    Lands (Seg.evExit.finish s) (if s.loc.flag then lockAndRespond .ok s
      else eraseAttempts left (if left = 0 then s else s.setN (s.ctx.n + 1))) := by
  simp only [Seg.finish, BitVec.lt_def]
  cases s.loc.flag with
  | true => exact lands_lockAndRespond (g := .eDone) rfl hs rfl fun _ => rfl
  | false =>
    by_cases hl : left = 0
    · have hge : ¬ s.ctx.n.toNat < s.profile.maxEraseRetries.toNat := by omega
      simp only [hl, hge, if_false]
      exact lands_lockAndRespond (g := .eFail) rfl hs rfl fun _ => rfl
    · have hlt : s.ctx.n.toNat < s.profile.maxEraseRetries.toNat := by omega
      simp only [hl, hlt, if_true, if_false]
      refine .of_step ?_
      rw [step_goto_of_no_acts hs rfl]
      exact hretry hl

/-- The retry loop: the register `n` of the sequencer against the attempts that `exec` has left (R170 steps 4, 5). -/
theorem lands_eraseAttempts {left : Nat} {s : State} (hs : s.undisturbed)
    (hidx : s.opr.index.toNat < s.profile.blockCount) (hend : s.ctx.blkEnd.toNat + 4 ≤ 2 ^ 32)
    (hn : s.ctx.n.toNat + left = s.profile.maxEraseRetries.toNat) :
    Lands (.next (s.goto .eSelect)) (eraseAttempts (left + 1) s) := by
  induction left generalizing s with
  | zero =>
    refine lands_eraseAttempt hs hidx hend fun t ht => ?_
    exact lands_eraseVerdict (ht.undisturbed hs) (by rw [ht.n, ht.profile, hn]) fun h => absurd rfl h
  | succ left ih =>
    refine lands_eraseAttempt hs hidx hend fun t ht => ?_
    have hn' : t.ctx.n.toNat + (left + 1) = t.profile.maxEraseRetries.toNat := by rw [ht.n, ht.profile, hn]
    refine lands_eraseVerdict (ht.undisturbed hs) hn' fun _ => ih (ht.undisturbed hs) ?_ ?_ ?_
    · simpa [ht.opr, ht.profile] using hidx
    · simpa [ht.blkEnd] using hend
    · have hlt : t.ctx.n.toNat < t.profile.maxEraseRetries.toNat := by omega
      show (t.ctx.n + 1).toNat + left = t.profile.maxEraseRetries.toNat
      rw [toNat_succ_of_lt hlt]
      omega

/-- Steps 3 to 5 of `erase_block` (R170). -/
theorem lands_eraseUnlocked {s : State} (hs : s.undisturbed) (hidx : s.opr.index.toNat < s.profile.blockCount)
    (hend : s.ctx.blkEnd.toNat + 4 ≤ 2 ^ 32) : Lands (.next (s.goto .eSwe)) (eraseUnlocked s) := by
  have hc : List.IsChain Precedes [.eSwe, .eEnabled] := by simp [Precedes, Seg.ofEngine, Seg.finish]
  refine lands_stretches hc rfl hs fun t ht => ?_
  have hf := sameCommand_firstAttempt t t.profile.maxEraseRetries
  have hs' := (ht.toSameCommand.trans hf).undisturbed hs
  show Lands (.next ((t.firstAttempt t.profile.maxEraseRetries).goto
    (if t.profile.maxEraseRetries = 0 then .eFail else .eSelect)))
    (eraseAttempts t.profile.maxEraseRetries.toNat (t.firstAttempt t.profile.maxEraseRetries))
  cases hb : t.profile.maxEraseRetries.toNat with
  | zero =>
    rw [if_pos (BitVec.eq_of_toNat_eq hb)]
    exact lands_lockAndRespond (g := .eFail) rfl hs' rfl fun _ => rfl
  | succ left =>
    have hne : t.profile.maxEraseRetries ≠ 0 := fun h => by simp [h] at hb
    rw [if_neg hne]
    refine lands_eraseAttempts hs' ?_ ?_ ?_
    · simpa [ht.opr, ht.profile] using hidx
    · simpa [ht.blkEnd] using hend
    · simp only [firstAttempt_fields, if_neg hne, hb]
      exact Nat.add_comm 1 left

/-! ### The bounds that a well-formed profile gives (R151) -/

theorem isChain_of_strictlyRising {l : List Word} (h : strictlyRising l = true) : l.IsChain (· < ·) := by
  induction l with
  | nil => exact .nil
  | cons a l ih =>
    cases l with
    | nil => exact .singleton a
    | cons b l =>
      simp only [strictlyRising, Bool.and_eq_true, decide_eq_true_eq] at h
      exact .cons_cons h.1 (ih h.2)

/-- A well-formed table rises to its last entry, which lies one past the flash and a page or more below 2^32. -/
theorem table_of_wf {p : DeviceProfile} (h : p.wf = true) :
    p.table.IsChain (· < ·) ∧ 2 ≤ p.table.length ∧ (p.tableAt p.blockCount).toNat = p.flashMax.toNat + 1 ∧
      (p.tableAt p.blockCount).toNat ≤ 2 ^ 32 - p.pageBytes := by
  simp only [DeviceProfile.wf, DeviceProfile.tableWf, Bool.and_eq_true, decide_eq_true_eq] at h
  obtain ⟨⟨⟨⟨⟨⟨⟨⟨⟨⟨hr, hl⟩, -⟩, hlast⟩, hle⟩, -⟩, -⟩, -⟩, -⟩, -⟩, -⟩ := h
  exact ⟨isChain_of_strictlyRising hr, hl, hlast, hle⟩

theorem pageBytes_cases (p : DeviceProfile) : p.pageBytes = 32 ∨ p.pageBytes = 128 := by
  unfold DeviceProfile.pageBytes
  cases p.page
  · exact .inl rfl
  · exact .inr rfl

/-- Stepping from a page of the flash to the next does not wrap (R162, R164). -/
theorem flashMax_add_page {p : DeviceProfile} (h : p.wf = true) : p.flashMax.toNat + p.pageBytes < 2 ^ 32 := by
  obtain ⟨-, -, hlast, hle⟩ := table_of_wf h
  rcases pageBytes_cases p with hp | hp <;> omega

/-- Stepping over the words of a block does not wrap (R172). -/
theorem tableAt_add_word {p : DeviceProfile} (h : p.wf = true) {i : Nat} (hi : i ≤ p.blockCount) :
    (p.tableAt i).toNat + 4 ≤ 2 ^ 32 := by
  obtain ⟨hr, hl, hlast, hle⟩ := table_of_wf h
  have hc : p.blockCount < p.table.length := by unfold DeviceProfile.blockCount; omega
  have hmono : (p.tableAt i).toNat ≤ (p.tableAt p.blockCount).toNat := by
    unfold DeviceProfile.tableAt
    rw [List.getD_eq_getElem _ _ hc, List.getD_eq_getElem _ _ (Nat.lt_of_le_of_lt hi hc)]
    rcases Nat.lt_or_eq_of_le hi with hlt | rfl
    · exact Nat.le_of_lt (BitVec.lt_def.1 (List.pairwise_iff_getElem.1 (List.isChain_iff_pairwise.1 hr) _ _ _ _ hlt))
    · exact Nat.le_refl _
  rcases pageBytes_cases p with hp | hp <;> omega

theorem resolveBlock_of_lt {s : State} {index : Word} (h : index.toNat < s.profile.blockCount) :
    s.resolveBlock index = (s.loadBlock index).withResult .ok := by
  rw [State.resolveBlock, if_neg (Nat.not_le.2 h)]

/-! ### Acceptance (30_encoding.md R90, R92) -/

theorem idle_of_ready {s : State} (h : s.ready = true) : s.seq.seg = .idle := by
  simp only [State.ready, Bool.and_eq_true, decide_eq_true_eq] at h
  exact h.1

theorem wf_of_ready {s : State} (h : s.ready = true) : s.profile.wf = true := by
  simp only [State.ready, Bool.and_eq_true] at h
  exact h.2

theorem whenReady_of_ready {s : State} (h : s.ready = true) (r : Res) : whenReady s r = r := by
  simp [whenReady, idle_of_ready h, wf_of_ready h]

/-- `Validate` makes no access: from acceptance on, the run goes as its end says. -/
theorem lands_of_validate {s : State} {r : Res} (hs : s.undisturbed) (hv : s.seq.seg = .validate) (hp : s.seq.pos = 0)
    (h : Lands (validateCommand s) r) : Lands (.next s) r := by
  have hg : s.goto .validate = s := by rw [State.goto, ← hv, ← hp]
  refine .of_step ?_
  rw [← hg, step_goto_of_no_acts hs rfl, hg]
  exact h

theorem lands_init {s : State} (hs : s.undisturbed) (hr : s.ready = true) :
    Lands (.next s.acceptInit) (execInit s) := by
  unfold execInit
  rw [whenReady_of_ready hr]
  refine lands_of_validate hs rfl rfl ?_
  simp only [execPrecond, andThen_assoc, andThen_of_next]
  exact lands_stretch (g := .gInit) (s := s.acceptInit.disarm) rfl hs fun _ _ => .refl _

theorem lands_unprotect {s : State} (hs : s.undisturbed) (hr : s.ready = true) :
    Lands (.next s.acceptUnprotect) (execUnprotect s) := by
  unfold execUnprotect
  rw [whenReady_of_ready hr]
  exact lands_of_validate hs rfl rfl (.refl _)

theorem lands_eraseBlock {s : State} (hs : s.undisturbed) (hr : s.ready = true) (index : Word) :
    Lands (.next (s.acceptErase index)) (execEraseBlock index s) := by
  unfold execEraseBlock
  rw [whenReady_of_ready hr]
  refine lands_of_validate hs rfl rfl ?_
  by_cases hidx : s.profile.blockCount ≤ index.toNat
  · simp only [validateCommand, acceptErase_fields, eraseAccepted, if_pos hidx]
    exact .refl _
  cases ha : s.armed with
  | false =>
    simp only [validateCommand, acceptErase_fields, eraseAccepted, if_neg hidx, ha, if_true]
    exact .refl _
  | true =>
    simp only [validateCommand, acceptErase_fields, eraseAccepted, if_neg hidx, ha, Bool.true_eq_false, if_false,
      execPrecond, andThen_assoc, andThen_of_next]
    rw [resolveBlock_of_lt (s := s.acceptErase index) (Nat.not_le.1 hidx)]
    refine lands_stretch (g := .ePre) rfl hs fun t ht => ?_
    simp only [Seg.finish, judgePrecond_fields]
    cases t.precondHolds with
    | false => exact .refl _
    | true =>
      refine lands_eraseUnlocked (ht.undisturbed hs) ?_ ?_
      · simpa [ht.opr, ht.profile] using Nat.not_le.1 hidx
      · simpa [ht.blkEnd] using tableAt_add_word (wf_of_ready hr) (Nat.not_le.1 hidx)

/-! ### The write engine (46_flash_write_engine.md) -/

/-- One verify word: its accesses, its checks, and where the sequencer goes then (R193). -/
theorem lands_verifyWord {j : Nat} {s : State} (hs : s.undisturbed) (hj : j < s.profile.pageWords) {f : State → Res}
    (hf : ∀ t, SameAttempt s t → Lands (if t.loc.result = .programVerifyFatal then .next (t.goto .wFatal)
      else if j + 1 < s.profile.pageWords then .next ((t.startWord (j + 1)).goto .pvWord)
      else .next (t.goto .pvExit)) (f t)) :
    Lands (.next ((s.startWord j).goto .pvWord)) (andThen (execVerifyWord s.ctx.bank j s.ctx.n s) f) := by
  simp only [execVerifyWord, if_neg (Nat.not_le.2 hj), andThen_assoc, andThen_of_next]
  refine lands_stretch (g := .pvWord) (s := s.startWord j) rfl hs fun t ht => ?_
  have hst := (sameAttempt_startWord s j).trans ht.toSameAttempt
  have htj : t.loc.j = j := ht.j
  simp only [Seg.finish, htj, hst.n, hst.profile]
  exact hf _ (hst.trans (sameAttempt_judgeWord t j s.ctx.n))

/-- The verify words of an attempt: word `j` of the sequencer against the words that `exec` has left (R191, R193). -/
theorem lands_verifyWords {left j : Nat} {s : State} (hs : s.undisturbed) (hj : j + left + 1 = s.profile.pageWords)
    {f : State → Res} (hf : ∀ t, SameAttempt s t →
      Lands (.next (t.goto (if t.loc.result = .programVerifyFatal then .wFatal else .pvExit))) (f t)) :
    Lands (.next ((s.startWord j).goto .pvWord)) (andThen (verifyWords (left + 1) j s) f) := by
  induction left generalizing j s with
  | zero =>
    rw [verifyWords, andThen_assoc]
    refine lands_verifyWord hs (by omega) fun t ht => ?_
    have hft := hf t ht
    have hlast : ¬ j + 1 < s.profile.pageWords := by omega
    by_cases hr : t.loc.result = .programVerifyFatal
    · simp only [hr, if_true] at hft ⊢
      exact hft
    · simp only [hr, hlast, if_false] at hft ⊢
      exact hft
  | succ left ih =>
    rw [verifyWords, andThen_assoc]
    refine lands_verifyWord hs (by omega) fun t ht => ?_
    have hmore : j + 1 < s.profile.pageWords := by omega
    by_cases hr : t.loc.result = .programVerifyFatal
    · have hft := hf t ht
      simp only [hr, if_true] at hft ⊢
      exact hft
    · simp only [hr, hmore, if_true, if_false]
      exact ih (ht.undisturbed hs) (by rw [ht.profile]; omega) fun u hu => hf u (ht.trans hu)

/-- Steps 3d and 3e: the end of program-verify, and the overwrite pass of the attempts that have one (R191, R198). -/
theorem lands_finishAttempt {s : State} (hs : s.undisturbed) {f : State → Res}
    (hf : ∀ t, SameAttempt s t → Lands (.next (afterAttempt t)) (f t)) :
    Lands (.next (s.goto .pvExit)) (andThen (finishAttempt s) f) := by
  simp only [finishAttempt, andThen_assoc]
  refine lands_stretch (g := .pvExit) rfl hs fun t ht => ?_
  replace ht := ht.toSameAttempt
  simp only [Seg.finish, overwriteAttempt]
  cases t.profile.overwritePass t.ctx.n with
  | false => exact hf t ht
  | true =>
    simp only [if_true, andThen_assoc]
    refine lands_stretch (g := .oLatch) rfl (ht.undisturbed hs) fun u hu => ?_
    replace hu := ht.trans hu.toSameAttempt
    have hc : List.IsChain Precedes [.oArm, .oPulse, .oSettle] := by simp [Precedes, Seg.ofEngine, Seg.finish]
    exact lands_stretches hc rfl (hu.undisturbed hs) fun v hv => hf v (hu.trans hv)

/-- WSuccess and WFailed: `SWE` cleared, its hold time, the page's status (R191). -/
theorem lands_lockPage {g : Seg} {r : Status} (hg : g.ofEngine = true) {s : State} (hs : s.undisturbed)
    (hacts : g.acts s = lockActs s.profile s.ctx.bank)
    (hfin : ∀ t, g.finish t = .next ((t.withResult r).goto .nextPage)) {f : State → Res}
    (hf : ∀ t, SameCommand s t → Lands (.next (t.goto .nextPage)) (f t)) :
    Lands (.next (s.goto g)) (andThen (lockPage r s) f) := by
  unfold lockPage
  rw [← hacts, andThen_assoc]
  refine lands_stretch hg hs fun t ht => ?_
  rw [hfin]
  exact hf _ ⟨ht.profile, ht.port, ht.opr⟩

theorem andThen_congr {r : Res} {f g : State → Res} (h : ∀ t, r = .next t → f t = g t) :
    andThen r f = andThen r g := by
  cases r with
  | next t => exact h t rfl
  | fault e => rfl
  | refused e => rfl

/-- The fatal path is one straight line: the end of program-verify and the lock (R197, D20). -/
theorem fatalExit_eq (s : State) :
    fatalExit s = andThen (runActs (Seg.wFatal.acts s) s) (fun t => .next (t.withResult .programVerifyFatal)) := by
  show _ = andThen (runActs (pvExitActs s.profile s.ctx.bank ++ lockActs s.profile s.ctx.bank) s) _
  rw [runActs_append, andThen_assoc]
  refine andThen_congr fun t ht => ?_
  obtain rfl := runActs_eq_next ht
  have hst := sameStretch_afterActs (pvExitActs s.profile s.ctx.bank) s
  rw [lockPage, hst.profile, hst.bank]

theorem lands_fatalExit {s : State} (hs : s.undisturbed) {f : State → Res}
    (hf : ∀ t, SameCommand s t → Lands (.next (t.goto .nextPage)) (f t)) :
    Lands (.next (s.goto .wFatal)) (andThen (fatalExit s) f) := by
  rw [fatalExit_eq, andThen_assoc]
  exact lands_stretch (g := .wFatal) rfl hs fun t ht => hf _ ⟨ht.profile, ht.port, ht.opr⟩

/-- After an attempt that was not fatal: success, another attempt, or the budget used up (R191 steps 3f, 4). -/
theorem lands_writeVerdict {left : Nat} {s : State} (hs : s.undisturbed)
    (hn : s.ctx.n.toNat + left = s.profile.maxWriteRetries.toNat) {f : State → Res}
    (hf : ∀ t, SameCommand s t → Lands (.next (t.goto .nextPage)) (f t))
    (hretry : left ≠ 0 → Lands (.next ((s.setN (s.ctx.n + 1)).clearMismatch.goto .wLatch))
      (andThen (writeAttempts left (s.setN (s.ctx.n + 1))) f)) :
    Lands (.next (afterAttempt s)) (andThen (if s.ctx.m then
      writeAttempts left (if left = 0 then s else s.setN (s.ctx.n + 1)) else lockPage .ok s) f) := by
  simp only [afterAttempt, BitVec.lt_def]
  cases s.ctx.m with
  | false => exact lands_lockPage (g := .wDone) rfl hs rfl (fun _ => rfl) hf
  | true =>
    by_cases hl : left = 0
    · have hge : ¬ s.ctx.n.toNat < s.profile.maxWriteRetries.toNat := by omega
      simp only [hl, hge, if_true, if_false]
      exact lands_lockPage (g := .wFail) rfl hs rfl (fun _ => rfl) hf
    · have hlt : s.ctx.n.toNat < s.profile.maxWriteRetries.toNat := by omega
      simp only [hl, hlt, if_true, if_false]
      refine .of_step ?_
      rw [step_goto_of_no_acts hs rfl]
      exact hretry hl

/-- One attempt, up to its verdict: the latch, the pulse, the verify words, and the fatal path or steps 3d and 3e
(R191). -/
theorem lands_writeAttempt {s : State} (hs : s.undisturbed) {f g : State → Res}
    (hf : ∀ t, SameCommand s t → Lands (.next (t.goto .nextPage)) (f t))
    (hg : ∀ t, SameAttempt s t → Lands (.next (afterAttempt t)) (andThen (g t) f)) :
    Lands (.next (s.clearMismatch.goto .wLatch)) (andThen (andThen (programAttempt s.clearMismatch) (fun t =>
      andThen (verifyAttempt t) (fun u =>
        if u.loc.result = .programVerifyFatal then fatalExit u else andThen (finishAttempt u) g))) f) := by
  simp only [programAttempt, verifyAttempt, execProgramPulse, andThen_assoc]
  have hs' : s.clearMismatch.undisturbed := hs
  have h0 : SameAttempt s s.clearMismatch := ⟨⟨rfl, rfl, rfl⟩, rfl, rfl, rfl, rfl, rfl⟩
  refine lands_stretch (g := .wLatch) rfl hs' fun t ht => ?_
  replace ht := h0.trans ht.toSameAttempt
  have hc : List.IsChain Precedes [.wArm, .wPulse, .wSettle] := by simp [Precedes, Seg.ofEngine, Seg.finish]
  refine lands_stretches hc rfl (ht.undisturbed hs) fun u hu => ?_
  replace hu := ht.trans hu
  refine lands_stretch (g := .pvEnter) rfl (hu.undisturbed hs) fun v hv => ?_
  replace hv := hu.trans hv.toSameAttempt
  obtain ⟨left, hleft⟩ : ∃ left, v.profile.pageWords = left + 1 := by
    rcases pageBytes_cases v.profile with hp | hp <;> exact ⟨_, by rw [DeviceProfile.pageWords, hp]⟩
  rw [hleft]
  refine lands_verifyWords (hv.undisturbed hs) (by omega) fun w hw => ?_
  replace hw := hv.trans hw
  by_cases hr : w.loc.result = .programVerifyFatal
  · simp only [hr, if_true]
    exact lands_fatalExit (hw.undisturbed hs) fun x hx => hf x (hw.toSameCommand.trans hx)
  · simp only [hr, if_false, andThen_assoc]
    exact lands_finishAttempt (hw.undisturbed hs) fun x hx => hg x (hw.trans hx)

/-- The retry loop: the register `n` of the sequencer against the attempts that `exec` has left (R191 steps 3, 4). -/
theorem lands_writeAttempts {left : Nat} {s : State} (hs : s.undisturbed)
    (hn : s.ctx.n.toNat + left = s.profile.maxWriteRetries.toNat) {f : State → Res}
    (hf : ∀ t, SameCommand s t → Lands (.next (t.goto .nextPage)) (f t)) :
    Lands (.next (s.clearMismatch.goto .wLatch)) (andThen (writeAttempts (left + 1) s) f) := by
  induction left generalizing s with
  | zero =>
    refine lands_writeAttempt hs hf fun t ht => ?_
    exact lands_writeVerdict (ht.undisturbed hs) (by rw [ht.n, ht.profile, hn])
      (fun u hu => hf u (ht.toSameCommand.trans hu)) fun h => absurd rfl h
  | succ left ih =>
    refine lands_writeAttempt hs hf fun t ht => ?_
    have hn' : t.ctx.n.toNat + (left + 1) = t.profile.maxWriteRetries.toNat := by rw [ht.n, ht.profile, hn]
    have hft : ∀ u, SameCommand t u → Lands (.next (u.goto .nextPage)) (f u) := fun u hu =>
      hf u (ht.toSameCommand.trans hu)
    refine lands_writeVerdict (ht.undisturbed hs) hn' hft fun _ =>
      ih (ht.undisturbed hs) ?_ fun u hu => hft u ⟨hu.profile, hu.port, hu.opr⟩
    have hlt : t.ctx.n.toNat < t.profile.maxWriteRetries.toNat := by omega
    show (t.ctx.n + 1).toNat + left = t.profile.maxWriteRetries.toNat
    rw [toNat_succ_of_lt hlt]
    omega

/-- Step 2 and the attempts (R191). -/
theorem lands_writeUnlocked {s : State} (hs : s.undisturbed) {f : State → Res}
    (hf : ∀ t, SameCommand s t → Lands (.next (t.goto .nextPage)) (f t)) :
    Lands (.next (s.goto .wCopy)) (andThen (writeUnlocked s) f) := by
  simp only [writeUnlocked, andThen_assoc]
  refine lands_stretch (g := .wCopy) rfl hs fun t ht => ?_
  refine lands_stretch (g := .wSwe) rfl (ht.undisturbed hs) fun u hu => ?_
  have hst := (ht.toSameAttempt.trans hu.toSameAttempt).toSameCommand
  simp only [Seg.finish]
  cases hb : u.profile.maxWriteRetries.toNat with
  | zero =>
    have h0 : u.profile.maxWriteRetries = 0 := BitVec.eq_of_toNat_eq hb
    rw [if_pos h0, State.firstAttempt, if_pos h0]
    exact lands_lockPage (g := .wFail) rfl (hst.undisturbed hs) rfl (fun _ => rfl) fun v hv => hf v (hst.trans hv)
  | succ left =>
    have hne : u.profile.maxWriteRetries ≠ 0 := fun h => by simp [h] at hb
    have hfirst := hst.trans (sameCommand_firstAttempt u u.profile.maxWriteRetries)
    rw [if_neg hne]
    refine lands_writeAttempts (hfirst.undisturbed hs) ?_ fun v hv => hf v (hfirst.trans hv)
    simp only [firstAttempt_fields, if_neg hne, hb]
    exact Nat.add_comm 1 left

/-- One page, from its precondition to its status (R191). -/
theorem lands_writePage {s : State} (hs : s.undisturbed) {dest src : Word} (hd : ¬ s.profile.flashMax < dest)
    {f : State → Res} (hf : ∀ t, SameCommand s t → Lands (.next (t.goto .nextPage)) (f t)) :
    Lands (.next ((s.enterPage dest src).goto .wPre)) (andThen (execWritePage dest src s) f) := by
  simp only [execWritePage, execPrecond, if_neg hd, andThen_assoc, andThen_of_next]
  refine lands_stretch (g := .wPre) (s := s.enterPage dest src) rfl hs fun t ht => ?_
  have hst : SameCommand s t.judgePrecond := ⟨ht.profile, ht.port, ht.opr⟩
  simp only [Seg.finish, judgePrecond_fields]
  cases t.precondHolds with
  | false => exact hf _ ⟨ht.profile, ht.port, ht.opr⟩
  | true => exact lands_writeUnlocked (hst.undisturbed hs) fun u hu => hf u (hst.trans hu)

/-! ### The page loop (44_page_address_mapper.md R162) -/

/-- One round of the page loop: its end, the refusal of a page above the flash, a page that failed, or the next round
from the page after it (R162, R164). -/
theorem lands_page {n : Nat} {s : State} (hs : s.undisturbed)
    (hnext : ¬ s.profile.flashMax < s.opr.dest → ∀ t, SameCommand s t → Lands (nextPageOrEnd t.stepPage)
      (andThen (pages n t.stepPage) (fun u => .next (u.respond u.loc.result)))) :
    Lands (nextPageOrEnd s) (andThen (pages (n + 1) s) (fun u => .next (u.respond u.loc.result))) := by
  unfold nextPageOrEnd pages
  by_cases hl : s.opr.len = 0
  · rw [if_pos hl, if_pos hl]
    exact .refl _
  rw [if_neg hl, if_neg hl, andThen_assoc, beginPage]
  by_cases hd : s.profile.flashMax < s.opr.dest
  · rw [if_pos hd, execWritePage, if_pos hd]
    exact .refl _
  rw [if_neg hd]
  refine lands_writePage hs hd fun t ht => .of_step ?_
  rw [step_goto_of_no_acts (ht.undisturbed hs) rfl, finish_goto rfl]
  simp only [Seg.finish]
  by_cases hok : t.loc.result = .ok
  · rw [if_pos hok, if_pos hok]
    exact hnext hd t ht
  · rw [if_neg hok, if_neg hok]
    exact .refl _

/-- The page loop of the sequencer has no bound; that of `exec` has one, which it never meets: `dest` rises by a page
each time, and the page that is refused comes before it (R164; log 31). -/
theorem lands_pages {n : Nat} {s : State} (hs : s.undisturbed) (hwf : s.profile.wf = true)
    (hn : s.profile.flashMax.toNat < s.opr.dest.toNat + n * s.profile.pageBytes) :
    Lands (nextPageOrEnd s) (andThen (pages (n + 1) s) (fun u => .next (u.respond u.loc.result))) := by
  induction n generalizing s with
  | zero =>
    refine lands_page hs fun hd => absurd ?_ hd
    rw [BitVec.lt_def]
    omega
  | succ n ih =>
    refine lands_page hs fun hd t ht => ih (ht.undisturbed hs) (by simpa [ht.profile] using hwf) ?_
    have hle : s.opr.dest.toNat ≤ s.profile.flashMax.toNat := by rwa [BitVec.lt_def, Nat.not_lt] at hd
    have hdest : t.stepPage.opr.dest.toNat = s.opr.dest.toNat + s.profile.pageBytes := by
      have hmax := flashMax_add_page hwf
      have hpage : s.profile.pageWord.toNat = s.profile.pageBytes := by
        rcases pageBytes_cases s.profile with hp | hp <;> simp [DeviceProfile.pageWord, hp]
      show (t.opr.dest + t.profile.pageWord).toNat = _
      rw [ht.opr, ht.profile, BitVec.toNat_add_of_lt (by omega), hpage]
    show t.profile.flashMax.toNat < t.stepPage.opr.dest.toNat + n * t.profile.pageBytes
    rw [hdest, ht.profile]
    rw [Nat.succ_mul] at hn
    omega

theorem lands_pageLoop {s : State} (hs : s.undisturbed) (hwf : s.profile.wf = true) :
    Lands (nextPageOrEnd s) (andThen (execPageLoop s) (fun u => .next (u.respond u.loc.result))) := by
  have hp : 0 < s.profile.pageBytes := by rcases pageBytes_cases s.profile with hp | hp <;> omega
  have hlt := Nat.lt_mul_div_succ s.profile.flashMax.toNat hp
  rw [Nat.mul_comm] at hlt
  exact lands_pages (n := s.profile.flashMax.toNat / s.profile.pageBytes + 1) hs hwf (by omega)

theorem lands_writeRange {s : State} (hs : s.undisturbed) (hr : s.ready = true) (dest src len : Word) :
    Lands (.next (s.acceptWrite dest src len)) (execWriteRange dest src len s) := by
  unfold execWriteRange
  rw [whenReady_of_ready hr]
  refine lands_of_validate hs rfl rfl ?_
  simp only [validateCommand, acceptWrite_fields, writeAccepted, execValidateRange, andThen_of_next, withResult_fields]
  by_cases hok : rangeStatus s.profile dest len = .ok
  · cases ha : s.armed with
    | false =>
      simp only [ne_eq, hok, not_true_eq_false, if_true, if_false]
      exact .refl _
    | true =>
      simp only [ne_eq, hok, not_true_eq_false, if_false, Bool.true_eq_false]
      exact lands_pageLoop hs (wf_of_ready (s := s) hr)
  · simp only [ne_eq, hok, not_false_eq_true, if_true]
    exact .refl _

/-! ### Every command -/

/-- The acceptance of a word at the command port of a ready block (R90, R92). -/
theorem step_accept {s : State} (hs : s.undisturbed) (hr : s.ready = true) (w : BitVec 98) :
    step (s.withCmds (w :: s.port.cmds)) = .next (accept (decodeCommand w) s) := by
  have hi := idle_of_ready hr
  have hr' : (s.withCmds (w :: s.port.cmds)).ready = true := hr
  rw [step_of_point (s := s.withCmds (w :: s.port.cmds)) hs.1 hs.2]
  have ha : (s.withCmds (w :: s.port.cmds)).act = none := by simp [State.act, hi, Seg.acts]
  simp only [runPoint, ha, withCmds_fields, hi, Seg.finish, stepIdle, whenReady_of_ready hr']
  rfl

/-- Every command, from its acceptance on. -/
theorem lands_command {s : State} (hs : s.undisturbed) (hr : s.ready = true) (w : BitVec 98) :
    Lands (.next (accept (decodeCommand w) s)) (exec (decodeCommand w) s) := by
  unfold decodeCommand
  split
  · exact lands_init hs hr
  · split
    · exact lands_unprotect hs hr
    · split
      · exact lands_eraseBlock hs hr _
      · exact lands_writeRange hs hr _ _ _

/-- Settles O6: the acceptance takes the word from the port, and the run from there comes to what `exec` gives, stretch
by stretch. -/
theorem commandRunIsOperation : Obligations.CommandRunIsOperation := by
  intro s w hr hu hp
  have h : Lands (.next (s.withCmds (w :: s.port.cmds))) (exec (decodeCommand w) s) := by
    refine .of_step ?_
    rw [step_accept ⟨hp, hu⟩ hr]
    exact lands_command ⟨hp, hu⟩ hr w
  exact h

end Sys2Proof.Machine
end

section
/-! Registers and control bits: what the writes of `BitSet` and `BitClr` do to them, and which of them end a pulse
(R33, R81, R112, R113). -/

namespace Sys2Proof.Machine

/-! ### The layout of `FCR` -/

theorem bit_injective {l : RegLayout} (h : l.wf = true) {f g : Field} (e : l.bit f = l.bit g) : f = g := by
  simp only [RegLayout.wf, decide_eq_true_eq, List.nodup_cons, List.mem_cons, not_or] at h
  cases f <;> cases g <;> simp_all [RegLayout.bit]

theorem bit_ne_status {l : RegLayout} (h : l.wf = true) (f : Field) : l.bit f ≠ l.status := by
  simp only [RegLayout.wf, decide_eq_true_eq, List.nodup_cons, List.mem_cons, not_or] at h
  cases f <;> simp_all [RegLayout.bit, eq_comm]

theorem getLsbD_one_shiftLeft (m b : Fin 8) : (1#8 <<< m.val).getLsbD b.val = decide (b = m) := by
  revert m b
  decide

theorem getLsbD_mask {l : RegLayout} (h : l.wf = true) (f g : Field) :
    (l.mask f).getLsbD (l.bit g).val = decide (g = f) := by
  rw [RegLayout.mask, getLsbD_one_shiftLeft]
  exact decide_eq_decide.2 ⟨bit_injective h, congrArg _⟩

theorem getLsbD_statusMask {l : RegLayout} (h : l.wf = true) (f : Field) :
    l.statusMask.getLsbD (l.bit f).val = false := by
  rw [RegLayout.statusMask, getLsbD_one_shiftLeft]
  exact decide_eq_false (bit_ne_status h f)

theorem getLsbD_not (v : Byte) (b : Fin 8) : (~~~v).getLsbD b.val = !v.getLsbD b.val := by
  rw [BitVec.getLsbD_not, decide_eq_true b.isLt, Bool.true_and]

/-- Masking the status bit out of a byte leaves its control bits. -/
theorem getLsbD_and_not_statusMask {l : RegLayout} (h : l.wf = true) (v : Byte) (f : Field) :
    (v &&& ~~~l.statusMask).getLsbD (l.bit f).val = v.getLsbD (l.bit f).val := by
  rw [BitVec.getLsbD_and, getLsbD_not, getLsbD_statusMask h, Bool.not_false, Bool.and_true]

theorem and_not_and_self (m v : Byte) : (v &&& ~~~m) &&& m = 0 := by
  rw [BitVec.and_assoc, BitVec.and_comm (~~~m), BitVec.and_not_self]
  exact BitVec.and_zero

theorem layout_of_wf {p : DeviceProfile} (h : p.wf = true) : p.regLayout.wf = true := by
  simp only [DeviceProfile.wf, Bool.and_eq_true] at h
  exact h.1.2

/-! ### Registers -/

theorem fcr_of_regs {s t : State} (h : t.regs = s.regs) (j : Bank) : t.fcr j = s.fcr j := by
  cases j <;> simp [State.fcr, h]

theorem ebr_of_regs {s t : State} (h : t.regs = s.regs) (j : Bank) : t.ebr j = s.ebr j := by
  cases j <;> simp [State.ebr, h]

theorem bit_of_regs {s t : State} (hp : t.profile = s.profile) (h : t.regs = s.regs) (j : Bank) (f : Field) :
    t.bit j f = s.bit j f := by
  rw [State.bit, State.bit, fcr_of_regs h, hp]

@[simp] theorem fcr_regWrite_fcr (s : State) (k j : Bank) (v : Byte) :
    (s.regWrite (.fcr k) v).fcr j = if j = k then v &&& ~~~s.profile.regLayout.statusMask else s.fcr j := by
  cases k <;> cases j <;> rfl

@[simp] theorem ebr_regWrite_fcr (s : State) (k j : Bank) (v : Byte) :
    (s.regWrite (.fcr k) v).ebr j = s.ebr j := by
  cases k <;> cases j <;> rfl

@[simp] theorem fcr_regWrite_ebr (s : State) (k j : Bank) (v : Byte) :
    (s.regWrite (.ebr k) v).fcr j = s.fcr j := by
  cases k <;> cases j <;> rfl

@[simp] theorem ebr_regWrite_ebr (s : State) (k j : Bank) (v : Byte) :
    (s.regWrite (.ebr k) v).ebr j = if j = k then v else s.ebr j := by
  cases k <;> cases j <;> rfl

theorem bit_regWrite_fcr {s : State} (h : s.profile.regLayout.wf = true) (k j : Bank) (v : Byte) (f : Field) :
    (s.regWrite (.fcr k) v).bit j f = if j = k then v.getLsbD (s.profile.regLayout.bit f).val else s.bit j f := by
  rw [State.bit, fcr_regWrite_fcr, (regWrite_fields s (.fcr k) v).1]
  split
  · exact getLsbD_and_not_statusMask h v f
  · rfl

/-- A read of `FCR[k]` shows its control bits (R110). -/
theorem getLsbD_content {s : State} (h : s.profile.regLayout.wf = true) (k : Bank) (f : Field) :
    (s.content (.fcr k)).getLsbD (s.profile.regLayout.bit f).val = s.bit k f := by
  have hz : (if s.statusInput k then s.profile.regLayout.statusMask else 0).getLsbD (s.profile.regLayout.bit f).val =
      false := by
    split
    · exact getLsbD_statusMask h f
    · exact BitVec.getLsbD_zero
  rw [State.content, BitVec.getLsbD_or, getLsbD_and_not_statusMask h, hz, Bool.or_false, State.bit]

/-! ### `BitSet` and `BitClr`, and which register writes end a pulse -/

/-- A register write that ends no pulse leaves the flash macro alone. -/
theorem envAfterFcr_of_no_fall {s : State} {k : Bank} {v : Byte} (he : s.falls k v .e = false)
    (hp : s.falls k v .p = false) : s.envAfterFcr k v = s.env := by
  simp [State.envAfterFcr, State.programEnd, State.eraseEnd, State.pulsedAfter, he, hp]

theorem afterActs_bitOn (s : State) (k : Bank) (f : Field) :
    afterActs (bitOn k f) s = (s.regRead (.fcr k)).regWrite (.fcr k)
      (s.content (.fcr k) ||| s.profile.regLayout.mask f) := rfl

theorem afterActs_bitOff (s : State) (k : Bank) (f : Field) :
    afterActs (bitOff k f) s = (s.regRead (.fcr k)).regWrite (.fcr k)
      (s.content (.fcr k) &&& ~~~s.profile.regLayout.mask f) := rfl

/-- The write of `BitSet` makes no control bit fall (R112). -/
theorem falls_bitOn {s : State} (h : s.profile.regLayout.wf = true) (k : Bank) (f g : Field) :
    (s.regRead (.fcr k)).falls k (s.content (.fcr k) ||| s.profile.regLayout.mask f) g = false := by
  show (s.bit k g && !(s.content (.fcr k) ||| s.profile.regLayout.mask f).getLsbD (s.profile.regLayout.bit g).val) = _
  rw [BitVec.getLsbD_or, getLsbD_content h, getLsbD_mask h]
  cases s.bit k g <;> simp

/-- The write of `BitClr` makes its own bit fall, where it was set, and no other (R113). -/
theorem falls_bitOff {s : State} (h : s.profile.regLayout.wf = true) (k : Bank) (f g : Field) :
    (s.regRead (.fcr k)).falls k (s.content (.fcr k) &&& ~~~s.profile.regLayout.mask f) g =
      (s.bit k g && decide (g = f)) := by
  show (s.bit k g && !(s.content (.fcr k) &&& ~~~s.profile.regLayout.mask f).getLsbD
    (s.profile.regLayout.bit g).val) = _
  rw [BitVec.getLsbD_and, getLsbD_not, getLsbD_content h, getLsbD_mask h]
  cases s.bit k g <;> simp

/-- `BitSet` ends no pulse: of the flash macro it moves the status input on, and nothing else (R112). -/
theorem bitOn_env {s : State} (h : s.profile.regLayout.wf = true) (k : Bank) (f : Field) :
    (afterActs (bitOn k f) s).env = s.env.afterRead (.fcr k) :=
  envAfterFcr_of_no_fall (s := s.regRead (.fcr k)) (falls_bitOn h k f .e) (falls_bitOn h k f .p)

/-- `BitClr` of a bit that is no pulse bit ends no pulse (R113). -/
theorem bitOff_env {s : State} (h : s.profile.regLayout.wf = true) (k : Bank) {f : Field} (he : f ≠ .e) (hp : f ≠ .p) :
    (afterActs (bitOff k f) s).env = s.env.afterRead (.fcr k) :=
  envAfterFcr_of_no_fall (s := s.regRead (.fcr k)) ((falls_bitOff h k f .e).trans (by simp [he.symm]))
    ((falls_bitOff h k f .p).trans (by simp [hp.symm]))

end Sys2Proof.Machine
end

section
/-! What a cell reads after a pulse: the cells of the selected blocks and the latched cells change, and no others
(R34, R46, R81). -/

namespace Sys2Proof.Machine

/-! ### Filling blocks -/

theorem tableAt_range {p : DeviceProfile} {i a : Nat} :
    ((p.tableAt i).toNat ≤ a ∧ a < (p.tableAt i).toNat + ((p.tableAt (i + 1)).toNat - (p.tableAt i).toNat)) ↔
      p.inBlock i a = true := by
  simp only [DeviceProfile.inBlock, Bool.and_eq_true, decide_eq_true_eq]
  omega

theorem read_fillBlock_outside (s : State) (f : Nat → Byte) (m : Memory) {i a : Nat}
    (h : s.profile.inBlock i a = false) : (s.fillBlock f m i).read a = m.read a :=
  Memory.read_fill_outside f m _ _ (by rw [tableAt_range, h]; exact Bool.false_ne_true)

theorem read_fillBlock (s : State) (f : Nat → Byte) {m : Memory} (hm : m.rising = true) (i a : Nat) :
    (s.fillBlock f m i).read a = if s.profile.inBlock i a then f a else m.read a := by
  rw [State.fillBlock, Memory.read_fill f hm]
  exact if_congr tableAt_range rfl rfl

theorem read_fillBlocks_outside (s : State) (f : Nat → Byte) (l : List Nat) (m : Memory) {a : Nat}
    (h : ∀ i ∈ l, s.profile.inBlock i a = false) : (l.foldl (s.fillBlock f) m).read a = m.read a := by
  induction l generalizing m with
  | nil => rfl
  | cons i l ih =>
    rw [List.foldl_cons, ih _ (fun j hj => h j (List.mem_cons_of_mem _ hj)), read_fillBlock_outside s f m (h i (by simp))]

theorem read_fillBlocks (s : State) (f : Nat → Byte) (l : List Nat) {m : Memory} (hm : m.rising = true) {a : Nat}
    (h : (∃ i ∈ l, s.profile.inBlock i a = true) ∨ m.read a = f a) : (l.foldl (s.fillBlock f) m).read a = f a := by
  induction l generalizing m with
  | nil => simpa using h
  | cons i l ih =>
    refine ih (Memory.rising_fill f hm _ _) ?_
    rw [read_fillBlock s f hm]
    by_cases hi : s.profile.inBlock i a = true
    · exact .inr (if_pos hi)
    · simpa [hi] using h

/-- Whether an address lies in a block whose enable bit is set (R34). -/
def State.inSelected (s : State) (a : Nat) : Prop :=
  ∃ i < s.profile.blockCount, s.selected i = true ∧ s.profile.inBlock i a = true

theorem not_inSelected {s : State} {a : Nat} :
    ¬ s.inSelected a ↔ ∀ i < s.profile.blockCount, s.selected i = true → s.profile.inBlock i a = false := by
  simp [State.inSelected]

theorem read_fillSelected_outside (s : State) (f : Nat → Byte) (m : Memory) {a : Nat} (h : ¬ s.inSelected a) :
    (s.fillSelected f m).read a = m.read a :=
  read_fillBlocks_outside s f _ m fun i hi => by
    obtain ⟨hr, hs⟩ := List.mem_filter.1 hi
    exact not_inSelected.1 h i (List.mem_range.1 hr) hs

theorem read_fillSelected (s : State) (f : Nat → Byte) {m : Memory} (hm : m.rising = true) {a : Nat}
    (h : s.inSelected a) : (s.fillSelected f m).read a = f a := by
  obtain ⟨i, hi, hs, hb⟩ := h
  exact read_fillBlocks s f _ hm (.inl ⟨i, List.mem_filter.2 ⟨List.mem_range.2 hi, hs⟩, hb⟩)

/-! ### Filling latched cells -/

theorem read_fillLatched_outside (f : Nat → Byte → Byte) (latch m : Memory) {a : Nat} (h : latch.find a = none) :
    (fillLatched f latch m).read a = m.read a := by
  induction latch generalizing m with
  | nil => rfl
  | cons c l ih =>
    obtain ⟨b, x⟩ := c
    simp only [Memory.find] at h
    split at h
    · cases h
    · next hne =>
      show (fillLatched f l (m.write b (f b x))).read a = _
      rw [ih _ h, Memory.read_write_other _ _ hne]

theorem read_fillLatched (f : Nat → Byte → Byte) {latch m : Memory} (hl : latch.rising = true) (hm : m.rising = true)
    {a : Nat} {x : Byte} (h : latch.find a = some x) : (fillLatched f latch m).read a = f a x := by
  induction latch generalizing m with
  | nil => cases h
  | cons c l ih =>
    obtain ⟨b, y⟩ := c
    show (fillLatched f l (m.write b (f b y))).read a = _
    simp only [Memory.find] at h
    split at h
    · next he =>
      cases he
      cases h
      have hnone : Memory.find l a = none :=
        Memory.find_eq_none fun d hd => Nat.ne_of_gt (Memory.rising_head hl d hd)
      rw [read_fillLatched_outside f l _ hnone, Memory.read_write_same hm]
    · exact ih (Memory.rising_tail hl) (Memory.rising_write hm _ _) h

/-! ### The end of a pulse -/

theorem eraseEnd_of_no_fall {s : State} {k : Bank} {v : Byte} (h : s.falls k v .e = false) (m : Memory) :
    s.eraseEnd k v m = m := by simp [State.eraseEnd, h]

theorem programEnd_of_no_fall {s : State} {k : Bank} {v : Byte} (h : s.falls k v .p = false) (m : Memory) :
    s.programEnd k v m = m := by simp [State.programEnd, h]

theorem eraseEnd_of_fall {s : State} {k : Bank} {v : Byte} (h : s.falls k v .e = true) (m : Memory) :
    s.eraseEnd k v m = s.fillSelected s.erasedCell m := by simp [State.eraseEnd, h]

theorem programEnd_of_fall {s : State} {k : Bank} {v : Byte} (h : s.falls k v .p = true) (m : Memory) :
    s.programEnd k v m = fillLatched (s.programmedCell m) s.env.latch m := by simp [State.programEnd, h]

theorem envAfterFcr_latch (s : State) (k : Bank) (v : Byte) :
    (s.envAfterFcr k v).latch = if s.falls k v .p then [] else s.env.latch := rfl

/-- A cell changes only where an erase pulse ends and its block is selected, or a program pulse and it is latched. -/
theorem read_envAfterFcr_outside {s : State} {k : Bank} {v : Byte} {a : Nat}
    (he : s.falls k v .e = false ∨ ¬ s.inSelected a) (hp : s.falls k v .p = false ∨ s.env.latch.find a = none) :
    (s.envAfterFcr k v).cells.read a = s.env.cells.read a := by
  have h1 : (s.eraseEnd k v s.env.cells).read a = s.env.cells.read a := by
    rcases he with he | he
    · rw [eraseEnd_of_no_fall he]
    · unfold State.eraseEnd
      split
      · exact read_fillSelected_outside s _ _ he
      · rfl
  refine Eq.trans ?_ h1
  show (s.programEnd k v (s.eraseEnd k v s.env.cells)).read a = _
  rcases hp with hp | hp
  · rw [programEnd_of_no_fall hp]
  · unfold State.programEnd
    split
    · exact read_fillLatched_outside _ _ _ hp
    · rfl

/-- Settles O30: the fall of `E` fills the selected blocks, the fall of `P` the latched cells, and the remembered ranges
are those (R81, R46). -/
theorem pulseEndInFlash : Obligations.PulseEndInFlash := by
  intro s t k v hwf h
  obtain ⟨rfl, -, -⟩ := micro_eq_next (u := .regWrite (.fcr k) v) h
  obtain ⟨hc, -, hl⟩ := env_wf_iff.1 hwf
  have hr := (Memory.wf_iff.1 hc).1
  have henv : ((MicroOp.regWrite (.fcr k) v).after s).env = s.envAfterFcr k v := rfl
  rw [henv, envAfterFcr_latch]
  refine ⟨fun hp => by rw [if_pos hp], fun hp => by simp [hp], fun a => ⟨fun he hp => ?_, fun hp he => ?_⟩⟩
  · have hcells : (s.envAfterFcr k v).cells = s.fillSelected s.erasedCell s.env.cells := by
      rw [State.envAfterFcr, programEnd_of_no_fall hp, eraseEnd_of_fall he]
    have hview : (s.envAfterFcr k v).view = { s.env.view with pulsed := s.selectedRanges } := by
      simp [State.envAfterFcr, State.pulsedAfter, he, hp]
    rw [hcells, hview]
    refine ⟨covers_selectedRanges, fun hin hmode => ?_, fun hout => ?_⟩
    · rw [read_fillSelected s _ hr hin, State.erasedCell, hmode]
      rfl
    · exact read_fillSelected_outside s _ _ (not_inSelected.2 hout)
  · have hcells : (s.envAfterFcr k v).cells = fillLatched (s.programmedCell s.env.cells) s.env.latch s.env.cells := by
      rw [State.envAfterFcr, eraseEnd_of_no_fall he, programEnd_of_fall hp]
    have hview : (s.envAfterFcr k v).view = { s.env.view with pulsed := latchedRanges s.env.latch } := by
      simp [State.envAfterFcr, State.pulsedAfter, he, hp]
    rw [hcells, hview]
    refine ⟨covers_latchedRanges, fun x hx hmode => ?_, fun hout => ?_⟩
    · rw [read_fillLatched _ hl hr hx, State.programmedCell, hmode]
    · exact read_fillLatched_outside _ _ _ hout

/-! ### The reset -/

/-- A reset changes only the cells under a pulse it cuts short (R261). -/
theorem read_cellsAfterReset_outside {s : State} {a : Nat}
    (he : (s.bit .b0 .e || s.bit .b1 .e) = false ∨ ¬ s.inSelected a)
    (hp : (s.bit .b0 .p || s.bit .b1 .p) = false ∨ s.env.latch.find a = none) :
    s.cellsAfterReset.read a = s.env.cells.read a := by
  have h1 : (if s.bit .b0 .e || s.bit .b1 .e then s.fillSelected (Config.freeCell s.moment) s.env.cells
      else s.env.cells).read a = s.env.cells.read a := by
    split
    · next hset => exact read_fillSelected_outside s _ _ (he.resolve_left (by simp [hset]))
    · rfl
  unfold State.cellsAfterReset
  dsimp only
  split
  · next hset => rw [read_fillLatched_outside _ _ _ (hp.resolve_left (by simp [hset])), h1]
  · exact h1

/-- Settles O16: every field is the one `State.afterReset` gives, and the cells that change are those under a pulse. -/
theorem systemResetResult : Obligations.SystemResetResult := fun s =>
  ⟨s.systemReset, rfl, rfl, rfl, rfl, rfl, rfl, rfl, rfl, rfl,
    fun _ he hp => read_cellsAfterReset_outside (he.imp_right not_inSelected.2) hp, step_of_resetPin⟩

end Sys2Proof.Machine
end

section
/-! One step: the word it decodes, the event it appends; and the stops by name. -/

namespace Sys2Proof.Machine

theorem decode_micro_toNat (w : BitVec 72) : decode .micro w.toNat = decodeMicro w := by
  rw [decode, if_pos w.isLt, BitVec.ofNat_toNat, BitVec.setWidth_eq]

theorem decode_command_toNat (w : BitVec 98) : decode .command w.toNat = .ok (decodeCommand w) := by
  rw [decode, if_pos w.isLt, BitVec.ofNat_toNat, BitVec.setWidth_eq]

/-- Settles O5: a placed word goes through the decoder to `exec`, an idle block accepts the word at its port, and a point
of the sequencer is one micro-operation through `exec`. -/
theorem stepRunsDecoded : Obligations.StepRunsDecoded := by
  intro s hr
  refine ⟨fun w i hw hd => ?_, fun hu hready w l i hc hd => ?_, fun hu a ha => ?_⟩
  · rw [decode_micro_toNat] at hd
    simp [step, oneStep, hr, hw, runMicroWord, hd]
  · rw [decode_command_toNat] at hd
    cases hd
    have hs : (s.withCmds l).withCmds (w :: (s.withCmds l).port.cmds) = s := by
      simp only [State.withCmds, ← hc]
    have hacc := step_accept (s := s.withCmds l) ⟨hr, hu⟩ hready w
    rwa [hs] at hacc
  · rw [step_of_point hr hu]
    simp only [runPoint, ha]

/-- Settles O7: an act appends its one event, and the end of a stretch appends none. -/
theorem oneEventPerStep : Obligations.OneEventPerStep := by
  intro s t hr hu h
  rcases step_cases hr hu h with ⟨-, hf⟩ | ⟨a, -, -, -, ⟨-, rfl⟩ | ⟨-, hf⟩⟩
  · exact .inl (finish_fields hf).1.trace
  · exact .inr ⟨_, (act_after_fields a s).2.2.2.2.2.2.2.2.1⟩
  · exact .inr ⟨_, (finish_fields hf).1.trace.trans (act_after_fields a s).2.2.2.2.2.2.2.2.1⟩

/-! ### Stops -/

/-- A command is `whenReady` of some run (R90, R151). -/
theorem exec_command {i : Instr} (h : i.isCommand = true) (s : State) : ∃ r, exec i s = whenReady s r := by
  cases i with
  | init | unprotect | eraseBlock _ | writeRange _ _ _ => exact ⟨_, rfl⟩
  | _ => cases h

theorem whenReady_of_busy {s : State} (h : s.cmdReady = false) (r : Res) :
    whenReady s r = .refused .commandWhileBusy := by
  have hne : s.seq.seg ≠ .idle := fun e => by simp [State.cmdReady, State.st, e, Seg.st] at h
  simp [whenReady, hne]

theorem seg_idle_of_cmdReady {s : State} (h : s.cmdReady = true) : s.seq.seg = .idle := by
  have hst : s.seq.seg.st = .idle := of_decide_eq_true h
  cases hg : s.seq.seg with
  | idle => rfl
  | _ => rw [hg] at hst; cases hst

theorem whenReady_of_illFormed {s : State} (hi : s.cmdReady = true) (hp : s.profile.wf = false) (r : Res) :
    whenReady s r = .refused .illFormedProfile := by
  simp [whenReady, seg_idle_of_cmdReady hi, hp]

/-- Settles O58: each stop is the first test of its operation. -/
theorem stopsByName : Obligations.StopsByName := by
  refine ⟨fun i s hi hb => ?_, fun i s hi hr hp => ?_, fun dest src s h => if_pos h, fun index s h => if_pos h,
    fun k j n s h => if_pos h, fun a v s h => ?_, fun a v s h => ⟨if_pos h, if_pos h⟩, fun a v s ha h => ?_⟩
  · obtain ⟨r, hr⟩ := exec_command hi s
    rw [hr, whenReady_of_busy hb]
  · obtain ⟨r, he⟩ := exec_command hi s
    rw [he, whenReady_of_illFormed hr hp]
  · have hout : s.profile.hasFlashByte a = false := decide_eq_false (BitVec.not_le.2 h)
    show (if s.profile.hasFlashByte a then _ else _) = _
    rw [hout]
    rfl
  · have hout : s.profile.hasFlashWord a = false := decide_eq_false (Nat.not_le.2 h)
    have hacc : ∀ t, flashWordAccess s a t = .fault (.noSuchFlashAddress a) := fun t => by
      simp [flashWordAccess, ha, hout]
    exact ⟨hacc _, hacc _⟩

end Sys2Proof.Machine
end

section
/-! The sequencer as a graph of points: which point follows which, and what the act between two points does to the
control bits, the watchdog, the interrupt mask and the block-enable registers (R25, R26, R142, R173, R201, R265, R269). -/

namespace Sys2Proof.Machine

/-! ### Points that follow each other -/

/-- The stretches that can come after a stretch (R173, R201). -/
def Seg.successors : Seg → List Seg
  | .idle => [.idle, .validate]
  | .validate => [.idle, .gInit, .ePre, .wPre]
  | .gInit | .eDone | .eFail => [.idle]
  | .ePre => [.eSwe, .idle]
  | .eSwe => [.eEnabled]
  | .eEnabled => [.eFail, .eSelect]
  | .eSelect => [.eArm]
  | .eArm => [.eArmed]
  | .eArmed => [.ePulse]
  | .ePulse => [.eSettle]
  | .eSettle => [.evEnter]
  | .evEnter | .evWord => [.evWord, .evExit]
  | .evExit => [.eDone, .eRetry, .eFail]
  | .eRetry => [.eSelect]
  | .wPre => [.wCopy, .nextPage]
  | .wCopy => [.wSwe]
  | .wSwe => [.wFail, .wLatch]
  | .wLatch => [.wArm]
  | .wArm => [.wPulse]
  | .wPulse => [.wSettle]
  | .wSettle => [.pvEnter]
  | .pvEnter => [.pvWord]
  | .pvWord => [.wFatal, .pvWord, .pvExit]
  | .pvExit => [.oLatch, .wRetry, .wFail, .wDone]
  | .oLatch => [.oArm]
  | .oArm => [.oPulse]
  | .oPulse => [.oSettle]
  | .oSettle => [.wRetry, .wFail, .wDone]
  | .wRetry => [.wLatch]
  | .wDone | .wFatal | .wFail => [.nextPage]
  | .nextPage => [.idle, .wPre]

/-- The point `(h, q)` comes after position `p` of stretch `g` with `len` acts: the next position, or the beginning of a
stretch that can come after. -/
def Follows (g : Seg) (len p : Nat) (h : Seg) (q : Nat) : Prop :=
  if p + 1 < len then h = g ∧ q = p + 1 else h ∈ g.successors ∧ q = 0

/-- `Q` holds of every act of the rest `l` of stretch `g` from position `p` on, with the points that follow it. -/
def Along (Q : Act → Nat → Seg → Nat → Prop) (g : Seg) : List Act → Nat → Prop
  | [], _ => True
  | [a], p => ∀ h ∈ g.successors, Q a p h 0
  | a :: b :: l, p => Q a p g (p + 1) ∧ Along Q g (b :: l) (p + 1)

theorem along_at {Q : Act → Nat → Seg → Nat → Prop} {g h : Seg} {l : List Act} {p q i : Nat} {a : Act}
    (hl : Along Q g l p) (ha : l[i]? = some a) (hf : Follows g (p + l.length) (p + i) h q) : Q a (p + i) h q := by
  induction l generalizing p i with
  | nil => simp at ha
  | cons b l ih =>
    cases l with
    | nil =>
      cases i with
      | succ i => simp at ha
      | zero =>
        obtain rfl : b = a := by simpa using ha
        simp only [Follows, List.length_singleton, Nat.add_zero, Nat.lt_irrefl, if_false] at hf
        obtain ⟨hh, rfl⟩ := hf
        exact hl h hh
    | cons c l =>
      cases i with
      | zero =>
        obtain rfl : b = a := by simpa using ha
        simp only [Follows, List.length_cons] at hf
        rw [if_pos (by omega)] at hf
        obtain ⟨rfl, rfl⟩ := hf
        exact hl.1
      | succ i =>
        have := ih (p := p + 1) (i := i) hl.2 (by simpa using ha)
          (by simpa [Nat.add_assoc, Nat.add_comm 1, Nat.add_left_comm 1] using hf)
        simpa [Nat.add_assoc, Nat.add_comm 1] using this

theorem along_of_forall {Q : Act → Nat → Seg → Nat → Prop} {g : Seg} {l : List Act}
    (h1 : ∀ a ∈ l, ∀ p, Q a p g (p + 1)) (h2 : ∀ a ∈ l, ∀ p, ∀ h ∈ g.successors, Q a p h 0) (p : Nat) :
    Along Q g l p := by
  induction l generalizing p with
  | nil => trivial
  | cons a l ih =>
    cases l with
    | nil => exact h2 a (by simp) p
    | cons b l =>
      exact ⟨h1 a (by simp) p, ih (fun c hc => h1 c (by simp [hc])) (fun c hc => h2 c (by simp [hc])) _⟩

end Sys2Proof.Machine

namespace Sys2Proof

/-- The control bits after an act that stands before a point with control bits `c` (R112, R113). -/
def Act.controls (c : List Field) : Act → List Field
  | .setBit _ f => c ++ [f]
  | .clrBit _ f => c.filter (· ≠ f)
  | .read _ | .write _ _ | .copy _ | .latch _ | .latchOvw _ | .probe | .readBack | .srcByte _ | .wait _ | .wdtStop
  | .wdtStart _ | .irqMask | .irqRestore => c

/-- An act writes `FCR` of bank `k` only, and only through `BitSet` and `BitClr`. -/
def Act.ofBank (k : Bank) : Act → Bool
  | .setBit j _ | .clrBit j _ => decide (j = k)
  | .write (.fcr _) _ => false
  | .write (.ebr _) _ | .read _ | .copy _ | .latch _ | .latchOvw _ | .probe | .readBack | .srcByte _ | .wait _
  | .wdtStop | .wdtStart _ | .irqMask | .irqRestore => true

/-- Whether interrupts are known to be masked after an act, `b` before it (R118, R119). -/
def Act.masks (b : Bool) : Act → Bool
  | .irqMask => true
  | .irqRestore => false
  | .read _ | .write _ _ | .setBit _ _ | .clrBit _ _ | .copy _ | .latch _ | .latchOvw _ | .probe | .readBack
  | .srcByte _ | .wait _ | .wdtStop | .wdtStart _ => b

end Sys2Proof

namespace Sys2Proof.Machine

@[simp] theorem getElem?_copyActs (p : DeviceProfile) (i : Nat) :
    (copyActs p)[i]? = if i < p.pageBytes then some (.copy i) else none := by
  by_cases h : i < p.pageBytes <;> simp [copyActs, h]

@[simp] theorem getElem?_latchActs (p : DeviceProfile) (i : Nat) :
    (latchActs p)[i]? = if i < p.pageBytes then some (.latch i) else none := by
  by_cases h : i < p.pageBytes <;> simp [latchActs, h]

@[simp] theorem getElem?_latchOvwActs (p : DeviceProfile) (i : Nat) :
    (latchOvwActs p)[i]? = if i < p.pageBytes then some (.latchOvw i) else none := by
  by_cases h : i < p.pageBytes <;> simp [latchOvwActs, h]

@[simp] theorem begin_run (w : Watchdog) (c : Word) : (w.begin c).run = w.run := by
  unfold Watchdog.begin
  split <;> rfl

@[simp] theorem begin_of_running (d : Divisor) (b : Bool) (n : Nat) (c : Word) :
    Watchdog.begin { run := true, div := d, rste := b, cnt := n } c =
      { run := true, div := d, rste := b, cnt := n + c.toNat } := rfl

/-- The watchdog that belongs to a point: inside a guard scope it runs with the engine's divisor and the delays begun as
its count, outside it is stopped (R142 to R145). -/
def State.guards (s : State) (g : Seg) (p : Nat) (w : Watchdog) : Prop :=
  if guardedAt g p then
    w = { run := true, div := guardDivisor s.profile g, rste := true, cnt := (s.place g p).guardCount }
  else w.run = false

/-- What the act between two points does: its effect on the control bits, the mask and the watchdog is the difference
of the two points (R142, R265, R269). -/
def Effect (s : State) (g : Seg) (a : Act) (p : Nat) (h : Seg) (q : Nat) : Prop :=
  (a.ofBank s.ctx.bank = true ∧ a.controls (controlAt g p) = controlAt h q) ∧
  a.masks (maskedAt g p) = maskedAt h q ∧
  (∀ w, s.guards g p w → s.guards h q (a.watchdog w))

theorem along_effect (s : State) (g : Seg) : Along (Effect s g) g (g.acts s) 0 := by
  cases g with
  | wCopy | wLatch | oLatch =>
    refine along_of_forall (fun a ha p => ?_) (fun a ha p h hh => ?_) 0 <;> obtain ⟨i, -, rfl⟩ := List.mem_map.1 ha
    · simp [Effect, State.guards, Act.ofBank, Act.controls, controlAt, Act.watchdog, guardedAt, Act.masks, maskedAt]
    · obtain rfl := List.mem_singleton.1 hh
      simp [Effect, State.guards, Act.ofBank, Act.controls, controlAt, Act.watchdog, guardedAt, Act.masks, maskedAt]
  | _ =>
    simp [Along, Seg.acts, Seg.successors, precondActs, bitOn, bitOff, selectActs, acquireActs, releaseActs,
      windowActs, cleanupActs, evEnterActs, evWordActs, evExitActs, lockActs, unlockActs, pvEnterActs, pvWordActs,
      pvExitActs, srcWordActs, Effect, State.guards, State.place, Act.ofBank, Act.controls, controlAt, Act.watchdog,
      guardedAt, guardDivisor, State.guardCount, pulseCount, Act.masks, maskedAt]

/-- What comes between two points: the second half of a `BitSet` or `BitClr` comes after its read (R64), and blocks are
selected in `SelectBlock`, which comes before the pulse (R154, R170). -/
def Order (s : State) (g : Seg) (a : Act) (p : Nat) (h : Seg) (q : Nat) : Prop :=
  (∀ k f, (h.acts s)[q]? = some (.setBit k f) ∨ (h.acts s)[q]? = some (.clrBit k f) → a = .read (.fcr k)) ∧
  (h.erasing = true → g.erasing = true) ∧
  (h.selectedBlock = true → g.selectedBlock = true ∨ g = .eSelect ∧ p = 1) ∧
  (h = .eSelect → q = 1 → g = .eSelect ∧ p = 0) ∧
  (∀ r v, a = .write r v → g = .eSelect)

theorem along_order (s : State) (g : Seg) : Along (Order s g) g (g.acts s) 0 := by
  cases g with
  | wCopy | wLatch | oLatch =>
    refine along_of_forall (fun a ha p => ?_) (fun a ha p h hh => ?_) 0 <;> obtain ⟨i, -, rfl⟩ := List.mem_map.1 ha
    · simp [Order, Seg.acts, Seg.erasing, Seg.selectedBlock]
    · obtain rfl := List.mem_singleton.1 hh
      simp [Order, Seg.acts, Seg.erasing, Seg.selectedBlock, unlockActs, bitOn, acquireActs]
  | _ =>
    simp [Along, Seg.acts, Seg.successors, precondActs, bitOn, bitOff, selectActs, acquireActs, releaseActs,
      windowActs, cleanupActs, evEnterActs, evWordActs, evExitActs, lockActs, unlockActs, pvEnterActs, pvWordActs,
      pvExitActs, srcWordActs, Order, Seg.erasing, Seg.selectedBlock]

end Sys2Proof.Machine
end

section
/-! What the end of a stretch does to the registers that the invariant speaks of: where the sequencer goes, and which of
the bank, the block, the attempt's number and the buffers it keeps. -/

namespace Sys2Proof.Machine

/-- The end of stretch `g`, from `s` to `t`. -/
structure Moved (g : Seg) (s t : State) : Prop where
  seg : t.seq.seg ∈ g.successors
  pos : t.seq.pos = 0
  uword : t.port.uword = s.port.uword
  rbuf : t.ctx.rbuf.length = s.ctx.rbuf.length
  obuf : t.ctx.obuf.length = s.ctx.obuf.length
  n : guardedAt t.seq.seg 0 = true → t.ctx.n = s.ctx.n
  bank : t.ctx.bank = s.ctx.bank ∨ g = .validate ∨ g = .nextPage
  block : t.seq.seg.erasing = true → t.opr.index = s.opr.index ∧
    (g ≠ .validate ∨
      s.opr.index.toNat < s.profile.blockCount ∧ t.ctx.bank = s.profile.blockBank s.opr.index.toNat)

theorem length_setBufWord (buf : List Byte) (j : Nat) (v : Word) : (setBufWord buf j v).length = buf.length := by
  simp [setBufWord]

/-- A verify word keeps the length of both buffers and every other register of the PulseContext but `m`. -/
theorem judgeWord_ctx (s : State) (j : Nat) (n : Word) :
    (s.judgeWord j n).ctx.rbuf.length = s.ctx.rbuf.length ∧ (s.judgeWord j n).ctx.obuf.length = s.ctx.obuf.length ∧
      (s.judgeWord j n).ctx.bank = s.ctx.bank ∧ (s.judgeWord j n).ctx.n = s.ctx.n := by
  have hobuf : (s.nextObuf j n).length = s.ctx.obuf.length := by
    unfold State.nextObuf
    split
    · exact length_setBufWord _ _ _
    · rfl
  unfold State.judgeWord
  split
  · exact ⟨rfl, rfl, rfl, rfl⟩
  · exact ⟨length_setBufWord _ _ _, hobuf, rfl, rfl⟩

theorem beginPage_eq_next {s t : State} (h : beginPage s = .next t) :
    s.opr.dest ≤ s.profile.flashMax ∧ t = (s.enterPage s.opr.dest s.opr.src).goto .wPre := by
  unfold beginPage at h
  split at h
  · cases h
  · next hle => exact ⟨BitVec.not_lt.1 hle, (Host.Outcome.next.inj h).symm⟩

/-- The head of the page loop: the command's end, or the next page (R162). -/
theorem nextPageOrEnd_eq_next {s t : State} (h : nextPageOrEnd s = .next t) :
    (s.opr.len = 0 ∧ t = (s.withResult .ok).respond .ok) ∨
      (s.opr.len ≠ 0 ∧ s.opr.dest ≤ s.profile.flashMax ∧ t = (s.enterPage s.opr.dest s.opr.src).goto .wPre) := by
  unfold nextPageOrEnd at h
  split at h
  · next hl => exact .inl ⟨hl, (Host.Outcome.next.inj h).symm⟩
  · next hl => exact .inr ⟨hl, beginPage_eq_next h⟩

theorem moved_respond {g : Seg} {s t : State} (hg : .idle ∈ g.successors) (r : Status) (hp : t.port = s.port) (hc : t.ctx = s.ctx) :
    Moved g s (t.respond r) := by
  constructor <;> simp [hg, hp, hc, guardedAt, Seg.erasing]

theorem moved_enterPage {g : Seg} {s t : State} (hg : g = .validate ∨ g = .nextPage) (hp : t.port = s.port)
    (hc : t.ctx = s.ctx) (d r : Word) : Moved g s ((t.enterPage d r).goto .wPre) := by
  have hs : Seg.wPre ∈ g.successors := by rcases hg with rfl | rfl <;> simp [Seg.successors]
  constructor <;> simp [hs, hp, hc, hg, guardedAt, Seg.erasing]

theorem moved_nextPageOrEnd {g : Seg} {s t u : State} (hg : g = .validate ∨ g = .nextPage) (hp : t.port = s.port)
    (hc : t.ctx = s.ctx) (h : nextPageOrEnd t = .next u) : Moved g s u := by
  rcases nextPageOrEnd_eq_next h with ⟨-, rfl⟩ | ⟨-, -, rfl⟩
  · exact moved_respond (by rcases hg with rfl | rfl <;> simp [Seg.successors]) _ (by simp [hp]) (by simp [hc])
  · exact moved_enterPage hg hp hc _ _

theorem moved_validate {s t : State} (h : validateCommand s = .next t) : Moved .validate s t := by
  have hi : Seg.idle ∈ Seg.validate.successors := by simp [Seg.successors]
  unfold validateCommand at h
  split at h
  · cases h
    constructor <;> simp [Seg.successors, guardedAt, Seg.erasing]
  · cases h
    exact moved_respond hi _ (by simp) (by simp)
  · split at h
    · cases h
      exact moved_respond hi _ rfl rfl
    · next hidx =>
      split at h
      · cases h
        exact moved_respond hi _ rfl rfl
      · cases h
        rw [resolveBlock_of_lt (Nat.not_le.1 hidx)]
        constructor <;> simp [Seg.successors, guardedAt, Nat.not_le.1 hidx]
  · dsimp only at h
    split at h
    · cases h
      exact moved_respond hi _ (by simp) (by simp)
    · split at h
      · cases h
        exact moved_respond hi _ (by simp) (by simp)
      · exact moved_nextPageOrEnd (.inl rfl) (by simp) (by simp) h

theorem moved_idle {s t : State} (hg : s.seq.seg = .idle) (hp : s.seq.pos = 0) (h : stepIdle s = .next t) :
    Moved .idle s t := by
  unfold stepIdle at h
  split at h
  · cases h
    constructor <;> simp [hg, hp, Seg.successors, guardedAt, Seg.erasing]
  · next w l =>
    unfold whenReady at h
    split at h
    · cases h
    split at h
    · cases h
      unfold decodeCommand
      repeat' split
      all_goals constructor <;> simp [accept, Seg.successors, guardedAt, Seg.erasing]
    · cases h

/-- What the end of every stretch does (R173, R201). -/
theorem finish_moved {s t : State} (hp : s.seq.seg = .idle → s.seq.pos = 0) {g : Seg} (hg : s.seq.seg = g)
    (h : g.finish s = .next t) : Moved g s t := by
  cases g with
  | idle => exact moved_idle hg (hp hg) h
  | validate => exact moved_validate h
  | nextPage =>
    simp only [Seg.finish] at h
    split at h
    · exact moved_nextPageOrEnd (.inr rfl) (by simp) (by simp) h
    · cases h
      exact moved_respond (by simp [Seg.successors]) _ rfl rfl
  | gInit => cases h; exact moved_respond (by simp [Seg.successors]) _ (by simp) (by simp)
  | eDone | eFail => cases h; exact moved_respond (by simp [Seg.successors]) _ rfl rfl
  | ePre =>
    simp only [Seg.finish] at h
    split at h <;> cases h
    · constructor <;> simp [Seg.successors, guardedAt]
    · exact moved_respond (by simp [Seg.successors]) _ (by simp) (by simp)
  | wPre | wSwe =>
    simp only [Seg.finish] at h
    split at h <;> cases h <;> constructor <;> simp [Seg.successors, guardedAt, Seg.erasing]
  | pvWord =>
    have hj := judgeWord_ctx s s.loc.j s.ctx.n
    simp only [Seg.finish] at h
    split at h
    · cases h
      constructor <;> simp [Seg.successors, guardedAt, Seg.erasing, hj]
    · split at h <;> cases h <;> constructor <;> simp [Seg.successors, guardedAt, Seg.erasing, hj]
  | pvExit =>
    simp only [Seg.finish] at h
    cases h
    split
    · constructor <;> simp [Seg.successors, guardedAt, Seg.erasing]
    · unfold afterAttempt
      repeat' split
      all_goals constructor <;> simp [Seg.successors, guardedAt, Seg.erasing]
  | oSettle =>
    simp only [Seg.finish, afterAttempt] at h
    cases h
    repeat' split
    all_goals constructor <;> simp [Seg.successors, guardedAt, Seg.erasing]
  | eEnabled | evEnter | evWord | evExit =>
    simp only [Seg.finish, scanNext] at h
    cases h
    repeat' split
    all_goals constructor <;> simp [Seg.successors, guardedAt]
  | _ =>
    simp only [Seg.finish] at h
    cases h
    constructor <;> simp [Seg.successors, guardedAt, Seg.erasing]

end Sys2Proof.Machine
end

section
/-! The invariant of the sequencer, stated of a point: what it says of the machine before micro-operation `p` of stretch
`g`. An act carries it to the points that follow, and the end of a stretch from the stretch's end to the next one. -/

namespace Sys2Proof.Machine

/-! ### The parts of the invariant -/

/-- What the invariant says at a point of the profile, the memories, the buffers, the control bits, the watchdog and the
interrupt mask. -/
structure State.At (s : State) (g : Seg) (p : Nat) : Prop where
  profile : s.profile.wf = true
  env : s.env.wf = true
  rbuf : s.ctx.rbuf.length = s.profile.pageBytes
  obuf : s.ctx.obuf.length = s.profile.obufBytes
  status : ∀ k, s.fcr k &&& s.profile.regLayout.statusMask = 0
  control : ∀ k f, s.bit k f = (decide (k = s.ctx.bank) && decide (f ∈ controlAt g p))
  guard : s.guards g p s.wdt
  mask : maskedAt g p = true → s.irq.mask = true
  uword : s.port.uword = none

/-- What the invariant says at a point of the block of an erase and of the block-enable registers. -/
structure State.SelectsAt (s : State) (g : Seg) (p : Nat) : Prop where
  block : g.erasing = true →
    s.opr.index.toNat < s.profile.blockCount ∧ s.ctx.bank = s.profile.blockBank s.opr.index.toNat
  one : g.selectedBlock = true →
    s.ebr s.ctx.bank = s.profile.ebrMask s.opr.index.toNat ∧ s.ebr s.ctx.bank.other = 0
  first : g = .eSelect → p = 1 → s.ebr s.ctx.bank.other = 0

theorem watchdogWf_iff {s : State} : s.watchdogWf = true ↔ s.guards s.seq.seg s.seq.pos s.wdt := by
  have hw (w : Watchdog) (d : Divisor) (n : Nat) :
      w = { run := true, div := d, rste := true, cnt := n } ↔ w.run ∧ w.rste ∧ w.div = d ∧ w.cnt = n := by
    obtain ⟨r, e, b, m⟩ := w
    simp only [Watchdog.mk.injEq]
    tauto
  unfold State.watchdogWf State.guards
  split
  · simp only [hw, Bool.and_eq_true, decide_eq_true_eq, and_assoc]
    rfl
  · simp

theorem forall_field {P : Field → Prop} : (∀ f ∈ Field.all, P f) ↔ ∀ f, P f :=
  ⟨fun h f => h f (by cases f <;> simp [Field.all]), fun h f _ => h f⟩

theorem forall_bank {P : Bank → Prop} : (∀ k ∈ [Bank.b0, Bank.b1], P k) ↔ ∀ k, P k :=
  ⟨fun h k => h k (by cases k <;> simp), fun h k _ => h k⟩

theorem inv_iff {s : State} : s.Inv = true ↔ s.At s.seq.seg s.seq.pos ∧ s.SelectsAt s.seq.seg s.seq.pos ∧
    s.posWf = true ∧ s.readWf = true := by
  have hst : s.statusBitsClear = true ↔ ∀ k, s.fcr k &&& s.profile.regLayout.statusMask = 0 := by
    rw [State.statusBitsClear, List.all_eq_true, forall_bank]
    simp
  have hct : s.controlWf = true ↔
      ∀ k f, s.bit k f = (decide (k = s.ctx.bank) && decide (f ∈ controlAt s.seq.seg s.seq.pos)) := by
    simp only [State.controlWf, List.all_eq_true, forall_bank, forall_field, beq_iff_eq]
  simp only [State.Inv, State.buffersWf, State.maskWf, State.selectionWf, Bool.and_eq_true, hst, hct, watchdogWf_iff,
    decide_eq_true_eq, Bool.or_eq_true, Bool.not_eq_true', ← Bool.not_eq_true, ← imp_iff_not_or, and_imp]
  constructor
  · rintro ⟨⟨⟨⟨⟨⟨⟨⟨⟨⟨h1, h2⟩, h3, h4⟩, h5⟩, h6⟩, h7⟩, h8⟩, h9⟩, ⟨h10, h11⟩, h12⟩, h13⟩, h14⟩
    exact ⟨⟨h1, h2, h3, h4, h5, h7, h8, h9, h14⟩, ⟨h10, h11, h12⟩, h6, h13⟩
  · rintro ⟨⟨h1, h2, h3, h4, h5, h7, h8, h9, h14⟩, ⟨h10, h11, h12⟩, h6, h13⟩
    exact ⟨⟨⟨⟨⟨⟨⟨⟨⟨⟨h1, h2⟩, h3, h4⟩, h5⟩, h6⟩, h7⟩, h8⟩, h9⟩, ⟨h10, h11⟩, h12⟩, h13⟩, h14⟩

/-! ### What an act does to the registers -/

theorem act_after_regs {a : Act} (s : State) (h : a.code ≠ 0x1) : (a.after s).regs = s.regs := by
  cases a with
  | write _ _ | setBit _ _ | clrBit _ _ => exact absurd rfl h
  | _ => rfl

/-- The read-only status bit stays stored as 0 (R33, R111). -/
theorem status_act_after {a : Act} {s : State} (h : ∀ k, s.fcr k &&& s.profile.regLayout.statusMask = 0) (k : Bank) :
    (a.after s).fcr k &&& s.profile.regLayout.statusMask = 0 := by
  have hw : ∀ j v, (s.regWrite (.fcr j) v).fcr k &&& s.profile.regLayout.statusMask = 0 := fun j v => by
    rw [fcr_regWrite_fcr]
    split
    · exact and_not_and_self _ v
    · exact h k
  cases a with
  | write r v =>
    cases r with
    | fcr j => exact hw j v
    | ebr j => exact (congrArg (· &&& _) (fcr_regWrite_ebr s j k v)).trans (h k)
  | setBit j f | clrBit j f => exact hw j _
  | _ => exact h k

/-- `BitSet` and `BitClr` change their own control bit and no other, where the value read is the register's (R112,
R113). -/
theorem control_act_after {a : Act} {s : State} {b : Bank} {c : List Field} (hl : s.profile.regLayout.wf = true)
    (hb : a.ofBank b = true)
    (hr : ∀ k f, a = .setBit k f ∨ a = .clrBit k f → s.loc.rd &&& ~~~s.profile.regLayout.statusMask = s.fcr k)
    (hc : ∀ k f, s.bit k f = (decide (k = b) && decide (f ∈ c))) (k : Bank) (f : Field) :
    (a.after s).bit k f = (decide (k = b) && decide (f ∈ a.controls c)) := by
  have hrd : ∀ j g, a = .setBit j g ∨ a = .clrBit j g →
      s.loc.rd.getLsbD (s.profile.regLayout.bit f).val = s.bit j f := fun j g h => by
    rw [← getLsbD_and_not_statusMask hl, hr j g h, State.bit]
  cases a with
  | write r v =>
    cases r with
    | fcr j => cases hb
    | ebr j =>
      refine Eq.trans ?_ (hc k f)
      show ((s.regWrite (.ebr j) v).fcr k).getLsbD _ = _
      rw [fcr_regWrite_ebr]
      rfl
  | setBit j g =>
    obtain rfl : j = b := of_decide_eq_true hb
    refine (bit_regWrite_fcr hl j k _ f).trans ?_
    rw [BitVec.getLsbD_or, hrd j g (.inl rfl), getLsbD_mask hl, hc, hc]
    by_cases hk : k = j <;> simp [hk, Act.controls]
  | clrBit j g =>
    obtain rfl : j = b := of_decide_eq_true hb
    refine (bit_regWrite_fcr hl j k _ f).trans ?_
    rw [BitVec.getLsbD_and, getLsbD_not, hrd j g (.inr rfl), getLsbD_mask hl, hc, hc]
    by_cases hk : k = j <;> simp [hk, Act.controls]
  | _ => exact hc k f

theorem mask_act_after (a : Act) {s : State} {b : Bool} (h : b = true → s.irq.mask = true)
    (ha : a.masks b = true) : (a.after s).irq.mask = true := by
  cases a with
  | irqMask => rfl
  | irqRestore => cases ha
  | write r v => cases r <;> exact h ha
  | _ => exact h ha

theorem guards_congr {s t : State} {g : Seg} {p : Nat} {w : Watchdog} (hp : t.profile = s.profile)
    (hn : guardedAt g p = true → t.ctx.n = s.ctx.n) : t.guards g p w ↔ s.guards g p w := by
  unfold State.guards
  split
  · next hg => simp only [State.guardCount, State.place, hp, hn hg]
  · rfl

/-! ### The invariant along an act -/

/-- Before the second half of a `BitSet` or `BitClr` the value read is the register's. -/
theorem readWf_iff {s : State} : s.readWf = true ↔ ∀ k f, s.act = some (.setBit k f) ∨ s.act = some (.clrBit k f) →
    s.loc.rd &&& ~~~s.profile.regLayout.statusMask = s.fcr k := by
  unfold State.readWf
  split
  · next hk => simp [hk]
  · next hk => simp [hk]
  · next h1 h2 => exact ⟨fun _ k f hk => hk.elim (fun e => absurd e (h1 k f)) (fun e => absurd e (h2 k f)), fun _ => rfl⟩

/-- The points that can follow the one the sequencer stands at. -/
def State.Next (s : State) (h : Seg) (q : Nat) : Prop := Follows s.seq.seg (s.seq.seg.acts s).length s.seq.pos h q

theorem effect_of_act {s : State} {a : Act} (ha : s.act = some a) {h : Seg} {q : Nat} (hf : s.Next h q) :
    Effect s s.seq.seg a s.seq.pos h q := by
  have := along_at (i := s.seq.pos) (along_effect s s.seq.seg) ha (by rwa [Nat.zero_add, Nat.zero_add])
  rwa [Nat.zero_add] at this

theorem order_of_act {s : State} {a : Act} (ha : s.act = some a) {h : Seg} {q : Nat} (hf : s.Next h q) :
    Order s s.seq.seg a s.seq.pos h q := by
  have := along_at (i := s.seq.pos) (along_order s s.seq.seg) ha (by rwa [Nat.zero_add, Nat.zero_add])
  rwa [Nat.zero_add] at this

theorem at_act_after {s : State} {a : Act} (hs : s.At s.seq.seg s.seq.pos) (hr : s.readWf = true)
    (ha : s.act = some a) {h : Seg} {q : Nat} (hf : s.Next h q) : (a.after s).At h q := by
  obtain ⟨⟨hb, hc⟩, hm, hg⟩ := effect_of_act ha hf
  obtain ⟨hp, hport, -, -, -, -, -, hw, -, -⟩ := act_after_fields a s
  obtain ⟨hx, hrb⟩ := act_after_ctx a s
  constructor
  · rw [hp]; exact hs.profile
  · show (a.store _).env.wf = true
    rw [(actStore_fields _ a).2.2.2.2.2.2.2.2.2.1]
    exact after_env_wf _ s hs.env
  · rw [hrb, hp]; exact hs.rbuf
  · rw [hx, hp]; exact hs.obuf
  · rw [hp]; exact status_act_after hs.status
  · rw [hx, ← hc]
    exact control_act_after (layout_of_wf hs.profile) hb
      (fun k f hk => readWf_iff.1 hr k f (by simpa [ha] using hk)) hs.control
  · rw [guards_congr hp fun _ => by rw [hx], hw]
    exact hg _ hs.guard
  · intro hmh
    exact mask_act_after a hs.mask (hm.trans hmh)
  · rw [hport]; exact hs.uword

theorem other_ne (k : Bank) : k.other ≠ k := by cases k <;> decide

theorem act_of_select {s : State} {a : Act} (hg : s.seq.seg = .eSelect) (ha : s.act = some a) :
    (s.seq.pos = 0 → a = .write (.ebr (s.profile.blockBank s.opr.index.toNat).other) 0) ∧
    (s.seq.pos = 1 →
      a = .write (.ebr (s.profile.blockBank s.opr.index.toNat)) (s.profile.ebrMask s.opr.index.toNat)) := by
  rw [State.act, hg] at ha
  constructor <;> (intro hp; rw [hp] at ha; exact (Option.some.inj ha).symm)

/-- `SelectBlock` writes the two block-enable registers in R154's order; no other stretch writes one. -/
theorem selectsAt_act_after {s : State} {a : Act} (hs : s.SelectsAt s.seq.seg s.seq.pos) (ha : s.act = some a)
    {h : Seg} {q : Nat} (hf : s.Next h q) : (a.after s).SelectsAt h q := by
  obtain ⟨-, he, hsel, hfst, hw⟩ := order_of_act ha hf
  obtain ⟨hp, -, -, hopr, -⟩ := act_after_fields a s
  have hx := (act_after_ctx a s).1
  have hblock : h.erasing = true → (a.after s).opr.index.toNat < (a.after s).profile.blockCount ∧
      (a.after s).ctx.bank = (a.after s).profile.blockBank (a.after s).opr.index.toNat := by
    rw [hp, hopr, hx]
    exact fun hh => hs.block (he hh)
  by_cases hg : s.seq.seg = .eSelect
  · have hb : s.ctx.bank = s.profile.blockBank s.opr.index.toNat := (hs.block (by rw [hg]; rfl)).2
    obtain ⟨h0, h1⟩ := act_of_select hg ha
    refine ⟨hblock, fun hh => ?_, fun hh hq => ?_⟩
    · have hpos := ((hsel hh).resolve_left (by rw [hg]; exact Bool.false_ne_true)).2
      obtain rfl := h1 hpos
      have hz := hs.first hg hpos
      rw [hx, hp, hopr]
      rw [hb] at hz ⊢
      exact ⟨(ebr_regWrite_ebr s _ _ _).trans (if_pos rfl), ((ebr_regWrite_ebr s _ _ _).trans (if_neg (other_ne _))).trans hz⟩
    · obtain rfl := h0 (hfst hh hq).2
      rw [hx, hb]
      exact (ebr_regWrite_ebr s _ _ _).trans (if_pos rfl)
  · have hebr : ∀ k, (a.after s).ebr k = s.ebr k := by
      intro k
      cases a with
      | write r v => exact absurd (hw r v rfl) hg
      | setBit j f | clrBit j f => exact ebr_regWrite_fcr s j k _
      | _ => rfl
    refine ⟨hblock, fun hh => ?_, fun hh hq => absurd (hfst hh hq).1 hg⟩
    rw [hp, hopr, hx, hebr, hebr]
    exact hs.one ((hsel hh).resolve_right fun h => hg h.1)

/-- After a read of `FCR[k]` the value read is the register's, but for the status bit (R110). -/
theorem content_and_not_statusMask {s : State} (h : ∀ k, s.fcr k &&& s.profile.regLayout.statusMask = 0) (k : Bank) :
    s.content (.fcr k) &&& ~~~s.profile.regLayout.statusMask = s.fcr k := by
  have hk := h k
  rw [State.content]
  generalize s.fcr k = x at hk ⊢
  generalize s.profile.regLayout.statusMask = m at hk ⊢
  refine BitVec.eq_of_getLsbD_eq fun i hi => ?_
  have hi' := congrArg (BitVec.getLsbD · i) hk
  simp only [BitVec.getLsbD_and] at hi'
  cases s.statusInput k <;> cases hx : x.getLsbD i <;> cases hm : m.getLsbD i <;> simp_all

/-- The value read stays right from an act of a stretch to the next. -/
theorem readWf_act_after {s : State} {a : Act} (hst : ∀ k, s.fcr k &&& s.profile.regLayout.statusMask = 0)
    (ha : s.act = some a) (hlt : s.seq.pos + 1 < (s.seq.seg.acts s).length) :
    ((a.after s).place s.seq.seg (s.seq.pos + 1)).readWf = true := by
  have hnext : s.Next s.seq.seg (s.seq.pos + 1) := by
    unfold State.Next Follows
    rw [if_pos hlt]
    exact ⟨rfl, rfl⟩
  have hread := (order_of_act ha hnext).1
  have hact : ((a.after s).place s.seq.seg (s.seq.pos + 1)).act = (s.seq.seg.acts s)[s.seq.pos + 1]? := by
    show (s.seq.seg.acts ((a.after s).place s.seq.seg (s.seq.pos + 1)))[s.seq.pos + 1]? = _
    rw [acts_place, acts_after]
  refine readWf_iff.2 fun k f hk => ?_
  rw [hact] at hk
  obtain rfl := hread k f hk
  exact content_and_not_statusMask hst k

/-- No stretch begins with the second half of a `BitSet` or `BitClr`. -/
theorem readWf_of_pos_zero {s : State} (h : s.seq.pos = 0) : s.readWf = true := by
  refine readWf_iff.2 fun k f hk => ?_
  exfalso
  rw [State.act, h] at hk
  revert hk
  cases s.seq.seg <;>
    simp [Seg.acts, precondActs, bitOn, bitOff, selectActs, acquireActs, windowActs, cleanupActs, evEnterActs,
      evWordActs, evExitActs, lockActs, unlockActs, pvEnterActs, pvWordActs, pvExitActs]

/-- A position of a stretch is a micro-operation of it, or 0 in a stretch without any. -/
theorem posWf_of_pos_zero {s : State} (h : s.seq.pos = 0) : s.posWf = true := by
  unfold State.posWf
  rw [h]
  cases s.seq.seg.acts s <;> simp

/-! ### The invariant at the end of a stretch -/

/-- The stretches that make no access. -/
theorem mem_of_no_acts {s : State} {g : Seg} (h : g.acts s = []) :
    g ∈ [Seg.idle, .validate, .eRetry, .wRetry, .nextPage] := by
  have hpage : s.profile.pageBytes ≠ 0 := by rcases pageBytes_cases s.profile with hp | hp <;> omega
  cases g with
  | wCopy | wLatch | oLatch => simp [Seg.acts, copyActs, latchActs, latchOvwActs, hpage] at h
  | idle | validate | eRetry | wRetry | nextPage => decide
  | _ =>
    simp [Seg.acts, precondActs, bitOn, bitOff, selectActs, acquireActs, windowActs, cleanupActs, evEnterActs,
      evWordActs, evExitActs, lockActs, unlockActs, pvEnterActs, pvWordActs, pvExitActs] at h

/-- Points with the same control bits, outside guard scopes and the mask window. -/
def SamePoint (g h : Seg) : Prop :=
  controlAt h 0 = controlAt g 0 ∧ (guardedAt h 0 = false ∧ guardedAt g 0 = false) ∧ maskedAt h 0 = false ∧
    (h.erasing = true → g.erasing = true ∨ g = .validate) ∧ h.selectedBlock = false

theorem samePoint_of_no_acts {s : State} {g h : Seg} (hg : g.acts s = []) (hh : h ∈ g.successors) : SamePoint g h := by
  have hm := mem_of_no_acts hg
  clear hg
  simp only [List.mem_cons, List.not_mem_nil, or_false] at hm
  unfold SamePoint
  rcases hm with rfl | rfl | rfl | rfl | rfl <;> revert h <;> decide

/-- A stretch without micro-operations leaves the invariant as it is at the beginning of each stretch after it. -/
theorem at_of_no_acts {s : State} {g : Seg} (hs : s.At g 0) (hg : g.acts s = []) {h : Seg} (hh : h ∈ g.successors) :
    s.At h 0 := by
  obtain ⟨hc, ⟨hgh, hgg⟩, hm, -, -⟩ := samePoint_of_no_acts hg hh
  have hguard := hs.guard
  unfold State.guards at hguard
  rw [hgg] at hguard
  exact { hs with
    control := by rw [hc]; exact hs.control
    guard := by unfold State.guards; rw [hgh]; exact hguard
    mask := by rw [hm]; exact fun h => absurd h Bool.false_ne_true }

theorem selectsAt_of_no_acts {s : State} {g : Seg} (hs : s.SelectsAt g 0) (hg : g.acts s = []) (hv : g ≠ .validate)
    {h : Seg} (hh : h ∈ g.successors) : s.SelectsAt h 0 := by
  obtain ⟨-, -, -, he, hn⟩ := samePoint_of_no_acts hg hh
  exact ⟨fun h => hs.block ((he h).resolve_right hv), fun h => absurd h (by simp [hn]),
    fun _ h => absurd h Nat.zero_ne_one⟩

/-- The points after `Validate` and `NextPage` have no control bit set and no block selected; the only one of an erase
comes after `Validate`. -/
theorem unlocked_after {g h : Seg} (hg : g = .validate ∨ g = .nextPage) (hh : h ∈ g.successors) :
    controlAt h 0 = [] ∧ h.selectedBlock = false ∧ (h.erasing = true → g = .validate) := by
  rcases hg with rfl | rfl <;> revert h <;> decide

theorem erasing_of_selectedBlock {g : Seg} (h : g.selectedBlock = true) : g.erasing = true := by
  cases g with
  | eArm | eArmed | ePulse | eSettle => rfl
  | _ => cases h

theorem at_finish {g : Seg} {s t : State} (hm : Moved g s t) (hq : Quiet s { t with armed := s.armed })
    (hs : s.At t.seq.seg 0) : t.At t.seq.seg 0 := by
  have hp : t.profile = s.profile := hq.profile
  have hr : t.regs = s.regs := hq.regs
  have hw : t.wdt = s.wdt := hq.wdt
  have hi : t.irq = s.irq := hq.irq
  have he : t.env = s.env := hq.env
  constructor
  · rw [hp]; exact hs.profile
  · rw [he]; exact hs.env
  · rw [hm.rbuf, hp]; exact hs.rbuf
  · rw [hm.obuf, hp]; exact hs.obuf
  · intro k
    rw [fcr_of_regs hr, hp]; exact hs.status k
  · intro k f
    rw [bit_of_regs hp hr, hs.control]
    rcases hm.bank with hb | hg
    · rw [hb]
    · simp [(unlocked_after hg hm.seg).1]
  · rw [guards_congr hp hm.n, hw]; exact hs.guard
  · rw [hi]; exact hs.mask
  · rw [hm.uword]; exact hs.uword

theorem selectsAt_finish {g : Seg} {s t : State} (hm : Moved g s t) (hq : Quiet s { t with armed := s.armed })
    (hs : g ≠ .validate → s.SelectsAt t.seq.seg 0) : t.SelectsAt t.seq.seg 0 := by
  have hp : t.profile = s.profile := hq.profile
  have hr : t.regs = s.regs := hq.regs
  refine ⟨fun hh => ?_, fun hh => ?_, fun _ h0 => absurd h0 Nat.zero_ne_one⟩
  · obtain ⟨hi, hv⟩ := hm.block hh
    rw [hi, hp]
    rcases hv with hv | hres
    · obtain ⟨hlt, hbank⟩ := (hs hv).block hh
      refine ⟨hlt, Eq.trans (hm.bank.resolve_right fun hg => ?_) hbank⟩
      exact hv ((unlocked_after hg hm.seg).2.2 hh)
    · exact hres
  · have hg : ¬ (g = .validate ∨ g = .nextPage) := fun hg => by
      rw [(unlocked_after hg hm.seg).2.1] at hh
      cases hh
    have hi := (hm.block (erasing_of_selectedBlock hh)).1
    rw [ebr_of_regs hr, ebr_of_regs hr, hp, hi, hm.bank.resolve_right hg]
    exact (hs fun hv => hg (.inl hv)).one hh

/-! ### The invariant after a reset -/

theorem inv_afterReset {p : DeviceProfile} {env : Env} (moment : Nat) (hp : p.wf = true) (he : env.wf = true) :
    (State.afterReset p env moment).Inv = true := by
  refine inv_iff.2 ⟨⟨hp, he, by simp [State.afterReset], by simp [State.afterReset], ?_, ?_, rfl, ?_, rfl⟩, ⟨?_, ?_, ?_⟩,
    posWf_of_pos_zero rfl, readWf_of_pos_zero rfl⟩
  · intro k; cases k <;> exact BitVec.zero_and
  · intro k f
    rw [show controlAt _ _ = [] from rfl]
    cases k <;> simp [State.bit, State.fcr, State.afterReset]
  all_goals intro h; cases h

/-- Settles O10: after a reset the sequencer is idle, where the address invariant says nothing. -/
theorem invAtReset : Obligations.InvAtReset :=
  ⟨fun _ _ m hp he => ⟨inv_afterReset m hp he, rfl⟩, inv_afterReset 0 (by decide) (by decide), rfl⟩

/-! ### Every step -/

theorem at_place {s : State} {g : Seg} {p : Nat} (h : s.At g p) (g' : Seg) (p' : Nat) : (s.place g' p').At g p :=
  ⟨h.profile, h.env, h.rbuf, h.obuf, h.status, h.control, h.guard, h.mask, h.uword⟩

theorem selectsAt_place {s : State} {g : Seg} {p : Nat} (h : s.SelectsAt g p) (g' : Seg) (p' : Nat) :
    (s.place g' p').SelectsAt g p := ⟨h.block, h.one, h.first⟩

/-- Where there is no act to perform, the stretch has none. -/
theorem no_acts_of_posWf {s : State} (hp : s.posWf = true) (ha : s.act = none) :
    s.seq.seg.acts s = [] ∧ s.seq.pos = 0 := by
  have hge := List.getElem?_eq_none_iff.1 ha
  simp only [State.posWf, Bool.or_eq_true, Bool.and_eq_true, decide_eq_true_eq] at hp
  exact hp.resolve_left (Nat.not_lt.2 hge)

theorem pos_of_idle {s : State} (hp : s.posWf = true) (hi : s.seq.seg = .idle) : s.seq.pos = 0 :=
  (no_acts_of_posWf hp (by simp [State.act, hi, Seg.acts])).2

theorem inv_of_pos_zero {s : State} (hp : s.seq.pos = 0) (hs : s.At s.seq.seg 0) (hsel : s.SelectsAt s.seq.seg 0) :
    s.Inv = true :=
  inv_iff.2 ⟨by rw [hp]; exact hs, by rw [hp]; exact hsel, posWf_of_pos_zero hp, readWf_of_pos_zero hp⟩

/-- Settles O11: an act carries the invariant to each point that can follow, and the end of a stretch keeps it. -/
theorem stepKeepsInv : Obligations.StepKeepsInv := by
  intro s t hinv h
  obtain ⟨hs, hsel, hpos, hread⟩ := inv_iff.1 hinv
  cases hr : s.port.resetPin with
  | true =>
    obtain rfl := Host.Outcome.next.inj ((step_of_resetPin hr).symm.trans h)
    exact inv_afterReset _ hs.profile (systemReset_env_wf s hs.env)
  | false =>
    rcases step_cases hr hs.uword h with ⟨ha, hf⟩ | ⟨a, ha, -, -, ⟨hlt, rfl⟩ | ⟨hge, hf⟩⟩
    · obtain ⟨hnil, hzero⟩ := no_acts_of_posWf hpos ha
      rw [hzero] at hs hsel
      have hm := finish_moved (fun _ => hzero) rfl hf
      have hq := (finish_fields hf).1
      exact inv_of_pos_zero hm.pos (at_finish hm hq (at_of_no_acts hs hnil hm.seg))
        (selectsAt_finish hm hq fun hv => selectsAt_of_no_acts hsel hnil hv hm.seg)
    · have hnext : s.Next s.seq.seg (s.seq.pos + 1) := by
        unfold State.Next Follows
        rw [if_pos hlt]
        exact ⟨rfl, rfl⟩
      have hseq := (act_after_fields a s).2.2.1
      have hplace : { a.after s with seq := { s.seq with pos := s.seq.pos + 1 } } =
          (a.after s).place s.seq.seg (s.seq.pos + 1) := by rw [State.place, hseq]
      rw [hplace]
      refine inv_iff.2 ⟨at_place (at_act_after hs hread ha hnext) _ _,
        selectsAt_place (selectsAt_act_after hsel ha hnext) _ _, ?_, readWf_act_after hs.status ha hlt⟩
      simp only [State.posWf, Bool.or_eq_true, decide_eq_true_eq]
      refine .inl ?_
      show s.seq.pos + 1 < (s.seq.seg.acts ((a.after s).place s.seq.seg (s.seq.pos + 1))).length
      rwa [acts_place, acts_after]
    · have hseq := (act_after_fields a s).2.2.1
      have hm := finish_moved (g := s.seq.seg) (s := a.after s) (by rw [hseq]; exact pos_of_idle hpos)
        (by rw [hseq]) hf
      have hq := (finish_fields hf).1
      have hnext : s.Next t.seq.seg 0 := by
        unfold State.Next Follows
        rw [if_neg (Nat.not_lt.2 hge)]
        exact ⟨hm.seg, rfl⟩
      exact inv_of_pos_zero hm.pos (at_finish hm hq (at_act_after hs hread ha hnext))
        (selectsAt_finish hm hq fun _ => selectsAt_act_after hsel ha hnext)

end Sys2Proof.Machine
end

section
/-! What the invariant rules out: illegal control bits (R33, R265), and a fault in any step (R40, R62, R143). -/

namespace Sys2Proof.Machine

/-! ### Control bits -/

theorem controlAt_legal (g : Seg) (p : Nat) : controlAt g p ∈ legalControls := by
  cases g <;> simp only [controlAt] <;> repeat' split
  all_goals decide

/-- The legal sets are written in the order of the fields (R33). -/
theorem filter_mem_legal : ∀ c ∈ legalControls, Field.all.filter (fun f => decide (f ∈ c)) = c := by decide

/-- Settles O15: the control bits are those of the sequencer's point, in the selected bank alone. -/
theorem controlBitsLegal : Obligations.ControlBitsLegal := by
  intro s h
  obtain ⟨hs, -⟩ := inv_iff.1 h
  have hl := controlAt_legal s.seq.seg s.seq.pos
  constructor
  · have hb : s.bit s.ctx.bank = fun f => decide (f ∈ controlAt s.seq.seg s.seq.pos) :=
      funext fun f => by simp [hs.control]
    rw [hb, filter_mem_legal _ hl]
    exact hl
  · have hb : s.bit s.ctx.bank.other = fun _ => false := funext fun f => by simp [hs.control, other_ne]
    rw [hb]
    rfl

/-! ### The watchdog -/

theorem pulseCount_le (part p : Nat) (setup width hold setupHold : Word) :
    pulseCount part p setup width hold setupHold ≤ setup.toNat + width.toNat + hold.toNat + setupHold.toNat := by
  unfold pulseCount
  split
  · split <;> omega
  · split
    · omega
    · split <;> omega

/-- The delays begun at a point of a guard scope are no more than those of its whole body (R146). -/
theorem guardCount_le {s : State} {g : Seg} {p : Nat} (hg : guardedAt g p = true) :
    let d := s.profile.delays
    guardDivisor s.profile g = s.profile.wdtDivErase ∧
        (s.place g p).guardCount ≤ d.esuSetup.toNat + d.ePulse.toNat + d.eHold.toNat + d.esuHold.toNat ∨
      guardDivisor s.profile g = s.profile.wdtDivProgram ∧
        (s.place g p).guardCount ≤ d.psuSetup.toNat + max (max d.pShort.toNat d.pLong.toNat) d.pAdd.toNat +
          d.pHold.toNat + d.psuHold.toNat := by
  have hwidth : (s.profile.pulseWidth s.ctx.n).toNat ≤
      max (max s.profile.delays.pShort.toNat s.profile.delays.pLong.toNat) s.profile.delays.pAdd.toNat := by
    unfold DeviceProfile.pulseWidth
    split <;> omega
  dsimp only
  cases g with
  | eArm | eArmed => exact .inl ⟨rfl, Nat.zero_le _⟩
  | wArm | oArm => exact .inr ⟨rfl, Nat.zero_le _⟩
  | ePulse | eSettle =>
    refine .inl ⟨rfl, ?_⟩
    simp only [State.guardCount, State.place]
    exact pulseCount_le _ _ _ _ _ _
  | wPulse | wSettle | oPulse | oSettle =>
    refine .inr ⟨rfl, ?_⟩
    simp only [State.guardCount, State.place]
    exact (pulseCount_le _ _ _ _ _ _).trans (by omega)
  | _ => cases hg

/-- At no point of a guard scope is an overflow admitted, under a profile that meets R146 (R143). -/
theorem calm_of_guards {s : State} {g : Seg} {p : Nat} {w : Watchdog} (h : s.profile.guardWf = true)
    (hw : s.guards g p w) : w.calm s.profile = true := by
  unfold State.guards at hw
  split at hw
  · next hg =>
    subst hw
    simp only [DeviceProfile.guardWf, Bool.and_eq_true, decide_eq_true_eq] at h
    simp only [DeviceProfile.eraseBodyCycles, DeviceProfile.programBodyCycles] at h
    simp only [Watchdog.calm, Bool.and_self, Bool.not_true, Bool.false_or, decide_eq_true_eq]
    rcases guardCount_le (s := s) hg with ⟨hd, hc⟩ | ⟨hd, hc⟩ <;>
    · have := Nat.mul_le_mul_left s.profile.cycPerIter hc
      rw [hd]
      omega
  · exact calm_of_stopped hw

/-! ### Addresses -/

/-- The entries of a well-formed table rise (R151). -/
theorem tableAt_mono {p : DeviceProfile} (h : p.wf = true) {i j : Nat} (hij : i ≤ j) (hj : j ≤ p.blockCount) :
    (p.tableAt i).toNat ≤ (p.tableAt j).toNat := by
  obtain ⟨hr, hl, -, -⟩ := table_of_wf h
  have hjl : j < p.table.length := by unfold DeviceProfile.blockCount at hj; omega
  unfold DeviceProfile.tableAt
  rw [List.getD_eq_getElem _ _ hjl, List.getD_eq_getElem _ _ (Nat.lt_of_le_of_lt hij hjl)]
  rcases Nat.lt_or_eq_of_le hij with hlt | rfl
  · exact Nat.le_of_lt (BitVec.lt_def.1 (List.pairwise_iff_getElem.1 (List.isChain_iff_pairwise.1 hr) _ _ _ _ hlt))
  · exact Nat.le_refl _

/-- The entries of a well-formed table are multiples of the page, and so is the end of the flash (R151). -/
theorem tableAt_aligned {p : DeviceProfile} (h : p.wf = true) {i : Nat} (hi : i ≤ p.blockCount) :
    (p.tableAt i).toNat % p.pageBytes = 0 := by
  have hl := (table_of_wf h).2.1
  have hil : i < p.table.length := by unfold DeviceProfile.blockCount at hi; omega
  simp only [DeviceProfile.wf, DeviceProfile.tableWf, Bool.and_eq_true, List.all_eq_true, decide_eq_true_eq] at h
  obtain ⟨⟨⟨⟨⟨⟨-, hall⟩, -⟩, -⟩, -⟩, -⟩, -⟩ := h
  unfold DeviceProfile.tableAt
  rw [List.getD_eq_getElem _ _ hil]
  exact hall _ (List.getElem_mem _)

theorem tableAt_le_flashMax {p : DeviceProfile} (h : p.wf = true) {i : Nat} (hi : i ≤ p.blockCount) :
    (p.tableAt i).toNat ≤ p.flashMax.toNat + 1 :=
  (table_of_wf h).2.2.1 ▸ tableAt_mono h hi (Nat.le_refl _)

/-- A page of the flash lies in it whole (R163). -/
theorem page_le_flashMax {p : DeviceProfile} (h : p.wf = true) {a : Nat} (ha : a % p.pageBytes = 0)
    (hle : a ≤ p.flashMax.toNat) : a + p.pageBytes ≤ p.flashMax.toNat + 1 := by
  have hend := tableAt_aligned h (Nat.le_refl _)
  rw [(table_of_wf h).2.2.1] at hend
  rcases pageBytes_cases p with hp | hp <;> rw [hp] at ha hend ⊢ <;> omega

/-- A word that begins in a block at a multiple of 4 ends in it (R151, R172). -/
theorem word_le_tableAt {p : DeviceProfile} (h : p.wf = true) {i a : Nat} (hi : i ≤ p.blockCount) (ha : a % 4 = 0)
    (hlt : a < (p.tableAt i).toNat) : a + 4 ≤ (p.tableAt i).toNat := by
  have hend := tableAt_aligned h hi
  rcases pageBytes_cases p with hp | hp <;> rw [hp] at hend <;> omega

theorem offset_toNat {a : Word} {i : Nat} (h : a.toNat + i < 2 ^ 32) : (offset a i).toNat = a.toNat + i := by
  rw [offset, BitVec.toNat_add, BitVec.toNat_ofNat, Nat.add_mod_mod, Nat.mod_eq_of_lt h]

/-- The acts that access the flash: the latch passes of a page and the two accesses of a verify word (R172, R191,
R193). -/
theorem reaches_cases {s : State} {g : Seg} {a : Act} (ha : a ∈ g.acts s) :
    (g.writing = true ∧ ∃ i < s.profile.pageBytes, a = .latch i ∨ a = .latchOvw i) ∨
      ((g = .evWord ∨ g = .pvWord) ∧ (a = .probe ∨ a = .readBack)) ∨ a.reaches s = true := by
  cases g with
  | wCopy =>
    obtain ⟨i, -, rfl⟩ := List.mem_map.1 ha
    exact .inr (.inr rfl)
  | wLatch | oLatch =>
    obtain ⟨i, hi, rfl⟩ := List.mem_map.1 ha
    exact .inl ⟨rfl, i, List.mem_range.1 hi, by simp⟩
  | _ =>
    revert a
    simp [Seg.acts, precondActs, bitOn, bitOff, selectActs, acquireActs, releaseActs, windowActs, cleanupActs,
      evEnterActs, evWordActs, evExitActs, lockActs, unlockActs, pvEnterActs, pvWordActs, pvExitActs, srcWordActs,
      Act.reaches]

/-- Every flash access of the sequencer is aligned and inside the flash (R40, R62). -/
theorem reaches_of_addressesWf {s : State} {a : Act} (hs : s.At s.seq.seg s.seq.pos)
    (hsel : s.SelectsAt s.seq.seg s.seq.pos) (h : s.addressesWf = true) (ha : a ∈ s.seq.seg.acts s) :
    a.reaches s = true := by
  simp only [State.addressesWf, State.pageWf, Bool.and_eq_true, Bool.or_eq_true, Bool.not_eq_true',
    ← Bool.not_eq_true, decide_eq_true_eq, ← imp_iff_not_or, BitVec.le_def, BitVec.lt_def] at h
  obtain ⟨⟨⟨⟨⟨hpage, hctx⟩, hword⟩, hblk⟩, hscan⟩, -⟩ := h
  have hmax := flashMax_add_page hs.profile
  rcases reaches_cases ha with ⟨hw, i, hi, hai⟩ | ⟨hg, hap⟩ | hr
  · obtain ⟨⟨⟨hal, -⟩, -⟩, hle⟩ := hpage (.inl hw)
    have hend := page_le_flashMax hs.profile hal hle
    have hoff : s.profile.hasFlashByte (offset s.ctx.pgDest i) = true := by
      rw [DeviceProfile.hasFlashByte, (hctx hw).1.1, decide_eq_true_eq, BitVec.le_def, offset_toNat (by omega)]
      omega
    rcases hai with rfl | rfl <;> exact hoff
  · have hreach : s.profile.wordReachable s.ctx.vaddr = true := by
      simp only [DeviceProfile.wordReachable, DeviceProfile.hasFlashWord, Bool.and_eq_true, decide_eq_true_eq]
      rcases hg with hg | hg
      · obtain ⟨⟨hal, -⟩, hlt⟩ := hscan hg
        have he : s.seq.seg.erasing = true := by rw [hg]; rfl
        have hidx := (hsel.block he).1
        rw [(hblk he).2] at hlt
        have := word_le_tableAt hs.profile hidx hal hlt
        have := tableAt_le_flashMax hs.profile hidx
        exact ⟨hal, by omega⟩
      · have hw : s.seq.seg.writing = true := by rw [hg]; rfl
        obtain ⟨hj, hv⟩ := hword hg
        obtain ⟨⟨⟨hal, -⟩, -⟩, hle⟩ := hpage (.inl hw)
        have hend := page_le_flashMax hs.profile hal hle
        have hj4 : 4 * s.loc.j + 4 ≤ s.profile.pageBytes := by unfold DeviceProfile.pageWords at hj; omega
        rw [hv, (hctx hw).1.1, offset_toNat (by omega)]
        refine ⟨?_, by omega⟩
        rcases pageBytes_cases s.profile with hp | hp <;> rw [hp] at hal <;> omega
    rcases hap with rfl | rfl <;> exact hreach
  · exact hr

/-! ### Every step -/

theorem finish_ne_fault (g : Seg) (s : State) (e : Fault) : g.finish s ≠ .fault e := by
  have hn : ∀ t : State, nextPageOrEnd t ≠ .fault e := fun t => by
    unfold nextPageOrEnd beginPage
    repeat' split
    all_goals simp
  cases g with
  | idle =>
    simp only [Seg.finish, stepIdle, whenReady]
    repeat' split
    all_goals simp
  | validate =>
    simp only [Seg.finish, validateCommand]
    repeat' split
    all_goals simp [hn]
  | nextPage =>
    simp only [Seg.finish]
    split
    · exact hn _
    · simp
  | ePre | wPre | wSwe | pvWord =>
    simp only [Seg.finish]
    repeat' split
    all_goals simp
  | _ => simp [Seg.finish]

theorem advance_ne_fault (s : State) (e : Fault) : advance s ≠ .fault e := by
  unfold advance
  split
  · simp
  · exact finish_ne_fault _ _ _

theorem exists_next_point (s : State) : ∃ h q, s.Next h q := by
  unfold State.Next Follows
  split
  · exact ⟨_, _, rfl, rfl⟩
  · cases s.seq.seg <;> exact ⟨_, 0, List.mem_cons_self, rfl⟩

/-- Settles O13: the address of every act exists, the watchdog after it is that of a point that follows, where no overflow
is admitted, and the end of a stretch makes no access. -/
theorem stepNeverFaults : Obligations.StepNeverFaults := by
  intro s e hinv haddr hguard h
  obtain ⟨hs, hsel, -, -⟩ := inv_iff.1 hinv
  cases hr : s.port.resetPin with
  | true => rw [step_of_resetPin hr] at h; cases h
  | false =>
    rw [step_of_point hr hs.uword] at h
    cases ha : s.act with
    | none =>
      simp only [runPoint, ha] at h
      exact finish_ne_fault _ _ _ h
    | some a =>
      obtain ⟨g, q, hnext⟩ := exists_next_point s
      have hcalm := calm_of_guards hguard ((effect_of_act ha hnext).2.2 _ hs.guard)
      have hreach := reaches_of_addressesWf hs hsel haddr (List.mem_of_getElem? ha)
      rw [runPoint_of_act ha, perform_of_calm hreach hcalm] at h
      exact advance_ne_fault _ _ h

end Sys2Proof.Machine
end

section
/-! What runs of acts leave of the cells, the page latch and the block-enable registers (R33, R34, R44, R46, R81). -/

namespace Sys2Proof.Machine

/-! ### One micro-operation -/

section

variable {u : MicroOp} {s : State}

/-- No micro-operation but a write of `FCR` and, under the oracle, a word read changes a cell. -/
theorem after_cells (hw : ∀ k v, u ≠ .regWrite (.fcr k) v) (hr : s.env.mode = .reference ∨ ∀ a, u ≠ .flashRead32 a) :
    (u.after s).env.cells = s.env.cells := by
  cases u with
  | regRead r => rcases r with (k | k) <;> cases k <;> rfl
  | regWrite r v =>
    cases r with
    | fcr k => exact absurd rfl (hw k v)
    | ebr k => rfl
  | flashWrite8 a v => simp only [MicroOp.after, flashWrite8_fields]; split <;> rfl
  | flashWrite32 a v => simp only [MicroOp.after, flashWrite32_fields, State.envAfterProbe]; split <;> rfl
  | flashRead32 a =>
    have hm := hr.resolve_right fun h => h a rfl
    rcases envAfterReadBack_cases s a with ⟨-, he⟩ | ⟨-, ho, -⟩
    · exact congrArg Env.cells he
    · rw [hm] at ho; cases ho
  | srcRead8 _ | wait _ | wdtStop | wdtStart _ | irqMask | irqRestore => rfl

/-- No micro-operation but a write of `FCR` and a byte write changes the latch. -/
theorem after_latch (hw : ∀ k v, u ≠ .regWrite (.fcr k) v) (hb : ∀ a v, u ≠ .flashWrite8 a v) :
    (u.after s).env.latch = s.env.latch := by
  cases u with
  | regRead r => rcases r with (k | k) <;> cases k <;> rfl
  | regWrite r v =>
    cases r with
    | fcr k => exact absurd rfl (hw k v)
    | ebr k => rfl
  | flashWrite8 a v => exact absurd rfl (hb a v)
  | flashWrite32 a v => simp only [MicroOp.after, flashWrite32_fields, State.envAfterProbe]; split <;> rfl
  | flashRead32 a => simp only [MicroOp.after, flashRead32_fields, State.envAfterReadBack]; split <;> rfl
  | srcRead8 _ | wait _ | wdtStop | wdtStart _ | irqMask | irqRestore => rfl

/-- A word read leaves every cell outside its word (R46; log 35). -/
theorem read_flashRead32_outside (s : State) (w : Word) {a : Nat} (h : a < w.toNat ∨ w.toNat + 4 ≤ a) :
    (s.flashRead32 w).env.cells.read a = s.env.cells.read a := by
  show (s.envAfterReadBack w).cells.read a = _
  rcases envAfterReadBack_cases s w with ⟨-, he⟩ | ⟨-, -, he⟩ <;> rw [he]
  exact Memory.read_writeWord_outside _ _ _ h

/-- A byte write latches no address but its own (R44). -/
theorem find_latch_flashWrite8 (s : State) (w : Word) (v : Byte) {a : Nat} (h : a ≠ w.toNat) :
    (s.flashWrite8 w v).env.latch.find a = s.env.latch.find a := by
  simp only [flashWrite8_fields]
  split
  · rw [Memory.find_insert, if_neg h]
  · rfl

end

/-! ### One act, by its event code -/

section

variable {b : Act}

theorem op_ne_regWrite (h : b.code ≠ 0x1) (s : State) (r : Reg) (v : Byte) : b.op s ≠ .regWrite r v := by
  cases b with
  | write _ _ | setBit _ _ | clrBit _ _ => exact absurd rfl h
  | _ => exact fun e => by cases e

theorem op_ne_flashWrite8 (h : b.code ≠ 0x2) (s : State) (a : Word) (v : Byte) : b.op s ≠ .flashWrite8 a v := by
  cases b with
  | latch _ | latchOvw _ => exact absurd rfl h
  | _ => exact fun e => by cases e

theorem op_ne_flashRead32 (h : b.code ≠ 0x4) (s : State) (a : Word) : b.op s ≠ .flashRead32 a := by
  cases b with
  | readBack => exact absurd rfl h
  | _ => exact fun e => by cases e

theorem act_after_env (b : Act) (s : State) : (b.after s).env = ((b.op s).after s).env :=
  (actStore_fields _ b).2.2.2.2.2.2.2.2.2.1

theorem act_after_cells (h1 : b.code ≠ 0x1) {s : State} (h4 : s.env.mode = .reference ∨ b.code ≠ 0x4) :
    (b.after s).env.cells = s.env.cells := by
  rw [act_after_env]
  exact after_cells (fun _ => op_ne_regWrite h1 s _) (h4.imp_right fun h => op_ne_flashRead32 h s)

theorem act_after_latch (h1 : b.code ≠ 0x1) (h2 : b.code ≠ 0x2) (s : State) :
    (b.after s).env.latch = s.env.latch := by
  rw [act_after_env]
  exact after_latch (fun _ => op_ne_regWrite h1 s _) (op_ne_flashWrite8 h2 s)

theorem read_act_after_outside (h1 : b.code ≠ 0x1) {s : State} {a : Nat}
    (ha : a < s.ctx.vaddr.toNat ∨ s.ctx.vaddr.toNat + 4 ≤ a) : (b.after s).env.cells.read a = s.env.cells.read a := by
  by_cases h4 : b.code = 0x4
  · cases b with
    | readBack => exact read_flashRead32_outside s _ ha
    | _ => cases h4
  · rw [act_after_cells h1 (.inr h4)]

end

/-! ### Runs without a register write -/

section

variable {l : List Act} {s : State}

theorem afterActs_ebr (h : ∀ b ∈ l, b.code ≠ 0x1) (j : Bank) : (afterActs l s).ebr j = s.ebr j := by
  induction l generalizing s with
  | nil => rfl
  | cons b l ih =>
    rw [afterActs_cons, ih fun c hc => h c (by simp [hc]), ebr_of_regs (act_after_regs s (h b (by simp)))]

theorem afterActs_latch (h : ∀ b ∈ l, b.code ≠ 0x1 ∧ b.code ≠ 0x2) : (afterActs l s).env.latch = s.env.latch := by
  induction l generalizing s with
  | nil => rfl
  | cons b l ih =>
    obtain ⟨h1, h2⟩ := h b (by simp)
    rw [afterActs_cons, ih fun c hc => h c (by simp [hc]), act_after_latch h1 h2]

theorem afterActs_cells (h : ∀ b ∈ l, b.code ≠ 0x1 ∧ (s.env.mode = .reference ∨ b.code ≠ 0x4)) :
    (afterActs l s).env.cells = s.env.cells := by
  induction l generalizing s with
  | nil => rfl
  | cons b l ih =>
    obtain ⟨h1, h4⟩ := h b (by simp)
    rw [afterActs_cons, ih fun c hc => ?_, act_after_cells h1 h4]
    rw [(act_after_fields b s).2.2.2.2.2.2.1]
    exact h c (by simp [hc])

/-- A run of a verify word leaves every cell outside the word (R172, R193). -/
theorem read_afterActs_outside (h : ∀ b ∈ l, b.code ≠ 0x1) {a : Nat}
    (ha : a < s.ctx.vaddr.toNat ∨ s.ctx.vaddr.toNat + 4 ≤ a) :
    (afterActs l s).env.cells.read a = s.env.cells.read a := by
  induction l generalizing s with
  | nil => rfl
  | cons b l ih =>
    rw [afterActs_cons, ih (fun c hc => h c (by simp [hc])), read_act_after_outside (h b (by simp)) ha]
    rw [(act_after_ctx b s).1]
    exact ha

end

/-! ### Harmless runs: those that end no pulse, latch nothing and read no word -/

/-- The cells, the latch, the block-enable registers and the profile are the same. -/
structure SameFlash (s t : State) : Prop where
  profile : t.profile = s.profile
  cells : t.env.cells = s.env.cells
  latch : t.env.latch = s.env.latch
  ebr : ∀ j, t.ebr j = s.ebr j

theorem SameFlash.trans {s t u : State} (h : SameFlash s t) (g : SameFlash t u) : SameFlash s u :=
  ⟨g.profile.trans h.profile, g.cells.trans h.cells, g.latch.trans h.latch, fun j => (g.ebr j).trans (h.ebr j)⟩

/-- A run that leaves the flash and the selection alone, from every state. -/
def Harmless (l : List Act) : Prop :=
  ∀ s : State, s.profile.regLayout.wf = true → SameFlash s (afterActs l s)

theorem Harmless.append {l m : List Act} (hl : Harmless l) (hm : Harmless m) : Harmless (l ++ m) := by
  intro s hs
  rw [afterActs_append]
  exact (hl s hs).trans (hm _ (by rw [(hl s hs).profile]; exact hs))

theorem harmless_of_codes {l : List Act} (h : ∀ b ∈ l, b.code ≠ 0x1 ∧ b.code ≠ 0x2 ∧ b.code ≠ 0x4) : Harmless l :=
  fun s _ => ⟨(afterActs_fields l s).1, afterActs_cells fun b hb => ⟨(h b hb).1, .inr (h b hb).2.2⟩,
    afterActs_latch fun b hb => ⟨(h b hb).1, (h b hb).2.1⟩, afterActs_ebr fun b hb => (h b hb).1⟩

theorem ebr_bitOn (s : State) (k : Bank) (f : Field) (j : Bank) : (afterActs (bitOn k f) s).ebr j = s.ebr j :=
  ebr_regWrite_fcr (s.regRead (.fcr k)) k j _

theorem ebr_bitOff (s : State) (k : Bank) (f : Field) (j : Bank) : (afterActs (bitOff k f) s).ebr j = s.ebr j :=
  ebr_regWrite_fcr (s.regRead (.fcr k)) k j _

theorem afterRead_flash (e : Env) (r : Reg) : (e.afterRead r).cells = e.cells ∧ (e.afterRead r).latch = e.latch := by
  rcases r with (k | k) <;> cases k <;> exact ⟨rfl, rfl⟩

theorem harmless_bitOn (k : Bank) (f : Field) : Harmless (bitOn k f) := fun s hs =>
  ⟨(afterActs_fields _ s).1, by rw [bitOn_env hs, (afterRead_flash _ _).1], by rw [bitOn_env hs, (afterRead_flash _ _).2],
    ebr_bitOn s k f⟩

theorem harmless_bitOff (k : Bank) {f : Field} (he : f ≠ .e) (hp : f ≠ .p) : Harmless (bitOff k f) := fun s hs =>
  ⟨(afterActs_fields _ s).1, by rw [bitOff_env hs k he hp, (afterRead_flash _ _).1],
    by rw [bitOff_env hs k he hp, (afterRead_flash _ _).2], ebr_bitOff s k f⟩

theorem harmless_wait (c : Word) : Harmless [.wait c] := harmless_of_codes (by simp [Act.code])

theorem harmless_precond : Harmless precondActs := harmless_of_codes (by simp [precondActs, Act.code])

theorem harmless_acquire (d : Divisor) : Harmless (acquireActs d) := harmless_of_codes (by simp [acquireActs, Act.code])

theorem harmless_release : Harmless releaseActs := harmless_of_codes (by simp [releaseActs, Act.code])

theorem harmless_srcWord (a : Word) : Harmless (srcWordActs a) := harmless_of_codes (by simp [srcWordActs, Act.code])

theorem harmless_copy (p : DeviceProfile) : Harmless (copyActs p) := harmless_of_codes fun b hb => by
  obtain ⟨i, -, rfl⟩ := List.mem_map.1 hb
  simp [Act.code]

theorem harmless_unlock (p : DeviceProfile) (k : Bank) : Harmless (unlockActs p k) :=
  (harmless_bitOn k .swe).append (harmless_wait _)

theorem harmless_lock (p : DeviceProfile) (k : Bank) : Harmless (lockActs p k) :=
  (harmless_bitOff k (by decide) (by decide)).append (harmless_wait _)

theorem harmless_evEnter (p : DeviceProfile) (k : Bank) : Harmless (evEnterActs p k) :=
  (harmless_bitOn k .ev).append (harmless_wait _)

theorem harmless_evExit (p : DeviceProfile) (k : Bank) : Harmless (evExitActs p k) :=
  (harmless_bitOff k (by decide) (by decide)).append (harmless_wait _)

theorem harmless_pvEnter (p : DeviceProfile) (k : Bank) : Harmless (pvEnterActs p k) :=
  (harmless_bitOn k .pv).append (harmless_wait _)

theorem harmless_pvExit (p : DeviceProfile) (k : Bank) : Harmless (pvExitActs p k) :=
  (harmless_bitOff k (by decide) (by decide)).append (harmless_wait _)

/-! ### The end of a pulse in a run -/

theorem inSelected_congr {s t : State} (hp : t.profile = s.profile) (he : ∀ j, t.ebr j = s.ebr j) (a : Nat) :
    t.inSelected a ↔ s.inSelected a := by
  simp only [State.inSelected, State.selected, hp, he]

theorem env_bitOff (s : State) (k : Bank) (f : Field) : (afterActs (bitOff k f) s).env =
    (s.regRead (.fcr k)).envAfterFcr k (s.content (.fcr k) &&& ~~~s.profile.regLayout.mask f) := rfl

/-- `BitClr` of `E` keeps the latch and changes cells of the selected blocks only (R81; log 13). -/
theorem bitOff_erase {s : State} (hs : s.profile.regLayout.wf = true) (k : Bank) :
    (afterActs (bitOff k .e) s).env.latch = s.env.latch ∧
      ∀ a, ¬ s.inSelected a → (afterActs (bitOff k .e) s).env.cells.read a = s.env.cells.read a := by
  have hp : (s.regRead (.fcr k)).falls k (s.content (.fcr k) &&& ~~~s.profile.regLayout.mask .e) .p = false :=
    (falls_bitOff hs k .e .p).trans (by simp)
  have hflash := afterRead_flash s.env (.fcr k)
  constructor
  · rw [env_bitOff, envAfterFcr_latch, hp]
    exact hflash.2
  · intro a ha
    refine Eq.trans ?_ (congrArg (Memory.read · a) hflash.1)
    exact read_envAfterFcr_outside (s := s.regRead (.fcr k)) (.inr ha) (.inl hp)

/-- `BitClr` of `P` changes latched cells only, and latches nothing (R81). -/
theorem bitOff_program {s : State} (hs : s.profile.regLayout.wf = true) (k : Bank) {a : Nat}
    (ha : s.env.latch.find a = none) :
    (afterActs (bitOff k .p) s).env.latch.find a = none ∧
      (afterActs (bitOff k .p) s).env.cells.read a = s.env.cells.read a := by
  have he : (s.regRead (.fcr k)).falls k (s.content (.fcr k) &&& ~~~s.profile.regLayout.mask .p) .e = false :=
    (falls_bitOff hs k .p .e).trans (by simp)
  have hflash := afterRead_flash s.env (.fcr k)
  have ha' : (s.regRead (.fcr k)).env.latch.find a = none := by
    show (s.env.afterRead (.fcr k)).latch.find a = none
    rw [hflash.2]
    exact ha
  constructor
  · rw [env_bitOff, envAfterFcr_latch]
    split
    · rfl
    · exact ha'
  · refine Eq.trans ?_ (congrArg (Memory.read · a) hflash.1)
    exact read_envAfterFcr_outside (s := s.regRead (.fcr k)) (.inl he) (.inr ha')

/-- The acts of a pulse before its bit is cleared (R171, R192). -/
def pulseHead (d : Divisor) (k : Bank) (g f : Field) (setup width : Word) : List Act :=
  acquireActs d ++ bitOn k g ++ [.wait setup] ++ [.irqMask] ++ bitOn k f ++ [.wait width]

/-- The acts of a pulse after its bit is cleared. -/
def pulseTail (k : Bank) (g : Field) (hold setupHold : Word) : List Act :=
  [.irqRestore, .wait hold] ++ bitOff k g ++ [.wait setupHold] ++ releaseActs

theorem harmless_pulseHead (d : Divisor) (k : Bank) (g f : Field) (setup width : Word) :
    Harmless (pulseHead d k g f setup width) :=
  (((((harmless_acquire d).append (harmless_bitOn k g)).append (harmless_wait _)).append
    (harmless_of_codes (by simp [Act.code]))).append (harmless_bitOn k f)).append (harmless_wait _)

theorem harmless_pulseTail (k : Bank) {g : Field} (he : g ≠ .e) (hp : g ≠ .p) (hold setupHold : Word) :
    Harmless (pulseTail k g hold setupHold) :=
  (((harmless_of_codes (by simp [Act.code])).append (harmless_bitOff k he hp)).append (harmless_wait _)).append
    harmless_release

theorem erasePulseActs_eq (p : DeviceProfile) (k : Bank) :
    erasePulseActs p k = pulseHead p.wdtDivErase k .esu .e p.delays.esuSetup p.delays.ePulse ++
      (bitOff k .e ++ pulseTail k .esu p.delays.eHold p.delays.esuHold) := rfl

theorem programPulseActs_eq (p : DeviceProfile) (k : Bank) (width : Word) :
    programPulseActs p k width = pulseHead p.wdtDivProgram k .psu .p p.delays.psuSetup width ++
      (bitOff k .p ++ pulseTail k .psu p.delays.pHold p.delays.psuHold) := rfl

/-- An erase pulse keeps the latch and changes cells of the selected blocks only (R171). -/
theorem erasePulse_flash {s : State} (hs : s.profile.regLayout.wf = true) (p : DeviceProfile) (k : Bank) :
    (afterActs (erasePulseActs p k) s).env.latch = s.env.latch ∧
      ∀ a, ¬ s.inSelected a → (afterActs (erasePulseActs p k) s).env.cells.read a = s.env.cells.read a := by
  rw [erasePulseActs_eq, afterActs_append, afterActs_append]
  have h1 := harmless_pulseHead p.wdtDivErase k .esu .e p.delays.esuSetup p.delays.ePulse s hs
  generalize afterActs (pulseHead _ _ _ _ _ _) s = u at h1 ⊢
  have hu : u.profile.regLayout.wf = true := by rw [h1.profile]; exact hs
  have h2 := bitOff_erase hu k
  have h3 := harmless_pulseTail k (g := .esu) (by decide) (by decide) p.delays.eHold p.delays.esuHold
    (afterActs (bitOff k .e) u) (by rw [(afterActs_fields _ u).1]; exact hu)
  refine ⟨by rw [h3.latch, h2.1, h1.latch], fun a ha => ?_⟩
  rw [h3.cells, h2.2 a (by rwa [inSelected_congr h1.profile h1.ebr]), h1.cells]

/-- A program pulse changes latched cells only, and latches nothing (R192). -/
theorem programPulse_flash {s : State} (hs : s.profile.regLayout.wf = true) (p : DeviceProfile) (k : Bank) (width : Word)
    {a : Nat} (ha : s.env.latch.find a = none) :
    (afterActs (programPulseActs p k width) s).env.latch.find a = none ∧
      (afterActs (programPulseActs p k width) s).env.cells.read a = s.env.cells.read a := by
  rw [programPulseActs_eq, afterActs_append, afterActs_append]
  have h1 := harmless_pulseHead p.wdtDivProgram k .psu .p p.delays.psuSetup width s hs
  generalize afterActs (pulseHead _ _ _ _ _ _) s = u at h1 ⊢
  have hu : u.profile.regLayout.wf = true := by rw [h1.profile]; exact hs
  have h2 := bitOff_program hu k (a := a) (by rw [h1.latch]; exact ha)
  have h3 := harmless_pulseTail k (g := .psu) (by decide) (by decide) p.delays.pHold p.delays.psuHold
    (afterActs (bitOff k .p) u) (by rw [(afterActs_fields _ u).1]; exact hu)
  exact ⟨by rw [h3.latch]; exact h2.1, by rw [h3.cells, h2.2, h1.cells]⟩

/-! ### The selection -/

theorem getLsbD_one_shiftLeft_nat {m b : Nat} (hm : m < 8) (hb : b < 8) : (1#8 <<< m).getLsbD b = decide (b = m) :=
  (getLsbD_one_shiftLeft ⟨m, hm⟩ ⟨b, hb⟩).trans (decide_eq_decide.2 (by simp))

/-- With the one-hot value of `SelectBlock` in the registers, no other block is selected (R34, R153, R154). -/
theorem eq_of_selected {s : State} (h : s.profile.wf = true) {i j : Nat} (hi : i < s.profile.blockCount)
    (hone : s.ebr (s.profile.blockBank i) = s.profile.ebrMask i) (hzero : s.ebr (s.profile.blockBank i).other = 0)
    (hj : j < s.profile.blockCount) (hs : s.selected j = true) : j = i := by
  have hbits : (∀ k, ((s.profile.blocksOf k).map s.profile.ebrBit).Nodup) ∧
      ∀ n < s.profile.blockCount, s.profile.ebrBit n < 8 := by
    simp only [DeviceProfile.wf, DeviceProfile.ebrWf, Bool.and_eq_true, List.all_eq_true, decide_eq_true_eq,
      List.mem_range] at h
    obtain ⟨⟨⟨⟨-, hnd, hlt⟩, -⟩, -⟩, -⟩ := h
    exact ⟨forall_bank.1 fun k hk => (hnd k hk).2, hlt⟩
  obtain ⟨hnodup, hlt⟩ := hbits
  rw [State.selected] at hs
  by_cases hb : s.profile.blockBank j = s.profile.blockBank i
  · rw [hb, hone, DeviceProfile.ebrMask, getLsbD_one_shiftLeft_nat (hlt i hi) (hlt j hj), decide_eq_true_eq] at hs
    have hmem : ∀ n < s.profile.blockCount, s.profile.blockBank n = s.profile.blockBank i →
        n ∈ s.profile.blocksOf (s.profile.blockBank i) := fun n hn hbn => by
      simp [DeviceProfile.blocksOf, hn, hbn]
    exact List.inj_on_of_nodup_map (hnodup _) (hmem j hj hb) (hmem i hi rfl) hs
  · have ho : s.profile.blockBank j = (s.profile.blockBank i).other := by
      revert hb
      cases s.profile.blockBank j <;> cases s.profile.blockBank i <;> decide
    rw [ho, hzero] at hs
    simp at hs

/-- `SelectBlock` leaves its one block selected, and the flash as it was (R154). -/
theorem select_flash (s : State) (p : DeviceProfile) (i : Nat) :
    (afterActs (selectActs p i) s).env = s.env ∧
      (afterActs (selectActs p i) s).ebr (p.blockBank i) = p.ebrMask i ∧
      (afterActs (selectActs p i) s).ebr (p.blockBank i).other = 0 := by
  have hacts : afterActs (selectActs p i) s =
      (s.regWrite (.ebr (p.blockBank i).other) 0).regWrite (.ebr (p.blockBank i)) (p.ebrMask i) := rfl
  rw [hacts]
  refine ⟨by simp, by simp, ?_⟩
  rw [ebr_regWrite_ebr, if_neg (other_ne _), ebr_regWrite_ebr, if_pos rfl]

end Sys2Proof.Machine
end

section
/-! Partial correctness: what holds of the next state of an operation, if it has one. -/

namespace Sys2Proof.Machine

/-- The next state of the outcome, if there is one, is as `P` says. -/
def Yields (P : State → Prop) (r : Res) : Prop := ∀ t, r = .next t → P t

section

variable {P Q : State → Prop}

theorem Yields.bind {r : Res} {f : State → Res} (hr : Yields Q r) (hf : ∀ t, Q t → Yields P (f t)) :
    Yields P (andThen r f) := by
  intro u hu
  obtain ⟨t, ht, hft⟩ := andThen_eq_next.1 hu
  exact hf t (hr t ht) u hft

theorem Yields.mono {r : Res} (hr : Yields Q r) (h : ∀ t, Q t → P t) : Yields P r := fun t ht => h t (hr t ht)

theorem yields_next {t : State} (h : P t) : Yields P (.next t) := fun u hu => by cases hu; exact h

theorem yields_runActs {l : List Act} {s : State} (h : P (afterActs l s)) : Yields P (runActs l s) := fun t ht => by
  rw [runActs_eq_next ht]
  exact h

theorem yields_whenReady {s : State} {r : Res} (h : s.profile.wf = true → Yields P r) : Yields P (whenReady s r) := by
  unfold whenReady
  split
  · exact fun t ht => by cases ht
  · split
    · next hw => exact h hw
    · exact fun t ht => by cases ht

/-- What one word of an erase scan keeps, the scan keeps (R172). -/
theorem yields_eraseScan {stop : Word} (hstep : ∀ s, P s → s.scanGoesOn stop = true →
    P (afterActs (evWordActs s.profile) s).judgeScan) (n : Nat) {s : State} (h : P s) :
    Yields P (eraseScan stop n s) := by
  induction n generalizing s with
  | zero => exact yields_next h
  | succ n ih =>
    unfold eraseScan
    split
    · next hgo => exact (yields_runActs (P := fun t => P t.judgeScan) (hstep s h hgo)).bind fun t ht => ih ht
    · exact yields_next h

/-- What an attempt and the moves between attempts keep, the retry loop keeps (R170 steps 4, 5). -/
theorem yields_eraseAttempts (hattempt : ∀ s, P s → Yields P (eraseAttempt s))
    (hlock : ∀ r s, P s → Yields Q (lockAndRespond r s)) (hset : ∀ s v, P s → P (s.setN v)) (n : Nat) {s : State}
    (h : P s) : Yields Q (eraseAttempts n s) := by
  induction n generalizing s with
  | zero => exact hlock _ s h
  | succ n ih =>
    refine (hattempt s h).bind fun t ht => ?_
    split
    · exact hlock _ t ht
    · split
      · exact ih ht
      · exact ih (hset t _ ht)

end

end Sys2Proof.Machine
end

section
/-! An erase touches only its block: `SelectBlock` leaves one block selected whatever the registers held, the pulse
changes the cells of that block, and the scan reads words of that block (R34, R154, R175, R266). -/

namespace Sys2Proof.Machine

/-- A point of an erase of block `i` begun at `s₀`: the block's registers are loaded, the latch and the cells outside the
block are as they were. -/
structure Erasing (s₀ : State) (i : Nat) (t : State) : Prop where
  profile : t.profile = s₀.profile
  index : t.opr.index.toNat = i
  bank : t.ctx.bank = s₀.profile.blockBank i
  blkStart : t.ctx.blkStart = s₀.profile.tableAt i
  blkEnd : t.ctx.blkEnd = s₀.profile.tableAt (i + 1)
  latch : t.env.latch = s₀.env.latch
  cells : ∀ a, s₀.profile.inBlock i a = false → t.env.cells.read a = s₀.env.cells.read a

section

variable {s₀ s t : State} {i : Nat}

/-- A move of the sequencer that keeps the block's registers. -/
theorem Erasing.move (h : Erasing s₀ i s) (hst : t.profile = s.profile ∧ t.opr = s.opr ∧ t.ctx.bank = s.ctx.bank ∧
    t.ctx.blkStart = s.ctx.blkStart ∧ t.ctx.blkEnd = s.ctx.blkEnd ∧ t.env = s.env) : Erasing s₀ i t := by
  obtain ⟨hp, ho, hb, hs, he, hv⟩ := hst
  exact ⟨hp.trans h.profile, by rw [ho, h.index], hb.trans h.bank, hs.trans h.blkStart, he.trans h.blkEnd,
    by rw [hv, h.latch], by rw [hv]; exact h.cells⟩

/-- A run of acts that keeps the latch and the cells outside the block. -/
theorem Erasing.run (h : Erasing s₀ i s) {l : List Act} (hl : (afterActs l s).env.latch = s.env.latch)
    (hc : ∀ a, s₀.profile.inBlock i a = false → (afterActs l s).env.cells.read a = s.env.cells.read a) :
    Erasing s₀ i (afterActs l s) := by
  have hst := sameStretch_afterActs l s
  exact ⟨hst.profile.trans h.profile, by rw [hst.opr, h.index], hst.bank.trans h.bank, hst.blkStart.trans h.blkStart,
    hst.blkEnd.trans h.blkEnd, hl.trans h.latch, fun a ha => (hc a ha).trans (h.cells a ha)⟩

theorem Erasing.layout (hwf : s₀.profile.wf = true) (h : Erasing s₀ i s) : s.profile.regLayout.wf = true :=
  layout_of_wf (by rw [h.profile]; exact hwf)

theorem Erasing.harmless (hwf : s₀.profile.wf = true) (h : Erasing s₀ i s) {l : List Act} (hl : Harmless l) :
    Erasing s₀ i (afterActs l s) := by
  have hf := hl s (h.layout hwf)
  exact h.run hf.latch fun a _ => by rw [hf.cells]

/-- `SelectBlock` and the pulse change no cell outside the block. -/
theorem Erasing.pulse (hwf : s₀.profile.wf = true) (hi : i < s₀.profile.blockCount) (h : Erasing s₀ i s)
    (p : DeviceProfile) (k : Bank) :
    Erasing s₀ i (afterActs (erasePulseActs p k) (afterActs (selectActs s₀.profile i) s)) := by
  obtain ⟨henv, hone, hzero⟩ := select_flash s s₀.profile i
  have ht : Erasing s₀ i (afterActs (selectActs s₀.profile i) s) := h.run (by rw [henv]) fun a _ => by rw [henv]
  generalize afterActs (selectActs s₀.profile i) s = t at ht hone hzero ⊢
  obtain ⟨hlatch, hcells⟩ := erasePulse_flash (ht.layout hwf) p k
  refine ht.run hlatch fun a ha => hcells a ?_
  rintro ⟨j, hj, hsel, hin⟩
  rw [ht.profile] at hj hin
  obtain rfl : j = i := eq_of_selected (s := t) (by rw [ht.profile]; exact hwf) (by rw [ht.profile]; exact hi)
    (by rw [ht.profile]; exact hone) (by rw [ht.profile]; exact hzero) (by rw [ht.profile]; exact hj) hsel
  rw [ha] at hin
  cases hin

/-- A scan stands at a word of its block, or at its end (R172). -/
def Scanning (s₀ : State) (i : Nat) (t : State) : Prop :=
  Erasing s₀ i t ∧ t.ctx.vaddr.toNat % 4 = 0 ∧ (s₀.profile.tableAt i).toNat ≤ t.ctx.vaddr.toNat

/-- The accesses of a scan's word change no cell outside the block, and the next word follows it. -/
theorem Scanning.word (hwf : s₀.profile.wf = true) (hi : i < s₀.profile.blockCount) (h : Scanning s₀ i s)
    (hgo : s.scanGoesOn (s₀.profile.tableAt (i + 1)) = true) :
    Scanning s₀ i (afterActs (evWordActs s.profile) s).judgeScan := by
  obtain ⟨he, hal, hge⟩ := h
  simp only [State.scanGoesOn, Bool.and_eq_true, decide_eq_true_eq, BitVec.lt_def] at hgo
  have hend := word_le_tableAt hwf (i := i + 1) hi hal hgo.1
  have hmax := tableAt_add_word hwf (i := i + 1) hi
  have hcodes : ∀ b ∈ evWordActs s.profile, b.code ≠ 0x1 ∧ b.code ≠ 0x2 := by simp [evWordActs, Act.code]
  have hst := sameStretch_afterActs (evWordActs s.profile) s
  have hrun : Erasing s₀ i (afterActs (evWordActs s.profile) s) := by
    refine he.run (afterActs_latch hcodes) fun a ha => read_afterActs_outside (fun b hb => (hcodes b hb).1) ?_
    simp only [DeviceProfile.inBlock, Bool.and_eq_false_iff, decide_eq_false_iff_not] at ha
    omega
  have hv : (afterActs (evWordActs s.profile) s).judgeScan.ctx.vaddr.toNat = s.ctx.vaddr.toNat + 4 := by
    show ((afterActs (evWordActs s.profile) s).ctx.vaddr + 4).toNat = _
    rw [hst.vaddr, BitVec.toNat_add_of_lt (by simp; omega)]
    rfl
  exact ⟨hrun.move (by simp), by omega, by omega⟩

theorem yields_eraseVerify (hwf : s₀.profile.wf = true) (hi : i < s₀.profile.blockCount) (h : Erasing s₀ i s)
    (k : Bank) : Yields (Erasing s₀ i) (execEraseVerify k s.ctx.blkStart s.ctx.blkEnd s) := by
  rw [h.blkStart, h.blkEnd]
  refine (yields_runActs (h.harmless hwf (harmless_evEnter _ k))).bind fun t ht => ?_
  have hscan : Scanning s₀ i (t.startScan (s₀.profile.tableAt i)) := by
    refine ⟨ht.move (by simp), ?_, Nat.le_refl _⟩
    have hal := tableAt_aligned hwf (Nat.le_of_lt hi)
    show (s₀.profile.tableAt i).toNat % 4 = 0
    rcases pageBytes_cases s₀.profile with hp | hp <;> rw [hp] at hal <;> omega
  exact (yields_eraseScan (fun u hu hgo => hu.word hwf hi hgo) _ hscan).bind fun u hu =>
    yields_runActs (hu.1.harmless hwf (harmless_evExit _ k))

theorem yields_eraseAttempt (hwf : s₀.profile.wf = true) (hi : i < s₀.profile.blockCount) (h : Erasing s₀ i s) :
    Yields (Erasing s₀ i) (eraseAttempt s) := by
  unfold eraseAttempt execSelectBlock
  rw [h.profile, h.index, if_neg (Nat.not_le.2 hi)]
  refine (yields_runActs (P := fun t => Erasing s₀ i (afterActs (erasePulseActs t.profile t.ctx.bank) t))
    (h.pulse hwf hi _ _)).bind fun t ht => ?_
  exact (yields_runActs ht).bind fun u hu => yields_eraseVerify hwf hi hu _

theorem yields_lockAndRespond (hwf : s₀.profile.wf = true) (h : Erasing s₀ i s) (r : Status) :
    Yields (Erasing s₀ i) (lockAndRespond r s) :=
  (yields_runActs (h.harmless hwf (harmless_lock _ _))).bind fun _ ht =>
    yields_next (ht.move (by simp))

theorem yields_eraseUnlocked (hwf : s₀.profile.wf = true) (hi : i < s₀.profile.blockCount) (h : Erasing s₀ i s) :
    Yields (Erasing s₀ i) (eraseUnlocked s) := by
  refine (yields_runActs (h.harmless hwf (harmless_unlock _ _))).bind fun t ht => ?_
  exact yields_eraseAttempts (fun u hu => yields_eraseAttempt hwf hi hu) (fun r u hu => yields_lockAndRespond hwf hu r)
    (fun u v hu => hu.move (by simp)) _
    (ht.move (by simp))

end

/-- `erase_block` keeps the latch and every cell outside its block, whatever the registers held (R34, R175). -/
theorem eraseBlock_flash (index : Word) (s : State) :
    Yields (fun t => t.env.latch = s.env.latch ∧
      ∀ a, s.profile.inBlock index.toNat a = false → t.env.cells.read a = s.env.cells.read a)
      (execEraseBlock index s) := by
  refine yields_whenReady fun hwf => ?_
  unfold eraseAccepted
  split
  · exact yields_next ⟨rfl, fun _ _ => rfl⟩
  next hidx =>
  split
  · exact yields_next ⟨rfl, fun _ _ => rfl⟩
  have hi : index.toNat < s.profile.blockCount := Nat.not_le.1 hidx
  have hstart : Erasing s index.toNat ((s.acceptErase index).resolveBlock index) := by
    rw [resolveBlock_of_lt (s := s.acceptErase index) hi]
    exact ⟨rfl, rfl, rfl, rfl, rfl, rfl, fun _ _ => rfl⟩
  have hpre : Yields (Erasing s index.toNat) (execPrecond ((s.acceptErase index).resolveBlock index)) :=
    (yields_runActs (hstart.harmless hwf harmless_precond)).bind fun t ht =>
      yields_next (ht.move (by simp))
  refine (hpre.bind (P := Erasing s index.toNat) fun t ht => ?_).mono fun t ht => ⟨ht.latch, ht.cells⟩
  split
  · exact yields_eraseUnlocked hwf hi ht
  · exact yields_next (ht.move (by simp))

/-- Settles O52: every point of an erase has the cells outside the block as they were. -/
theorem eraseTouchesOnlyItsBlock : Obligations.EraseTouchesOnlyItsBlock :=
  fun s t index a h ha => (eraseBlock_flash index s t h).2 a ha

end Sys2Proof.Machine
end

section
/-! A write touches only its range: the latch passes latch bytes of the page, a program pulse changes latched cells, and
the verify words lie in the page; the page loop goes from the range's first page to its last (R46, R162, R191). -/

namespace Sys2Proof.Machine

/-- A point of `write_page(dest, …)` begun at `s₀`, seen from an address `a`: the page's address is loaded, `a` is not
latched and its cell is as it was. -/
structure Writing (s₀ : State) (dest : Word) (a : Nat) (t : State) : Prop where
  profile : t.profile = s₀.profile
  opr : t.opr = s₀.opr
  pgDest : t.ctx.pgDest = dest
  latch : t.env.latch.find a = none
  cell : t.env.cells.read a = s₀.env.cells.read a

/-- A latch pass latches bytes of its page only (R191 step 3a, R198). -/
theorem find_latch_afterActs {l : List Act} {s : State} {a : Nat} (hl : ∀ b ∈ l, ∃ i, (b = .latch i ∨ b = .latchOvw i) ∧
    a ≠ (offset s.ctx.pgDest i).toNat) : (afterActs l s).env.latch.find a = s.env.latch.find a := by
  induction l generalizing s with
  | nil => rfl
  | cons b l ih =>
    obtain ⟨i, hb, hne⟩ := hl b (by simp)
    rw [afterActs_cons, ih fun c hc => ?_]
    · rcases hb with rfl | rfl <;> exact find_latch_flashWrite8 s _ _ hne
    · rw [(act_after_ctx b s).1]
      exact hl c (by simp [hc])

section

variable {s₀ s t : State} {dest : Word} {a : Nat}

/-- A move of the sequencer within a page. -/
theorem Writing.move (h : Writing s₀ dest a s) (hst : t.profile = s.profile ∧ t.opr = s.opr ∧
    t.ctx.pgDest = s.ctx.pgDest ∧ t.env = s.env) : Writing s₀ dest a t := by
  obtain ⟨hp, ho, hd, hv⟩ := hst
  exact ⟨hp.trans h.profile, ho.trans h.opr, hd.trans h.pgDest, by rw [hv]; exact h.latch, by rw [hv]; exact h.cell⟩

/-- A run of acts that does not latch the address and keeps its cell. -/
theorem Writing.run (h : Writing s₀ dest a s) {l : List Act} (hl : (afterActs l s).env.latch.find a = none)
    (hc : (afterActs l s).env.cells.read a = s.env.cells.read a) : Writing s₀ dest a (afterActs l s) := by
  obtain ⟨hp, -, -, ho, -⟩ := afterActs_fields l s
  exact ⟨hp.trans h.profile, ho.trans h.opr, by rw [(afterActs_ctx l s).1]; exact h.pgDest, hl, hc.trans h.cell⟩

theorem Writing.layout (hwf : s₀.profile.wf = true) (h : Writing s₀ dest a s) : s.profile.regLayout.wf = true :=
  layout_of_wf (by rw [h.profile]; exact hwf)

theorem Writing.harmless (hwf : s₀.profile.wf = true) (h : Writing s₀ dest a s) {l : List Act} (hl : Harmless l) :
    Writing s₀ dest a (afterActs l s) := by
  have hf := hl s (h.layout hwf)
  exact h.run (by rw [hf.latch]; exact h.latch) (by rw [hf.cells])

/-- The address lies outside the page at `dest`, which does not wrap. -/
structure OutsidePage (p : DeviceProfile) (dest : Word) (a : Nat) : Prop where
  wf : p.wf = true
  dest_le : dest.toNat ≤ p.flashMax.toNat
  outside : a < dest.toNat ∨ dest.toNat + p.pageBytes ≤ a

theorem OutsidePage.offset_toNat {p : DeviceProfile} (h : OutsidePage p dest a) {i : Nat} (hi : i < p.pageBytes) :
    (offset dest i).toNat = dest.toNat + i := by
  have := flashMax_add_page h.wf
  have := h.dest_le
  exact Machine.offset_toNat (by omega)

theorem Writing.latchPass (ho : OutsidePage s₀.profile dest a) (h : Writing s₀ dest a s) {l : List Act}
    (hl : ∀ b ∈ l, ∃ i < s.profile.pageBytes, b = .latch i ∨ b = .latchOvw i) : Writing s₀ dest a (afterActs l s) := by
  refine h.run ((find_latch_afterActs fun b hb => ?_).trans h.latch) ?_
  · obtain ⟨i, hi, hbi⟩ := hl b hb
    rw [h.profile] at hi
    refine ⟨i, hbi, ?_⟩
    rw [h.pgDest, ho.offset_toNat hi]
    have := ho.outside
    omega
  · rw [afterActs_cells fun b hb => ?_]
    obtain ⟨i, -, rfl | rfl⟩ := hl b hb <;> simp [Act.code]

theorem yields_programPulse (hwf : s₀.profile.wf = true) (h : Writing s₀ dest a s) (k : Bank) (width : Word) :
    Yields (Writing s₀ dest a) (execProgramPulse k width s) := by
  obtain ⟨hl, hc⟩ := programPulse_flash (h.layout hwf) s.profile k width h.latch
  exact yields_runActs (h.run hl hc)

theorem yields_programAttempt (ho : OutsidePage s₀.profile dest a) (h : Writing s₀ dest a s) :
    Yields (Writing s₀ dest a) (programAttempt s) := by
  refine (yields_runActs (h.latchPass ho fun b hb => ?_)).bind fun t ht => yields_programPulse ho.wf ht _ _
  obtain ⟨i, hi, rfl⟩ := List.mem_map.1 hb
  exact ⟨i, List.mem_range.1 hi, .inl rfl⟩

theorem yields_overwriteAttempt (ho : OutsidePage s₀.profile dest a) (h : Writing s₀ dest a s) :
    Yields (Writing s₀ dest a) (overwriteAttempt s) := by
  unfold overwriteAttempt
  split
  · refine (yields_runActs (h.latchPass ho fun b hb => ?_)).bind fun t ht => yields_programPulse ho.wf ht _ _
    obtain ⟨i, hi, rfl⟩ := List.mem_map.1 hb
    exact ⟨i, List.mem_range.1 hi, .inr rfl⟩
  · exact yields_next h

theorem yields_verifyWord (ho : OutsidePage s₀.profile dest a) (h : Writing s₀ dest a s) (k : Bank) (j : Nat) (n : Word) :
    Yields (Writing s₀ dest a) (execVerifyWord k j n s) := by
  unfold execVerifyWord
  split
  · exact fun t ht => by cases ht
  next hj =>
  have hcodes : ∀ b ∈ pvWordActs s.profile (offset s.ctx.pgSrc (4 * j)), b.code ≠ 0x1 ∧ b.code ≠ 0x2 := by
    simp [pvWordActs, srcWordActs, Act.code]
  have hs : Writing s₀ dest a (s.startWord j) := h.move (by simp)
  refine (yields_runActs (P := Writing s₀ dest a) (hs.run ?_ ?_)).bind fun t ht => yields_next (ht.move ?_)
  · rw [afterActs_latch hcodes]
    exact hs.latch
  · refine read_afterActs_outside (fun b hb => (hcodes b hb).1) ?_
    have hj4 : 4 * j + 4 ≤ s₀.profile.pageBytes := by
      rw [h.profile] at hj
      unfold DeviceProfile.pageWords at hj
      omega
    rw [(startWord_fields s j).2.2.2.2.1]
    dsimp only
    rw [h.pgDest, ho.offset_toNat (by omega)]
    have := ho.outside
    omega
  · unfold State.judgeWord
    split <;> exact ⟨rfl, rfl, rfl, rfl⟩

theorem yields_verifyWords (ho : OutsidePage s₀.profile dest a) (n j : Nat) (h : Writing s₀ dest a s) :
    Yields (Writing s₀ dest a) (verifyWords n j s) := by
  induction n generalizing j s with
  | zero => exact yields_next h
  | succ n ih =>
    refine (yields_verifyWord ho h _ j _).bind fun t ht => ?_
    split
    · exact yields_next ht
    · exact ih (j + 1) ht

theorem yields_lockPage (hwf : s₀.profile.wf = true) (h : Writing s₀ dest a s) (r : Status) :
    Yields (Writing s₀ dest a) (lockPage r s) :=
  (yields_runActs (h.harmless hwf (harmless_lock _ _))).bind fun _ ht => yields_next (ht.move (by simp))

theorem yields_writeAttempts (ho : OutsidePage s₀.profile dest a) (n : Nat) (h : Writing s₀ dest a s) :
    Yields (Writing s₀ dest a) (writeAttempts n s) := by
  induction n generalizing s with
  | zero => exact yields_lockPage ho.wf h _
  | succ n ih =>
    refine (yields_programAttempt ho (h.move (by simp))).bind fun t ht => ?_
    have hverify : Yields (Writing s₀ dest a) (verifyAttempt t) :=
      (yields_runActs (ht.harmless ho.wf (harmless_pvEnter _ _))).bind fun u hu => yields_verifyWords ho _ _ hu
    refine hverify.bind fun u hu => ?_
    have hexit := yields_runActs (hu.harmless ho.wf (harmless_pvExit u.profile u.ctx.bank))
    split
    · exact hexit.bind fun v hv => yields_lockPage ho.wf hv _
    · refine (hexit.bind fun v hv => yields_overwriteAttempt ho hv).bind fun v hv => ?_
      split
      · split
        · exact ih hv
        · exact ih (hv.move (by simp))
      · exact yields_lockPage ho.wf hv _

end

/-- `write_page` changes no cell outside its page and latches none there, but for cells latched before (R191). -/
theorem writePage_flash {s : State} {dest : Word} {a : Nat} (src : Word) (hwf : s.profile.wf = true)
    (hl : s.env.latch.find a = none) (ha : a < dest.toNat ∨ dest.toNat + s.profile.pageBytes ≤ a) :
    Yields (Writing s dest a) (execWritePage dest src s) := by
  unfold execWritePage
  split
  · exact fun t ht => by cases ht
  next hd =>
  have ho : OutsidePage s.profile dest a := ⟨hwf, BitVec.not_lt.1 hd, ha⟩
  have hstart : Writing s dest a (s.enterPage dest src) := ⟨rfl, rfl, rfl, hl, rfl⟩
  refine ((yields_runActs (hstart.harmless hwf harmless_precond)).bind fun t ht =>
    yields_next (P := Writing s dest a) (ht.move (by simp))).bind fun t ht => ?_
  split
  · refine (yields_runActs (ht.harmless hwf (harmless_copy _))).bind fun u hu => ?_
    refine (yields_runActs (hu.harmless hwf (harmless_unlock _ _))).bind fun v hv => ?_
    exact yields_writeAttempts ho _ (hv.move (by simp))
  · exact yields_next (ht.move (by simp))

/-- The head of the page loop, seen from an address outside the range: what is left of the range lies in it, the address
is not latched and its cell is as it was (R162). -/
structure Paging (s₀ : State) (first stop : Nat) (a : Nat) (t : State) : Prop where
  profile : t.profile = s₀.profile
  first_le : first ≤ t.opr.dest.toNat
  stop_eq : t.opr.dest.toNat + t.opr.len.toNat = stop
  whole : t.opr.len.toNat % t.profile.pageBytes = 0
  latch : t.env.latch.find a = none
  cell : t.env.cells.read a = s₀.env.cells.read a

theorem pageWord_toNat (p : DeviceProfile) : p.pageWord.toNat = p.pageBytes := by
  rcases pageBytes_cases p with hp | hp <;> simp [DeviceProfile.pageWord, hp]

/-- What is left of the range is a page at least, or nothing. -/
theorem Paging.page_le {s₀ s : State} {first stop a : Nat} (h : Paging s₀ first stop a s) (hlen : s.opr.len ≠ 0) :
    s.profile.pageBytes ≤ s.opr.len.toNat := by
  have hne : s.opr.len.toNat ≠ 0 := fun e => hlen (BitVec.eq_of_toNat_eq e)
  exact Nat.le_of_dvd (by omega) (Nat.dvd_of_mod_eq_zero h.whole)

/-- A page of what is left of the range lies in it, and so does the next page (R162, R164). -/
theorem Paging.step {s₀ s t : State} {first stop a : Nat} (hwf : s₀.profile.wf = true) (h : Paging s₀ first stop a s)
    (hlen : s.opr.len ≠ 0) (hd : s.opr.dest ≤ s.profile.flashMax) (ht : Writing s s.opr.dest a t) :
    Paging s₀ first stop a t.stepPage := by
  have hpage := h.page_le hlen
  have hmax : s.profile.flashMax.toNat + s.profile.pageBytes < 2 ^ 32 := flashMax_add_page (by rw [h.profile]; exact hwf)
  have hdest : t.stepPage.opr.dest.toNat = s.opr.dest.toNat + s.profile.pageBytes := by
    show (t.opr.dest + t.profile.pageWord).toNat = _
    rw [BitVec.le_def] at hd
    rw [ht.opr, ht.profile, BitVec.toNat_add_of_lt (by rw [pageWord_toNat]; omega), pageWord_toNat]
  have hleft : t.stepPage.opr.len.toNat = s.opr.len.toNat - s.profile.pageBytes := by
    show (t.opr.len - t.profile.pageWord).toNat = _
    rw [ht.opr, ht.profile, BitVec.toNat_sub_of_le (by rw [BitVec.le_def, pageWord_toNat]; exact hpage), pageWord_toNat]
  have h1 := h.first_le
  have h2 := h.stop_eq
  refine ⟨ht.profile.trans h.profile, by omega, by omega, ?_, ht.latch, ht.cell.trans h.cell⟩
  show t.stepPage.opr.len.toNat % t.profile.pageBytes = 0
  rw [hleft, ht.profile, ← Nat.mod_eq_sub_mod hpage]
  exact h.whole

theorem yields_pages {s₀ s : State} {first stop a : Nat} (hwf : s₀.profile.wf = true) (ha : a < first ∨ stop ≤ a)
    (n : Nat) (h : Paging s₀ first stop a s) :
    Yields (fun t => t.env.cells.read a = s₀.env.cells.read a) (pages n s) := by
  induction n generalizing s with
  | zero => exact yields_next h.cell
  | succ n ih =>
    unfold pages
    split
    · exact yields_next h.cell
    next hlen =>
    by_cases hd : s.profile.flashMax < s.opr.dest
    · rw [execWritePage, if_pos hd]
      exact fun t ht => by cases ht
    have hpage := h.page_le hlen
    have h1 := h.first_le
    have h2 := h.stop_eq
    refine (writePage_flash _ (by rw [h.profile]; exact hwf) h.latch (by omega)).bind fun t ht => ?_
    split
    · exact ih (h.step hwf hlen (BitVec.not_lt.1 hd) ht)
    · exact yields_next (ht.cell.trans h.cell)

theorem len_of_rangeStatus {p : DeviceProfile} {dest len : Word} (h : rangeStatus p dest len = .ok) :
    len.toNat % p.pageBytes = 0 := by
  unfold rangeStatus at h
  split at h
  · cases h
  split at h
  · cases h
  split at h
  · cases h
  · next hl => exact of_not_not hl

theorem writeRange_cells {s : State} {dest len : Word} {a : Nat} (src : Word) (hl : s.env.latch.find a = none)
    (ha : a < dest.toNat ∨ dest.toNat + len.toNat ≤ a) :
    Yields (fun t => t.env.cells.read a = s.env.cells.read a) (execWriteRange dest src len s) := by
  refine yields_whenReady fun hwf => ?_
  unfold writeAccepted execValidateRange
  rw [andThen_of_next]
  split
  · exact yields_next rfl
  next hok =>
  split
  · exact yields_next rfl
  refine (yields_pages (s₀ := s) (first := dest.toNat) (stop := dest.toNat + len.toNat) hwf ha _ ?_).bind
    fun t ht => yields_next ht
  exact ⟨rfl, Nat.le_refl _, rfl, len_of_rangeStatus (of_not_not hok), hl, rfl⟩

/-- Settles O53: every point of a write has the cell of an address outside the range unlatched and as it was. -/
theorem writeTouchesOnlyItsRange : Obligations.WriteTouchesOnlyItsRange := fun _ t _ src _ _ hwf hl =>
  ⟨fun h ha => writeRange_cells src hl ha t h, fun h ha => (writePage_flash src hwf hl ha t h).cell⟩

end Sys2Proof.Machine
end

section
/-! Which instructions leave the flash alone, one constructor a case (R33, R34, R44, R46). -/

namespace Sys2Proof

/-- The instructions that can end a pulse, or contain one, and the reset. -/
def Instr.endsPulse : Instr → Bool
  | .regWrite (.fcr _) _ | .bitClr _ .e | .bitClr _ .p | .scopedGuard _ _ | .erasePulse _ | .programPulse _ _
  | .eraseBlock _ | .writePage _ _ | .writeRange _ _ _ | .pageLoop | .systemReset => true
  | .regWrite (.ebr _) _ | .bitClr _ .swe | .bitClr _ .esu | .bitClr _ .psu | .bitClr _ .ev | .bitClr _ .pv | .init
  | .unprotect | .regRead _ | .flashWrite8 _ _ | .flashWrite32 _ _ | .flashRead32 _ | .srcRead8 _ | .waitOp _ | .wdtStop
  | .wdtStart _ | .irqMask | .irqRestore | .bitSet _ _ | .srcWord _ | .precond | .waitProc _ | .guardAcquire _
  | .guardRelease | .resolveBlock _ | .selectBlock _ | .resolveAddressRange _ _ | .validateRange _ _
  | .eraseVerify _ _ _ | .verifyWord _ _ _ => false

/-- The instructions that read a flash word, beside those that contain a pulse. -/
def Instr.readsFlash : Instr → Bool
  | .flashRead32 _ | .eraseVerify _ _ _ | .verifyWord _ _ _ => true
  | .init | .unprotect | .eraseBlock _ | .writeRange _ _ _ | .regRead _ | .regWrite _ _ | .flashWrite8 _ _
  | .flashWrite32 _ _ | .srcRead8 _ | .waitOp _ | .wdtStop | .wdtStart _ | .irqMask | .irqRestore | .bitSet _ _
  | .bitClr _ _ | .srcWord _ | .precond | .waitProc _ | .scopedGuard _ _ | .guardAcquire _ | .guardRelease
  | .resolveBlock _ | .selectBlock _ | .resolveAddressRange _ _ | .validateRange _ _ | .pageLoop | .erasePulse _
  | .writePage _ _ | .programPulse _ _ | .systemReset => false

/-- The instructions that can load or empty the page latch. -/
def Instr.movesLatch : Instr → Bool
  | .regWrite (.fcr _) _ | .bitClr _ .p | .flashWrite8 _ _ | .scopedGuard _ _ | .programPulse _ _ | .writePage _ _
  | .writeRange _ _ _ | .pageLoop | .systemReset => true
  | .regWrite (.ebr _) _ | .bitClr _ .swe | .bitClr _ .esu | .bitClr _ .psu | .bitClr _ .ev | .bitClr _ .pv
  | .bitClr _ .e | .init | .unprotect | .eraseBlock _ | .regRead _ | .flashWrite32 _ _ | .flashRead32 _ | .srcRead8 _
  | .waitOp _ | .wdtStop | .wdtStart _ | .irqMask | .irqRestore | .bitSet _ _ | .srcWord _ | .precond | .waitProc _
  | .guardAcquire _ | .guardRelease | .resolveBlock _ | .selectBlock _ | .resolveAddressRange _ _ | .validateRange _ _
  | .erasePulse _ | .eraseVerify _ _ _ | .verifyWord _ _ _ => false

end Sys2Proof

namespace Sys2Proof.Machine

/-- The cells are the same where `b` says so, and the latch is. -/
structure LeavesFlash (b : Prop) (s t : State) : Prop where
  profile : t.profile = s.profile
  mode : t.env.mode = s.env.mode
  cells : b → t.env.cells = s.env.cells
  latch : t.env.latch = s.env.latch

section

variable {b : Prop} {s t u : State}

theorem LeavesFlash.trans (h : LeavesFlash b s t) (g : LeavesFlash b t u) : LeavesFlash b s u :=
  ⟨g.profile.trans h.profile, g.mode.trans h.mode, fun hb => (g.cells hb).trans (h.cells hb), g.latch.trans h.latch⟩

theorem LeavesFlash.of_imp {c : Prop} (h : LeavesFlash b s t) (hc : c → b) : LeavesFlash c s t :=
  ⟨h.profile, h.mode, fun hh => h.cells (hc hh), h.latch⟩

theorem leavesFlash_of_quiet (h : Quiet s t) : LeavesFlash b s t :=
  ⟨h.profile, by rw [h.env], fun _ => by rw [h.env], by rw [h.env]⟩

theorem leavesFlash_of_harmless {l : List Act} (hl : Harmless l) (hs : s.profile.regLayout.wf = true) :
    LeavesFlash b s (afterActs l s) := by
  have h := hl s hs
  exact ⟨h.profile, (afterActs_fields l s).2.2.2.2.2.2.1, fun _ => h.cells, h.latch⟩

/-- A run without a register write and a byte write, in the reference environment. -/
theorem leavesFlash_of_codes {l : List Act} (hl : ∀ a ∈ l, a.code ≠ 0x1 ∧ a.code ≠ 0x2) :
    LeavesFlash (s.env.mode = .reference) s (afterActs l s) :=
  ⟨(afterActs_fields l s).1, (afterActs_fields l s).2.2.2.2.2.2.1,
    fun hm => afterActs_cells fun a ha => ⟨(hl a ha).1, .inl hm⟩, afterActs_latch hl⟩

theorem yields_runActs_harmless {l : List Act} (hl : Harmless l) (hs : s.profile.regLayout.wf = true) :
    Yields (LeavesFlash b s) (runActs l s) := yields_runActs (leavesFlash_of_harmless hl hs)

end

theorem leavesFlash_precond {b : Prop} {s : State} (hs : s.profile.regLayout.wf = true) :
    Yields (LeavesFlash b s) (execPrecond s) :=
  (yields_runActs_harmless harmless_precond hs).bind fun t ht =>
    yields_next (ht.trans (leavesFlash_of_quiet (quiet_judgePrecond t)))

/-- An erase verify reads words and enters and leaves its verify mode: it changes no cell in the reference environment,
and the latch in none (R172). -/
theorem leavesFlash_eraseVerify {s : State} (hs : s.profile.regLayout.wf = true) (k : Bank) (start stop : Word) :
    Yields (LeavesFlash (s.env.mode = .reference) s) (execEraseVerify k start stop s) := by
  refine (yields_runActs_harmless (b := s.env.mode = .reference) (harmless_evEnter _ k) hs).bind fun t ht => ?_
  have hstep : ∀ u, LeavesFlash (s.env.mode = .reference) s u → u.scanGoesOn stop = true →
      LeavesFlash (s.env.mode = .reference) s (afterActs (evWordActs u.profile) u).judgeScan := fun u hu _ => by
    have hrun := leavesFlash_of_codes (s := u) (l := evWordActs u.profile) (by simp [evWordActs, Act.code])
    rw [hu.mode] at hrun
    exact hu.trans (hrun.trans (leavesFlash_of_quiet (quiet_judgeScan _)))
  refine (yields_eraseScan hstep _ (ht.trans (leavesFlash_of_quiet (quiet_startScan t start)))).bind fun u hu => ?_
  exact yields_runActs (hu.trans (leavesFlash_of_harmless (harmless_evExit _ k) (by rw [hu.profile]; exact hs)))

theorem leavesFlash_verifyWord (s : State) (k : Bank) (j : Nat) (n : Word) :
    Yields (LeavesFlash (s.env.mode = .reference) s) (execVerifyWord k j n s) := by
  unfold execVerifyWord
  split
  · exact fun t ht => by cases ht
  · have hstart : LeavesFlash (s.env.mode = .reference) s (s.startWord j) := leavesFlash_of_quiet (quiet_startWord s j)
    have hrun := leavesFlash_of_codes (s := s.startWord j) (l := pvWordActs s.profile (offset s.ctx.pgSrc (4 * j)))
      (by simp [pvWordActs, srcWordActs, Act.code])
    exact (yields_runActs (hstart.trans hrun)).bind fun t ht =>
      yields_next (ht.trans (leavesFlash_of_quiet (quiet_judgeWord t j n)))

theorem leavesFlash_selectBlock {b : Prop} (s : State) (i : Word) : Yields (LeavesFlash b s) (execSelectBlock i s) := by
  unfold execSelectBlock
  split
  · exact fun t ht => by cases ht
  · have henv := (select_flash s s.profile i.toNat).1
    exact yields_runActs ⟨(afterActs_fields _ s).1, by rw [henv], fun _ => by rw [henv], by rw [henv]⟩

theorem leavesFlash_init {b : Prop} {s : State} (hs : s.profile.regLayout.wf = true) :
    Yields (LeavesFlash b s) (execInit s) :=
  yields_whenReady fun _ => (leavesFlash_precond (b := b) (s := s.acceptInit.disarm) hs).bind fun t ht =>
    have hst : LeavesFlash b s t := ⟨ht.profile, ht.mode, ht.cells, ht.latch⟩
    yields_next (hst.trans (leavesFlash_of_quiet (quiet_respond t _)))

theorem leavesFlash_micro (u : MicroOp) {s : State} (hp : u.toInstr.endsPulse = false)
    (hm : u.toInstr.movesLatch = false) :
    Yields (LeavesFlash (s.env.mode = .reference ∨ u.toInstr.readsFlash = false) s) (micro u s) := fun t ht => by
  obtain ⟨rfl, -, -⟩ := micro_eq_next ht
  obtain ⟨hprofile, -, -, -, -, -, -, -, -, hmode⟩ := after_fields u s
  have hw : ∀ k v, u ≠ .regWrite (.fcr k) v := by rintro k v rfl; cases hp
  have hb : ∀ a v, u ≠ .flashWrite8 a v := by rintro a v rfl; cases hm
  refine ⟨hprofile, hmode, fun hr => after_cells hw (hr.imp_right fun hr => ?_), after_latch hw hb⟩
  rintro a rfl
  cases hr

/-- An instruction that ends no pulse and moves no latch leaves the flash alone, under the oracle but for the cells of the
words it reads (R46; log 35). -/
theorem leavesFlash_exec {i : Instr} {s : State} (hs : s.profile.regLayout.wf = true) (hp : i.endsPulse = false)
    (hm : i.movesLatch = false) :
    Yields (LeavesFlash (s.env.mode = .reference ∨ i.readsFlash = false) s) (exec i s) := by
  cases i with
  | init => exact leavesFlash_init hs
  | unprotect => exact yields_whenReady fun _ => yields_next ⟨rfl, rfl, fun _ => rfl, rfl⟩
  | regRead r => exact leavesFlash_micro (.regRead r) hp hm
  | regWrite r v => exact leavesFlash_micro (.regWrite r v) hp hm
  | flashWrite32 a v => exact leavesFlash_micro (.flashWrite32 a v) hp hm
  | flashRead32 a => exact leavesFlash_micro (.flashRead32 a) hp hm
  | srcRead8 a => exact leavesFlash_micro (.srcRead8 a) hp hm
  | waitOp c => exact leavesFlash_micro (.wait c) hp hm
  | wdtStop => exact leavesFlash_micro .wdtStop hp hm
  | wdtStart d => exact leavesFlash_micro (.wdtStart d) hp hm
  | irqMask => exact leavesFlash_micro .irqMask hp hm
  | irqRestore => exact leavesFlash_micro .irqRestore hp hm
  | bitSet k f => exact yields_runActs_harmless (harmless_bitOn k f) hs
  | bitClr k f => refine yields_runActs_harmless (harmless_bitOff k ?_ ?_) hs <;> rintro rfl <;> cases hp
  | srcWord a => exact yields_runActs_harmless (harmless_srcWord a) hs
  | precond => exact leavesFlash_precond hs
  | waitProc c => exact yields_runActs_harmless (harmless_wait c) hs
  | guardAcquire d => exact yields_runActs_harmless (harmless_acquire d) hs
  | guardRelease => exact yields_runActs_harmless harmless_release hs
  | resolveBlock n => exact yields_next (leavesFlash_of_quiet (quiet_resolveBlock s n))
  | selectBlock n => exact leavesFlash_selectBlock s n
  | resolveAddressRange d l => exact yields_next (leavesFlash_of_quiet (quiet_resolveRange s d))
  | validateRange d l => exact yields_next (leavesFlash_of_quiet (quiet_withResult s _))
  | eraseVerify k a b => exact (leavesFlash_eraseVerify hs k a b).mono fun t ht => ht.of_imp fun h => h.resolve_right nofun
  | verifyWord k j n => exact (leavesFlash_verifyWord s k j n).mono fun t ht => ht.of_imp fun h => h.resolve_right nofun
  | flashWrite8 _ _ => cases hm
  | eraseBlock _ | writeRange _ _ _ | scopedGuard _ _ | pageLoop | erasePulse _ | writePage _ _ | programPulse _ _
  | systemReset => cases hp

/-- The only instruction that loads the latch and contains no pulse is the byte write. -/
theorem eq_flashWrite8 {i : Instr} (hp : i.endsPulse = false) (hm : i.movesLatch = true) :
    ∃ a v, i = .flashWrite8 a v := by
  cases i with
  | flashWrite8 a v => exact ⟨a, v, rfl⟩
  | regWrite r v =>
    cases r with
    | fcr k => cases hp
    | ebr k => cases hm
  | bitClr k f =>
    cases f with
    | p => cases hp
    | _ => cases hm
  | scopedGuard _ _ | programPulse _ _ | writePage _ _ | writeRange _ _ _ | pageLoop | systemReset => cases hp
  | _ => cases hm

/-- The instructions with a pulse that leaves the latch alone: those of the erase engine. -/
theorem cases_of_erase {i : Instr} (hp : i.endsPulse = true) (hm : i.movesLatch = false) :
    (∃ k, i = .bitClr k .e) ∨ (∃ k, i = .erasePulse k) ∨ ∃ n, i = .eraseBlock n := by
  cases i with
  | erasePulse k => exact .inr (.inl ⟨k, rfl⟩)
  | eraseBlock n => exact .inr (.inr ⟨n, rfl⟩)
  | regWrite r v =>
    cases r with
    | fcr k => cases hm
    | ebr k => cases hp
  | bitClr k f =>
    cases f with
    | e => exact .inl ⟨k, rfl⟩
    | p => cases hm
    | _ => cases hp
  | scopedGuard _ _ | programPulse _ _ | writePage _ _ | writeRange _ _ _ | pageLoop | systemReset => cases hm
  | _ => cases hp

/-- An instruction that ends no pulse changes no cell, under the oracle but for those of the words it reads. -/
theorem exec_cells {i : Instr} {s t : State} (hs : s.profile.regLayout.wf = true) (h : exec i s = .next t)
    (hp : i.endsPulse = false) (hr : s.env.mode = .reference ∨ i.readsFlash = false) : t.env.cells = s.env.cells := by
  cases hm : i.movesLatch with
  | false => exact (leavesFlash_exec hs hp hm t h).cells hr
  | true =>
    obtain ⟨a, v, rfl⟩ := eq_flashWrite8 hp hm
    obtain ⟨rfl, -, -⟩ := micro_eq_next (u := .flashWrite8 a v) h
    exact after_cells (by simp) (.inr (by simp))

/-- An instruction that loads no latch and ends no program pulse does not change the latch (log 13). -/
theorem exec_latch {i : Instr} {s t : State} (hs : s.profile.regLayout.wf = true) (h : exec i s = .next t)
    (hm : i.movesLatch = false) : t.env.latch = s.env.latch := by
  cases hp : i.endsPulse with
  | false => exact (leavesFlash_exec hs hp hm t h).latch
  | true =>
    rcases cases_of_erase hp hm with ⟨k, rfl⟩ | ⟨k, rfl⟩ | ⟨n, rfl⟩
    · rw [runActs_eq_next h]
      exact (bitOff_erase hs k).1
    · rw [runActs_eq_next h]
      exact (erasePulse_flash hs _ k).1
    · exact (eraseBlock_flash n s t h).1

/-- Settles O60: the instructions the statement leaves out are those that end a pulse, read flash words or move the
latch. -/
theorem cellsChangeOnlyByPulses : Obligations.CellsChangeOnlyByPulses := by
  intro i s t h hs
  refine ⟨fun h1 h2 h3 h4 h5 h6 h7 h8 h9 h10 hr a => ?_, fun h1 h2 h3 h4 h5 h6 h7 h8 h9 => ?_⟩
  · have hp : i.endsPulse = false := by
      cases i with
      | regWrite r v => cases r with
        | fcr k => exact absurd rfl (h1 k v)
        | ebr k => rfl
      | bitClr k f => cases f with
        | e => exact absurd rfl (h2 k).1
        | p => exact absurd rfl (h2 k).2
        | _ => rfl
      | scopedGuard d b => exact absurd rfl (h3 d b)
      | erasePulse k => exact absurd rfl (h4 k)
      | programPulse k w => exact absurd rfl (h5 k w)
      | eraseBlock n => exact absurd rfl (h6 n)
      | writePage d r => exact absurd rfl (h7 d r)
      | writeRange d r l => exact absurd rfl (h8 d r l)
      | pageLoop => exact absurd rfl h9
      | systemReset => exact absurd rfl h10
      | _ => rfl
    have hread : s.env.mode = .reference ∨ i.readsFlash = false := hr.imp_right fun ⟨r1, r2, r3⟩ => by
      cases i with
      | flashRead32 a => exact absurd rfl (r1 a)
      | eraseVerify k a b => exact absurd rfl (r2 k a b)
      | verifyWord k j n => exact absurd rfl (r3 k j n)
      | _ => rfl
    rw [exec_cells hs h hp hread]
  · refine exec_latch hs h ?_
    cases i with
    | regWrite r v => cases r with
      | fcr k => exact absurd rfl (h1 k v)
      | ebr k => rfl
    | bitClr k f => cases f with
      | p => exact absurd rfl (h2 k)
      | _ => rfl
    | flashWrite8 a v => exact absurd rfl (h3 a v)
    | scopedGuard d b => exact absurd rfl (h4 d b)
    | programPulse k w => exact absurd rfl (h5 k w)
    | writePage d r => exact absurd rfl (h6 d r)
    | writeRange d r l => exact absurd rfl (h7 d r l)
    | pageLoop => exact absurd rfl h8
    | systemReset => exact absurd rfl h9
    | _ => rfl

end Sys2Proof.Machine
end

section
/-! The addresses of the sequencer: a block and a page lie in one bank, and the address registers stand where the stretch
works (R61, R150 to R152, R162, R163, R172, R193). -/

namespace Sys2Proof.Machine

/-! ### Blocks and pages lie in one bank -/

/-- The banks are split at an entry of the table (R151 (a)). -/
theorem bankSplit_of_wf {p : DeviceProfile} (h : p.wf = true) : ∃ j ≤ p.blockCount, p.tableAt j = p.bankSplit := by
  simp only [DeviceProfile.wf, DeviceProfile.tableWf, Bool.and_eq_true, decide_eq_true_eq] at h
  obtain ⟨⟨⟨⟨⟨-, hsplit⟩, -⟩, -⟩, -⟩, -⟩ := h
  obtain ⟨j, hj, he⟩ := List.getElem_of_mem hsplit
  refine ⟨j, by unfold DeviceProfile.blockCount; omega, ?_⟩
  rw [DeviceProfile.tableAt, List.getD_eq_getElem _ _ hj, he]

/-- Every address of a block is in the bank of its first (R152, R153). -/
theorem bankOf_inBlock {p : DeviceProfile} (h : p.wf = true) {i : Nat} (hi : i < p.blockCount) {a : Word}
    (ha : p.inBlock i a.toNat = true) : p.bankOf a = p.blockBank i := by
  obtain ⟨j, hj, hsplit⟩ := bankSplit_of_wf h
  simp only [DeviceProfile.inBlock, Bool.and_eq_true, decide_eq_true_eq] at ha
  have hiff : a < p.bankSplit ↔ p.tableAt i < p.bankSplit := by
    rw [← hsplit, BitVec.lt_def, BitVec.lt_def]
    rcases Nat.lt_or_ge i j with hij | hij
    · have : (p.tableAt (i + 1)).toNat ≤ _ := tableAt_mono h (Nat.succ_le_of_lt hij) hj
      omega
    · have := tableAt_mono h hij (Nat.le_of_lt hi)
      omega
  simp only [DeviceProfile.blockBank, DeviceProfile.bankOf, hiff]

/-- Every address of a page is in the bank of its first (R151, R152). -/
theorem bankOf_inPage {p : DeviceProfile} (h : p.wf = true) {dest a : Word} (hd : dest.toNat % p.pageBytes = 0)
    (hle : dest.toNat ≤ a.toNat) (hlt : a.toNat < dest.toNat + p.pageBytes) : p.bankOf a = p.bankOf dest := by
  obtain ⟨j, hj, hsplit⟩ := bankSplit_of_wf h
  have hal := tableAt_aligned h hj
  have hiff : a < p.bankSplit ↔ dest < p.bankSplit := by
    rw [← hsplit, BitVec.lt_def, BitVec.lt_def]
    rcases pageBytes_cases p with hp | hp <;> rw [hp] at hal hd hlt <;> omega
  simp only [DeviceProfile.bankOf, hiff]

theorem inBlock_first {p : DeviceProfile} {i a : Nat} (h : (p.tableAt i).toNat ≤ a) (hlt : a < (p.tableAt (i + 1)).toNat) :
    p.inBlock i a = true := by
  simp [DeviceProfile.inBlock, h, hlt]

theorem mod_four_of_aligned {p : DeviceProfile} {a : Nat} (h : a % p.pageBytes = 0) : a % 4 = 0 := by
  rcases pageBytes_cases p with hp | hp <;> rw [hp] at h <;> omega

/-! ### The address invariant at a point -/

/-- What the address invariant says at a point. -/
structure State.AddressesAt (s : State) (g : Seg) (p : Nat) : Prop where
  page : g.writing = true ∨ g = .nextPage → s.pageWf = true
  context : g.writing = true →
    s.ctx.pgDest = s.opr.dest ∧ s.ctx.pgSrc = s.opr.src ∧ s.ctx.bank = s.profile.bankOf s.opr.dest
  word : g = .pvWord → s.loc.j < s.profile.pageWords ∧ s.ctx.vaddr = offset s.ctx.pgDest (4 * s.loc.j)
  block : g.erasing = true →
    s.ctx.blkStart = s.profile.tableAt s.opr.index.toNat ∧ s.ctx.blkEnd = s.profile.tableAt (s.opr.index.toNat + 1)
  scan : g = .evWord →
    s.ctx.vaddr.toNat % 4 = 0 ∧ s.ctx.blkStart ≤ s.ctx.vaddr ∧ s.ctx.vaddr < s.ctx.blkEnd
  probe : g = .evWord ∨ g = .pvWord → p = 1 → s.env.view.probedAt s.ctx.vaddr = some s.env.view.waited
  readBack : g = .evWord ∨ g = .pvWord → p = 2 → s.meaningful s.ctx.vaddr = true

theorem addressesWf_iff {s : State} : s.addressesWf = true ↔ s.AddressesAt s.seq.seg s.seq.pos := by
  simp only [State.addressesWf, State.probeWf, Bool.and_eq_true, Bool.or_eq_true, Bool.not_eq_true', ← Bool.not_eq_true,
    decide_eq_true_eq, ← imp_iff_not_or, and_assoc]
  constructor
  · rintro ⟨h1, h2, h3, h4, h5, h6⟩
    exact ⟨h1, h2, h3, h4, h5, fun hg => (h6 hg).1, fun hg => (h6 hg).2⟩
  · rintro ⟨h1, h2, h3, h4, h5, h6, h7⟩
    exact ⟨h1, h2, h3, h4, h5, fun hg => ⟨h6 hg, h7 hg⟩⟩

theorem pageWf_iff {s : State} : s.pageWf = true ↔ s.opr.dest.toNat % s.profile.pageBytes = 0 ∧
    s.opr.len.toNat % s.profile.pageBytes = 0 ∧ s.opr.len ≠ 0 ∧ s.opr.dest ≤ s.profile.flashMax := by
  simp only [State.pageWf, Bool.and_eq_true, decide_eq_true_eq, and_assoc]

/-- A page in place is what the page loop goes on to, where there is a whole page left. -/
theorem pageWf_congr {s t : State} (hp : t.profile = s.profile) (ho : t.opr = s.opr) : t.pageWf = s.pageWf := by
  unfold State.pageWf
  rw [hp, ho]

/-! ### Along an act -/

/-- The registers that the addresses of a stretch stand in are the same. -/
structure SameAddresses (s t : State) : Prop where
  profile : t.profile = s.profile
  opr : t.opr = s.opr
  bank : t.ctx.bank = s.ctx.bank
  pgDest : t.ctx.pgDest = s.ctx.pgDest
  pgSrc : t.ctx.pgSrc = s.ctx.pgSrc
  blkStart : t.ctx.blkStart = s.ctx.blkStart
  blkEnd : t.ctx.blkEnd = s.ctx.blkEnd

theorem sameAddresses_act_after (a : Act) (s : State) : SameAddresses s (a.after s) := by
  obtain ⟨hp, -, -, ho, -⟩ := act_after_fields a s
  have hx := (act_after_ctx a s).1
  refine ⟨hp, ho, ?_, ?_, ?_, ?_, ?_⟩ <;> rw [hx]

theorem vaddr_act_after (a : Act) (s : State) : (a.after s).ctx.vaddr = s.ctx.vaddr := by
  rw [(act_after_ctx a s).1]

/-- The word of a verify stretch lies in the bank the stretch works on (R152, R163). -/
theorem bankOf_vaddr {s : State} {g : Seg} {p : Nat} (hs : s.At g p) (hsel : s.SelectsAt g p) (h : s.AddressesAt g p)
    (hg : g = .evWord ∨ g = .pvWord) : s.profile.bankOf s.ctx.vaddr = s.ctx.bank := by
  rcases hg with rfl | rfl
  · obtain ⟨hidx, hbank⟩ := hsel.block rfl
    obtain ⟨hstart, hend⟩ := h.block rfl
    obtain ⟨-, hle, hlt⟩ := h.scan rfl
    rw [hstart] at hle
    rw [hend] at hlt
    rw [hbank]
    exact bankOf_inBlock hs.profile hidx (inBlock_first hle hlt)
  · obtain ⟨hdest, -, hbank⟩ := h.context rfl
    obtain ⟨hal, -, -, hle⟩ := pageWf_iff.1 (h.page (.inl rfl))
    obtain ⟨hj, hv⟩ := h.word rfl
    have hmax := flashMax_add_page hs.profile
    rw [BitVec.le_def] at hle
    have hj4 : 4 * s.loc.j + 4 ≤ s.profile.pageBytes := by unfold DeviceProfile.pageWords at hj; omega
    have hoff : s.ctx.vaddr.toNat = s.opr.dest.toNat + 4 * s.loc.j := by rw [hv, hdest, offset_toNat (by omega)]
    rw [hbank]
    exact bankOf_inPage hs.profile hal (by omega) (by omega)

/-- The verify bit and the read delay of a verify stretch (R172, R191, R193). -/
theorem verify_of_control {s : State} {g : Seg} {p : Nat} (hs : s.At g p) (hg : g = .evWord ∨ g = .pvWord) {a : Word}
    (hb : s.profile.bankOf a = s.ctx.bank) : s.verifying a = true ∧
      s.readDelay a = (if g = .evWord then s.profile.delays.evRead else s.profile.delays.pvRead).toNat := by
  unfold State.verifying State.readDelay
  rw [hb, hs.control, hs.control]
  rcases hg with rfl | rfl <;> simp [controlAt]

/-- The first two acts of a verify stretch are the probe and its delay (R172, R193). -/
theorem act_of_verify {s : State} {a : Act} (hg : s.seq.seg = .evWord ∨ s.seq.seg = .pvWord) (ha : s.act = some a) :
    (s.seq.pos = 0 → a = .probe) ∧ (s.seq.pos = 1 →
      a = .wait (if s.seq.seg = .evWord then s.profile.delays.evRead else s.profile.delays.pvRead)) := by
  rw [State.act] at ha
  rcases hg with hg | hg <;> rw [hg] at ha ⊢ <;>
    exact ⟨fun hp => by rw [hp] at ha; exact (Option.some.inj ha).symm,
      fun hp => by rw [hp] at ha; exact (Option.some.inj ha).symm⟩

/-- A probe of a word in a verify mode arms it at the delay waited so far (R64, R268). -/
theorem probedAt_after_probe {s : State} (h : s.verifying s.ctx.vaddr = true) :
    (Act.probe.after s).env.view.probedAt s.ctx.vaddr = some (Act.probe.after s).env.view.waited := by
  have henv : (Act.probe.after s).env = { s.env with view := s.env.view.probe s.ctx.vaddr } := by
    show s.envAfterProbe s.ctx.vaddr ones32 = _
    simp [State.envAfterProbe, h]
  rw [henv, probedAt_probe, if_pos rfl]
  rfl

/-- A read is meaningful when its delay is waited after its probe (R268). -/
theorem meaningful_after_wait {s : State} {c a : Word} (hv : s.verifying a = true) (hd : s.readDelay a = c.toNat)
    (hp : s.env.view.probedAt a = some s.env.view.waited) : ((Act.wait c).after s).meaningful a = true :=
  meaningful_iff.2 ⟨hv, _, hp, Nat.le_of_eq (congrArg _ hd)⟩

/-- An act keeps the addresses of its stretch in place, up to the next point of the stretch or to its end. -/
theorem addressesAt_act_after {s : State} {a : Act} (hs : s.At s.seq.seg s.seq.pos)
    (hsel : s.SelectsAt s.seq.seg s.seq.pos) (h : s.AddressesAt s.seq.seg s.seq.pos) (ha : s.act = some a) :
    (a.after s).AddressesAt s.seq.seg (s.seq.pos + 1) := by
  have hsame := sameAddresses_act_after a s
  have hv := vaddr_act_after a s
  constructor
  · rw [pageWf_congr hsame.profile hsame.opr]; exact h.page
  · rw [hsame.pgDest, hsame.pgSrc, hsame.bank, hsame.opr, hsame.profile]; exact h.context
  · rw [act_after_j, hv, hsame.pgDest, hsame.profile]; exact h.word
  · rw [hsame.blkStart, hsame.blkEnd, hsame.opr, hsame.profile]; exact h.block
  · rw [hv, hsame.blkStart, hsame.blkEnd]; exact h.scan
  · intro hg hp
    obtain rfl := (act_of_verify hg ha).1 (Nat.succ.inj hp)
    rw [hv]
    exact probedAt_after_probe (verify_of_control hs hg (bankOf_vaddr hs hsel h hg)).1
  · intro hg hp
    have hp1 := Nat.succ.inj hp
    obtain ⟨hver, hdelay⟩ := verify_of_control hs hg (bankOf_vaddr hs hsel h hg)
    obtain rfl := (act_of_verify hg ha).2 hp1
    exact meaningful_after_wait hver hdelay (h.probe hg hp1)

/-! ### At the end of a stretch -/

/-- The stretches from which the sequencer enters a page, an erase or a verify word (R150, R162, R172, R193). -/
theorem entries {g h : Seg} (hh : h ∈ g.successors) :
    (h.writing = true → g.writing = true ∨ g = .validate ∨ g = .nextPage) ∧
    (h = .nextPage → g.writing = true) ∧
    (h.erasing = true → g.erasing = true ∨ g = .validate) ∧
    (h = .pvWord → g = .pvEnter ∨ g = .pvWord) ∧
    (h = .evWord → g = .evEnter ∨ g = .evWord) := by
  revert h
  cases g <;> decide

theorem sameAddresses_judgeWord (s : State) (j : Nat) (n : Word) : SameAddresses s (s.judgeWord j n) := by
  unfold State.judgeWord
  split <;> exact ⟨rfl, rfl, rfl, rfl, rfl, rfl, rfl⟩

/-- The end of a stretch of an engine keeps the registers of its page or block. -/
theorem sameAddresses_finish {g : Seg} {s t : State} (hg : g.writing = true ∨ g.erasing = true)
    (h : g.finish s = .next t) : SameAddresses s t := by
  cases g with
  | idle | validate | gInit | nextPage => rcases hg with hg | hg <;> cases hg
  | ePre | wPre | wSwe =>
    simp only [Seg.finish] at h
    split at h <;> cases h <;> constructor <;> simp
  | eEnabled => cases h; constructor <;> simp
  | pvWord =>
    obtain ⟨h1, h2, h3, h4, h5, h6, h7⟩ := sameAddresses_judgeWord s s.loc.j s.ctx.n
    simp only [Seg.finish] at h
    split at h
    · cases h; exact ⟨h1, h2, h3, h4, h5, h6, h7⟩
    · split at h <;> cases h <;> exact ⟨h1, h2, h3, h4, h5, h6, h7⟩
  | pvExit =>
    cases h
    split <;> constructor <;> simp [afterAttempt]
  | _ => cases h; exact ⟨rfl, rfl, rfl, rfl, rfl, rfl, rfl⟩

/-- The page loop enters a page in place, or none is left (R162). -/
theorem addressesAt_nextPageOrEnd {s t : State} (hd : s.opr.dest.toNat % s.profile.pageBytes = 0)
    (hl : s.opr.len.toNat % s.profile.pageBytes = 0) (h : nextPageOrEnd s = .next t) : t.AddressesAt t.seq.seg 0 := by
  rcases nextPageOrEnd_eq_next h with ⟨-, rfl⟩ | ⟨hne, hle, rfl⟩
  · constructor <;> simp [Seg.writing, Seg.erasing]
  · have hp : s.pageWf = true := pageWf_iff.2 ⟨hd, hl, hne, hle⟩
    exact ⟨fun _ => hp, fun _ => ⟨rfl, rfl, rfl⟩, nofun, nofun, nofun, fun _ h0 => absurd h0 Nat.zero_ne_one, nofun⟩

theorem addressesAt_idle {s : State} (h : s.seq.seg = .idle ∨ s.seq.seg = .validate ∨ s.seq.seg = .gInit) :
    s.AddressesAt s.seq.seg 0 := by
  rcases h with h | h | h <;> rw [h] <;> constructor <;> simp [Seg.writing, Seg.erasing]

/-- What `ValidateRange` accepts is a range of whole pages that begins in the flash (R161). -/
theorem aligned_of_rangeStatus {p : DeviceProfile} {dest len : Word} (h : rangeStatus p dest len = .ok) :
    dest.toNat % p.pageBytes = 0 ∧ len.toNat % p.pageBytes = 0 := by
  refine ⟨?_, len_of_rangeStatus h⟩
  unfold rangeStatus at h
  split at h
  · cases h
  split at h
  · cases h
  · next hd => exact of_not_not hd

/-- `Validate` resolves the block of an erase and the first page of a write (R150, R161). -/
theorem addressesAt_validate {s t : State} (h : validateCommand s = .next t) : t.AddressesAt t.seq.seg 0 := by
  unfold validateCommand at h
  split at h
  · cases h; exact addressesAt_idle (.inr (.inr rfl))
  · cases h; exact addressesAt_idle (.inl rfl)
  · split at h
    · cases h; exact addressesAt_idle (.inl rfl)
    next hidx =>
    split at h
    · cases h; exact addressesAt_idle (.inl rfl)
    · cases h
      rw [resolveBlock_of_lt (Nat.not_le.1 hidx)]
      constructor <;> simp [Seg.writing]
  · dsimp only at h
    split at h
    · cases h; exact addressesAt_idle (.inl rfl)
    next hok =>
    obtain ⟨hd, hl⟩ := aligned_of_rangeStatus (of_not_not hok)
    split at h
    · cases h; exact addressesAt_idle (.inl rfl)
    · exact addressesAt_nextPageOrEnd (s := s.withResult (rangeStatus s.profile s.opr.dest s.opr.len)) hd hl h

/-- The next page of a range in place is in place (R162, R164). -/
theorem addressesAt_nextPage {s t : State} (hwf : s.profile.wf = true) (hp : s.pageWf = true)
    (h : Seg.nextPage.finish s = .next t) : t.AddressesAt t.seq.seg 0 := by
  simp only [Seg.finish] at h
  split at h
  · obtain ⟨hd, hl, hne, hle⟩ := pageWf_iff.1 hp
    have hmax := flashMax_add_page hwf
    have hne' : s.opr.len.toNat ≠ 0 := fun e => hne (BitVec.eq_of_toNat_eq e)
    have hpage : s.profile.pageBytes ≤ s.opr.len.toNat := Nat.le_of_dvd (by omega) (Nat.dvd_of_mod_eq_zero hl)
    rw [BitVec.le_def] at hle
    refine addressesAt_nextPageOrEnd (s := s.stepPage) ?_ ?_ h
    · show (s.opr.dest + s.profile.pageWord).toNat % s.profile.pageBytes = 0
      rw [BitVec.toNat_add_of_lt (by rw [pageWord_toNat]; omega), pageWord_toNat, Nat.add_mod_right, hd]
    · show (s.opr.len - s.profile.pageWord).toNat % s.profile.pageBytes = 0
      rw [BitVec.toNat_sub_of_le (by rw [BitVec.le_def, pageWord_toNat]; exact hpage), pageWord_toNat,
        ← Nat.mod_eq_sub_mod hpage, hl]
  · cases h; exact addressesAt_idle (.inl rfl)

/-- A scan that goes on stands at a word of its block (R172). -/
theorem scan_of_scanNext {s : State} (hal : s.ctx.vaddr.toNat % 4 = 0) (hle : s.ctx.blkStart ≤ s.ctx.vaddr)
    (hg : (scanNext s).seq.seg = .evWord) : (scanNext s).ctx.vaddr.toNat % 4 = 0 ∧
      (scanNext s).ctx.blkStart ≤ (scanNext s).ctx.vaddr ∧ (scanNext s).ctx.vaddr < (scanNext s).ctx.blkEnd := by
  refine ⟨hal, hle, ?_⟩
  by_cases hgo : s.scanGoesOn s.ctx.blkEnd = true
  · simp only [State.scanGoesOn, Bool.and_eq_true, decide_eq_true_eq] at hgo
    exact hgo.1
  · simp [scanNext, hgo] at hg

/-- Where the scan goes, its word lies in its block: the first is the block's first, the next follows the one before
(R150, R172). -/
theorem scan_finish {g : Seg} {p : Nat} {s t : State} (hwf : s.profile.wf = true)
    (hidx : g.erasing = true → s.opr.index.toNat < s.profile.blockCount) (h : s.AddressesAt g p) (hg : g = .evEnter ∨ g = .evWord)
    (hf : g.finish s = .next t) (ht : t.seq.seg = .evWord) :
    t.ctx.vaddr.toNat % 4 = 0 ∧ t.ctx.blkStart ≤ t.ctx.vaddr ∧ t.ctx.vaddr < t.ctx.blkEnd := by
  rcases hg with rfl | rfl
  · replace hidx := hidx rfl
    obtain rfl := Host.Outcome.next.inj hf
    refine scan_of_scanNext ?_ (BitVec.le_refl _) ht
    show s.ctx.blkStart.toNat % 4 = 0
    rw [(h.block rfl).1]
    exact mod_four_of_aligned (tableAt_aligned hwf (Nat.le_of_lt hidx))
  · replace hidx := hidx rfl
    obtain ⟨-, hend⟩ := h.block rfl
    obtain ⟨hal, hle, hlt⟩ := h.scan rfl
    obtain rfl := Host.Outcome.next.inj hf
    rw [BitVec.le_def] at hle
    rw [hend, BitVec.lt_def] at hlt
    have hword := word_le_tableAt hwf (i := s.opr.index.toNat + 1) hidx hal hlt
    have hmax := tableAt_add_word hwf (i := s.opr.index.toNat + 1) hidx
    have hv : s.judgeScan.ctx.vaddr.toNat = s.ctx.vaddr.toNat + 4 := by
      show (s.ctx.vaddr + 4).toNat = _
      rw [BitVec.toNat_add_of_lt (by simp; omega)]
      rfl
    refine scan_of_scanNext (by omega) ?_ ht
    rw [BitVec.le_def, hv]
    show s.ctx.blkStart.toNat ≤ _
    omega

/-- Where the verify loop goes, its word is one of the page (R191, R193). -/
theorem word_finish {g : Seg} {s t : State} (hg : g = .pvEnter ∨ g = .pvWord) (hf : g.finish s = .next t)
    (ht : t.seq.seg = .pvWord) : t.loc.j < t.profile.pageWords ∧ t.ctx.vaddr = offset t.ctx.pgDest (4 * t.loc.j) := by
  rcases hg with rfl | rfl
  · obtain rfl := Host.Outcome.next.inj hf
    refine ⟨?_, rfl⟩
    show 0 < s.profile.pageBytes / 4
    rcases pageBytes_cases s.profile with hp | hp <;> rw [hp] <;> decide
  · simp only [Seg.finish] at hf
    split at hf
    · cases hf; cases ht
    · split at hf
      · next hj =>
        cases hf
        exact ⟨by simpa using hj, rfl⟩
      · cases hf; cases ht

/-- The end of a stretch leaves the addresses of the next one in place. -/
theorem addressesAt_finish {g : Seg} {p : Nat} {s t : State} (hwf : s.profile.wf = true)
    (hidx : g.erasing = true → s.opr.index.toNat < s.profile.blockCount) (h : s.AddressesAt g p) (hm : Moved g s t) (hf : g.finish s = .next t) : t.AddressesAt t.seq.seg 0 := by
  obtain ⟨hw, hn, he, hpv, hev⟩ := entries hm.seg
  by_cases hg : g.writing = true ∨ g.erasing = true
  · have hsame := sameAddresses_finish hg hf
    have hv : g ≠ .validate := by rintro rfl; rcases hg with hg | hg <;> cases hg
    have hnp : g ≠ .nextPage := by rintro rfl; rcases hg with hg | hg <;> cases hg
    have hw' : t.seq.seg.writing = true → g.writing = true := fun ht =>
      (hw ht).resolve_right fun h => h.elim hv hnp
    refine ⟨fun ht => ?_, fun ht => ?_, fun ht => word_finish (hpv ht) hf ht, fun ht => ?_,
      fun ht => scan_finish hwf hidx h (hev ht) hf ht, fun _ h0 => absurd h0 Nat.zero_ne_one,
      fun _ h0 => absurd h0 (Nat.zero_ne_add_one 1)⟩
    · rw [pageWf_congr hsame.profile hsame.opr]
      exact h.page (.inl (ht.elim hw' hn))
    · rw [hsame.pgDest, hsame.pgSrc, hsame.bank, hsame.opr, hsame.profile]
      exact h.context (hw' ht)
    · rw [hsame.blkStart, hsame.blkEnd, hsame.opr, hsame.profile]
      exact h.block ((he ht).resolve_right hv)
  · have hseg : g = .idle ∨ g = .validate ∨ g = .gInit ∨ g = .nextPage := by revert hg; cases g <;> decide
    have hm' := hm.seg
    rcases hseg with rfl | rfl | rfl | rfl
    · exact addressesAt_idle (by simpa [Seg.successors, or_assoc] using Or.inl hm')
    · exact addressesAt_validate hf
    · exact addressesAt_idle (.inl (List.mem_singleton.1 hm'))
    · exact addressesAt_nextPage hwf (h.page (.inr rfl)) hf

/-- The addresses of a point do not depend on where the sequencer stands. -/
theorem addressesAt_of_seq {s : State} {g : Seg} {p : Nat} (h : s.AddressesAt g p) (q : Seq) :
    { s with seq := q }.AddressesAt g p := ⟨h.page, h.context, h.word, h.block, h.scan, h.probe, h.readBack⟩

/-- Settles O12: an act carries the addresses to the next point of its stretch, the probe arming the word and the delay
making its read meaningful; the end of a stretch sets the addresses of the next one. -/
theorem stepKeepsAddresses : Obligations.StepKeepsAddresses := by
  intro s t hinv haddr h
  obtain ⟨hs, hsel, hpos, -⟩ := inv_iff.1 hinv
  have hat := addressesWf_iff.1 haddr
  have hidx : s.seq.seg.erasing = true → s.opr.index.toNat < s.profile.blockCount := fun he => (hsel.block he).1
  rw [addressesWf_iff]
  cases hr : s.port.resetPin with
  | true =>
    obtain rfl := Host.Outcome.next.inj ((step_of_resetPin hr).symm.trans h)
    exact addressesAt_idle (.inl rfl)
  | false =>
    rcases step_cases hr hs.uword h with ⟨ha, hf⟩ | ⟨a, ha, -, -, ⟨hlt, rfl⟩ | ⟨-, hf⟩⟩
    · have hm := finish_moved (fun _ => (no_acts_of_posWf hpos ha).2) rfl hf
      rw [hm.pos]
      exact addressesAt_finish hs.profile hidx hat hm hf
    · exact addressesAt_of_seq (addressesAt_act_after hs hsel hat ha) _
    · obtain ⟨hp, -, hseq, hopr, -⟩ := act_after_fields a s
      have hm := finish_moved (g := s.seq.seg) (s := a.after s) (by rw [hseq]; exact pos_of_idle hpos) (by rw [hseq]) hf
      rw [hm.pos]
      exact addressesAt_finish (by rw [hp]; exact hs.profile) (by rw [hopr, hp]; exact hidx)
        (addressesAt_act_after hs hsel hat ha) hm hf

end Sys2Proof.Machine
end

section
/-! What `BitClr` and the flash accesses come to: the register written back, the pulse it ends, the latch, the armed word
and the value read (R81, R113 to R116, R268). -/

namespace Sys2Proof.Machine

/-- A micro-operation completes where its address exists and no overflow is admitted after it. -/
theorem micro_of_calm {u : MicroOp} {s : State} (hr : u.reaches s.profile = true) (hc : (u.after s).calm = true) :
    micro u s = .next (u.after s) := by
  rw [micro_of_reaches hr, settle_of_calm hc]

/-- Acts without a flash access that leave the watchdog alone complete where no overflow is admitted. -/
theorem runActs_of_calm {l : List Act} {s : State} (hc : s.calm = true) (hl : ∀ a ∈ l, a.watchdog s.wdt = s.wdt)
    (hr : ∀ a ∈ l, a.reaches s = true) : runActs l s = .next (afterActs l s) := by
  refine runActs_of_fits ?_
  rw [State.fits, Bool.and_eq_true, List.all_eq_true]
  exact ⟨calmRun_of_calm hc hl, hr⟩

/-! ### `BitClr` -/

/-- `BitClr` clears its own bit (R113). -/
theorem bit_bitOff {s : State} (hl : s.profile.regLayout.wf = true) (k : Bank) (f g : Field) :
    (afterActs (bitOff k f) s).bit k g = (decide (g ≠ f) && s.bit k g) := by
  rw [afterActs_bitOff]
  refine (bit_regWrite_fcr (s := s.regRead (.fcr k)) hl k k _ g).trans ?_
  rw [if_pos rfl, BitVec.getLsbD_and, getLsbD_not]
  show ((s.content (.fcr k)).getLsbD (s.profile.regLayout.bit g).val &&
    !(s.profile.regLayout.mask f).getLsbD (s.profile.regLayout.bit g).val) = _
  rw [getLsbD_content hl, getLsbD_mask hl, decide_not, Bool.and_comm]

/-- `BitSet` sets its own bit (R112). -/
theorem bit_bitOn {s : State} (hl : s.profile.regLayout.wf = true) (k : Bank) (f g : Field) :
    (afterActs (bitOn k f) s).bit k g = (decide (g = f) || s.bit k g) := by
  rw [afterActs_bitOn]
  refine (bit_regWrite_fcr (s := s.regRead (.fcr k)) hl k k _ g).trans ?_
  rw [if_pos rfl, BitVec.getLsbD_or]
  show ((s.content (.fcr k)).getLsbD (s.profile.regLayout.bit g).val ||
    (s.profile.regLayout.mask f).getLsbD (s.profile.regLayout.bit g).val) = _
  rw [getLsbD_content hl, getLsbD_mask hl, Bool.or_comm]

/-- The accesses of one bank leave the control register of every other. -/
theorem fcr_bitOff_other (s : State) {k j : Bank} (h : j ≠ k) (f : Field) :
    (afterActs (bitOff k f) s).fcr j = s.fcr j :=
  (fcr_regWrite_fcr (s.regRead (.fcr k)) k j _).trans (if_neg h)

theorem fcr_bitOn_other (s : State) {k j : Bank} (h : j ≠ k) (f : Field) :
    (afterActs (bitOn k f) s).fcr j = s.fcr j :=
  (fcr_regWrite_fcr (s.regRead (.fcr k)) k j _).trans (if_neg h)

/-- Everything that `BitClr` changes (R113). -/
theorem bitOff_fields (s : State) (k : Bank) (f : Field) :
    let t := afterActs (bitOff k f) s
    t = { s with
      regs := t.regs
      loc := { s.loc with rdPrev := s.loc.rd, rd := s.content (.fcr k) }
      env := { s.env with
        cells := t.env.cells, latch := t.env.latch, fwe := t.env.fwe, fler := t.env.fler
        view := { s.env.view with pulsed := t.env.view.pulsed } }
      trace := s.trace ++ [.rr (.fcr k) (s.content (.fcr k)),
        .rw (.fcr k) (s.content (.fcr k) &&& ~~~s.profile.regLayout.mask f)]
      moment := s.moment + 2 } := by
  have htrace : (afterActs (bitOff k f) s).trace = s.trace ++ [.rr (.fcr k) (s.content (.fcr k)),
      .rw (.fcr k) (s.content (.fcr k) &&& ~~~s.profile.regLayout.mask f)] := by simp [afterActs_bitOff]
  dsimp only
  rw [← htrace]
  cases k <;> rfl

theorem afterRead_mode (e : Env) (r : Reg) : (e.afterRead r).mode = e.mode := by
  rcases r with (k | k) <;> cases k <;> rfl

theorem erasedCell_of_reference {s : State} (h : s.env.mode = .reference) (a : Nat) : s.erasedCell a = 0xFF := by
  rw [State.erasedCell, h]
  rfl

theorem programmedCell_of_reference {s : State} (h : s.env.mode = .reference) (m : Memory) (a : Nat) (v : Byte) :
    s.programmedCell m a v = m.read a &&& v := by
  rw [State.programmedCell, h]

/-- `BitClr` of a set `E` erases every cell of every selected block in the reference environment (R81). -/
theorem read_bitOff_erase {s : State} (hl : s.profile.regLayout.wf = true) {k : Bank} (hb : s.bit k .e = true)
    (hm : s.env.mode = .reference) (hwf : s.env.cells.rising = true) {a : Nat} (ha : s.inSelected a) :
    (afterActs (bitOff k .e) s).env.cells.read a = 0xFF := by
  have he := falls_bitOff hl k .e .e
  have hp := falls_bitOff hl k .e .p
  rw [hb] at he
  rw [show (_ && decide (Field.p = .e)) = false from Bool.and_false _] at hp
  rw [env_bitOff, State.envAfterFcr, programEnd_of_no_fall hp, eraseEnd_of_fall he]
  refine (read_fillSelected (s.regRead (.fcr k)) _ ?_ ha).trans
    (erasedCell_of_reference (s := s.regRead (.fcr k)) ((afterRead_mode _ _).trans hm) a)
  show (s.env.afterRead (.fcr k)).cells.rising = true
  rw [(afterRead_flash _ _).1, hwf]

/-- `BitClr` of a set `P` programs every latched cell in the reference environment (R81). -/
theorem read_bitOff_program {s : State} (hl : s.profile.regLayout.wf = true) {k : Bank} (hb : s.bit k .p = true)
    (hm : s.env.mode = .reference) (hwf : s.env.wf = true) {a : Nat} {x : Byte} (hx : s.env.latch.find a = some x) :
    (afterActs (bitOff k .p) s).env.cells.read a = s.env.cells.read a &&& x := by
  obtain ⟨hc, -, hlatch⟩ := env_wf_iff.1 hwf
  have he := falls_bitOff hl k .p .e
  have hp := falls_bitOff hl k .p .p
  rw [show (_ && decide (Field.e = .p)) = false from Bool.and_false _] at he
  rw [hb] at hp
  have hflash := afterRead_flash s.env (.fcr k)
  rw [env_bitOff, State.envAfterFcr, eraseEnd_of_no_fall he, programEnd_of_fall hp]
  show (fillLatched _ (s.env.afterRead (.fcr k)).latch (s.env.afterRead (.fcr k)).cells).read a = _
  rw [hflash.1, hflash.2, read_fillLatched _ hlatch (Memory.wf_iff.1 hc).1 hx]
  refine (programmedCell_of_reference (s := s.regRead (.fcr k)) ((afterRead_mode _ _).trans hm) _ a x).trans ?_
  exact congrArg (Memory.read · a &&& x) hflash.1

/-- `BitClr` of a set `P` empties the latch (R81; log 13). -/
theorem latch_bitOff_program {s : State} (hl : s.profile.regLayout.wf = true) {k : Bank} (hb : s.bit k .p = true) :
    (afterActs (bitOff k .p) s).env.latch = [] := by
  rw [env_bitOff, envAfterFcr_latch, falls_bitOff hl, hb]
  rfl

/-- Where no pulse ends, `BitClr` leaves the flash as it was (R113). -/
theorem bitOff_of_no_pulse {s : State} (hl : s.profile.regLayout.wf = true) {k : Bank} {f : Field}
    (h : s.bit k f = false ∨ (f ≠ .e ∧ f ≠ .p)) : (afterActs (bitOff k f) s).env = s.env.afterRead (.fcr k) := by
  have hf : ∀ g, g = .e ∨ g = .p →
      (s.regRead (.fcr k)).falls k (s.content (.fcr k) &&& ~~~s.profile.regLayout.mask f) g = false := fun g hg => by
    rw [falls_bitOff hl]
    rcases h with h | ⟨he, hp⟩
    · by_cases e : g = f
      · rw [e, h, Bool.false_and]
      · simp [e]
    · have e : g ≠ f := by rcases hg with rfl | rfl <;> [exact he.symm; exact hp.symm]
      simp [e]
  exact envAfterFcr_of_no_fall (s := s.regRead (.fcr k)) (hf .e (.inl rfl)) (hf .p (.inr rfl))

theorem afterRead_view (e : Env) (r : Reg) : (e.afterRead r).view = e.view := by
  rcases r with (k | k) <;> cases k <;> rfl

/-- Settles O32: `BitClr` is a read and a write, whose write makes its own bit fall and no other. -/
theorem bitClrResult : Obligations.BitClrResult := by
  intro s k f hc hl
  have hrun : exec (.bitClr k f) s = .next (afterActs (bitOff k f) s) :=
    runActs_of_calm hc (by simp [bitOff, Act.watchdog]) (by simp [bitOff, Act.reaches])
  refine ⟨_, hrun, bitOff_fields s k f, bit_bitOff hl k f, fcr_bitOff_other s (other_ne k) f, ebr_bitOff s k f,
    fun h => ?_, fun hb hf => ?_, fun hb hf => ?_⟩
  · rw [bitOff_of_no_pulse hl h, (afterRead_flash _ _).1, (afterRead_flash _ _).2, afterRead_view]
    exact ⟨rfl, rfl, rfl⟩
  · subst hf
    obtain ⟨hlatch, hout⟩ := bitOff_erase hl k
    refine ⟨hlatch, fun hwf a => ⟨fun ha hm => ?_, fun ha => hout a (not_inSelected.2 ha)⟩⟩
    exact read_bitOff_erase hl hb hm (Memory.wf_iff.1 (env_wf_iff.1 hwf).1).1 ha
  · subst hf
    refine ⟨latch_bitOff_program hl hb, fun hwf a => ⟨fun x hx hm => read_bitOff_program hl hb hm hwf hx, fun ha => ?_⟩⟩
    exact (bitOff_program hl k ha).2

/-! ### Flash writes -/

theorem latching_iff {s : State} {a : Word} : s.latching a = true ↔ s.bit (s.profile.bankOf a) .swe = true ∧
    s.bit (s.profile.bankOf a) .pv = false ∧ s.bit (s.profile.bankOf a) .ev = false := by
  simp only [State.latching, State.verifying, Bool.and_eq_true, Bool.not_eq_true', Bool.or_eq_false_iff]
  tauto

theorem verifying_iff {s : State} {a : Word} : s.verifying a = true ↔
    s.bit (s.profile.bankOf a) .ev = true ∨ s.bit (s.profile.bankOf a) .pv = true := by
  simp [State.verifying]

/-- What a byte write leaves in the latch (R81, R114). -/
theorem find_latch_after_flashWrite8 (s : State) (a : Word) (v : Byte) (b : Nat) :
    (s.flashWrite8 a v).env.latch.find b =
      if s.latching a = true ∧ b = a.toNat then some v else s.env.latch.find b := by
  rw [(flashWrite8_fields s a v).2.2.2.2.2.2.2.2.2.2.2.1]
  by_cases hl : s.latching a = true
  · simp only [hl, if_true, true_and]
    exact Memory.find_insert _ _ _ _
  · simp [hl]

/-- A byte write changes nothing of the flash but its latch (R81, R114). -/
theorem flashWrite8_eq (s : State) (a : Word) (v : Byte) : s.flashWrite8 a v = { s with
    env := { s.env with latch := (s.flashWrite8 a v).env.latch }
    trace := s.trace ++ [.fw8 a v]
    moment := s.moment + 1 } := by
  have henv : (s.flashWrite8 a v).env = { s.env with latch := (s.flashWrite8 a v).env.latch } := by
    rw [(flashWrite8_fields s a v).2.2.2.2.2.2.2.2.2.2.2.1]
    split <;> rfl
  rw [← henv]
  rfl

/-- Settles O33: a byte write changes the latch at most, a word write the list of armed words at most. -/
theorem flashWriteResults : Obligations.FlashWriteResults := by
  intro s a hc
  refine ⟨fun v ha => ⟨_, micro_of_calm (u := .flashWrite8 a v) (decide_eq_true ha) hc, flashWrite8_eq s a v,
    fun b => ?_⟩, fun v ha hm => ?_⟩
  · show (s.flashWrite8 a v).env.latch.find b = _
    rw [find_latch_after_flashWrite8]
    simp only [latching_iff, and_assoc]
  · have hr : (MicroOp.flashWrite32 a v).reaches s.profile = true := by
      simp [MicroOp.reaches, DeviceProfile.wordReachable, DeviceProfile.hasFlashWord, ha, hm]
    refine (micro_of_calm hr hc).trans (congrArg Host.Outcome.next ?_)
    show s.flashWrite32 a v = _
    simp only [State.flashWrite32, State.envAfterProbe, Bool.and_eq_true, verifying_iff, decide_eq_true_eq]
    split <;> rfl

/-! ### Flash reads -/

/-- What a word read leaves: its value, and of the flash the cells of its word and the script (R116; log 35). -/
theorem flashRead32_eq (s : State) (a : Word) : s.flashRead32 a = { s with
    loc := { s.loc with fword := s.readBack a }
    env := { s.env with
      cells := (s.flashRead32 a).env.cells
      answers := (s.flashRead32 a).env.answers }
    trace := s.trace ++ [.fr32 a (s.readBack a)]
    moment := s.moment + 1 } := by
  have henv : (s.flashRead32 a).env = { s.env with
      cells := (s.flashRead32 a).env.cells
      answers := (s.flashRead32 a).env.answers } := by
    show s.envAfterReadBack a = _
    rcases envAfterReadBack_cases s a with ⟨-, he⟩ | ⟨-, -, he⟩
    · show _ = { s.env with cells := (s.envAfterReadBack a).cells, answers := (s.envAfterReadBack a).answers }
      rw [he]
    · show _ = { s.env with cells := (s.envAfterReadBack a).cells, answers := (s.envAfterReadBack a).answers }
      rw [he]
  rw [← henv]
  rfl

/-- In the reference environment a read of a probed word in a verify mode answers the cells (R81). -/
theorem readBack_of_reference {s : State} {a : Word} (hm : s.env.mode = .reference) (hp : s.probed a = true) :
    s.readBack a = s.env.cells.word a.toNat := by
  simp [State.readBack, hm, hp]

/-- Under the oracle a meaningful read takes the next answer (R80). -/
theorem readBack_of_oracle {s : State} {a : Word} (hm : s.env.mode = .oracle) (hp : s.meaningful a = true) :
    s.readBack a = s.env.answers.now (s.unscripted a) := by
  simp [State.readBack, hm, hp]

/-- Under the oracle a meaningful read leaves its answer in the cells (R46, R80; log 35). -/
theorem envAfterReadBack_of_oracle {s : State} {a : Word} (hm : s.env.mode = .oracle) (hp : s.meaningful a = true) :
    s.envAfterReadBack a = { s.env with
      cells := s.env.cells.writeWord a.toNat (s.readBack a)
      answers := s.env.answers.later } := by
  simp [State.envAfterReadBack, hm, hp]

/-- Any other read leaves the flash alone (R81; log 14). -/
theorem envAfterReadBack_of_not {s : State} {a : Word} (h : s.env.mode = .reference ∨ s.meaningful a = false) :
    s.envAfterReadBack a = s.env := by
  rcases h with h | h <;> simp [State.envAfterReadBack, h]

/-- A word in a verify mode whose delays are waited since its probe is read meaningfully (R268). -/
theorem meaningful_of_delays {s : State} {a : Word} {n : Nat} (hn : s.env.view.probedAt a = some n)
    (hv : s.bit (s.profile.bankOf a) .ev = true ∨ s.bit (s.profile.bankOf a) .pv = true)
    (he : s.bit (s.profile.bankOf a) .ev = true → n + s.profile.delays.evRead.toNat ≤ s.env.view.waited)
    (hp : s.bit (s.profile.bankOf a) .pv = true → n + s.profile.delays.pvRead.toNat ≤ s.env.view.waited) :
    s.meaningful a = true := by
  refine meaningful_iff.2 ⟨verifying_iff.2 hv, n, hn, ?_⟩
  unfold State.readDelay
  split <;> split <;> simp_all
  omega

/-- What the oracle answers with nothing scripted or held is what the last pulse left (R46, R70; log 35). -/
theorem now_unscripted {s : State} {a : Word} (hq : s.env.answers.queue = []) (hh : s.env.answers.held = none)
    (hc : ∀ i < 4, s.env.view.covers (a.toNat + i) = true) :
    s.env.answers.now (s.unscripted a) = s.env.cells.word a.toNat := by
  have h0 := hc 0 (by decide)
  have hw : s.env.view.coversWord a.toNat = true := by
    simp only [VerifyView.coversWord, Bool.and_eq_true]
    exact ⟨⟨⟨h0, hc 1 (by decide)⟩, hc 2 (by decide)⟩, hc 3 (by decide)⟩
  simp [Feed.now, hq, hh, State.unscripted, hw]

/-- Settles O34: the value is the cells, the oracle's answer, or free, and only the oracle's answer changes the word. -/
theorem flashReadResult : Obligations.FlashReadResult := by
  intro s a hc ha hmax
  have hr : (MicroOp.flashRead32 a).reaches s.profile = true := by
    simp [MicroOp.reaches, DeviceProfile.wordReachable, DeviceProfile.hasFlashWord, ha, hmax]
  refine ⟨s.flashRead32 a, s.readBack a, micro_of_calm hr hc, flashRead32_eq s a,
    fun b hb => read_flashRead32_outside s a hb, envAfterReadBack_of_not, fun n hn hv => ⟨fun hm => ?_, ?_⟩⟩
  · have hp : s.probed a = true := by simp [State.probed, verifying_iff.2 hv, hn]
    exact readBack_of_reference hm hp
  · intro hm he hp
    have hmean := meaningful_of_delays hn hv he hp
    have henv := envAfterReadBack_of_oracle hm hmean
    refine ⟨fun x q hq => ⟨?_, ?_⟩, fun hq hh hcov => ?_, fun hwf => ?_⟩
    · rw [readBack_of_oracle hm hmean, Feed.now, hq]
    · show (s.envAfterReadBack a).answers.queue = q
      rw [henv]
      show s.env.answers.queue.tail = q
      rw [hq, List.tail_cons]
    · rw [readBack_of_oracle hm hmean, now_unscripted hq hh hcov]
    · show (s.envAfterReadBack a).cells.word a.toNat = _
      rw [henv]
      exact Memory.word_writeWord (Memory.wf_iff.1 (env_wf_iff.1 hwf).1).1 _ _

end Sys2Proof.Machine
end

section
/-! One verify word: the probe, the delay and the read back, the source word read afresh, and the checks (R60, R70, R80,
R81, R123, R193 to R197, R268). -/

namespace Sys2Proof.Machine

/-! ### The probe, the delay and the read back -/

/-- What a run of verify accesses keeps, the watchdog being stopped. -/
structure Kept (s t : State) : Prop where
  profile : t.profile = s.profile
  port : t.port = s.port
  seq : t.seq = s.seq
  opr : t.opr = s.opr
  armed : t.armed = s.armed
  irq : t.irq = s.irq
  regs : t.regs = s.regs
  wdt : t.wdt = s.wdt
  source : t.env.source = s.env.source
  mode : t.env.mode = s.env.mode
  latch : t.env.latch = s.env.latch
  pulsed : t.env.view.pulsed = s.env.view.pulsed

theorem Kept.refl (s : State) : Kept s s := ⟨rfl, rfl, rfl, rfl, rfl, rfl, rfl, rfl, rfl, rfl, rfl, rfl⟩

theorem Kept.trans {s t u : State} (h : Kept s t) (g : Kept t u) : Kept s u :=
  ⟨g.profile.trans h.profile, g.port.trans h.port, g.seq.trans h.seq, g.opr.trans h.opr, g.armed.trans h.armed,
    g.irq.trans h.irq, g.regs.trans h.regs, g.wdt.trans h.wdt, g.source.trans h.source, g.mode.trans h.mode,
    g.latch.trans h.latch, g.pulsed.trans h.pulsed⟩

theorem Kept.verifying {s t : State} (h : Kept s t) (a : Word) : t.verifying a = s.verifying a := by
  simp only [State.verifying, bit_of_regs h.profile h.regs, h.profile]

theorem Kept.readDelay {s t : State} (h : Kept s t) (a : Word) : t.readDelay a = s.readDelay a := by
  simp only [State.readDelay, bit_of_regs h.profile h.regs, h.profile]

theorem begin_of_stopped {w : Watchdog} (h : w.run = false) (c : Word) : w.begin c = w := by
  simp [Watchdog.begin, h]

/-- A probe changes the armed words at most (R64, R268; log 34, log 37). -/
theorem envAfterProbe_eq (s : State) (a v : Word) : s.envAfterProbe a v =
    { s.env with view := { s.env.view with probes := (s.envAfterProbe a v).view.probes } } := by
  unfold State.envAfterProbe
  split <;> rfl

theorem probedAt_envAfterProbe_other (s : State) (v : Word) {a b : Word} (h : b ≠ a) :
    (s.envAfterProbe a v).view.probedAt b = s.env.view.probedAt b := by
  unfold State.envAfterProbe
  split
  · rw [probedAt_probe, if_neg h]
  · rfl

theorem probedAt_envAfterProbe {s : State} {a : Word} (h : s.verifying a = true) :
    (s.envAfterProbe a ones32).view.probedAt a = some s.env.view.waited := by
  simp only [State.envAfterProbe, h, decide_true, Bool.and_self, if_true, probedAt_probe]

/-- The word at the verify address, probed, its delay waited and read back: what changes, and what is read (R172, R193,
R268). -/
structure ReadsWord (s : State) (d : Word) (t : State) : Prop extends Kept s t where
  ctx : t.ctx = s.ctx
  loc : t.loc = { s.loc with fword := t.loc.fword }
  trace : t.trace = s.trace ++ [.fw32 s.ctx.vaddr ones32, .wait d, .fr32 s.ctx.vaddr t.loc.fword]
  waited : t.env.view.waited = s.env.view.waited + d.toNat
  probes : ∀ b, b ≠ s.ctx.vaddr → t.env.view.probedAt b = s.env.view.probedAt b
  outside : ∀ b, b < s.ctx.vaddr.toNat ∨ s.ctx.vaddr.toNat + 4 ≤ b → t.env.cells.read b = s.env.cells.read b
  cells : s.env.mode = .reference → t.env.cells = s.env.cells
  reference : s.verifying s.ctx.vaddr = true → s.env.mode = .reference →
    t.loc.fword = s.env.cells.word s.ctx.vaddr.toNat
  script : s.verifying s.ctx.vaddr = true → s.env.mode = .oracle → s.readDelay s.ctx.vaddr ≤ d.toNat →
    ∀ x q, s.env.answers.queue = x :: q → t.loc.fword = x ∧ t.env.answers.queue = q
  oracle : s.verifying s.ctx.vaddr = true → s.env.mode = .oracle → s.readDelay s.ctx.vaddr ≤ d.toNat →
    s.env.wf = true → t.env.cells.word s.ctx.vaddr.toNat = t.loc.fword

/-- The state between the delay and the read. -/
def State.armedWord (s : State) (d : Word) : State := (s.flashWrite32 s.ctx.vaddr ones32).wait d

theorem armedWord_env (s : State) (d : Word) : (s.armedWord d).env = { s.env with
    view := { probes := (s.envAfterProbe s.ctx.vaddr ones32).view.probes
              waited := s.env.view.waited + d.toNat
              pulsed := s.env.view.pulsed } } := by
  show { s.envAfterProbe s.ctx.vaddr ones32 with view := (s.envAfterProbe s.ctx.vaddr ones32).view.wait d } = _
  rw [envAfterProbe_eq]
  rfl

theorem meaningful_armedWord {s : State} {d : Word} (hv : s.verifying s.ctx.vaddr = true)
    (hd : s.readDelay s.ctx.vaddr ≤ d.toNat) : (s.armedWord d).meaningful s.ctx.vaddr = true := by
  refine meaningful_iff.2 ⟨hv, s.env.view.waited, probedAt_envAfterProbe hv, ?_⟩
  rw [armedWord_env]
  exact Nat.add_le_add_left hd _

theorem probed_armedWord {s : State} {d : Word} (hv : s.verifying s.ctx.vaddr = true) :
    (s.armedWord d).probed s.ctx.vaddr = true := by
  have hp : ((s.armedWord d).env.view.probedAt s.ctx.vaddr).isSome = true := by
    rw [show (s.armedWord d).env.view.probedAt s.ctx.vaddr = _ from probedAt_envAfterProbe hv]
    rfl
  exact Bool.and_eq_true_iff.2 ⟨hv, hp⟩

theorem readsWord {s : State} (hw : s.wdt.run = false) (d : Word) :
    ReadsWord s d (afterActs [.probe, .wait d, .readBack] s) := by
  have ht : afterActs [.probe, .wait d, .readBack] s = (s.armedWord d).flashRead32 s.ctx.vaddr := rfl
  have hread := flashRead32_eq (s.armedWord d) s.ctx.vaddr
  have hout := fun b hb => read_flashRead32_outside (s.armedWord d) s.ctx.vaddr (a := b) hb
  have henv := armedWord_env s d
  have hrest : ((s.armedWord d).flashRead32 s.ctx.vaddr).env.source = s.env.source ∧
      ((s.armedWord d).flashRead32 s.ctx.vaddr).env.mode = s.env.mode ∧
      ((s.armedWord d).flashRead32 s.ctx.vaddr).env.latch = s.env.latch ∧
      ((s.armedWord d).flashRead32 s.ctx.vaddr).env.view.pulsed = s.env.view.pulsed ∧
      ((s.armedWord d).flashRead32 s.ctx.vaddr).env.view.waited = s.env.view.waited + d.toNat := by
    rw [hread]
    dsimp only
    rw [henv]
    exact ⟨rfl, rfl, rfl, rfl, rfl⟩
  obtain ⟨hsource, hmode, hlatch, hpulsed, hwaited⟩ := hrest
  rw [ht]
  refine ⟨⟨rfl, rfl, rfl, rfl, rfl, rfl, rfl, begin_of_stopped hw d, hsource, hmode, hlatch, hpulsed⟩, rfl, rfl, ?_,
    hwaited, fun b hb => ?_, fun b hb => ?_, fun hm => ?_, fun hv hm => ?_, fun hv hm hd x q hq => ?_,
    fun hv hm hd hwf => ?_⟩
  · show ((s.trace ++ [_]) ++ [_]) ++ [_] = _
    simp only [List.append_assoc, List.cons_append, List.nil_append]
    rfl
  · rw [hread]
    exact probedAt_envAfterProbe_other s ones32 hb
  · rw [hout b hb, henv]
  · have hm' : (s.armedWord d).env.mode = .reference := by rw [henv]; exact hm
    show ((s.armedWord d).envAfterReadBack s.ctx.vaddr).cells = _
    rw [envAfterReadBack_of_not (.inl hm'), henv]
  · have hm' : (s.armedWord d).env.mode = .reference := by rw [henv]; exact hm
    refine (readBack_of_reference hm' (probed_armedWord hv)).trans ?_
    rw [henv]
  · have hm' : (s.armedWord d).env.mode = .oracle := by rw [henv]; exact hm
    have hq' : (s.armedWord d).env.answers.queue = x :: q := by rw [henv]; exact hq
    have hmean := meaningful_armedWord hv hd
    constructor
    · refine (readBack_of_oracle hm' hmean).trans ?_
      rw [Feed.now, hq']
    · show ((s.armedWord d).envAfterReadBack s.ctx.vaddr).answers.queue = q
      rw [envAfterReadBack_of_oracle hm' hmean]
      show (s.armedWord d).env.answers.queue.tail = q
      rw [hq', List.tail_cons]
  · have hm' : (s.armedWord d).env.mode = .oracle := by rw [henv]; exact hm
    have hr : (s.armedWord d).env.cells.rising = true := by
      rw [henv]
      exact (Memory.wf_iff.1 (env_wf_iff.1 hwf).1).1
    show ((s.armedWord d).envAfterReadBack s.ctx.vaddr).cells.word _ = (s.armedWord d).readBack s.ctx.vaddr
    rw [envAfterReadBack_of_oracle hm' (meaningful_armedWord hv hd)]
    exact Memory.word_writeWord hr _ _

/-! ### The source word (R123, R60) -/

/-- Four bytes shifted in are the word of the four, the first on top. -/
theorem shiftIn_four (x : Word) (b0 b1 b2 b3 : Byte) :
    ((((((((x <<< 8) ||| b0.setWidth 32) <<< 8) ||| b1.setWidth 32) <<< 8) ||| b2.setWidth 32) <<< 8) |||
      b3.setWidth 32) = b0 ++ b1 ++ b2 ++ b3 := by
  refine BitVec.eq_of_getLsbD_eq fun i hi => ?_
  simp only [BitVec.getLsbD_or, BitVec.getLsbD_shiftLeft, BitVec.getLsbD_setWidth, BitVec.getLsbD_append]
  grind

/-- The source word at an address, its most significant byte first (R60). -/
def State.sourceWordAt (s : State) (a : Word) : Word :=
  s.sourceByte a ++ s.sourceByte (offset a 1) ++ s.sourceByte (offset a 2) ++ s.sourceByte (offset a 3)

/-- The state after `SrcWord(a)` (R123). -/
def State.readSource (s : State) (a : Word) : State :=
  { s with
    loc := { s.loc with sbyte := s.sourceByte (offset a 3), sword := s.sourceWordAt a }
    trace := s.trace ++ [.sr8 a (s.sourceByte a), .sr8 (offset a 1) (s.sourceByte (offset a 1)),
      .sr8 (offset a 2) (s.sourceByte (offset a 2)), .sr8 (offset a 3) (s.sourceByte (offset a 3))]
    moment := s.moment + 4 }

theorem srcByte_after (s : State) (a : Word) : (Act.srcByte a).after s = { s with
    loc := { s.loc with sbyte := s.sourceByte a, sword := (s.loc.sword <<< 8) ||| (s.sourceByte a).setWidth 32 }
    trace := s.trace ++ [.sr8 a (s.sourceByte a)]
    moment := s.moment + 1 } := rfl

theorem afterActs_srcWord (s : State) (a : Word) : afterActs (srcWordActs a) s = s.readSource a := by
  have hbyte : ∀ (l : Locals) (tr : List Event) (m : Nat) (b : Word),
      { s with loc := l, trace := tr, moment := m }.sourceByte b = s.sourceByte b := fun _ _ _ _ => rfl
  simp only [srcWordActs, afterActs_cons, afterActs_nil, srcByte_after, hbyte, shiftIn_four, List.append_assoc,
    List.cons_append, List.nil_append]
  rfl

/-! ### The buffers -/

theorem bufByte_set (buf : List Byte) (k i : Nat) (b : Byte) (hk : k < buf.length) :
    bufByte (buf.set k b) i = if i = k then b else bufByte buf i := by
  simp only [bufByte, List.getD_eq_getElem?_getD, List.getElem?_set, hk, if_true]
  by_cases h : i = k
  · simp [h]
  · rw [if_neg (Ne.symm h), if_neg h]

/-- The four bytes of a word, put together again (R60). -/
theorem append_extract (v : Word) :
    v.extractLsb' 24 8 ++ v.extractLsb' 16 8 ++ v.extractLsb' 8 8 ++ v.extractLsb' 0 8 = v := by
  ext i hi
  simp only [BitVec.getElem_append, BitVec.getElem_extractLsb']
  repeat' split
  all_goals rw [BitVec.getLsbD_eq_getElem (by omega)]; congr 1; omega

/-- A word stored in a buffer is that word, and every other word is as it was (R10). -/
theorem bufWord_setBufWord {buf : List Byte} {j : Nat} (hj : 4 * j + 4 ≤ buf.length) (v : Word) (i : Nat) :
    bufWord (setBufWord buf j v) i = if i = j then v else bufWord buf i := by
  have hbyte : ∀ x, bufByte (setBufWord buf j v) x = if x = 4 * j + 3 then v.extractLsb' 0 8
      else if x = 4 * j + 2 then v.extractLsb' 8 8 else if x = 4 * j + 1 then v.extractLsb' 16 8
      else if x = 4 * j then v.extractLsb' 24 8 else bufByte buf x := fun x => by
    unfold setBufWord
    rw [bufByte_set _ _ _ _ (by simp only [List.length_set]; omega),
      bufByte_set _ _ _ _ (by simp only [List.length_set]; omega),
      bufByte_set _ _ _ _ (by simp only [List.length_set]; omega), bufByte_set _ _ _ _ (by omega)]
  unfold bufWord
  by_cases h : i = j
  · subst h
    simp only [hbyte]
    simp [append_extract]
  · simp only [hbyte, if_neg h]
    simp (disch := omega) only [if_neg]

/-! ### The checks (R193 to R197) -/

theorem judgeWord_of_fatal {s : State} (h : s.fatalWord = true) (j : Nat) (n : Word) : s.judgeWord j n = { s with
    ctx := { s.ctx with m := s.mismatch j }
    loc := { s.loc with result := .programVerifyFatal } } := by
  rw [State.judgeWord, h]
  rfl

theorem judgeWord_of_not_fatal {s : State} (h : s.fatalWord = false) (j : Nat) (n : Word) : s.judgeWord j n = { s with
    ctx := { s.ctx with
      m := s.mismatch j, obuf := s.nextObuf j n, rbuf := setBufWord s.ctx.rbuf j s.reprogramWord }
    loc := { s.loc with result := .ok } } := by
  rw [State.judgeWord, h]
  rfl

/-- The mismatch flag is all that a verify word always writes of the PulseContext, with the verify address and the
buffers (R193). -/
theorem judgeWord_ctx_eq (s : State) (j : Nat) (n : Word) : (s.judgeWord j n).ctx = { s.ctx with
    m := s.mismatch j, rbuf := (s.judgeWord j n).ctx.rbuf, obuf := (s.judgeWord j n).ctx.obuf } := by
  cases h : s.fatalWord with
  | true => rw [judgeWord_of_fatal h]
  | false => rw [judgeWord_of_not_fatal h]

/-- An overwrite pass is one of the first `OVERWRITE_COUNT` attempts of a profile that has it (R195, R198). -/
theorem overwritePass_iff {p : DeviceProfile} {n : Word} :
    p.overwritePass n = true ↔ p.hasOverwrite = true ∧ n ≤ p.overwriteCount := by
  simp [DeviceProfile.overwritePass]

/-! ### `VerifyWord` -/

theorem pvWord_fits {s : State} (hw : s.wdt.run = false) (hr : s.profile.wordReachable s.ctx.vaddr = true) (a : Word) :
    s.fits (pvWordActs s.profile a) = true := by
  rw [State.fits, Bool.and_eq_true, List.all_eq_true]
  exact ⟨calmRun_of_stopped _ hw (by simp [pvWordActs, srcWordActs]),
    by simp [pvWordActs, srcWordActs, Act.reaches, hr]⟩

/-- `VerifyWord` reads the word of the page, then the source word, and judges them (R193). -/
theorem verifyWord_runs {s : State} {j : Nat} (hj : j < s.profile.pageWords) (hw : s.wdt.run = false)
    (hr : s.profile.wordReachable (offset s.ctx.pgDest (4 * j)) = true) (k : Bank) (n : Word) :
    ∃ u, ReadsWord (s.startWord j) s.profile.delays.pvRead u ∧
      execVerifyWord k j n s = .next ((u.readSource (offset s.ctx.pgSrc (4 * j))).judgeWord j n) := by
  have hfit : runActs (pvWordActs s.profile (offset s.ctx.pgSrc (4 * j))) (s.startWord j) = .next _ :=
    runActs_of_fits (pvWord_fits (s := s.startWord j) hw hr _)
  refine ⟨_, readsWord (s := s.startWord j) hw _, ?_⟩
  rw [execVerifyWord, if_neg (Nat.not_le.2 hj), hfit, andThen_of_next, pvWordActs, afterActs_append, afterActs_srcWord]

theorem mismatch_iff {s : State} {j : Nat} :
    s.mismatch j = true ↔ s.ctx.m = true ∨ s.loc.fword ≠ s.reference j := by
  simp [State.mismatch]

theorem fatalWord_iff {s : State} : s.fatalWord = true ↔ s.loc.sword &&& ~~~s.loc.fword ≠ 0 := by
  simp [State.fatalWord]

/-- What the checks of a word do to the mismatch flag, the buffers and the result (R193 to R197). -/
theorem judgeWord_result {s : State} {j : Nat} (hr : 4 * j + 4 ≤ s.ctx.rbuf.length) (n : Word) :
    let t := s.judgeWord j n
    (t.ctx.m = true ↔ s.ctx.m = true ∨ s.loc.fword ≠ s.reference j) ∧
    (s.loc.sword &&& ~~~s.loc.fword ≠ 0 →
      t.loc.result = .programVerifyFatal ∧ t.ctx.rbuf = s.ctx.rbuf ∧ t.ctx.obuf = s.ctx.obuf) ∧
    (s.loc.sword &&& ~~~s.loc.fword = 0 → t.loc.result = .ok ∧
      (∀ i, bufWord t.ctx.rbuf i = if i = j then s.loc.sword ||| ~~~s.loc.fword else bufWord s.ctx.rbuf i) ∧
      (s.profile.overwritePass n = true → 4 * j + 4 ≤ s.ctx.obuf.length → ∀ i, bufWord t.ctx.obuf i =
        if i = j then s.loc.fword ||| bufWord s.ctx.rbuf j else bufWord s.ctx.obuf i) ∧
      (s.profile.overwritePass n = false → t.ctx.obuf = s.ctx.obuf)) := by
  dsimp only
  cases h : s.fatalWord with
  | true =>
    have hne := fatalWord_iff.1 h
    rw [judgeWord_of_fatal h]
    exact ⟨mismatch_iff, fun _ => ⟨rfl, rfl, rfl⟩, fun h0 => absurd h0 hne⟩
  | false =>
    have h0 : ¬ s.loc.sword &&& ~~~s.loc.fword ≠ 0 := fun hne => by rw [fatalWord_iff.2 hne] at h; cases h
    rw [judgeWord_of_not_fatal h]
    refine ⟨mismatch_iff, fun hne => absurd hne h0, fun _ => ⟨rfl, bufWord_setBufWord hr _, fun hp ho => ?_, fun hp => ?_⟩⟩
    · simp only [State.nextObuf, hp, if_true]
      exact bufWord_setBufWord ho _
    · simp [State.nextObuf, hp]

/-- Settles O44: `VerifyWord` is a word read, a source word, and the checks. -/
theorem verifyWordResult : Obligations.VerifyWordResult := by
  intro s k j n hj hw hal hmax hrbuf hobuf
  have hr : s.profile.wordReachable (offset s.ctx.pgDest (4 * j)) = true := by
    simp [DeviceProfile.wordReachable, DeviceProfile.hasFlashWord, hal, hmax]
  obtain ⟨u, hu, hrun⟩ := verifyWord_runs hj hw hr k n
  have hj4 : 4 * j + 4 ≤ s.profile.pageBytes := by unfold DeviceProfile.pageWords at hj; omega
  have hctx : u.ctx = { s.ctx with vaddr := offset s.ctx.pgDest (4 * j) } := hu.ctx
  have hbuf : u.ctx.rbuf = s.ctx.rbuf ∧ u.ctx.obuf = s.ctx.obuf ∧ u.ctx.m = s.ctx.m := by simp [hctx]
  have hprofile : u.profile = s.profile := hu.profile
  generalize hx : u.readSource (offset s.ctx.pgSrc (4 * j)) = x at hrun
  obtain ⟨hxe, hxc, hxp, hxf⟩ : x.env = u.env ∧ x.ctx = u.ctx ∧ x.profile = u.profile ∧ x.loc.fword = u.loc.fword := by
    subst hx
    exact ⟨rfl, rfl, rfl, rfl⟩
  obtain ⟨es, hes, hread, hprobed, hlen⟩ : ∃ es, x.trace = s.trace ++ es ∧
      wordsRead es = [(offset s.ctx.pgDest (4 * j), u.loc.fword)] ∧
      wordsProbed es = [(offset s.ctx.pgDest (4 * j), ones32)] ∧ es.length = 7 := by
    subst hx
    exact ⟨_, (congrArg (· ++ _) hu.trace).trans (List.append_assoc _ _ _), rfl, rfl, rfl⟩
  have hword : x.loc.sword = s.sourceWordAt (offset s.ctx.pgSrc (4 * j)) := by
    subst hx
    show u.sourceWordAt _ = _
    simp only [State.sourceWordAt, State.sourceByte, hu.source]
    rfl
  have href : x.reference j = match s.profile.mismatchRef with
      | .reprogram => bufWord s.ctx.rbuf j
      | .source => x.loc.sword := by
    rw [State.reference, hxp, hprofile, hxc, hbuf.1] <;> rfl
  have hovw : x.profile.overwritePass n = s.profile.overwritePass n := by rw [hxp, hprofile]
  obtain ⟨hm, hfatal, hgood⟩ := judgeWord_result (s := x) (j := j) (by rw [hxc, hbuf.1, hrbuf]; exact hj4) n
  rw [hxc, hxf, hbuf.2.2, href] at hm
  rw [hxc, hxf, hbuf.1, hbuf.2.1] at hfatal
  rw [hxc, hxf, hbuf.1, hbuf.2.1, hovw] at hgood
  obtain ⟨-, hport, hseq, hopr, -, harmed, hirq, hregs, hwdt, henv, htrace, -⟩ := judgeWord_fields x j n
  have hxs : x.port = u.port ∧ x.seq = u.seq ∧ x.opr = u.opr ∧ x.armed = u.armed ∧ x.irq = u.irq ∧ x.regs = u.regs ∧
      x.wdt = u.wdt := by
    subst hx
    exact ⟨rfl, rfl, rfl, rfl, rfl, rfl, rfl⟩
  obtain ⟨h1, h2, h3, h4, h5, h6, h7⟩ := hxs
  have hdrop : (x.judgeWord j n).trace.drop s.trace.length = es := by rw [htrace, hes, List.drop_left]
  have hte : (x.judgeWord j n).env = u.env := henv.trans hxe
  refine ⟨x.judgeWord j n, u.loc.fword, x.loc.sword, hrun, ?_, by rw [hdrop, hread]; rfl, by rw [hdrop, hprobed]; rfl,
    by rw [htrace, hes, List.length_append, hlen], hm, hfatal, fun h0 => ?_, fun hpv => ?_,
    fun hmode => by rw [hte]; exact hu.cells hmode, fun b hb => by rw [hte]; exact hu.outside b hb, ?_,
    hregs.trans (h6.trans hu.regs), hirq.trans (h5.trans hu.irq), hwdt.trans (h7.trans hu.wdt), by rw [hte]; exact hu.latch,
    by rw [hte]; exact hu.pulsed, by rw [hte]; exact hu.waited, fun a ha => by rw [hte]; exact hu.probes a ha,
    hopr.trans (h3.trans hu.opr), harmed.trans (h4.trans hu.armed), hport.trans (h1.trans hu.port),
    hseq.trans (h2.trans hu.seq)⟩
  · rw [hword]
    simp only [State.sourceWordAt, State.sourceByte, BitVec.add_zero]
    rfl
  · obtain ⟨hok, hrb, hob, hno⟩ := hgood h0
    refine ⟨hok, fun i _ => hrb i, fun hpass i _ => ?_, fun hpass => hno ?_⟩
    · refine hob (overwritePass_iff.2 hpass) ?_ i
      rw [hobuf, DeviceProfile.obufBytes, hpass.1]
      exact hj4
    · rcases hpass with hpass | hpass <;> simp [DeviceProfile.overwritePass, hpass]
  · have hv : (s.startWord j).verifying (offset s.ctx.pgDest (4 * j)) = true := verifying_iff.2 (.inr hpv)
    refine ⟨hu.reference hv, fun hmode hev => ?_⟩
    have hd : (s.startWord j).readDelay (offset s.ctx.pgDest (4 * j)) ≤ s.profile.delays.pvRead.toNat := by
      show s.readDelay _ ≤ _
      simp [State.readDelay, hpv, hev]
    rw [hte]
    exact ⟨hu.script hv hmode hd, hu.oracle hv hmode hd⟩
  · rw [judgeWord_ctx_eq, hxc, hctx]

end Sys2Proof.Machine
end

section
/-! The erase scan: the words of a range read in ascending order up to the first that is not `ONES32` (R70, R80, R81,
R172). -/

namespace Sys2Proof.Machine

/-! ### The words of a scan and its events -/

/-- The words of a scan from an address on, with the values read. -/
def scannedWords : Word → List Word → List (Word × Word)
  | _, [] => []
  | a, v :: vs => (a, v) :: scannedWords (a + 4) vs

/-- The events of a scan from an address on: probe, delay and read of each word (R172). -/
def scanEvents (d : Word) : Word → List Word → List Event
  | _, [] => []
  | a, v :: vs => .fw32 a ones32 :: .wait d :: .fr32 a v :: scanEvents d (a + 4) vs

theorem wordsRead_scanEvents (d a : Word) (vs : List Word) : wordsRead (scanEvents d a vs) = scannedWords a vs := by
  induction vs generalizing a with
  | nil => rfl
  | cons v vs ih => exact congrArg _ (ih (a + 4))

theorem wordsProbed_scanEvents (d a : Word) (vs : List Word) :
    wordsProbed (scanEvents d a vs) = (scannedWords a vs).map (fun c => (c.1, ones32)) := by
  induction vs generalizing a with
  | nil => rfl
  | cons v vs ih => exact congrArg _ (ih (a + 4))

theorem length_scanEvents (d a : Word) (vs : List Word) : (scanEvents d a vs).length = 3 * vs.length := by
  induction vs generalizing a with
  | nil => rfl
  | cons v vs ih => simp only [scanEvents, List.length_cons, ih]; omega

theorem countP_scanEvents (d a : Word) (vs : List Word) : (scanEvents d a vs).countP Event.isWdtStart = 0 := by
  induction vs generalizing a with
  | nil => rfl
  | cons v vs ih => simpa [scanEvents, Event.isWdtStart] using ih (a + 4)

theorem map_snd_scannedWords (a : Word) (vs : List Word) : (scannedWords a vs).map Prod.snd = vs := by
  induction vs generalizing a with
  | nil => rfl
  | cons v vs ih => exact congrArg _ (ih (a + 4))

theorem map_fst_scannedWords (a : Word) (vs : List Word) :
    (scannedWords a vs).map Prod.fst = (List.range vs.length).map (fun i => a + BitVec.ofNat 32 (4 * i)) := by
  induction vs generalizing a with
  | nil => rfl
  | cons v vs ih =>
    have hstep : ∀ i : Nat, a + 4 + BitVec.ofNat 32 (4 * i) = a + BitVec.ofNat 32 (4 * (i + 1)) := fun i => by
      rw [BitVec.add_assoc, Nat.mul_succ, Nat.add_comm (4 * i), BitVec.ofNat_add]
      rfl
    rw [List.length_cons, List.range_succ_eq_map, List.map_cons, List.map_map, scannedWords, List.map_cons, ih]
    simp only [hstep, Nat.mul_zero, BitVec.add_zero, Function.comp_def, Nat.succ_eq_add_one]

/-! ### The verdict of a scan -/

/-- What the verdict `b` of a scan of `n` words says of the words `vs` it read (R172). -/
structure ScanVerdict (n : Nat) (vs : List Word) (b : Bool) : Prop where
  length_le : vs.length ≤ n
  init : ∀ v ∈ vs.dropLast, v = ones32
  pass : b = true ↔ vs.length = n ∧ ∀ v ∈ vs, v = ones32
  fail : b = false → ∃ v, vs.getLast? = some v ∧ v ≠ ones32

theorem scanVerdict_nil : ScanVerdict 0 [] true := ⟨Nat.le_refl _, nofun, by simp, nofun⟩

theorem scanVerdict_fail {v : Word} (h : v ≠ ones32) (n : Nat) : ScanVerdict (n + 1) [v] false :=
  ⟨by simp, by simp, by simp [h], fun _ => ⟨v, rfl, h⟩⟩

theorem ScanVerdict.cons {n : Nat} {vs : List Word} {b : Bool} (h : ScanVerdict n vs b) :
    ScanVerdict (n + 1) (ones32 :: vs) b := by
  obtain ⟨h1, h2, h3, h4⟩ := h
  refine ⟨Nat.succ_le_succ h1, ?_, h3.trans (by simp), fun hb => ?_⟩
  · cases vs with
    | nil => nofun
    | cons w ws =>
      intro v hv
      rw [List.dropLast_cons_of_ne_nil (by simp)] at hv
      rcases List.mem_cons.1 hv with rfl | hv
      · rfl
      · exact h2 v hv
  · obtain ⟨v, hv, hne⟩ := h4 hb
    refine ⟨v, ?_, hne⟩
    rw [List.getLast?_cons, hv]
    rfl

/-! ### The scan -/

/-- A scan from `s` to `t` that read the words `vs` of the `n` there are. -/
structure Scanned (s : State) (n : Nat) (vs : List Word) (t : State) : Prop extends Kept s t where
  ctx : t.ctx = { s.ctx with vaddr := t.ctx.vaddr }
  trace : t.trace = s.trace ++ scanEvents s.profile.delays.evRead s.ctx.vaddr vs
  verdict : ScanVerdict n vs t.loc.flag
  waited : t.env.view.waited = s.env.view.waited + vs.length * s.profile.delays.evRead.toNat
  probes : ∀ b, b ∉ (scannedWords s.ctx.vaddr vs).map Prod.fst → t.env.view.probedAt b = s.env.view.probedAt b
  outside : ∀ b, b < s.ctx.vaddr.toNat ∨ s.ctx.vaddr.toNat + 4 * vs.length ≤ b →
    t.env.cells.read b = s.env.cells.read b
  cells : s.env.mode = .reference → t.env.cells = s.env.cells
  reference : s.env.mode = .reference → ∀ c ∈ scannedWords s.ctx.vaddr vs, s.verifying c.1 = true →
    c.2 = s.env.cells.word c.1.toNat
  oracle : s.env.mode = .oracle → s.env.wf = true → ∀ c ∈ scannedWords s.ctx.vaddr vs, s.verifying c.1 = true →
    s.readDelay c.1 ≤ s.profile.delays.evRead.toNat → t.env.cells.word c.1.toNat = c.2

theorem eraseScan_of_failed {s : State} (h : s.loc.flag = false) (stop : Word) (n : Nat) : eraseScan stop n s = .next s := by
  cases n with
  | zero => rfl
  | succ n => simp [eraseScan, State.scanGoesOn, h]

theorem evWord_fits {s : State} (hw : s.wdt.run = false) (hr : s.profile.wordReachable s.ctx.vaddr = true) :
    s.fits (evWordActs s.profile) = true := by
  rw [State.fits, Bool.and_eq_true, List.all_eq_true]
  exact ⟨calmRun_of_stopped _ hw (by simp [evWordActs]), by simp [evWordActs, Act.reaches, hr]⟩

/-- The words of a scan that are left lie in the flash, and the last of them is the last before the end (R172). -/
def ScanFits (p : DeviceProfile) (stop : Word) (n : Nat) (a : Word) : Prop :=
  n ≠ 0 → a.toNat % 4 = 0 ∧ a.toNat + 4 * n ≤ p.flashMax.toNat + 1 ∧ a.toNat + 4 * n < stop.toNat + 4

theorem ScanFits.step {p : DeviceProfile} {stop a : Word} {n : Nat} (h : ScanFits p stop (n + 1) a) :
    ScanFits p stop n (a + 4) ∧ (n ≠ 0 → (a + 4).toNat = a.toNat + 4) := by
  obtain ⟨h1, h2, h3⟩ := h (Nat.succ_ne_zero n)
  have hlt := p.flashMax.isLt
  have ha : n ≠ 0 → (a + 4).toNat = a.toNat + 4 := fun hn => by
    rw [BitVec.toNat_add_of_lt (by simp; omega)]
    rfl
  refine ⟨fun hn => ?_, ha⟩
  rw [ha hn]
  omega

theorem word_congr {m m' : Memory} {a : Nat} (h : ∀ i < 4, m.read (a + i) = m'.read (a + i)) : m.word a = m'.word a := by
  have h0 := h 0 (by decide)
  simp only [Nat.add_zero] at h0
  rw [Memory.word, Memory.word, h0, h 1 (by decide), h 2 (by decide), h 3 (by decide)]

/-- A scan of one word more, before the scan of the rest (R172). -/
theorem Scanned.cons {s u t : State} {n : Nat} {vs : List Word} (hu : ReadsWord s s.profile.delays.evRead u)
    (hv : u.loc.fword = ones32) (hnw : vs.length ≤ n → vs ≠ [] → (s.ctx.vaddr + 4).toNat = s.ctx.vaddr.toNat + 4)
    (hwf : s.env.wf = true → u.env.wf = true) (ht : Scanned u.judgeScan n vs t) :
    Scanned s (n + 1) (ones32 :: vs) t := by
  have hk : Kept s u.judgeScan := hu.toKept.trans ⟨rfl, rfl, rfl, rfl, rfl, rfl, rfl, rfl, rfl, rfl, rfl, rfl⟩
  have hp : u.judgeScan.profile = s.profile := hk.profile
  have hstep : u.judgeScan.ctx = { s.ctx with vaddr := s.ctx.vaddr + 4 } := by
    rw [(judgeScan_fields u).2.2.2.2.1, hu.ctx]
  have hva : u.judgeScan.ctx.vaddr = s.ctx.vaddr + 4 := congrArg PulseContext.vaddr hstep
  have hnw' := hnw ht.verdict.length_le
  have hrest : ∀ b, b < s.ctx.vaddr.toNat + 4 ∨ vs = [] → t.env.cells.read b = u.env.cells.read b := fun b hb => by
    refine ht.outside b ?_
    rw [hva]
    by_cases hvs : vs = []
    · rw [hvs, List.length_nil]; omega
    · have := hnw' hvs
      have := hb.resolve_right hvs
      omega
  have hctx : t.ctx = { u.judgeScan.ctx with vaddr := t.ctx.vaddr } := ht.ctx
  constructor
  · exact hk.trans ht.toKept
  · rw [hctx, hstep]
  · rw [ht.trace, hp, hva]
    show u.trace ++ _ = _
    rw [hu.trace, hv, List.append_assoc]
    rfl
  · exact ht.verdict.cons
  · rw [ht.waited, hp]
    show u.env.view.waited + _ = _
    rw [hu.waited, List.length_cons, Nat.succ_mul]
    omega
  · intro b hb
    simp only [scannedWords, List.map_cons, List.mem_cons, not_or] at hb
    rw [ht.probes b (by rw [hva]; exact hb.2)]
    exact hu.probes b hb.1
  · intro b hb
    rw [List.length_cons] at hb
    rw [ht.outside b ?_]
    · exact hu.outside b (by omega)
    · rw [hva]
      by_cases hvs : vs = []
      · rw [hvs, List.length_nil]; omega
      · have := hnw' hvs
        omega
  · intro hm
    rw [ht.cells (hk.mode.trans hm)]
    exact hu.cells hm
  · intro hm c hc hver
    rcases List.mem_cons.1 hc with rfl | hc
    · exact hv.symm.trans (hu.reference hver hm)
    · rw [ht.reference (hk.mode.trans hm) c (by rw [hva]; exact hc) (by rw [hk.verifying]; exact hver)]
      exact congrArg (Memory.word · _) (hu.cells hm)
  · intro hm hw c hc hver hd
    rcases List.mem_cons.1 hc with rfl | hc
    · rw [← hv, ← hu.oracle hver hm hd hw]
      exact word_congr fun i hi => hrest _ (.inl (by dsimp only; omega))
    · exact ht.oracle (hk.mode.trans hm) (hwf hw) c (by rw [hva]; exact hc) (by rw [hk.verifying]; exact hver)
        (by rw [hk.readDelay, hp]; exact hd)

/-- A scan that stops at its first word. -/
theorem scanned_fail {s u : State} {n : Nat} (hu : ReadsWord s s.profile.delays.evRead u) (hv : u.loc.fword ≠ ones32) :
    Scanned s (n + 1) [u.loc.fword] u.judgeScan := by
  constructor
  · exact hu.toKept.trans ⟨rfl, rfl, rfl, rfl, rfl, rfl, rfl, rfl, rfl, rfl, rfl, rfl⟩
  · rw [(judgeScan_fields u).2.2.2.2.1, hu.ctx]
  · exact hu.trace
  · have hflag : u.judgeScan.loc.flag = false := by simp [hv]
    rw [hflag]
    exact scanVerdict_fail hv n
  · show u.env.view.waited = _
    rw [hu.waited, List.length_singleton, Nat.one_mul]
  · exact fun b hb => hu.probes b (by simpa [scannedWords] using hb)
  · exact fun b hb => hu.outside b (by simpa using hb)
  · exact hu.cells
  · intro hm c hc hver
    obtain rfl := List.mem_singleton.1 hc
    exact hu.reference hver hm
  · intro hm hw c hc hver hd
    obtain rfl := List.mem_singleton.1 hc
    exact hu.oracle hver hm hd hw

theorem framed_afterActs (l : List Act) (s : State) : Framed s (afterActs l s) := by
  induction l generalizing s with
  | nil => exact framed_of_eq rfl rfl rfl rfl
  | cons a l ih =>
    refine Framed.trans (framed_chained.trans (framed_chained.micro (a.op s) s) (framed_chained.quiet (quiet_store a _))) ?_
    exact ih _

/-- The scan of a range in the flash completes (R172). -/
theorem eraseScan_runs {stop : Word} {n : Nat} {s : State} (hw : s.wdt.run = false) (hflag : s.loc.flag = true)
    (hfit : ScanFits s.profile stop n s.ctx.vaddr) : ∃ vs t, eraseScan stop n s = .next t ∧ Scanned s n vs t := by
  induction n generalizing s with
  | zero =>
    refine ⟨[], s, rfl, .refl s, rfl, (List.append_nil _).symm, ?_, ?_, fun _ _ => rfl, fun _ _ => rfl, fun _ => rfl,
      nofun, nofun⟩
    · rw [hflag]; exact scanVerdict_nil
    · simp
  | succ n ih =>
    obtain ⟨hal, hmax, hend⟩ := hfit (Nat.succ_ne_zero n)
    have hr : s.profile.wordReachable s.ctx.vaddr = true := by
      simp only [DeviceProfile.wordReachable, DeviceProfile.hasFlashWord, Bool.and_eq_true, decide_eq_true_eq]
      omega
    have hgo : s.scanGoesOn stop = true := by
      simp only [State.scanGoesOn, hflag, Bool.and_true, decide_eq_true_eq, BitVec.lt_def]
      omega
    have hu := readsWord hw s.profile.delays.evRead
    have hframe := framed_afterActs [.probe, .wait s.profile.delays.evRead, .readBack] s
    rw [eraseScan, if_pos hgo, runActs_of_fits (evWord_fits hw hr), andThen_of_next]
    change ∃ vs t, eraseScan stop n (afterActs [.probe, .wait s.profile.delays.evRead, .readBack] s).judgeScan = _ ∧ _
    generalize afterActs [.probe, .wait s.profile.delays.evRead, .readBack] s = u at hu hframe ⊢
    by_cases hv : u.loc.fword = ones32
    · obtain ⟨hstep, hnw⟩ := hfit.step
      have hflag' : u.judgeScan.loc.flag = true := by
        rw [(judgeScan_fields u).2.2.2.2.2.1, hu.loc]
        simp [hflag, hv]
      obtain ⟨vs, t, ht, hs⟩ := ih (s := u.judgeScan) (by rw [← hw]; exact congrArg Watchdog.run hu.wdt) hflag' (by
        rw [(judgeScan_fields u).1, (judgeScan_fields u).2.2.2.2.1, hu.profile, hu.ctx]
        exact hstep)
      refine ⟨_, t, ht, hs.cons hu hv (fun hle hne => hnw fun h0 => hne ?_) hframe.wf⟩
      exact List.eq_nil_of_length_eq_zero (by omega)
    · have hflag' : u.judgeScan.loc.flag = false := by simp [hv]
      exact ⟨_, _, eraseScan_of_failed hflag' _ _, scanned_fail hu hv⟩

end Sys2Proof.Machine
end

section
/-! Control bits set or cleared with their delay, and `EraseVerify` between the two (R112, R113, R172). -/

namespace Sys2Proof.Machine

/-- What a `BitSet` or `BitClr` that ends no pulse, with the delay after it, does besides its bit, the watchdog being
stopped. -/
structure Toggled (s : State) (k : Bank) (c : Word) (t : State) : Prop where
  profile : t.profile = s.profile
  port : t.port = s.port
  seq : t.seq = s.seq
  opr : t.opr = s.opr
  ctx : t.ctx = s.ctx
  loc : t.loc = { s.loc with rd := t.loc.rd, rdPrev := t.loc.rdPrev }
  armed : t.armed = s.armed
  irq : t.irq = s.irq
  wdt : t.wdt = s.wdt
  other : t.fcr k.other = s.fcr k.other
  ebr : ∀ j, t.ebr j = s.ebr j
  cells : t.env.cells = s.env.cells
  latch : t.env.latch = s.env.latch
  source : t.env.source = s.env.source
  mode : t.env.mode = s.env.mode
  view : t.env.view = s.env.view.wait c
  trace : ∃ a b, t.trace = s.trace ++ [.rr (.fcr k) a, .rw (.fcr k) b, .wait c]

theorem afterRead_rest (e : Env) (r : Reg) : (e.afterRead r).source = e.source ∧ (e.afterRead r).mode = e.mode ∧
    (e.afterRead r).view = e.view := by
  rcases r with (k | k) <;> cases k <;> exact ⟨rfl, rfl, rfl⟩

theorem toggled_of_env {s : State} (hw : s.wdt.run = false) {k : Bank} {v : Byte} (c : Word)
    (h : ((s.regRead (.fcr k)).regWrite (.fcr k) v).env = s.env.afterRead (.fcr k)) :
    Toggled s k c (((s.regRead (.fcr k)).regWrite (.fcr k) v).wait c) := by
  obtain ⟨hcells, hlatch⟩ := afterRead_flash s.env (.fcr k)
  obtain ⟨hsource, hmode, hview⟩ := afterRead_rest s.env (.fcr k)
  have henv : (((s.regRead (.fcr k)).regWrite (.fcr k) v).wait c).env =
      { s.env.afterRead (.fcr k) with view := s.env.view.wait c } := by
    rw [← hview, ← h]
    rfl
  refine ⟨rfl, rfl, rfl, rfl, rfl, rfl, rfl, rfl, begin_of_stopped hw c, ?_, ?_, by rw [henv]; exact hcells,
    by rw [henv]; exact hlatch, by rw [henv]; exact hsource, by rw [henv]; exact hmode, by rw [henv],
    s.content (.fcr k), v, ?_⟩
  · exact (fcr_regWrite_fcr (s.regRead (.fcr k)) k k.other v).trans (if_neg (other_ne k))
  · exact fun j => ebr_regWrite_fcr (s.regRead (.fcr k)) k j v
  · simp

theorem toggled_on {s : State} (hl : s.profile.regLayout.wf = true) (hw : s.wdt.run = false) (k : Bank) (f : Field)
    (c : Word) : Toggled s k c (afterActs (bitOn k f ++ [.wait c]) s) :=
  toggled_of_env hw c (bitOn_env hl k f)

theorem toggled_off {s : State} (hl : s.profile.regLayout.wf = true) (hw : s.wdt.run = false) (k : Bank) {f : Field}
    (he : f ≠ .e) (hp : f ≠ .p) (c : Word) : Toggled s k c (afterActs (bitOff k f ++ [.wait c]) s) :=
  toggled_of_env hw c (bitOff_env hl k he hp)

/-- Canonical memories stay canonical where cells, source and latch are the same. -/
theorem Toggled.env_wf {s t : State} {k : Bank} {c : Word} (h : Toggled s k c t) (hwf : s.env.wf = true) :
    t.env.wf = true := by
  rw [env_wf_iff, h.cells, h.source, h.latch]
  exact env_wf_iff.1 hwf

theorem bit_on_wait {s : State} (hl : s.profile.regLayout.wf = true) (k : Bank) (f g : Field) (c : Word) :
    (afterActs (bitOn k f ++ [.wait c]) s).bit k g = (decide (g = f) || s.bit k g) :=
  bit_bitOn hl k f g

theorem bit_off_wait {s : State} (hl : s.profile.regLayout.wf = true) (k : Bank) (f g : Field) (c : Word) :
    (afterActs (bitOff k f ++ [.wait c]) s).bit k g = (decide (g ≠ f) && s.bit k g) :=
  bit_bitOff hl k f g

/-- With the watchdog stopped, acts that neither start it nor access the flash complete. -/
theorem fits_of_stopped {s : State} (hw : s.wdt.run = false) {l : List Act} (hl : ∀ a ∈ l, ∀ d, a ≠ .wdtStart d)
    (hr : ∀ a ∈ l, a.reaches s = true) : s.fits l = true := by
  rw [State.fits, Bool.and_eq_true, List.all_eq_true]
  exact ⟨calmRun_of_stopped _ hw hl, hr⟩

theorem fits_on_wait {s : State} (hw : s.wdt.run = false) (k : Bank) (f : Field) (c : Word) :
    s.fits (bitOn k f ++ [.wait c]) = true :=
  fits_of_stopped hw (by simp [bitOn]) (by simp [bitOn, Act.reaches])

theorem fits_off_wait {s : State} (hw : s.wdt.run = false) (k : Bank) (f : Field) (c : Word) :
    s.fits (bitOff k f ++ [.wait c]) = true :=
  fits_of_stopped hw (by simp [bitOff]) (by simp [bitOff, Act.reaches])

/-- `EraseVerify`: the verify mode entered, the scan, and the verify mode left (R172). -/
theorem eraseVerify_runs {s : State} (hl : s.profile.regLayout.wf = true) (hw : s.wdt.run = false) (k : Bank)
    {start stop : Word} (hfit : ScanFits s.profile stop (scanWords start stop) start) : ∃ vs e u,
      Toggled s k s.profile.delays.evSetup e ∧ (∀ f, e.bit k f = (decide (f = .ev) || s.bit k f)) ∧
      Scanned (e.startScan start) (scanWords start stop) vs u ∧
      execEraseVerify k start stop s = .next (afterActs (evExitActs u.profile k) u) := by
  have he := toggled_on hl hw k .ev s.profile.delays.evSetup
  have hb := bit_on_wait hl k .ev (c := s.profile.delays.evSetup)
  have hrun : runActs (evEnterActs s.profile k) s = .next (afterActs (bitOn k .ev ++ [.wait s.profile.delays.evSetup]) s) :=
    runActs_of_fits (fits_on_wait hw k .ev _)
  generalize afterActs (bitOn k .ev ++ [.wait s.profile.delays.evSetup]) s = e at he hb hrun
  have hew : (e.startScan start).wdt.run = false := by rw [(startScan_fields e start).2.2.2.2.2.2.2.2.2.2.1, he.wdt, hw]
  have hep : (e.startScan start).profile = s.profile := he.profile
  obtain ⟨vs, u, hu, hs⟩ := eraseScan_runs (stop := stop) (n := scanWords start stop) hew rfl
    (by rw [hep]; exact hfit)
  refine ⟨vs, e, u, he, hb, hs, ?_⟩
  have huw : u.wdt.run = false := by rw [hs.wdt, hew]
  rw [execEraseVerify, hrun, andThen_of_next, hu, andThen_of_next]
  exact runActs_of_fits (fits_off_wait huw k .ev _)

theorem bank_eq_or_other (k j : Bank) : j = k ∨ j = k.other := by cases k <;> cases j <;> decide

/-- `scanWords` counts the words of an aligned range of the flash (R172). -/
theorem scanFits_of_range {p : DeviceProfile} {start stop : Word} (hal : start.toNat % 4 = 0)
    (hmax : start.toNat + 4 * scanWords start stop ≤ p.flashMax.toNat + 1) :
    ScanFits p stop (scanWords start stop) start := by
  unfold scanWords at hmax ⊢
  intro hn
  omega

theorem wordsRead_append (l m : List Event) : wordsRead (l ++ m) = wordsRead l ++ wordsRead m := by
  induction l with
  | nil => rfl
  | cons e l ih => cases e <;> simp [wordsRead, ih]

theorem wordsProbed_append (l m : List Event) : wordsProbed (l ++ m) = wordsProbed l ++ wordsProbed m := by
  induction l with
  | nil => rfl
  | cons e l ih => cases e <;> simp [wordsProbed, ih]

/-- Settles O43: the scan is `Scanned`, between the setting and the clearing of `EV`. -/
theorem eraseVerifyResult : Obligations.EraseVerifyResult := by
  intro s k start stop hl hw hal hmax
  obtain ⟨vs, e, u, he, hbit, hu, hrun⟩ := eraseVerify_runs hl hw k (scanFits_of_range hal hmax)
  have hek : (e.startScan start).profile = s.profile := he.profile
  have hup : u.profile = s.profile := hu.profile.trans hek
  have huw : u.wdt = s.wdt := hu.wdt.trans he.wdt
  have ht := toggled_off (s := u) (by rw [hup]; exact hl) (by rw [huw]; exact hw) k (f := .ev) (by decide) (by decide)
    u.profile.delays.evHold
  have htb := bit_off_wait (s := u) (by rw [hup]; exact hl) k .ev (c := u.profile.delays.evHold)
  change execEraseVerify k start stop s = .next (afterActs (bitOff k .ev ++ [.wait u.profile.delays.evHold]) u) at hrun
  generalize afterActs (bitOff k .ev ++ [.wait u.profile.delays.evHold]) u = t at hrun ht htb
  obtain ⟨a, b, hetr⟩ := he.trace
  obtain ⟨c, d, httr⟩ := ht.trace
  obtain ⟨es, hes⟩ : ∃ es : List Event, es = [.rr (.fcr k) a, .rw (.fcr k) b, .wait s.profile.delays.evSetup] ++
    scanEvents s.profile.delays.evRead start vs ++ [.rr (.fcr k) c, .rw (.fcr k) d, .wait u.profile.delays.evHold] :=
    ⟨_, rfl⟩
  have htrace : t.trace = s.trace ++ es := by
    rw [httr, hu.trace, hek, hes]
    show (e.trace ++ _) ++ _ = _
    rw [hetr]
    simp only [List.append_assoc]
    rfl
  have hread : wordsRead es = scannedWords start vs := by
    rw [hes, wordsRead_append, wordsRead_append, wordsRead_scanEvents]
    exact List.append_nil _
  have hprobed : wordsProbed es = (scannedWords start vs).map (fun c => (c.1, ones32)) := by
    rw [hes, wordsProbed_append, wordsProbed_append, wordsProbed_scanEvents]
    exact List.append_nil _
  have hlen : es.length = 6 + 3 * vs.length := by
    rw [hes]
    simp only [List.length_append, length_scanEvents, List.length_cons, List.length_nil]
    omega
  have hflag : t.loc.flag = u.loc.flag := by rw [ht.loc]
  have hcells : ∀ x : Nat, e.env.cells.read x = s.env.cells.read x := fun x => by rw [he.cells]
  have hbu : ∀ j f, u.bit j f = e.bit j f := bit_of_regs hu.profile hu.regs
  have hverify : ∀ x : Word, s.profile.bankOf x = k → (e.startScan start).verifying x = true ∧
      (s.bit k .pv = false → (e.startScan start).readDelay x ≤ (e.startScan start).profile.delays.evRead.toNat) := by
    intro x hk
    have hb : ∀ f, (e.startScan start).bit ((e.startScan start).profile.bankOf x) f =
        (decide (f = .ev) || s.bit k f) := fun f => by
      rw [hek, hk]
      exact hbit f
    simp only [State.verifying, State.readDelay, hb]
    exact ⟨rfl, fun hpv => by simp [hpv]⟩
  refine ⟨t, es, hrun, htrace, ?_, fun hm => ?_, fun c hc hk => ⟨fun hm => ?_, fun hm hpv hwf => ?_⟩, fun a ha => ?_, ?_,
    fun f => ?_, ?_, fun j => ?_, ?_, ?_, ?_, ?_, ?_, ?_, ?_, ?_, ?_⟩
  · simp only [hread, map_snd_scannedWords]
    refine ⟨map_fst_scannedWords start vs, hprobed, hu.verdict.length_le, hu.verdict.init, ?_, ?_, hlen, fun b hb => ?_⟩
    · rw [hflag]; exact hu.verdict.pass
    · rw [hflag]; exact hu.verdict.fail
    · rw [ht.cells, hu.outside b hb]; exact hcells b
  · rw [ht.cells, hu.cells (he.mode.trans hm)]; exact he.cells
  · have hver := hverify c.1 hk
    rw [hu.reference (he.mode.trans hm) c (hread ▸ hc) hver.1]
    exact congrArg (Memory.word · _) he.cells
  · have hver := hverify c.1 hk
    rw [ht.cells]
    exact hu.oracle (he.mode.trans hm) (he.env_wf hwf) c (hread ▸ hc) hver.1 (hver.2 hpv)
  · rw [ht.view, probedAt_wait, hu.probes a (hread ▸ ha)]
    show e.env.view.probedAt a = _
    rw [he.view, probedAt_wait]
  · rw [ht.view, hread]
    show u.env.view.waited + _ = _
    rw [hu.waited, hup, hek, ← List.length_map (f := Prod.snd), map_snd_scannedWords]
    show e.env.view.waited + _ + _ = _
    rw [he.view]
    rfl
  · rw [htb, hbu, hbit]; cases f <;> rfl
  · rw [ht.other, fcr_of_regs hu.regs]; exact he.other
  · rw [ht.ebr, ebr_of_regs hu.regs]; exact he.ebr j
  · exact ht.irq.trans (hu.irq.trans he.irq)
  · exact ht.wdt.trans huw
  · rw [ht.ctx, hu.ctx, (startScan_fields e start).2.2.2.2.1, he.ctx]
  · exact ht.latch.trans (hu.latch.trans he.latch)
  · rw [ht.view]
    refine hu.pulsed.trans ?_
    show e.env.view.pulsed = _
    rw [he.view]
    rfl
  · exact ht.opr.trans (hu.opr.trans he.opr)
  · exact ht.armed.trans (hu.armed.trans he.armed)
  · exact ht.port.trans (hu.port.trans he.port)
  · exact ht.seq.trans (hu.seq.trans he.seq)

end Sys2Proof.Machine
end

section
/-! Completion in the reference environment: a point of an operation with its control bits, the watchdog stopped; the
precondition and the pulses (R81, R122, R140 to R146, R171, R192). -/

namespace Sys2Proof.Machine

/-- The operation completes, with a next state as `P` says. -/
def Attains (P : State → Prop) (r : Res) : Prop := ∃ t, r = .next t ∧ P t

theorem Attains.bind {P Q : State → Prop} {r : Res} {f : State → Res} (hr : Attains Q r)
    (hf : ∀ t, Q t → Attains P (f t)) : Attains P (andThen r f) := by
  obtain ⟨t, rfl, ht⟩ := hr
  exact hf t ht

theorem attains_next {P : State → Prop} {t : State} (h : P t) : Attains P (.next t) := ⟨t, rfl, h⟩

theorem attains_runActs {P : State → Prop} {l : List Act} {s : State} (hfit : s.fits l = true)
    (h : P (afterActs l s)) : Attains P (runActs l s) := ⟨_, runActs_of_fits hfit, h⟩

/-! ### Watchdog starts in the trace -/

/-- Between `s` and `t` the watchdog was started `n` times (R121, R145). -/
def Starts (n : Nat) (s t : State) : Prop := ∃ es, t.trace = s.trace ++ es ∧ es.countP Event.isWdtStart = n

theorem starts_of_trace {s t : State} (h : t.trace = s.trace) : Starts 0 s t := ⟨[], by simp [h], rfl⟩

theorem Starts.trans {m n : Nat} {s t u : State} (h : Starts m s t) (g : Starts n t u) : Starts (m + n) s u := by
  obtain ⟨es, ht, hm⟩ := h
  obtain ⟨fs, hu, hn⟩ := g
  exact ⟨es ++ fs, by rw [hu, ht, List.append_assoc], by rw [List.countP_append, hm, hn]⟩

theorem isWdtStart_eq (e : Event) : e.isWdtStart = (e.code == 0x8#4) := by cases e <;> rfl

/-- A run of acts starts the watchdog as often as its acts say. -/
theorem starts_afterActs (l : List Act) (s : State) : Starts ((l.map Act.code).count 0x8#4) s (afterActs l s) := by
  obtain ⟨-, -, -, -, -, -, -, -, -, es, ht, hc⟩ := afterActs_fields l s
  refine ⟨es, ht, ?_⟩
  rw [← hc, List.count, List.countP_map]
  exact List.countP_congr fun e _ => by rw [isWdtStart_eq]; rfl

theorem Starts.count {n : Nat} {s t : State} (h : Starts n s t) :
    (t.trace.drop s.trace.length).countP Event.isWdtStart = n := by
  obtain ⟨es, ht, hn⟩ := h
  rw [ht, List.drop_left, hn]

/-! ### Runs of acts: the registers they keep -/

theorem afterActs_regs {l : List Act} {s : State} (h : ∀ b ∈ l, b.code ≠ 0x1) : (afterActs l s).regs = s.regs := by
  induction l generalizing s with
  | nil => rfl
  | cons b l ih => rw [afterActs_cons, ih fun c hc => h c (by simp [hc]), act_after_regs s (h b (by simp))]

/-- Acts that read no source byte keep the PulseContext (R23). -/
theorem afterActs_ctx_of_codes {l : List Act} {s : State} (h : ∀ b ∈ l, b.code ≠ 0x5) :
    (afterActs l s).ctx = s.ctx := by
  induction l generalizing s with
  | nil => rfl
  | cons b l ih =>
    rw [afterActs_cons, ih fun c hc => h c (by simp [hc])]
    have hx := (after_fields (b.op s) s).2.2.2.2.1
    cases b with
    | copy _ | srcByte _ => exact absurd rfl (h _ List.mem_cons_self)
    | _ => exact hx

theorem bit_afterActs {l : List Act} {s : State} (h : ∀ b ∈ l, b.code ≠ 0x1) (j : Bank) (f : Field) :
    (afterActs l s).bit j f = s.bit j f :=
  bit_of_regs (afterActs_fields l s).1 (afterActs_regs h) j f

/-- No act changes the operand registers (R92). -/
theorem afterActs_opr (l : List Act) (s : State) : (afterActs l s).opr = s.opr := (afterActs_fields l s).2.2.2.1

/-! ### The control bits of a run -/

/-- The control bits that are set are those of `c`, in bank `k` alone. -/
def Bits (k : Bank) (c : List Field) (t : State) : Prop := ∀ j f, t.bit j f = (decide (j = k) && decide (f ∈ c))

section

variable {k : Bank} {c : List Field} {s : State}

theorem Bits.keep (h : Bits k c s) {l : List Act} (hl : ∀ b ∈ l, b.code ≠ 0x1) : Bits k c (afterActs l s) :=
  fun j f => (bit_afterActs hl j f).trans (h j f)

theorem bit_other_of_fcr {s t : State} (hp : t.profile = s.profile) {j : Bank} (hf : t.fcr j = s.fcr j) (f : Field) :
    t.bit j f = s.bit j f := by
  rw [State.bit, State.bit, hp, hf]

theorem Bits.on (hl : s.profile.regLayout.wf = true) (h : Bits k c s) (f : Field) :
    Bits k (f :: c) (afterActs (bitOn k f) s) := by
  intro j g
  by_cases hj : j = k
  · subst hj
    rw [bit_bitOn hl, h]
    simp
  · rw [bit_other_of_fcr (afterActs_fields _ s).1 (fcr_bitOn_other s hj f), h, decide_eq_false hj]
    rfl

theorem Bits.off (hl : s.profile.regLayout.wf = true) {f : Field} (h : Bits k (f :: c) s) (hc : f ∉ c) :
    Bits k c (afterActs (bitOff k f) s) := by
  intro j g
  by_cases hj : j = k
  · subst hj
    rw [bit_bitOff hl, h]
    by_cases hg : g = f
    · simp [hg, hc]
    · simp [hg]
  · rw [bit_other_of_fcr (afterActs_fields _ s).1 (fcr_bitOff_other s hj f), h, decide_eq_false hj]
    rfl

end

/-! ### Points of an operation -/

/-- A point of an operation on bank `k` in the reference environment: the control bits are `c` in bank `k` alone, and the
watchdog is stopped. -/
structure Standing (p : DeviceProfile) (k : Bank) (c : List Field) (t : State) : Prop where
  profile : t.profile = p
  mode : t.env.mode = .reference
  wf : t.env.wf = true
  stopped : t.wdt.run = false
  bits : Bits k c t

section

variable {p : DeviceProfile} {k : Bank} {c : List Field} {s t : State}

/-- A move of the sequencer. -/
theorem Standing.move (h : Standing p k c s) (hst : t.profile = s.profile ∧ t.env = s.env ∧ t.wdt = s.wdt ∧
    t.regs = s.regs) : Standing p k c t := by
  obtain ⟨hp, he, hw, hr⟩ := hst
  refine ⟨hp.trans h.profile, by rw [he, h.mode], by rw [he, h.wf], by rw [hw, h.stopped], fun j f => ?_⟩
  rw [bit_of_regs hp hr, h.bits]

theorem Standing.layout (hwf : p.wf = true) (h : Standing p k c s) : s.profile.regLayout.wf = true :=
  layout_of_wf (by rw [h.profile]; exact hwf)

/-- A run of acts after which the watchdog is stopped. -/
theorem Standing.run (h : Standing p k c s) {l : List Act} {c' : List Field} (hw : (afterActs l s).wdt.run = false)
    (hb : Bits k c' (afterActs l s)) : Standing p k c' (afterActs l s) := by
  have hf := framed_afterActs l s
  exact ⟨hf.profile.trans h.profile, hf.mode.trans h.mode, hf.wf h.wf, hw, hb⟩

/-- A stopped watchdog is left stopped by acts that do not start it (R120, R130). -/
theorem stopped_afterActs {l : List Act} (hw : s.wdt.run = false) (hl : ∀ b ∈ l, b.code ≠ 0x8) :
    (afterActs l s).wdt.run = false := by
  rw [(afterActs_fields l s).2.2.2.2.2.2.2.1]
  generalize s.wdt = w at hw
  induction l generalizing w with
  | nil => exact hw
  | cons b l ih =>
    refine ih (fun c hc => hl c (by simp [hc])) _ ?_
    cases b with
    | wait _ => simpa [Act.watchdog] using hw
    | wdtStart _ => exact absurd rfl (hl _ List.mem_cons_self)
    | wdtStop => rfl
    | _ => exact hw

/-- A run of acts that writes no register and does not start the watchdog. -/
theorem Standing.quietRun (h : Standing p k c s) {l : List Act} (hl : ∀ b ∈ l, b.code ≠ 0x1 ∧ b.code ≠ 0x8) :
    Standing p k c (afterActs l s) :=
  h.run (stopped_afterActs h.stopped fun b hb => (hl b hb).2) (h.bits.keep fun b hb => (hl b hb).1)

/-- `BitSet` and its delay (R112). -/
theorem Standing.on (hwf : p.wf = true) (h : Standing p k c s) (f : Field) (d : Word) :
    Standing p k (f :: c) (afterActs (bitOn k f ++ [.wait d]) s) := by
  refine h.run (stopped_afterActs h.stopped (by simp [bitOn, Act.code])) ?_
  rw [afterActs_append]
  exact (h.bits.on (h.layout hwf) f).keep (by simp [Act.code])

/-- `BitClr` and its delay (R113). -/
theorem Standing.off (hwf : p.wf = true) {f : Field} (h : Standing p k (f :: c) s) (hc : f ∉ c) (d : Word) :
    Standing p k c (afterActs (bitOff k f ++ [.wait d]) s) := by
  refine h.run (stopped_afterActs h.stopped (by simp [bitOff, Act.code])) ?_
  rw [afterActs_append]
  exact (h.bits.off (h.layout hwf) hc).keep (by simp [Act.code])

end

/-! ### The precondition (R122) -/

theorem getLsbD_content_status (s : State) (k : Bank) :
    (s.content (.fcr k)).getLsbD s.profile.regLayout.status.val = s.statusInput k := by
  have hm : s.profile.regLayout.statusMask.getLsbD s.profile.regLayout.status.val = true := by
    rw [RegLayout.statusMask, getLsbD_one_shiftLeft, decide_eq_true rfl]
  rw [State.content, BitVec.getLsbD_or, BitVec.getLsbD_and, getLsbD_not, hm]
  cases s.statusInput k
  · simp
  · simp [hm]

/-- What `Precond` leaves: the verdict, and nothing moved but the status inputs and the trace. -/
structure Preconditioned (s t : State) : Prop extends Kept s t where
  ctx : t.ctx = s.ctx
  cells : t.env.cells = s.env.cells
  flag : t.loc.flag = s.precondNow
  starts : Starts 0 s t

theorem precond_runs {s : State} (hw : s.wdt.run = false) : Attains (Preconditioned s) (execPrecond s) := by
  have hfit : s.fits precondActs = true :=
    fits_of_stopped hw (by simp [precondActs]) (by simp [precondActs, Act.reaches])
  refine ⟨(afterActs precondActs s).judgePrecond, by rw [execPrecond, runActs_of_fits hfit, andThen_of_next], ?_⟩
  have ht : afterActs precondActs s = (s.regRead (.fcr .b0)).regRead (.fcr .b1) := rfl
  refine ⟨⟨rfl, rfl, rfl, rfl, rfl, rfl, rfl, rfl, rfl, rfl, rfl, rfl⟩, rfl, rfl, ?_, starts_afterActs precondActs s⟩
  show ((s.content (.fcr .b0)).getLsbD s.profile.regLayout.status.val &&
    !((s.regRead (.fcr .b0)).content (.fcr .b1)).getLsbD s.profile.regLayout.status.val) = _
  rw [getLsbD_content_status]
  exact congrArg (fun b => s.statusInput .b0 && !b) (getLsbD_content_status (s.regRead (.fcr .b0)) .b1)

/-! ### A pulse (R171, R192) -/

/-- A pulse of bit `f` set up by bit `g` of bank `k`, under the divisor `d`. -/
def pulseActs (d : Divisor) (k : Bank) (g f : Field) (setup width hold setupHold : Word) : List Act :=
  pulseHead d k g f setup width ++ (bitOff k f ++ pulseTail k g hold setupHold)

section

variable {p : DeviceProfile} {d : Divisor} {k : Bank} {c : List Field} {g f : Field} {setup width hold setupHold : Word}
  {s : State}

/-- A pulse completes where its guarded body is shorter than the watchdog's interval (R143, R146). -/
theorem pulse_fits (h : s.profile.cycPerIter * (setup.toNat + width.toNat + hold.toNat + setupHold.toNat) +
    s.profile.guardOverheadMax < s.profile.wdtInterval d) :
    s.fits (pulseActs d k g f setup width hold setupHold) = true := by
  rw [State.fits, Bool.and_eq_true]
  constructor
  · simp only [Nat.mul_add] at h
    simp [pulseActs, pulseHead, pulseTail, acquireActs, releaseActs, bitOn, bitOff, calmRun, Act.watchdog, Watchdog.calm,
      Nat.mul_add]
    omega
  · simp [pulseActs, pulseHead, pulseTail, acquireActs, releaseActs, bitOn, bitOff, Act.reaches]

theorem pulse_codes : ((pulseActs d k g f setup width hold setupHold).map Act.code).count 0x8#4 = 1 := by
  simp [pulseActs, pulseHead, pulseTail, acquireActs, releaseActs, bitOn, bitOff, Act.code]

theorem pulse_ctx : (afterActs (pulseActs d k g f setup width hold setupHold) s).ctx = s.ctx :=
  afterActs_ctx_of_codes (by simp [pulseActs, pulseHead, pulseTail, acquireActs, releaseActs, bitOn, bitOff, Act.code])

theorem layout_afterActs {l : List Act} (hl : s.profile.regLayout.wf = true) :
    (afterActs l s).profile.regLayout.wf = true := by
  rw [(afterActs_fields l s).1]
  exact hl

theorem bits_pulseHead (hl : s.profile.regLayout.wf = true) (h : Bits k c s) :
    Bits k (f :: g :: c) (afterActs (pulseHead d k g f setup width) s) := by
  simp only [pulseHead, afterActs_append]
  have h1 := (h.keep (l := acquireActs d) (by simp [acquireActs, Act.code])).on (layout_afterActs hl) g
  have h2 := (h1.keep (l := [.wait setup]) (by simp [Act.code])).keep (l := [.irqMask]) (by simp [Act.code])
  refine (h2.on ?_ f).keep (by simp [Act.code])
  exact layout_afterActs (layout_afterActs (layout_afterActs (layout_afterActs hl)))

theorem bits_pulseTail (hl : s.profile.regLayout.wf = true) (h : Bits k (g :: c) s) (hg : g ∉ c) :
    Bits k c (afterActs (pulseTail k g hold setupHold) s) := by
  have h1 : Bits k (g :: c) (afterActs [.irqRestore, .wait hold] s) := h.keep (by simp [Act.code])
  have h2 := (h1.off (by rw [(afterActs_fields _ s).1]; exact hl) hg).keep (l := [.wait setupHold] ++ releaseActs)
    (by simp [releaseActs, Act.code])
  rwa [← afterActs_append, ← afterActs_append] at h2

/-- A pulse leaves the control bits as they were, and the watchdog stopped (R171, R192). -/
theorem Standing.pulse (hwf : p.wf = true) (h : Standing p k c s) (hgf : g ≠ f) (hg : g ∉ c) (hf : f ∉ c) :
    Standing p k c (afterActs (pulseActs d k g f setup width hold setupHold) s) := by
  have hp : ∀ l, (afterActs l s).profile.regLayout.wf = true := fun l => by
    rw [(afterActs_fields l s).1]
    exact h.layout hwf
  refine h.run ?_ ?_
  · simp only [pulseActs, pulseTail, releaseActs, afterActs_append]
    rfl
  · have h1 := (bits_pulseHead (d := d) (setup := setup) (width := width) (g := g) (f := f) (h.layout hwf) h.bits).off
      (hp _) (by simp [hf, hgf.symm])
    rw [← afterActs_append] at h1
    have h2 := bits_pulseTail (hold := hold) (setupHold := setupHold) (hp _) h1 hg
    rwa [← afterActs_append, List.append_assoc] at h2

end

/-! ### What the two pulses leave in the reference environment (R81) -/

section

variable {p : DeviceProfile} {k : Bank} {s : State}

/-- The fields `BitClr` of a pulse bit finds: those before the pulse, with the bit set. -/
theorem head_of_pulse {g f : Field} (d : Divisor) (setup width : Word) {c : List Field} (hwf : p.wf = true)
    (h : Standing p k c s) : let u := afterActs (pulseHead d k g f setup width) s
    SameFlash s u ∧ u.profile.regLayout.wf = true ∧ u.env.mode = .reference ∧ u.env.wf = true ∧ u.bit k f = true := by
  have hs := harmless_pulseHead d k g f setup width s (h.layout hwf)
  have hf := framed_afterActs (pulseHead d k g f setup width) s
  refine ⟨hs, by rw [hs.profile]; exact h.layout hwf, hf.mode.trans h.mode, hf.wf h.wf, ?_⟩
  rw [bits_pulseHead (h.layout hwf) h.bits]
  simp

/-- An erase pulse erases the selected blocks (R81, R171). -/
theorem read_erasePulse {c : List Field} (hwf : p.wf = true) (h : Standing p k c s) (q : DeviceProfile) {a : Nat}
    (ha : s.inSelected a) : (afterActs (erasePulseActs q k) s).env.cells.read a = 0xFF := by
  rw [erasePulseActs_eq, afterActs_append, afterActs_append]
  obtain ⟨hs, hl, hm, hw, hb⟩ := head_of_pulse (g := .esu) (f := .e) q.wdtDivErase q.delays.esuSetup q.delays.ePulse hwf h
  generalize afterActs (pulseHead _ _ _ _ _ _) s = u at hs hl hm hw hb ⊢
  rw [(harmless_pulseTail k (by decide) (by decide) _ _ _ (by rw [(afterActs_fields _ u).1]; exact hl)).cells]
  exact read_bitOff_erase hl hb hm (Memory.wf_iff.1 (env_wf_iff.1 hw).1).1 ((inSelected_congr hs.profile hs.ebr a).2 ha)

/-- A program pulse programs the latched cells (R81, R192). -/
theorem read_programPulse {c : List Field} (hwf : p.wf = true) (h : Standing p k c s) (q : DeviceProfile) (width : Word)
    {a : Nat} {x : Byte} (hx : s.env.latch.find a = some x) :
    (afterActs (programPulseActs q k width) s).env.cells.read a = s.env.cells.read a &&& x := by
  rw [programPulseActs_eq, afterActs_append, afterActs_append]
  obtain ⟨hs, hl, hm, hw, hb⟩ := head_of_pulse (g := .psu) (f := .p) q.wdtDivProgram q.delays.psuSetup width hwf h
  generalize afterActs (pulseHead _ _ _ _ _ _) s = u at hs hl hm hw hb ⊢
  rw [(harmless_pulseTail k (by decide) (by decide) _ _ _ (by rw [(afterActs_fields _ u).1]; exact hl)).cells,
    read_bitOff_program hl hb hm hw (by rw [hs.latch]; exact hx), hs.cells]

/-- A program pulse empties the latch (R81; log 13). -/
theorem latch_programPulse {c : List Field} (hwf : p.wf = true) (h : Standing p k c s) (q : DeviceProfile)
    (width : Word) : (afterActs (programPulseActs q k width) s).env.latch = [] := by
  rw [programPulseActs_eq, afterActs_append, afterActs_append]
  obtain ⟨-, hl, -, -, hb⟩ := head_of_pulse (g := .psu) (f := .p) q.wdtDivProgram q.delays.psuSetup width hwf h
  generalize afterActs (pulseHead _ _ _ _ _ _) s = u at hl hb ⊢
  rw [(harmless_pulseTail k (by decide) (by decide) _ _ _ (by rw [(afterActs_fields _ u).1]; exact hl)).latch,
    latch_bitOff_program hl hb]

end

end Sys2Proof.Machine
end

section
/-! An erase in the reference environment: one pulse sets every cell of the block, and the scan then reads all ones
(R81, R170 to R172, R176). -/

namespace Sys2Proof.Machine

/-! ### The scan of an erased block -/

theorem mem_scannedWords {a : Word} {vs : List Word} {c : Word × Word} (h : c ∈ scannedWords a vs) :
    ∃ i < vs.length, c.1 = offset a (4 * i) := by
  have hmem := List.mem_map_of_mem (f := Prod.fst) h
  rw [map_fst_scannedWords] at hmem
  obtain ⟨i, hi, he⟩ := List.mem_map.1 hmem
  exact ⟨i, List.mem_range.1 hi, he.symm⟩

/-- A word whose four cells are 0xFF reads all ones (R60). -/
theorem word_of_erased {m : Memory} {a : Nat} (h : ∀ i < 4, m.read (a + i) = 0xFF) : m.word a = ones32 := by
  have h0 := h 0 (by decide)
  simp only [Nat.add_zero] at h0
  rw [Memory.word, h0, h 1 (by decide), h 2 (by decide), h 3 (by decide)]
  decide

/-- The words of a block are the words of its scan, and lie in it (R151, R172). -/
theorem scanWords_block {p : DeviceProfile} (hwf : p.wf = true) {i : Nat} (hi : i < p.blockCount) :
    (p.tableAt i).toNat % 4 = 0 ∧
      (p.tableAt i).toNat + 4 * scanWords (p.tableAt i) (p.tableAt (i + 1)) = (p.tableAt (i + 1)).toNat := by
  have h0 := mod_four_of_aligned (tableAt_aligned hwf (Nat.le_of_lt hi))
  have h1 := mod_four_of_aligned (tableAt_aligned hwf (Nat.succ_le_of_lt hi))
  have hle := tableAt_mono hwf (Nat.le_succ i) (Nat.succ_le_of_lt hi)
  rw [Nat.succ_eq_add_one] at h1 hle
  refine ⟨h0, ?_⟩
  unfold scanWords
  omega

/-- A word that a scan of a block reads has its four cells in the block. -/
theorem inBlock_of_scanned {p : DeviceProfile} (hwf : p.wf = true) {i : Nat} (hi : i < p.blockCount) {vs : List Word}
    (hlen : vs.length ≤ scanWords (p.tableAt i) (p.tableAt (i + 1))) {c : Word × Word}
    (hc : c ∈ scannedWords (p.tableAt i) vs) {x : Nat} (hx : x < 4) : p.inBlock i (c.1.toNat + x) = true := by
  obtain ⟨j, hj, he⟩ := mem_scannedWords hc
  have hend := (scanWords_block hwf hi).2
  have hlt := (p.tableAt (i + 1)).isLt
  rw [he, offset_toNat (by omega)]
  exact inBlock_first (by omega) (by omega)

/-- A scan of an erased block in erase-verify mode reads all ones (R81, R172). -/
theorem flag_of_erased {p : DeviceProfile} {i : Nat} {c : List Field} {e u : State} {vs : List Word} (hwf : p.wf = true)
    (hi : i < p.blockCount) (he : Standing p (p.blockBank i) (.ev :: c) e)
    (herased : ∀ a, p.inBlock i a = true → e.env.cells.read a = 0xFF)
    (hu : Scanned (e.startScan (p.tableAt i)) (scanWords (p.tableAt i) (p.tableAt (i + 1))) vs u) :
    u.loc.flag = true := by
  have hread : ∀ x ∈ scannedWords (p.tableAt i) vs, x.2 = ones32 := fun x hx => by
    have hin := fun y hy => inBlock_of_scanned hwf hi hu.verdict.length_le hx (x := y) hy
    have hver : (e.startScan (p.tableAt i)).verifying x.1 = true := by
      refine verifying_iff.2 (.inl ?_)
      show e.bit (e.profile.bankOf x.1) .ev = true
      rw [he.profile, bankOf_inBlock hwf hi (hin 0 (by decide)), he.bits]
      simp
    exact (hu.reference he.mode x hx hver).trans (word_of_erased fun y hy => herased _ (hin y hy))
  cases hf : u.loc.flag with
  | true => rfl
  | false =>
    obtain ⟨v, hv, hne⟩ := hu.verdict.fail hf
    have hmem := List.mem_of_getLast? hv
    rw [← map_snd_scannedWords (p.tableAt i) vs] at hmem
    obtain ⟨x, hx, hxv⟩ := List.mem_map.1 hmem
    exact absurd (hxv.symm.trans (hread x hx)) hne

/-- A bit set with its delay, seen by what `Toggled` says of it (R112). -/
theorem Standing.toggled {p : DeviceProfile} {k : Bank} {c : List Field} {s e : State} {d : Word} {f : Field}
    (h : Standing p k c s) (he : Toggled s k d e) (hbit : ∀ g, e.bit k g = (decide (g = f) || s.bit k g)) :
    Standing p k (f :: c) e := by
  refine ⟨he.profile.trans h.profile, he.mode.trans h.mode, he.env_wf h.wf, by rw [he.wdt, h.stopped], fun j g => ?_⟩
  rcases bank_eq_or_other k j with rfl | rfl
  · rw [hbit, h.bits]
    simp
  · rw [bit_other_of_fcr he.profile he.other, h.bits, decide_eq_false (other_ne k)]
    rfl

/-- The scan of an erased block passes (R81, R172). -/
theorem eraseVerify_of_erased {p : DeviceProfile} {i : Nat} {c : List Field} {s : State} (hwf : p.wf = true)
    (hi : i < p.blockCount) (h : Standing p (p.blockBank i) c s) (hev : .ev ∉ c)
    (herased : ∀ a, p.inBlock i a = true → s.env.cells.read a = 0xFF) :
    Attains (fun t => Standing p (p.blockBank i) c t ∧ t.loc.flag = true ∧ t.env.cells = s.env.cells ∧
      t.opr = s.opr ∧ t.ctx = { s.ctx with vaddr := t.ctx.vaddr } ∧ Starts 0 s t)
      (execEraseVerify (p.blockBank i) (p.tableAt i) (p.tableAt (i + 1)) s) := by
  obtain ⟨hal, hend⟩ := scanWords_block hwf hi
  have hfit : ScanFits s.profile (p.tableAt (i + 1)) (scanWords (p.tableAt i) (p.tableAt (i + 1))) (p.tableAt i) :=
    scanFits_of_range hal (by rw [hend, h.profile]; exact tableAt_le_flashMax hwf hi)
  obtain ⟨vs, e, u, he, hbit, hu, hrun⟩ := eraseVerify_runs (h.layout hwf) h.stopped (p.blockBank i) hfit
  have hes : Standing p (p.blockBank i) (.ev :: c) e := h.toggled he hbit
  have hus : Standing p (p.blockBank i) (.ev :: c) u := by
    refine ⟨hu.profile.trans hes.profile, hu.mode.trans hes.mode, ?_, by rw [hu.wdt]; exact hes.stopped,
      fun j f => (bit_of_regs hu.profile hu.regs j f).trans (hes.bits j f)⟩
    rw [env_wf_iff, hu.cells hes.mode, hu.source, hu.latch]
    exact env_wf_iff.1 hes.wf
  have hflag := flag_of_erased hwf hi hes (fun a ha => by rw [he.cells]; exact herased a ha) hu
  have hts : Standing p (p.blockBank i) c (afterActs (evExitActs u.profile (p.blockBank i)) u) := hus.off hwf hev _
  have ht : Toggled u _ _ (afterActs (evExitActs u.profile (p.blockBank i)) u) :=
    toggled_off (hus.layout hwf) hus.stopped (p.blockBank i) (f := .ev) (by decide) (by decide) u.profile.delays.evHold
  have hstarts : Starts 0 u (afterActs (evExitActs u.profile (p.blockBank i)) u) := starts_afterActs _ u
  generalize afterActs (evExitActs u.profile (p.blockBank i)) u = t at ht hts hstarts hrun
  refine ⟨t, hrun, hts, by rw [ht.loc]; exact hflag, ?_, ht.opr.trans (hu.opr.trans he.opr), ?_, ?_⟩
  · rw [ht.cells, hu.cells hes.mode]
    exact he.cells
  · rw [ht.ctx, hu.ctx, (startScan_fields e (p.tableAt i)).2.2.2.2.1, he.ctx]
  · obtain ⟨x, y, htr⟩ := he.trace
    have h1 : Starts 0 s e := ⟨_, htr, by simp [Event.isWdtStart]⟩
    have h2 : Starts 0 e u := ⟨_, hu.trace, countP_scanEvents _ _ _⟩
    exact (h1.trans h2).trans hstarts

/-! ### The attempt -/

/-- A point of an erase of block `index` begun at `s₀`, in attempt `n`, with `m` pulses so far. -/
structure ErasePoint (s₀ : State) (index : Word) (c : List Field) (n : Word) (m : Nat) (t : State) : Prop extends
    Standing s₀.profile (s₀.profile.blockBank index.toNat) c t where
  operand : t.opr.index = index
  bank : t.ctx.bank = s₀.profile.blockBank index.toNat
  blkStart : t.ctx.blkStart = s₀.profile.tableAt index.toNat
  blkEnd : t.ctx.blkEnd = s₀.profile.tableAt (index.toNat + 1)
  attempt : t.ctx.n = n
  starts : Starts m s₀ t

section

variable {s₀ s t : State} {index : Word} {c c' : List Field} {n : Word} {m j : Nat}

/-- A step of the erase that keeps the operands and, but for the verify address, the PulseContext. -/
theorem ErasePoint.of_kept (h : ErasePoint s₀ index c n m s)
    (hst : Standing s₀.profile (s₀.profile.blockBank index.toNat) c' t) (ho : t.opr = s.opr)
    (hc : t.ctx = { s.ctx with vaddr := t.ctx.vaddr }) (hs : Starts j s t) : ErasePoint s₀ index c' n (m + j) t := by
  refine ⟨hst, by rw [ho, h.operand], ?_, ?_, ?_, ?_, h.starts.trans hs⟩ <;> rw [hc]
  · exact h.bank
  · exact h.blkStart
  · exact h.blkEnd
  · exact h.attempt

theorem ErasePoint.acts (h : ErasePoint s₀ index c n m s) {l : List Act}
    (hst : Standing s₀.profile (s₀.profile.blockBank index.toNat) c' (afterActs l s)) (hl : ∀ b ∈ l, b.code ≠ 0x5)
    (hj : (l.map Act.code).count 0x8#4 = j) : ErasePoint s₀ index c' n (m + j) (afterActs l s) :=
  h.of_kept hst (afterActs_opr l s) (by rw [afterActs_ctx_of_codes hl]) (hj ▸ starts_afterActs l s)

/-- `SelectBlock` writes no control register (R154). -/
theorem Standing.select {p : DeviceProfile} {k : Bank} (h : Standing p k c s) (i : Nat) :
    Standing p k c (afterActs (selectActs p i) s) := by
  refine h.run (stopped_afterActs h.stopped (by simp [selectActs, Act.code])) fun x f => ?_
  have hacts : afterActs (selectActs p i) s =
      (s.regWrite (.ebr (p.blockBank i).other) 0).regWrite (.ebr (p.blockBank i)) (p.ebrMask i) := rfl
  rw [bit_other_of_fcr (afterActs_fields _ s).1 (by rw [hacts, fcr_regWrite_ebr, fcr_regWrite_ebr]), h.bits]

/-- The block that `SelectBlock` selects (R34, R154). -/
theorem inSelected_select {p : DeviceProfile} (hwf : p.wf = true) (hp : s.profile = p) {i a : Nat}
    (hi : i < p.blockCount) (ha : p.inBlock i a = true) : (afterActs (selectActs p i) s).inSelected a := by
  have hprof : (afterActs (selectActs p i) s).profile = p := (afterActs_fields _ s).1.trans hp
  have hbit : p.ebrBit i < 8 := by
    simp only [DeviceProfile.wf, DeviceProfile.ebrWf, Bool.and_eq_true, List.all_eq_true, decide_eq_true_eq,
      List.mem_range] at hwf
    obtain ⟨⟨⟨⟨-, -, hlt⟩, -⟩, -⟩, -⟩ := hwf
    exact hlt i hi
  refine ⟨i, by rw [hprof]; exact hi, ?_, by rw [hprof]; exact ha⟩
  rw [State.selected, hprof, (select_flash s p i).2.1, DeviceProfile.ebrMask, getLsbD_one_shiftLeft_nat hbit hbit]
  exact decide_eq_true rfl

/-- The watchdog's interval exceeds the body of an erase pulse (R146). -/
theorem erasePulse_fits {p : DeviceProfile} (hg : p.guardWf = true) (hp : s.profile = p) (k : Bank) :
    s.fits (erasePulseActs p k) = true := by
  simp only [DeviceProfile.guardWf, Bool.and_eq_true, decide_eq_true_eq] at hg
  refine pulse_fits ?_
  rw [hp]
  exact hg.1

variable (hwf : s₀.profile.wf = true) (hi : index.toNat < s₀.profile.blockCount)
include hwf hi

/-- An attempt erases the block with one pulse, and passes (R170 step 4). -/
theorem eraseAttempt_attains (hg : s₀.profile.guardWf = true) (h : ErasePoint s₀ index [.swe] n m s) :
    Attains (fun t => ErasePoint s₀ index [.swe] n (m + 1) t ∧ t.loc.flag = true ∧
      ∀ a, s₀.profile.inBlock index.toNat a = true → t.env.cells.read a = 0xFF) (eraseAttempt s) := by
  have hfit : s.fits (selectActs s₀.profile index.toNat) = true :=
    fits_of_stopped h.stopped (by simp [selectActs]) (by simp [selectActs, Act.reaches])
  have hsel := fun a => inSelected_select (s := s) (a := a) hwf h.profile hi
  rw [eraseAttempt, h.operand, execSelectBlock, if_neg (by rw [h.profile]; exact Nat.not_le.2 hi), h.profile,
    runActs_of_fits hfit, andThen_of_next]
  have h1 := h.acts (j := 0) (h.toStanding.select index.toNat) (by simp [selectActs, Act.code])
    (by simp [selectActs, Act.code])
  generalize afterActs (selectActs s₀.profile index.toNat) s = t at h1 hsel ⊢
  rw [h1.bank, execErasePulse, h1.profile, runActs_of_fits (erasePulse_fits hg h1.profile _), andThen_of_next]
  have herased := fun a ha => read_erasePulse hwf h1.toStanding s₀.profile (hsel a ha)
  have h2 := h1.acts (h1.toStanding.pulse hwf (d := s₀.profile.wdtDivErase) (g := .esu) (f := .e)
    (setup := s₀.profile.delays.esuSetup) (width := s₀.profile.delays.ePulse) (hold := s₀.profile.delays.eHold)
    (setupHold := s₀.profile.delays.esuHold) (by decide) (by decide) (by decide))
    (by simp [pulseActs, pulseHead, pulseTail, acquireActs, releaseActs, bitOn, bitOff, Act.code]) pulse_codes
  change ErasePoint _ _ _ _ _ (afterActs (erasePulseActs s₀.profile _) t) at h2
  generalize afterActs (erasePulseActs s₀.profile _) t = u at herased h2 ⊢
  rw [h2.bank, h2.blkStart, h2.blkEnd]
  obtain ⟨v, hv, hst, hflag, hcells, hopr, hctx, hstarts⟩ :=
    eraseVerify_of_erased hwf hi h2.toStanding (by decide) herased
  exact ⟨v, hv, h2.of_kept hst hopr hctx hstarts, hflag, fun a ha => by rw [hcells]; exact herased a ha⟩

end

/-- `SWE` cleared and the command completed (R170). -/
theorem lockAndRespond_attains {s₀ s : State} {index n : Word} {m : Nat} (hwf : s₀.profile.wf = true)
    (h : ErasePoint s₀ index [.swe] n m s) (r : Status) :
    Attains (fun t => ErasePoint s₀ index [] n m t ∧ t.env.cells = s.env.cells ∧
      t.port.status = s₀.profile.statusEnc.code r) (lockAndRespond r s) := by
  have hlock : Standing s₀.profile (s₀.profile.blockBank index.toNat) [] (afterActs (lockActs s.profile s.ctx.bank) s) := by
    rw [h.bank]
    exact h.toStanding.off hwf (by decide) _
  have ht := h.acts (j := 0) hlock (by simp [lockActs, bitOff, Act.code]) (by simp [lockActs, bitOff, Act.code])
  have hcells := (harmless_lock s.profile s.ctx.bank s (h.layout hwf)).cells
  rw [lockAndRespond, runActs_of_fits (l := lockActs _ _) (fits_off_wait h.stopped _ _ _), andThen_of_next]
  generalize afterActs (lockActs s.profile s.ctx.bank) s = t at ht hcells ⊢
  refine attains_next ⟨⟨ht.toStanding.move ⟨rfl, rfl, rfl, rfl⟩, ht.operand, ht.bank, ht.blkStart, ht.blkEnd, ht.attempt,
    ht.starts.trans (starts_of_trace rfl)⟩, hcells, ?_⟩
  rw [← ht.profile]
  rfl

/-- With a budget, an erase whose first attempt passes ends there (R170, R176). -/
theorem eraseUnlocked_attains {s₀ s : State} {index n : Word} {m : Nat} (hwf : s₀.profile.wf = true)
    (hi : index.toNat < s₀.profile.blockCount) (hg : s₀.profile.guardWf = true)
    (hb : s₀.profile.maxEraseRetries ≠ 0) (h : ErasePoint s₀ index [] n m s) :
    Attains (fun t => ErasePoint s₀ index [] 1 (m + 1) t ∧ t.port.status = s₀.profile.statusEnc.code .ok ∧
      ∀ a, s₀.profile.inBlock index.toNat a = true → t.env.cells.read a = 0xFF) (eraseUnlocked s) := by
  obtain ⟨left, hleft⟩ : ∃ left, s₀.profile.maxEraseRetries.toNat = left + 1 :=
    Nat.exists_eq_succ_of_ne_zero fun e => hb (BitVec.eq_of_toNat_eq e)
  have ht : ErasePoint s₀ index [.swe] n m (afterActs (unlockActs s.profile s.ctx.bank) s) := by
    rw [h.bank]
    exact h.acts (j := 0) (h.toStanding.on hwf _ _) (by simp [unlockActs, bitOn, Act.code])
      (by simp [unlockActs, bitOn, Act.code])
  rw [eraseUnlocked, runActs_of_fits (l := unlockActs _ _) (fits_on_wait h.stopped _ _ _), andThen_of_next]
  generalize afterActs (unlockActs s.profile s.ctx.bank) s = t at ht ⊢
  rw [ht.profile, hleft, State.firstAttempt, if_neg hb]
  have h1 : ErasePoint s₀ index [.swe] 1 m (t.setN 1) := ⟨ht.toStanding.move ⟨rfl, rfl, rfl, rfl⟩, ht.operand, ht.bank,
    ht.blkStart, ht.blkEnd, rfl, ht.starts.trans (starts_of_trace rfl)⟩
  refine (eraseAttempt_attains hwf hi hg h1).bind fun u hu => ?_
  obtain ⟨hu, hflag, herased⟩ := hu
  rw [if_pos hflag]
  obtain ⟨v, hv, hpoint, hcells, hstatus⟩ := lockAndRespond_attains hwf hu .ok
  exact ⟨v, hv, hpoint, hstatus, fun a ha => by rw [hcells]; exact herased a ha⟩

/-- A locked device has every control bit 0 (R241, R265). -/
theorem bits_of_locked {s : State} (h : s.locked = true) (k : Bank) : Bits k [] s := by
  intro j f
  simp only [State.locked, List.all_eq_true, Bool.not_eq_true'] at h
  have hj : j ∈ [Bank.b0, Bank.b1] := by cases j <;> decide
  have hf : f ∈ Field.all := by cases f <;> decide
  rw [h j hj f hf]
  simp

/-- `Precond` moves nothing an operation stands on (R122). -/
theorem Standing.precond {p : DeviceProfile} {k : Bank} {c : List Field} {s t : State} (h : Standing p k c s)
    (ht : Preconditioned s t) : Standing p k c t := by
  refine ⟨ht.profile.trans h.profile, ht.mode.trans h.mode, ?_, by rw [ht.wdt, h.stopped], fun j f => ?_⟩
  · rw [env_wf_iff, ht.cells, ht.source, ht.latch]
    exact env_wf_iff.1 h.wf
  · rw [bit_of_regs ht.profile ht.regs, h.bits]

/-- Settles O56: the pulse erases the selected block, so the scan reads all ones and the first attempt ends the command. -/
theorem eraseSucceedsOnReference : Obligations.EraseSucceedsOnReference := by
  intro s index hready hg hb hmode hwf hw hlocked harmed hi hpre
  have hpwf := wf_of_ready hready
  have hai : index.toNat < (s.acceptErase index).profile.blockCount := hi
  have haa : ¬ (s.acceptErase index).armed = false := ne_of_eq_of_ne harmed (by decide)
  have hloaded : ErasePoint s index [] s.ctx.n 0 ((s.acceptErase index).resolveBlock index) := by
    rw [resolveBlock_of_lt hai]
    exact ⟨⟨rfl, hmode, hwf, hw, bits_of_locked hlocked _⟩, rfl, rfl, rfl, rfl, rfl, starts_of_trace rfl⟩
  have hrun : Attains (fun t => ErasePoint s index [] 1 (0 + 0 + 1) t ∧
      t.port.status = s.profile.statusEnc.code .ok ∧
      ∀ a, s.profile.inBlock index.toNat a = true → t.env.cells.read a = 0xFF) (exec (.eraseBlock index) s) := by
    show Attains _ (whenReady s (eraseAccepted index (s.acceptErase index)))
    rw [whenReady_of_ready hready, eraseAccepted, if_neg (Nat.not_le.2 hai), if_neg haa]
    refine (precond_runs hloaded.stopped).bind fun t ht => ?_
    have hflag : t.loc.flag = true := by
      rw [ht.flag, ← hpre, resolveBlock_of_lt hai]
      rfl
    rw [if_pos hflag]
    exact eraseUnlocked_attains hpwf hi hg hb
      (hloaded.of_kept (hloaded.toStanding.precond ht) ht.opr (by rw [ht.ctx]) ht.starts)
  obtain ⟨t, ht, hpoint, hstatus, hcells⟩ := hrun
  exact ⟨t, ht, hstatus, hpoint.attempt, hpoint.starts.count, hcells⟩

end Sys2Proof.Machine
end

section
/-! A page on the reference flash: the copy of the source page, the latch passes and their pulses (R81, R114, R191, R192,
R198). -/

namespace Sys2Proof.Machine

/-! ### Pages and their addresses -/

/-- An aligned page of the flash under a well-formed profile that meets the watchdog constraint (R146, R151, R163). -/
structure PageAt (p : DeviceProfile) (dest : Word) : Prop where
  wf : p.wf = true
  guard : p.guardWf = true
  le : dest ≤ p.flashMax
  aligned : dest.toNat % p.pageBytes = 0

section

variable {p : DeviceProfile} {dest : Word} {i : Nat}

theorem PageAt.last (h : PageAt p dest) : dest.toNat + p.pageBytes ≤ p.flashMax.toNat + 1 :=
  page_le_flashMax h.wf h.aligned (BitVec.le_def.1 h.le)

theorem PageAt.offset_toNat (h : PageAt p dest) (hi : i < p.pageBytes) : (offset dest i).toNat = dest.toNat + i := by
  have := h.last
  have := p.flashMax.isLt
  exact Machine.offset_toNat (by omega)

theorem PageAt.bankOf_offset (h : PageAt p dest) (hi : i < p.pageBytes) : p.bankOf (offset dest i) = p.bankOf dest :=
  bankOf_inPage h.wf h.aligned (by rw [h.offset_toNat hi]; omega) (by rw [h.offset_toNat hi]; omega)

theorem PageAt.hasFlashByte (h : PageAt p dest) (hi : i < p.pageBytes) : p.hasFlashByte (offset dest i) = true := by
  have := h.last
  rw [DeviceProfile.hasFlashByte, decide_eq_true_eq, BitVec.le_def, h.offset_toNat hi]
  omega

end

theorem offset_offset (a : Word) (i j : Nat) : offset (offset a i) j = offset a (i + j) := by
  simp only [offset, BitVec.add_assoc, BitVec.ofNat_add]

/-! ### Bytes and words of the source page -/

/-- The buffer holds the source page at `src` (R191 step 2). -/
def HoldsSource (s₀ : State) (src : Word) (buf : List Byte) : Prop :=
  ∀ i < s₀.profile.pageBytes, bufByte buf i = s₀.sourceByte (offset src i)

/-- The cells of the page at `dest` hold the source page at `src` (R202). -/
def Stored (s₀ : State) (dest src : Word) (t : State) : Prop :=
  ∀ i < s₀.profile.pageBytes, t.env.cells.read (dest.toNat + i) = s₀.sourceByte (offset src i)

theorem append_inj {m n : Nat} {a c : BitVec m} {b d : BitVec n} (h : a ++ b = c ++ d) : a = c ∧ b = d := by
  constructor
  · rw [← BitVec.extractLsb'_append_eq_left (a := a) (b := b), h, BitVec.extractLsb'_append_eq_left]
  · rw [← BitVec.extractLsb'_append_eq_right (a := a) (b := b), h, BitVec.extractLsb'_append_eq_right]

/-- A word of a buffer is the source word exactly when its four bytes are the source bytes (R10, R60). -/
theorem bufWord_eq_sourceWord {s : State} {src : Word} {buf : List Byte} {j : Nat} :
    bufWord buf j = s.sourceWordAt (offset src (4 * j)) ↔
      ∀ x < 4, bufByte buf (4 * j + x) = s.sourceByte (offset src (4 * j + x)) := by
  simp only [bufWord, State.sourceWordAt, offset_offset]
  constructor
  · intro h
    obtain ⟨h, h3⟩ := append_inj h
    obtain ⟨h, h2⟩ := append_inj h
    obtain ⟨h0, h1⟩ := append_inj h
    intro x hx
    interval_cases x <;> assumption
  · intro h
    rw [← h 1 (by decide), ← h 2 (by decide), ← h 3 (by decide)]
    exact congrArg (fun b => b ++ _ ++ _ ++ _) (h 0 (by decide))

theorem pageBytes_eq_words (p : DeviceProfile) : p.pageBytes = 4 * p.pageWords := by
  unfold DeviceProfile.pageWords
  rcases pageBytes_cases p with hp | hp <;> rw [hp]

/-- A buffer holds the source page exactly when its words are the source words. -/
theorem holdsSource_iff {s : State} {src : Word} {buf : List Byte} : HoldsSource s src buf ↔
    ∀ j < s.profile.pageWords, bufWord buf j = s.sourceWordAt (offset src (4 * j)) := by
  simp only [bufWord_eq_sourceWord, HoldsSource, pageBytes_eq_words]
  constructor
  · exact fun h j hj x hx => h _ (by omega)
  · intro h i hi
    have := h (i / 4) (by omega) (i % 4) (Nat.mod_lt _ (by decide))
    rwa [Nat.div_add_mod] at this

/-- A stored page reads its source words (R60). -/
theorem Stored.word {s₀ t : State} {dest src : Word} (h : Stored s₀ dest src t) {j : Nat}
    (hj : j < s₀.profile.pageWords) :
    t.env.cells.word (dest.toNat + 4 * j) = s₀.sourceWordAt (offset src (4 * j)) := by
  have hb : ∀ x < 4, t.env.cells.read (dest.toNat + (4 * j + x)) = s₀.sourceByte (offset src (4 * j + x)) :=
    fun x hx => h _ (by rw [pageBytes_eq_words]; omega)
  simp only [Memory.word, State.sourceWordAt, offset_offset, Nat.add_assoc]
  rw [← hb 1 (by decide), ← hb 2 (by decide), ← hb 3 (by decide)]
  exact congrArg (fun b => b ++ _ ++ _ ++ _) (hb 0 (by decide))

/-! ### Points of a page write -/

/-- A point of `write_page` begun at `s₀`, in attempt `n`. -/
structure WritePoint (s₀ : State) (dest src : Word) (c : List Field) (n : Word) (t : State) : Prop extends
    Standing s₀.profile (s₀.profile.bankOf dest) c t where
  source : t.env.source = s₀.env.source
  pgDest : t.ctx.pgDest = dest
  pgSrc : t.ctx.pgSrc = src
  bank : t.ctx.bank = s₀.profile.bankOf dest
  attempt : t.ctx.n = n
  rbuf : t.ctx.rbuf.length = s₀.profile.pageBytes
  obuf : t.ctx.obuf.length = s₀.profile.obufBytes

section

variable {s₀ s t : State} {dest src n : Word} {c c' : List Field}

/-- A run of acts keeps the registers of a page but `rbuf` (R23). -/
theorem WritePoint.acts (h : WritePoint s₀ dest src c n s) {l : List Act}
    (hst : Standing s₀.profile (s₀.profile.bankOf dest) c' (afterActs l s)) :
    WritePoint s₀ dest src c' n (afterActs l s) := by
  obtain ⟨hctx, hlen⟩ := afterActs_ctx l s
  refine ⟨hst, (framed_afterActs l s).source.trans h.source, ?_, ?_, ?_, ?_, hlen.trans h.rbuf, ?_⟩ <;> rw [hctx]
  · exact h.pgDest
  · exact h.pgSrc
  · exact h.bank
  · exact h.attempt
  · exact h.obuf

theorem WritePoint.sourceByte (h : WritePoint s₀ dest src c n s) (a : Word) : s.sourceByte a = s₀.sourceByte a := by
  rw [State.sourceByte, State.sourceByte, h.source]

/-- A byte stored in `rbuf` by the copy (R191 step 2). -/
theorem bufByte_copy {i : Nat} (h : i < s.ctx.rbuf.length) (x : Nat) :
    bufByte ((Act.copy i).after s).ctx.rbuf x =
      if x = i then s.sourceByte (offset s.ctx.pgSrc i) else bufByte s.ctx.rbuf x :=
  bufByte_set s.ctx.rbuf i x _ h

/-- The copy leaves the source page in `rbuf` (R191 step 2). -/
theorem WritePoint.copied (h : WritePoint s₀ dest src c n s) {m : Nat} (hm : m ≤ s₀.profile.pageBytes) :
    ∀ i < m, bufByte (afterActs ((List.range m).map .copy) s).ctx.rbuf i = s₀.sourceByte (offset src i) := by
  induction m with
  | zero => nofun
  | succ m ih =>
    have ht : WritePoint s₀ dest src c n (afterActs ((List.range m).map .copy) s) :=
      h.acts (h.toStanding.quietRun (by simp [Act.code]))
    rw [List.range_succ, List.map_append, afterActs_append]
    generalize afterActs ((List.range m).map .copy) s = t at ih ht ⊢
    intro i hi
    refine (bufByte_copy (by rw [ht.rbuf]; omega) i).trans ?_
    by_cases him : i = m
    · rw [if_pos him, ht.sourceByte, ht.pgSrc, him]
    · rw [if_neg him]
      exact ih (by omega) i (by omega)

/-! ### A latch pass and its pulse -/

/-- A latch pass latches `x i` at byte `i` of the page, and changes nothing else but the trace (R114, R191, R198). -/
structure Latches (s : State) (f : Nat → Act) (x : Nat → Byte) : Prop where
  code : ∀ i, (f i).code = 0x2
  after : ∀ i t, t.ctx = s.ctx → (f i).after t = t.flashWrite8 (offset s.ctx.pgDest i) (x i)
  reaches : ∀ i, (f i).reaches s = s.profile.hasFlashByte (offset s.ctx.pgDest i)

theorem latches_rbuf (s : State) : Latches s .latch (bufByte s.ctx.rbuf) :=
  ⟨fun _ => rfl, fun i t h => by rw [← h]; rfl, fun _ => rfl⟩

theorem latches_obuf (s : State) : Latches s .latchOvw (bufByte s.ctx.obuf) :=
  ⟨fun _ => rfl, fun i t h => by rw [← h]; rfl, fun _ => rfl⟩

theorem latches_codes {f : Nat → Act} {x : Nat → Byte} (hf : Latches s f x) {m : Nat} {b : Act}
    (hb : b ∈ (List.range m).map f) : b.code = 0x2 := by
  obtain ⟨i, -, rfl⟩ := List.mem_map.1 hb
  exact hf.code i

theorem latchPass_find (hpage : PageAt s₀.profile dest) (h : WritePoint s₀ dest src [.swe] n s) {f : Nat → Act}
    {x : Nat → Byte} (hf : Latches s f x) {m : Nat} (hm : m ≤ s₀.profile.pageBytes) :
    ∀ i < m, (afterActs ((List.range m).map f) s).env.latch.find (dest.toNat + i) = some (x i) := by
  induction m with
  | zero => nofun
  | succ m ih =>
    have hst : Standing s₀.profile (s₀.profile.bankOf dest) [.swe] (afterActs ((List.range m).map f) s) :=
      h.toStanding.quietRun fun b hb => by simp [latches_codes hf hb]
    have hctx : (afterActs ((List.range m).map f) s).ctx = s.ctx :=
      afterActs_ctx_of_codes fun b hb => by simp [latches_codes hf hb]
    rw [List.range_succ, List.map_append, afterActs_append]
    generalize afterActs ((List.range m).map f) s = t at ih hst hctx ⊢
    have hlatching : t.latching (offset dest m) = true := by
      rw [latching_iff, hst.profile, hpage.bankOf_offset (by omega), hst.bits, hst.bits, hst.bits]
      simp
    intro i hi
    show ((f m).after t).env.latch.find _ = _
    rw [hf.after m t hctx, h.pgDest, find_latch_after_flashWrite8, hpage.offset_toNat (by omega)]
    by_cases him : i = m
    · rw [if_pos ⟨hlatching, by rw [him]⟩, him]
    · rw [if_neg (by omega)]
      exact ih (by omega) i (by omega)

/-- The watchdog's interval exceeds the body of a program pulse of every width of the profile (R146). -/
theorem programPulse_fits {p : DeviceProfile} (hg : p.guardWf = true) (hp : s.profile = p) (k : Bank) {width : Word}
    (hw : width.toNat ≤ max (max p.delays.pShort.toNat p.delays.pLong.toNat) p.delays.pAdd.toNat) :
    s.fits (programPulseActs p k width) = true := by
  have hbody : p.programBodyCycles < p.wdtInterval p.wdtDivProgram := of_decide_eq_true (Bool.and_eq_true_iff.1 hg).2
  refine pulse_fits ?_
  rw [hp]
  refine Nat.lt_of_le_of_lt (Nat.add_le_add_right (Nat.mul_le_mul_left _ ?_) _) hbody
  omega

/-- A latch pass and its pulse program the page with what was latched, and empty the latch (R81, R114, R192). -/
theorem latchPulse_attains (hpage : PageAt s₀.profile dest) (h : WritePoint s₀ dest src [.swe] n s) {f : Nat → Act}
    {x : Nat → Byte} (hf : Latches s f x) {width : State → Word}
    (hw : ∀ t, WritePoint s₀ dest src [.swe] n t → (width t).toNat ≤
      max (max s₀.profile.delays.pShort.toNat s₀.profile.delays.pLong.toNat) s₀.profile.delays.pAdd.toNat) :
    Attains (fun t => WritePoint s₀ dest src [.swe] n t ∧ t.ctx = s.ctx ∧ t.env.latch = [] ∧
        ∀ i < s₀.profile.pageBytes,
          t.env.cells.read (dest.toNat + i) = s.env.cells.read (dest.toNat + i) &&& x i)
      (andThen (runActs ((List.range s₀.profile.pageBytes).map f) s) fun t => execProgramPulse t.ctx.bank (width t) t) := by
  have hfit : s.fits ((List.range s₀.profile.pageBytes).map f) = true := by
    refine fits_of_stopped h.stopped (fun b hb d e => ?_) fun b hb => ?_
    · have := latches_codes hf hb
      rw [e] at this
      simp [Act.code] at this
    · obtain ⟨i, hi, rfl⟩ := List.mem_map.1 hb
      rw [hf.reaches, h.profile, h.pgDest]
      exact hpage.hasFlashByte (List.mem_range.1 hi)
  have hfind := latchPass_find hpage h hf (Nat.le_refl _)
  have ht : WritePoint s₀ dest src [.swe] n (afterActs ((List.range s₀.profile.pageBytes).map f) s) :=
    h.acts (h.toStanding.quietRun fun b hb => by simp [latches_codes hf hb])
  have hctx : (afterActs ((List.range s₀.profile.pageBytes).map f) s).ctx = s.ctx :=
    afterActs_ctx_of_codes fun b hb => by simp [latches_codes hf hb]
  have hcells : (afterActs ((List.range s₀.profile.pageBytes).map f) s).env.cells = s.env.cells :=
    afterActs_cells fun b hb => by simp [latches_codes hf hb]
  rw [runActs_of_fits hfit, andThen_of_next]
  generalize afterActs ((List.range s₀.profile.pageBytes).map f) s = t at hfind ht hctx hcells ⊢
  rw [execProgramPulse, ht.profile, ht.bank]
  refine attains_runActs (programPulse_fits hpage.guard ht.profile _ (hw t ht)) ⟨ht.acts ?_, ?_, ?_, fun i hi => ?_⟩
  · exact ht.toStanding.pulse hpage.wf (g := .psu) (f := .p) (by decide) (by decide) (by decide)
  · exact pulse_ctx.trans hctx
  · exact latch_programPulse hpage.wf ht.toStanding _ _
  · rw [read_programPulse hpage.wf ht.toStanding _ _ (hfind i hi), hcells]

end

end Sys2Proof.Machine
end

section
/-! `write_page` of an erased page on the reference flash: the first pulse stores the source, the verify pass reads it back,
and the page ends with attempt 1 (R81, R191 to R199, R202). -/

namespace Sys2Proof.Machine

/-- A point of `write_page` after the first pulse: the page holds its source, nothing is latched and no word differed. -/
structure StoredPoint (s₀ : State) (dest src : Word) (c : List Field) (n : Word) (t : State) : Prop extends
    WritePoint s₀ dest src c n t where
  clear : t.ctx.m = false
  latch : t.env.latch = []
  stored : Stored s₀ dest src t

/-- A point of the verify pass before word `j`: the words from `j` on are as they were latched, and in an overwrite pass
those before `j` are in `obuf`. -/
structure VerifyPoint (s₀ : State) (dest src n : Word) (j : Nat) (t : State) : Prop extends
    StoredPoint s₀ dest src [.pv, .swe] n t where
  reprogram : ∀ i < s₀.profile.pageWords, j ≤ i → bufWord t.ctx.rbuf i = s₀.sourceWordAt (offset src (4 * i))
  overwrite : s₀.profile.overwritePass n = true → ∀ i < j, bufWord t.ctx.obuf i = s₀.sourceWordAt (offset src (4 * i))
  result : j = 0 ∨ t.loc.result = .ok

theorem Standing.of_framed {p : DeviceProfile} {k : Bank} {c : List Field} {s t : State} (h : Standing p k c s)
    (hf : Framed s t) (hw : t.wdt = s.wdt) (hr : t.regs = s.regs) : Standing p k c t :=
  ⟨hf.profile.trans h.profile, hf.mode.trans h.mode, hf.wf h.wf, by rw [hw, h.stopped],
    fun j f => (bit_of_regs hf.profile hr j f).trans (h.bits j f)⟩

section

variable {s₀ s t : State} {dest src n : Word} {c c' : List Field} {j : Nat}

/-- A run that latches nothing, ends no pulse and reads no source byte. -/
theorem StoredPoint.harmless (hwf : s₀.profile.wf = true) (h : StoredPoint s₀ dest src c n s) {l : List Act}
    (hl : Harmless l) (hcode : ∀ b ∈ l, b.code ≠ 0x5)
    (hst : Standing s₀.profile (s₀.profile.bankOf dest) c' (afterActs l s)) :
    StoredPoint s₀ dest src c' n (afterActs l s) := by
  have hf := hl s (h.layout hwf)
  refine ⟨h.acts hst, by rw [afterActs_ctx_of_codes hcode, h.clear], by rw [hf.latch, h.latch], fun i hi => ?_⟩
  rw [hf.cells]
  exact h.stored i hi

/-! ### The verify pass -/

/-- A verify word whose word reads back as the source is not fatal and differs in nothing (R193, R196, R197). -/
theorem judgeWord_of_stored {w : Word} (hf : s.loc.fword = w) (hs : s.loc.sword = w) (hr : bufWord s.ctx.rbuf j = w)
    (hm : s.ctx.m = false) (n : Word) : s.judgeWord j n = { s with
      ctx := { s.ctx with
        m := false
        obuf := if s.profile.overwritePass n then setBufWord s.ctx.obuf j w else s.ctx.obuf
        rbuf := setBufWord s.ctx.rbuf j s.reprogramWord }
      loc := { s.loc with result := .ok } } := by
  have hfatal : s.fatalWord = false := by simp [State.fatalWord, hf, hs]
  have href : s.reference j = w := by
    unfold State.reference
    split
    · exact hr
    · exact hs
  have hmis : s.mismatch j = false := by simp [State.mismatch, hm, href, hf]
  rw [judgeWord_of_not_fatal hfatal, hmis, State.nextObuf, State.overwriteWord, hf, hr, BitVec.or_self]

/-- What a verify word of a stored page reads: its source word, twice (R81, R123, R193). -/
theorem readsSource_of_stored (hpage : PageAt s₀.profile dest) (h : VerifyPoint s₀ dest src n j s)
    (hj : j < s₀.profile.pageWords) : ∃ u, ReadsWord (s.startWord j) s.profile.delays.pvRead u ∧
      u.loc.fword = s₀.sourceWordAt (offset src (4 * j)) ∧
      u.sourceWordAt (offset s.ctx.pgSrc (4 * j)) = s₀.sourceWordAt (offset src (4 * j)) ∧
      execVerifyWord s.ctx.bank j s.ctx.n s =
        .next ((u.readSource (offset s.ctx.pgSrc (4 * j))).judgeWord j s.ctx.n) := by
  have hj4 : 4 * j + 4 ≤ s₀.profile.pageBytes := by rw [pageBytes_eq_words]; omega
  have hlast := hpage.last
  have hva : (offset s.ctx.pgDest (4 * j)).toNat = dest.toNat + 4 * j := by
    rw [h.pgDest]
    exact hpage.offset_toNat (by omega)
  have hreach : s.profile.wordReachable (offset s.ctx.pgDest (4 * j)) = true := by
    have hal := mod_four_of_aligned hpage.aligned
    simp only [DeviceProfile.wordReachable, DeviceProfile.hasFlashWord, hva, h.profile, Bool.and_eq_true,
      decide_eq_true_eq]
    omega
  obtain ⟨u, hu, hrun⟩ := verifyWord_runs (by rw [h.profile]; exact hj) h.stopped hreach s.ctx.bank s.ctx.n
  have hver : (s.startWord j).verifying (offset s.ctx.pgDest (4 * j)) = true := by
    refine verifying_iff.2 (.inr ?_)
    show s.bit (s.profile.bankOf _) .pv = true
    rw [h.profile, h.pgDest, hpage.bankOf_offset (by omega), h.bits]
    simp
  have hsource : u.env.source = s₀.env.source := hu.source.trans h.source
  refine ⟨u, hu, (hu.reference hver h.mode).trans ?_, ?_, hrun⟩
  · show s.env.cells.word (offset s.ctx.pgDest (4 * j)).toNat = _
    rw [hva, h.stored.word hj]
  · simp only [State.sourceWordAt, State.sourceByte, hsource, h.pgSrc]

/-- A verify word of a stored page keeps it stored, and latches its source word again (R193 to R195). -/
theorem verifyWord_of_stored (hpage : PageAt s₀.profile dest) (h : VerifyPoint s₀ dest src n j s)
    (hj : j < s₀.profile.pageWords) : Attains (fun t => VerifyPoint s₀ dest src n (j + 1) t ∧ t.loc.result = .ok)
      (execVerifyWord s.ctx.bank j s.ctx.n s) := by
  have hj4 : 4 * j + 4 ≤ s₀.profile.pageBytes := by rw [pageBytes_eq_words]; omega
  obtain ⟨u, hu, hfword, hsword, hrun⟩ := readsSource_of_stored hpage h hj
  have hframe := exec_framed (i := .verifyWord s.ctx.bank j s.ctx.n) (by simp) hrun
  have hctx : u.ctx = { s.ctx with vaddr := offset s.ctx.pgDest (4 * j) } := hu.ctx
  have hrbuf : bufWord u.ctx.rbuf j = s₀.sourceWordAt (offset src (4 * j)) := by
    rw [hctx]
    exact h.reprogram j hj (Nat.le_refl j)
  have hjudge := judgeWord_of_stored (s := u.readSource (offset s.ctx.pgSrc (4 * j))) hfword hsword hrbuf
    (by show u.ctx.m = false; rw [hctx]; exact h.clear) s.ctx.n
  refine ⟨_, hrun, ?_, by rw [hjudge]⟩
  have hstand := h.toStanding.of_framed hframe
    ((judgeWord_fields _ j _).2.2.2.2.2.2.2.2.1.trans hu.wdt) ((judgeWord_fields _ j _).2.2.2.2.2.2.2.1.trans hu.regs)
  have hsource := hframe.source
  obtain ⟨hrlen, holen, -, -⟩ := judgeWord_ctx (u.readSource (offset s.ctx.pgSrc (4 * j))) j s.ctx.n
  rw [hjudge] at hstand hsource hrlen holen ⊢
  constructor
  · refine ⟨⟨hstand, hsource.trans h.source, (congrArg PulseContext.pgDest hctx).trans h.pgDest,
      (congrArg PulseContext.pgSrc hctx).trans h.pgSrc, (congrArg PulseContext.bank hctx).trans h.bank,
      (congrArg PulseContext.n hctx).trans h.attempt,
      hrlen.trans ((congrArg (fun c => c.rbuf.length) hctx).trans h.rbuf),
      holen.trans ((congrArg (fun c => c.obuf.length) hctx).trans h.obuf)⟩, rfl, hu.latch.trans h.latch, fun i hi => ?_⟩
    show u.env.cells.read _ = _
    rw [hu.cells h.mode]
    exact h.stored i hi
  · intro i hi hij
    show bufWord (setBufWord u.ctx.rbuf j _) i = _
    rw [hctx, bufWord_setBufWord (by rw [h.rbuf]; exact hj4), if_neg (by omega)]
    exact h.reprogram i hi (by omega)
  · intro hp i hi
    have hobuf : s.ctx.obuf.length = s₀.profile.pageBytes := by
      rw [h.obuf, DeviceProfile.obufBytes, if_pos (overwritePass_iff.1 hp).1]
    show bufWord (if u.profile.overwritePass s.ctx.n then setBufWord u.ctx.obuf j _ else u.ctx.obuf) i = _
    rw [hu.profile.trans h.profile, h.attempt, if_pos hp, hctx, bufWord_setBufWord (by rw [hobuf]; exact hj4)]
    split
    · next he => rw [he]
    · exact h.overwrite hp i (by omega)
  · exact .inr rfl

/-- The verify pass of a stored page ends with its last word (R191 step 3c). -/
theorem verifyWords_of_stored (hpage : PageAt s₀.profile dest) {left : Nat} (hleft : j + left = s₀.profile.pageWords)
    (h : VerifyPoint s₀ dest src n j s) :
    Attains (VerifyPoint s₀ dest src n s₀.profile.pageWords) (verifyWords left j s) := by
  induction left generalizing j s with
  | zero => exact attains_next (hleft ▸ h)
  | succ left ih =>
    refine (verifyWord_of_stored hpage h (by omega)).bind fun t ht => ?_
    obtain ⟨ht, hok⟩ := ht
    rw [if_neg (by rw [hok]; decide)]
    exact ih (by omega) ht

/-- The verify pass of a stored page from its entry on (R191 step 3c). -/
theorem verifyAttempt_of_stored (hpage : PageAt s₀.profile dest) (h : StoredPoint s₀ dest src [.swe] n s)
    (hbuf : HoldsSource s₀ src s.ctx.rbuf) :
    Attains (VerifyPoint s₀ dest src n s₀.profile.pageWords) (verifyAttempt s) := by
  have hcode : ∀ b ∈ pvEnterActs s.profile s.ctx.bank, b.code ≠ 0x5 := by simp [pvEnterActs, bitOn, Act.code]
  have ht : StoredPoint s₀ dest src [.pv, .swe] n (afterActs (pvEnterActs s.profile s.ctx.bank) s) := by
    refine h.harmless hpage.wf (harmless_pvEnter _ _) hcode ?_
    rw [h.bank]
    exact h.toStanding.on hpage.wf _ _
  have hctx := afterActs_ctx_of_codes (s := s) hcode
  rw [verifyAttempt, runActs_of_fits (l := pvEnterActs _ _) (fits_on_wait h.stopped _ _ _), andThen_of_next]
  generalize afterActs (pvEnterActs s.profile s.ctx.bank) s = t at ht hctx ⊢
  rw [ht.profile]
  refine verifyWords_of_stored hpage (Nat.zero_add _) ⟨ht, fun i hi _ => ?_, nofun, .inl rfl⟩
  rw [hctx]
  exact holdsSource_iff.1 hbuf i hi

/-! ### The pulses of an attempt -/

theorem pulseWidth_le (p : DeviceProfile) (n : Word) : (p.pulseWidth n).toNat ≤
    max (max p.delays.pShort.toNat p.delays.pLong.toNat) p.delays.pAdd.toNat := by
  unfold DeviceProfile.pulseWidth
  split <;> omega

/-- The main pulse of an erased page stores what `rbuf` holds (R81, R191 steps 3a, 3b). -/
theorem programAttempt_of_erased (hpage : PageAt s₀.profile dest) (h : WritePoint s₀ dest src [.swe] n s)
    (hclear : s.ctx.m = false) (hbuf : HoldsSource s₀ src s.ctx.rbuf)
    (herased : ∀ i < s₀.profile.pageBytes, s.env.cells.read (dest.toNat + i) = 0xFF) :
    Attains (fun t => StoredPoint s₀ dest src [.swe] n t ∧ HoldsSource s₀ src t.ctx.rbuf) (programAttempt s) := by
  rw [programAttempt, latchActs, h.profile]
  obtain ⟨t, ht, hpoint, hctx, hlatch, hcells⟩ := latchPulse_attains hpage h (latches_rbuf s)
    (width := fun t => t.profile.pulseWidth t.ctx.n) fun t ht => by rw [ht.profile]; exact pulseWidth_le _ _
  refine ⟨t, ht, ⟨hpoint, by rw [hctx, hclear], hlatch, fun i hi => ?_⟩, by rw [hctx]; exact hbuf⟩
  rw [hcells i hi, herased i hi, hbuf i hi]
  exact BitVec.allOnes_and

/-- The overwrite pulse of a stored page, with the source in `obuf`, changes nothing (R81, R198). -/
theorem overwriteAttempt_of_stored (hpage : PageAt s₀.profile dest) (h : StoredPoint s₀ dest src [.swe] n s)
    (hbuf : s₀.profile.overwritePass n = true → HoldsSource s₀ src s.ctx.obuf) :
    Attains (StoredPoint s₀ dest src [.swe] n) (overwriteAttempt s) := by
  rw [overwriteAttempt, h.profile, h.attempt, latchOvwActs]
  split
  · next hp =>
    obtain ⟨t, ht, hpoint, hctx, hlatch, hcells⟩ := latchPulse_attains hpage h.toWritePoint (latches_obuf s)
      (width := fun t => t.profile.delays.pAdd) fun t ht => by rw [ht.profile]; omega
    refine ⟨t, ht, hpoint, by rw [hctx, h.clear], hlatch, fun i hi => ?_⟩
    rw [hcells i hi, h.stored i hi, hbuf hp i hi, BitVec.and_self]
  · exact attains_next h

/-- `PV` cleared and the overwrite pass (R191 steps 3d, 3e). -/
theorem finishAttempt_of_stored (hpage : PageAt s₀.profile dest)
    (h : VerifyPoint s₀ dest src n s₀.profile.pageWords s) :
    Attains (StoredPoint s₀ dest src [.swe] n) (finishAttempt s) := by
  have hcode : ∀ b ∈ pvExitActs s.profile s.ctx.bank, b.code ≠ 0x5 := by simp [pvExitActs, bitOff, Act.code]
  have ht : StoredPoint s₀ dest src [.swe] n (afterActs (pvExitActs s.profile s.ctx.bank) s) := by
    refine h.toStoredPoint.harmless hpage.wf (harmless_pvExit _ _) hcode ?_
    rw [h.bank]
    exact h.toStanding.off hpage.wf (by decide) _
  rw [finishAttempt, runActs_of_fits (l := pvExitActs _ _) (fits_off_wait h.stopped _ _ _), andThen_of_next]
  refine overwriteAttempt_of_stored hpage ht fun hp => ?_
  rw [afterActs_ctx_of_codes hcode]
  exact holdsSource_iff.2 (h.overwrite hp)

/-- `SWE` cleared and the status of the page (R191). -/
theorem lockPage_of_stored (hwf : s₀.profile.wf = true) (h : StoredPoint s₀ dest src [.swe] n s) :
    Attains (fun t => StoredPoint s₀ dest src [] n t ∧ t.loc.result = .ok) (lockPage .ok s) := by
  have ht : StoredPoint s₀ dest src [] n (afterActs (lockActs s.profile s.ctx.bank) s) := by
    refine h.harmless hwf (harmless_lock _ _) (by simp [lockActs, bitOff, Act.code]) ?_
    rw [h.bank]
    exact h.toStanding.off hwf (by decide) _
  rw [lockPage, runActs_of_fits (l := lockActs _ _) (fits_off_wait h.stopped _ _ _), andThen_of_next]
  generalize afterActs (lockActs s.profile s.ctx.bank) s = t at ht ⊢
  exact attains_next ⟨⟨⟨ht.toStanding.move ⟨rfl, rfl, rfl, rfl⟩, ht.source, ht.pgDest, ht.pgSrc, ht.bank, ht.attempt,
    ht.rbuf, ht.obuf⟩, ht.clear, ht.latch, ht.stored⟩, rfl⟩

/-- The first attempt on an erased page is the last (R191, R202). -/
theorem writeAttempts_of_erased (hpage : PageAt s₀.profile dest) (h : WritePoint s₀ dest src [.swe] n s)
    (hbuf : HoldsSource s₀ src s.ctx.rbuf)
    (herased : ∀ i < s₀.profile.pageBytes, s.env.cells.read (dest.toNat + i) = 0xFF) (left : Nat) :
    Attains (fun t => StoredPoint s₀ dest src [] n t ∧ t.loc.result = .ok) (writeAttempts (left + 1) s) := by
  have hclear : WritePoint s₀ dest src [.swe] n s.clearMismatch := ⟨h.toStanding.move ⟨rfl, rfl, rfl, rfl⟩, h.source,
    h.pgDest, h.pgSrc, h.bank, h.attempt, h.rbuf, h.obuf⟩
  refine (programAttempt_of_erased hpage hclear rfl hbuf herased).bind fun t ht => ?_
  refine (verifyAttempt_of_stored hpage ht.1 ht.2).bind fun u hu => ?_
  have hok : u.loc.result = .ok := hu.result.resolve_left (by
    have := pageBytes_eq_words s₀.profile
    rcases pageBytes_cases s₀.profile with hp | hp <;> omega)
  rw [if_neg (by rw [hok]; decide)]
  refine (finishAttempt_of_stored hpage hu).bind fun v hv => ?_
  rw [if_neg (by simp [hv.clear])]
  exact lockPage_of_stored hpage.wf hv

end

/-! ### `write_page` -/

/-- The copy and the attempts (R191). -/
theorem writeUnlocked_of_erased {s₀ s : State} {dest src n : Word} (hpage : PageAt s₀.profile dest)
    (hb : s₀.profile.maxWriteRetries ≠ 0) (h : WritePoint s₀ dest src [] n s)
    (herased : ∀ i < s₀.profile.pageBytes, s.env.cells.read (dest.toNat + i) = 0xFF) :
    Attains (fun t => StoredPoint s₀ dest src [] 1 t ∧ t.loc.result = .ok) (writeUnlocked s) := by
  obtain ⟨left, hleft⟩ : ∃ left, s₀.profile.maxWriteRetries.toNat = left + 1 :=
    Nat.exists_eq_succ_of_ne_zero fun e => hb (BitVec.eq_of_toNat_eq e)
  have hcopy : s.fits (copyActs s.profile) = true :=
    fits_of_stopped h.stopped (by simp [copyActs]) (by simp [copyActs, Act.reaches])
  have ht : WritePoint s₀ dest src [] n (afterActs (copyActs s.profile) s) :=
    h.acts (h.toStanding.quietRun (by simp [copyActs, Act.code]))
  have hbuf : HoldsSource s₀ src (afterActs (copyActs s.profile) s).ctx.rbuf := by
    rw [copyActs, h.profile]
    exact h.copied (Nat.le_refl _)
  have hcells := (harmless_copy s.profile s (h.layout hpage.wf)).cells
  rw [writeUnlocked, runActs_of_fits hcopy, andThen_of_next]
  generalize afterActs (copyActs s.profile) s = t at ht hbuf hcells ⊢
  have hu : WritePoint s₀ dest src [.swe] n (afterActs (unlockActs t.profile t.ctx.bank) t) := by
    rw [ht.bank]
    exact ht.acts (ht.toStanding.on hpage.wf _ _)
  have huctx : (afterActs (unlockActs t.profile t.ctx.bank) t).ctx = t.ctx :=
    afterActs_ctx_of_codes (by simp [unlockActs, bitOn, Act.code])
  have hucells := (harmless_unlock t.profile t.ctx.bank t (ht.layout hpage.wf)).cells
  rw [runActs_of_fits (l := unlockActs _ _) (fits_on_wait ht.stopped _ _ _), andThen_of_next]
  generalize afterActs (unlockActs t.profile t.ctx.bank) t = u at hu huctx hucells ⊢
  rw [hu.profile, hleft, State.firstAttempt, if_neg hb]
  refine writeAttempts_of_erased (s := u.setN 1) hpage ⟨hu.toStanding.move ⟨rfl, rfl, rfl, rfl⟩, hu.source, hu.pgDest, hu.pgSrc, hu.bank,
    rfl, hu.rbuf, hu.obuf⟩ ?_ (fun i hi => ?_) left
  · show HoldsSource s₀ src u.ctx.rbuf
    rw [huctx]
    exact hbuf
  · show u.env.cells.read _ = _
    rw [hucells, hcells]
    exact herased i hi

/-- `write_page` of an erased page stores its source page (R191, R202). -/
theorem writePage_of_erased {s : State} {dest : Word} (hpage : PageAt s.profile dest)
    (hb : s.profile.maxWriteRetries ≠ 0) (hst : Standing s.profile (s.profile.bankOf dest) [] s)
    (hpre : s.precondNow = true) (hr : s.ctx.rbuf.length = s.profile.pageBytes)
    (ho : s.ctx.obuf.length = s.profile.obufBytes)
    (herased : ∀ i < s.profile.pageBytes, s.env.cells.read (dest.toNat + i) = 0xFF) (src : Word) :
    Attains (fun t => StoredPoint s dest src [] 1 t ∧ t.loc.result = .ok) (execWritePage dest src s) := by
  have henter : WritePoint s dest src [] s.ctx.n (s.enterPage dest src) :=
    ⟨hst.move ⟨rfl, rfl, rfl, rfl⟩, rfl, rfl, rfl, rfl, rfl, hr, ho⟩
  rw [execWritePage, if_neg (BitVec.not_lt.2 hpage.le)]
  refine (precond_runs henter.stopped).bind fun t ht => ?_
  rw [if_pos (ht.flag.trans hpre)]
  refine writeUnlocked_of_erased hpage hb (n := s.ctx.n) ?_ fun i hi => ?_
  · refine ⟨henter.toStanding.precond ht, ht.source.trans henter.source, ?_, ?_, ?_, ?_, ?_, ?_⟩ <;> rw [ht.ctx]
    · rfl
    · rfl
    · rfl
    · rfl
    · exact hr
    · exact ho
  · rw [ht.cells]
    exact herased i hi

/-- Settles O54: the pulse stores the latched source in the erased page, so that no word differs in attempt 1. -/
theorem writeConvergesWhenErased : Obligations.WriteConvergesWhenErased := by
  intro s dest src hwf hg hb hmode henv _ hw hlocked hpre hr ho hle hal herased
  obtain ⟨t, ht, hpoint, hok⟩ := writePage_of_erased ⟨hwf, hg, hle, hal⟩ hb
    ⟨rfl, hmode, henv, hw, bits_of_locked hlocked _⟩ hpre hr ho herased src
  exact ⟨t, ht, hok, hpoint.attempt, hpoint.stored⟩

end Sys2Proof.Machine
end

section
/-! `write_range` onto erased flash on the reference flash: page after page converges, and leaves the pages before and after
it as they were (R81, R162, R190, R202). -/

namespace Sys2Proof.Machine

/-! ### Status inputs that are held -/

/-- A status input without a script stays at its held level (R35). -/
structure HeldInputs (s t : State) : Prop where
  fwe : s.env.fwe.queue = [] → t.env.fwe = s.env.fwe
  fler : s.env.fler.queue = [] → t.env.fler = s.env.fler

theorem later_of_empty {f : Feed Bool} (h : f.queue = []) : f.later = f := by
  obtain ⟨q, x⟩ := f
  obtain rfl : q = [] := h
  rfl

theorem HeldInputs.trans {s t u : State} (h : HeldInputs s t) (g : HeldInputs t u) : HeldInputs s u :=
  ⟨fun hq => by rw [g.fwe (by rw [h.fwe hq, hq]), h.fwe hq], fun hq => by rw [g.fler (by rw [h.fler hq, hq]), h.fler hq]⟩

theorem heldInputs_of_env {s t : State} (hw : t.env.fwe = s.env.fwe) (hl : t.env.fler = s.env.fler) : HeldInputs s t :=
  ⟨fun _ => hw, fun _ => hl⟩

theorem heldInputs_after (u : MicroOp) (s : State) : HeldInputs s (u.after s) := by
  cases u with
  | regRead r =>
    rcases r with (k | k) <;> cases k
    · exact ⟨later_of_empty, fun _ => rfl⟩
    · exact ⟨fun _ => rfl, later_of_empty⟩
    · exact heldInputs_of_env rfl rfl
    · exact heldInputs_of_env rfl rfl
  | regWrite r v => cases r <;> exact heldInputs_of_env rfl rfl
  | flashWrite8 a v =>
    have h := flashWrite8_eq s a v
    exact heldInputs_of_env (congrArg (fun x => x.env.fwe) h) (congrArg (fun x => x.env.fler) h)
  | flashWrite32 a v =>
    have hw : (s.envAfterProbe a v).fwe = s.env.fwe := by rw [envAfterProbe_eq]
    have hl : (s.envAfterProbe a v).fler = s.env.fler := by rw [envAfterProbe_eq]
    exact heldInputs_of_env hw hl
  | flashRead32 a =>
    have h := flashRead32_eq s a
    exact heldInputs_of_env (congrArg (fun x => x.env.fwe) h) (congrArg (fun x => x.env.fler) h)
  | _ => exact heldInputs_of_env rfl rfl

theorem heldInputs_chained : Chained HeldInputs :=
  ⟨HeldInputs.trans, heldInputs_after, fun q => heldInputs_of_env (by rw [q.env]) (by rw [q.env])⟩

/-- With `FWE` held at 1 and `FLER` at 0 the precondition holds at every moment (R122). -/
theorem precondNow_of_held {s : State} (hw : s.env.fwe = { queue := [], held := some true })
    (hl : s.env.fler = { queue := [], held := some false }) : s.precondNow = true := by
  simp [State.precondNow, State.statusInput, hw, hl, Feed.now]

/-! ### The head of the page loop -/

/-- The head of the page loop after `m` bytes of a range of erased flash: they hold their source, the rest is erased. -/
structure RangePoint (s₀ : State) (dest src len : Word) (m : Nat) (t : State) : Prop extends
    Standing s₀.profile .b0 [] t where
  fwe : t.env.fwe = { queue := [], held := some true }
  fler : t.env.fler = { queue := [], held := some false }
  source : t.env.source = s₀.env.source
  rbuf : t.ctx.rbuf.length = s₀.profile.pageBytes
  obuf : t.ctx.obuf.length = s₀.profile.obufBytes
  latch : t.env.latch = []
  nextDest : t.opr.dest = offset dest m
  nextSrc : t.opr.src = offset src m
  left : t.opr.len.toNat + m = len.toNat
  pages : m % s₀.profile.pageBytes = 0
  stored : ∀ i < m, t.env.cells.read (dest.toNat + i) = s₀.sourceByte (offset src i)
  erased : ∀ i < len.toNat, m ≤ i → t.env.cells.read (dest.toNat + i) = 0xFF

/-- The range lies in the flash, in whole pages (R161, R164). -/
structure RangeAt (p : DeviceProfile) (dest len : Word) : Prop where
  wf : p.wf = true
  guard : p.guardWf = true
  budget : p.maxWriteRetries ≠ 0
  aligned : dest.toNat % p.pageBytes = 0
  whole : len.toNat % p.pageBytes = 0
  le : dest.toNat + len.toNat ≤ p.flashMax.toNat + 1

/-- With no control bit set, the bank does not matter. -/
theorem Standing.bank_of_locked {p : DeviceProfile} {k : Bank} {s : State} (h : Standing p k [] s) (j : Bank) :
    Standing p j [] s :=
  ⟨h.profile, h.mode, h.wf, h.stopped, fun i f => by rw [h.bits]; simp⟩

theorem offset_pageWord (p : DeviceProfile) (a : Word) (m : Nat) :
    offset a m + p.pageWord = offset a (m + p.pageBytes) := offset_offset a m p.pageBytes

section

variable {s₀ s t : State} {dest src len : Word} {m : Nat}

/-- What is left of the range is a page at least, or nothing. -/
theorem RangePoint.page_le (hr : RangeAt s₀.profile dest len) (h : RangePoint s₀ dest src len m s)
    (hlen : s.opr.len ≠ 0) : m + s₀.profile.pageBytes ≤ len.toNat := by
  have hne : s.opr.len.toNat ≠ 0 := fun e => hlen (BitVec.eq_of_toNat_eq e)
  have hmod := hr.whole
  have hm := h.pages
  have hleft := h.left
  rcases pageBytes_cases s₀.profile with hp | hp <;> rw [hp] at hmod hm ⊢ <;> omega

/-- The next page of the range is a page of the flash (R162, R164). -/
theorem RangePoint.pageAt (hr : RangeAt s₀.profile dest len) (h : RangePoint s₀ dest src len m s)
    (hlen : s.opr.len ≠ 0) : PageAt s₀.profile s.opr.dest ∧ s.opr.dest.toNat = dest.toNat + m := by
  have hpage := h.page_le hr hlen
  have hle := hr.le
  have hlt := s₀.profile.flashMax.isLt
  have hpos := pageBytes_cases s₀.profile
  have hd : s.opr.dest.toNat = dest.toNat + m := by
    rw [h.nextDest]
    exact offset_toNat (by omega)
  refine ⟨⟨hr.wf, hr.guard, by rw [BitVec.le_def]; omega, ?_⟩, hd⟩
  rw [hd, Nat.add_mod, hr.aligned, h.pages]
  simp

/-- A page of the range is stored, and the loop steps to the next (R162, R202). -/
theorem writePage_of_range (hr : RangeAt s₀.profile dest len) (h : RangePoint s₀ dest src len m s)
    (hlen : s.opr.len ≠ 0) : Attains (fun t => t.loc.result = .ok ∧
      RangePoint s₀ dest src len (m + s₀.profile.pageBytes) t.stepPage) (execWritePage s.opr.dest s.opr.src s) := by
  have hp := h.profile
  obtain ⟨hpage, hd⟩ := h.pageAt hr hlen
  have hm := h.page_le hr hlen
  rw [← hp] at hpage
  have herased : ∀ i < s.profile.pageBytes, s.env.cells.read (s.opr.dest.toNat + i) = 0xFF := fun i hi => by
    rw [hp] at hi
    rw [hd, Nat.add_assoc]
    exact h.erased _ (by omega) (by omega)
  obtain ⟨t, ht, hpoint, hok⟩ := writePage_of_erased hpage (by rw [hp]; exact hr.budget)
    (by rw [hp]; exact h.toStanding.bank_of_locked _) (precondNow_of_held h.fwe h.fler) (by rw [hp]; exact h.rbuf)
    (by rw [hp]; exact h.obuf) herased s.opr.src
  have hheld : HeldInputs s t :=
    exec_chained_ungated heldInputs_chained (i := .writePage s.opr.dest s.opr.src) (by simp) (by simp) (by simp) ht
  have hout : ∀ a, a < s.opr.dest.toNat ∨ s.opr.dest.toNat + s.profile.pageBytes ≤ a → Writing s s.opr.dest a t :=
    fun a ha => writePage_flash s.opr.src hpage.wf (by rw [h.latch]; rfl) ha t ht
  have hopr : t.opr = s.opr := (hout (s.opr.dest.toNat + s.profile.pageBytes) (.inr (Nat.le_refl _))).opr
  have htp : t.profile = s₀.profile := hpoint.profile.trans hp
  rw [hd, hp] at hout
  refine ⟨t, ht, hok, ?_⟩
  constructor
  · exact ((hp ▸ hpoint.toStanding).bank_of_locked .b0).move ⟨rfl, rfl, rfl, rfl⟩
  · exact (hheld.fwe (by rw [h.fwe])).trans h.fwe
  · exact (hheld.fler (by rw [h.fler])).trans h.fler
  · exact hpoint.source.trans h.source
  · exact hpoint.rbuf.trans (by rw [hp])
  · exact hpoint.obuf.trans (by rw [hp])
  · exact hpoint.latch
  · show t.opr.dest + t.profile.pageWord = _
    rw [hopr, h.nextDest, htp, offset_pageWord]
  · show t.opr.src + t.profile.pageWord = _
    rw [hopr, h.nextSrc, htp, offset_pageWord]
  · show (t.opr.len - t.profile.pageWord).toNat + _ = _
    have hleft := h.left
    rw [hopr, htp, BitVec.toNat_sub_of_le (by rw [BitVec.le_def, pageWord_toNat]; omega), pageWord_toNat]
    omega
  · rw [Nat.add_mod, h.pages, Nat.zero_add, Nat.mod_mod, Nat.mod_self]
  · intro i hi
    show t.env.cells.read _ = _
    by_cases him : i < m
    · rw [(hout _ (.inl (by omega))).cell]
      exact h.stored i him
    · have hx := hpoint.stored (i - m) (by rw [hp]; omega)
      rw [hd, Nat.add_assoc, Nat.add_sub_cancel' (Nat.le_of_not_lt him), h.nextSrc, offset_offset,
        Nat.add_sub_cancel' (Nat.le_of_not_lt him)] at hx
      rw [hx, State.sourceByte, State.sourceByte, h.source]
  · intro i hi him
    show t.env.cells.read _ = _
    rw [(hout _ (.inr (by omega))).cell]
    exact h.erased i hi (by omega)

/-- The page loop stores the whole range (R162, R202). -/
theorem pages_of_range (hr : RangeAt s₀.profile dest len) {n : Nat} (hn : len.toNat ≤ m + n * s₀.profile.pageBytes)
    (h : RangePoint s₀ dest src len m s) :
    Attains (fun t => t.profile = s₀.profile ∧ t.loc.result = .ok ∧
      ∀ i < len.toNat, t.env.cells.read (dest.toNat + i) = s₀.sourceByte (offset src i)) (pages n s) := by
  induction n generalizing m s with
  | zero => exact attains_next ⟨h.profile, rfl, fun i hi => h.stored i (by omega)⟩
  | succ n ih =>
    rw [pages]
    split
    · next hlen =>
      have hleft := h.left
      rw [hlen] at hleft
      exact attains_next ⟨h.profile, rfl, fun i hi => h.stored i (by simp at hleft; omega)⟩
    · next hlen =>
      refine (writePage_of_range hr h hlen).bind fun t ht => ?_
      rw [if_pos ht.1]
      exact ih (by rw [Nat.succ_mul] at hn; omega) ht.2

end

theorem rangeStatus_of_fits {p : DeviceProfile} {dest len : Word} (h : p.rangeFits dest len = true) :
    rangeStatus p dest len = .ok := by
  simp only [DeviceProfile.rangeFits, Bool.and_eq_true, decide_eq_true_eq] at h
  obtain ⟨⟨⟨hd, hal⟩, hlen⟩, -⟩ := h
  rw [rangeStatus, if_neg (BitVec.not_lt.2 hd), if_neg (not_not_intro hal), if_neg (not_not_intro hlen)]

/-- The loop's bound exceeds the pages of every range of the flash (log 31). -/
theorem le_maxPages {p : DeviceProfile} {n : Nat} (h : n ≤ p.flashMax.toNat + 1) : n ≤ maxPages p * p.pageBytes := by
  unfold maxPages
  rcases pageBytes_cases p with hp | hp <;> rw [hp] <;> omega

/-- Settles O55: before each page the range so far holds its source and the rest is erased, so that every page
converges. -/
theorem writeRangeStoresTheSource : Obligations.WriteRangeStoresTheSource := by
  intro s dest src len hready hg hb hmode hwf hl hw hlocked harmed hfwe hfler hrb hob hfits herased
  have hok := rangeStatus_of_fits hfits
  have hr : RangeAt s.profile dest len := by
    simp only [DeviceProfile.rangeFits, Bool.and_eq_true, decide_eq_true_eq] at hfits
    obtain ⟨⟨⟨-, hal⟩, hlen⟩, hle⟩ := hfits
    exact ⟨wf_of_ready hready, hg, hb, hal, hlen, hle⟩
  have hstart : RangePoint s dest src len 0 ((s.acceptWrite dest src len).withResult (rangeStatus s.profile dest len)) :=
    ⟨⟨rfl, hmode, hwf, hw, bits_of_locked hlocked _⟩, hfwe, hfler, rfl, hrb, hob, hl, (BitVec.add_zero dest).symm,
      (BitVec.add_zero src).symm, rfl, Nat.zero_mod _, nofun, fun i hi _ => herased i hi⟩
  have hrun : Attains (fun t => t.port.status = s.profile.statusEnc.code .ok ∧
      ∀ i < len.toNat, t.env.cells.read (dest.toNat + i) = s.sourceByte (offset src i))
      (exec (.writeRange dest src len) s) := by
    show Attains _ (whenReady s (writeAccepted dest len (s.acceptWrite dest src len)))
    rw [whenReady_of_ready hready, writeAccepted, execValidateRange, andThen_of_next]
    change RangePoint s dest src len 0
      ((s.acceptWrite dest src len).withResult (rangeStatus (s.acceptWrite dest src len).profile dest len)) at hstart
    generalize hx : (s.acceptWrite dest src len).withResult _ = x at hstart ⊢
    have hxok : x.loc.result = .ok := by
      subst hx
      exact hok
    have hxa : ¬ x.armed = false := by
      subst hx
      exact ne_of_eq_of_ne harmed (by decide)
    rw [if_neg (not_not_intro hxok), if_neg hxa, execPageLoop]
    refine (pages_of_range hr ?_ hstart).bind fun t ht => ?_
    · rw [Nat.zero_add, hstart.profile]
      exact le_maxPages (by have := hr.le; omega)
    · obtain ⟨hp, hres, hcells⟩ := ht
      refine attains_next ⟨?_, hcells⟩
      rw [hres, ← hp]
      rfl
  obtain ⟨t, ht, hstatus, hcells⟩ := hrun
  exact ⟨t, ht, hstatus, hcells⟩

end Sys2Proof.Machine
end

section
/-! The fields of the words, the encoder followed by the decoder, and which instructions have a word (30_encoding.md
R91 to R97; log 4). -/

namespace Sys2Proof

/-! ### The fields of a command word (R91) -/

section

variable (op : BitVec 2) (a b c : Word)

@[simp] theorem cmdC_commandWord : cmdC (commandWord op a b c) = c := BitVec.extractLsb'_append_eq_right

@[simp] theorem cmdB_commandWord : cmdB (commandWord op a b c) = b :=
  (BitVec.extractLsb'_append_eq_of_le (xhi := op ++ a ++ b) (by decide)).trans BitVec.extractLsb'_append_eq_right

@[simp] theorem cmdA_commandWord : cmdA (commandWord op a b c) = a :=
  (BitVec.extractLsb'_append_eq_of_le (xhi := op ++ a ++ b) (by decide)).trans
    ((BitVec.extractLsb'_append_eq_of_le (xhi := op ++ a) (by decide)).trans BitVec.extractLsb'_append_eq_right)

@[simp] theorem cmdOp_commandWord : cmdOp (commandWord op a b c) = op :=
  (BitVec.extractLsb'_append_eq_of_le (xhi := op ++ a ++ b) (by decide)).trans
    ((BitVec.extractLsb'_append_eq_of_le (xhi := op ++ a) (by decide)).trans
      ((BitVec.extractLsb'_append_eq_of_le (xhi := op) (by decide)).trans BitVec.extractLsb'_eq_self))

end

/-! ### The fields of a micro-operation word (log 4) -/

section

variable (code : BitVec 4) (x y : Word)

@[simp] theorem microCode_microWord : microCode (microWord code x y) = code := BitVec.extractLsb'_append_eq_right

@[simp] theorem microPad_microWord : microPad (microWord code x y) = 0 :=
  (BitVec.extractLsb'_append_eq_of_le (xhi := y ++ x ++ 0#4) (by decide)).trans BitVec.extractLsb'_append_eq_right

@[simp] theorem microX_microWord : microX (microWord code x y) = x :=
  (BitVec.extractLsb'_append_eq_of_le (xhi := y ++ x ++ 0#4) (by decide)).trans
    ((BitVec.extractLsb'_append_eq_of_le (xhi := y ++ x) (by decide)).trans BitVec.extractLsb'_append_eq_right)

@[simp] theorem microY_microWord : microY (microWord code x y) = y :=
  (BitVec.extractLsb'_append_eq_of_le (xhi := y ++ x ++ 0#4) (by decide)).trans
    ((BitVec.extractLsb'_append_eq_of_le (xhi := y ++ x) (by decide)).trans BitVec.extractLsb'_append_eq_left)

end

/-! ### The encoder, then the decoder -/

@[simp] theorem regOfNumber_number (r : Reg) : regOfNumber r.number = some r := by
  rcases r with (k | k) <;> cases k <;> decide

/-- A byte operand fits operand Y (log 4). -/
theorem byteOperand_lt (v : Byte) : (v.setWidth 32).toNat < 256 := by
  rw [BitVec.toNat_setWidth_of_le (by decide)]
  exact v.isLt

/-- The command decoder reads back the word of a command (R91, R93). -/
theorem decodeCommand_of_encodeCommand {i : Instr} {w : BitVec 98} (h : encodeCommand i = some w) :
    decodeCommand w = i := by
  cases i with
  | init | unprotect | eraseBlock _ | writeRange _ _ _ =>
    obtain rfl := Option.some.inj h
    simp [decodeCommand]
  | _ => cases h

/-- The micro-operation decoder reads back the word of a micro-operation (R96; log 4). -/
theorem decodeMicro_of_encodeMicro {i : Instr} {w : BitVec 72} (h : encodeMicro i = some w) :
    decodeMicro w = .ok i := by
  cases i with
  | regRead _ =>
    obtain rfl := Option.some.inj h
    simp [decodeMicro, decodeRegRead, onlyX]
  | regWrite _ v =>
    obtain rfl := Option.some.inj h
    simp [decodeMicro, decodeRegWrite, byteOperand_lt, -BitVec.toNat_setWidth]
  | flashWrite8 _ v =>
    obtain rfl := Option.some.inj h
    simp [decodeMicro, decodeFlashWrite8, byteOperand_lt, -BitVec.toNat_setWidth]
  | flashWrite32 _ _ =>
    obtain rfl := Option.some.inj h
    simp [decodeMicro]
  | flashRead32 _ | srcRead8 _ | waitOp _ | wdtStart _ =>
    obtain rfl := Option.some.inj h
    simp [decodeMicro, onlyX]
  | wdtStop | irqMask | irqRestore =>
    obtain rfl := Option.some.inj h
    simp [decodeMicro, noOperand]
  | _ => cases h

/-- The word of an instruction stands at the command port or at the micro-operation port (R97; log 4). -/
theorem encode_eq_some {i : Instr} {sp : Space} {w : Nat} (h : encode i = some (sp, w)) :
    (∃ v, encodeCommand i = some v ∧ sp = .command ∧ w = v.toNat) ∨
      ∃ v, encodeMicro i = some v ∧ sp = .micro ∧ w = v.toNat := by
  unfold encode at h
  cases hc : encodeCommand i with
  | some v =>
    rw [hc] at h
    cases h
    exact .inl ⟨v, rfl, rfl, rfl⟩
  | none =>
    rw [hc] at h
    cases hm : encodeMicro i with
    | some v =>
      rw [hm] at h
      cases h
      exact .inr ⟨v, rfl, rfl, rfl⟩
    | none =>
      rw [hm] at h
      cases h

/-- Settles O1: each port's decoder takes the fields of a word apart as its encoder put them together. -/
theorem decodeEncodeRoundTrip : Obligations.DecodeEncodeRoundTrip := by
  intro i sp w h
  rcases encode_eq_some h with ⟨v, hv, rfl, rfl⟩ | ⟨v, hv, rfl, rfl⟩
  · rw [Machine.decode_command_toNat, decodeCommand_of_encodeCommand hv]
  · rw [Machine.decode_micro_toNat, decodeMicro_of_encodeMicro hv]

/-! ### The command decoder, bit by bit (R91, R93) -/

/-- `op` is bits 97 and 96. -/
theorem cmdOp_eq_bits (w : BitVec 98) : cmdOp w = BitVec.ofBool (w.getLsbD 97) ++ BitVec.ofBool (w.getLsbD 96) := by
  refine BitVec.eq_of_getLsbD_eq fun b hb => ?_
  rw [BitVec.getLsbD_append, cmdOp, BitVec.getLsbD_extractLsb']
  interval_cases b <;> simp

theorem getLsbD_cmdA (w : BitVec 98) {b : Nat} (hb : b < 32) : (cmdA w).getLsbD b = w.getLsbD (64 + b) := by
  simp [cmdA, hb]

theorem getLsbD_cmdB (w : BitVec 98) {b : Nat} (hb : b < 32) : (cmdB w).getLsbD b = w.getLsbD (32 + b) := by
  simp [cmdB, hb]

theorem getLsbD_cmdC (w : BitVec 98) {b : Nat} (hb : b < 32) : (cmdC w).getLsbD b = w.getLsbD b := by
  simp [cmdC, hb]

/-- Settles O2: bits 97 and 96 are `op`, and each operand is a field of the word. -/
theorem commandDecoderReadsOpAndFields : Obligations.CommandDecoderReadsOpAndFields := by
  intro w
  have hop := cmdOp_eq_bits w
  refine ⟨fun h1 h0 => ?_, fun h1 h0 => ?_, fun h1 h0 => ⟨cmdA w, ?_, fun b hb => getLsbD_cmdA w hb⟩,
    fun h1 h0 => ⟨cmdA w, cmdB w, cmdC w, ?_, fun b hb =>
      ⟨getLsbD_cmdA w hb, getLsbD_cmdB w hb, getLsbD_cmdC w hb⟩⟩⟩
  all_goals
    rw [h1, h0] at hop
    simp [decodeCommand, hop]

/-! ### Which instructions have a word (R96, R97) -/

theorem isCommand_decodeCommand (w : BitVec 98) : (decodeCommand w).isCommand = true := by
  unfold decodeCommand
  repeat' split
  all_goals rfl

/-- The four commands are encoded at the command port, and no other instruction is (R93, R97). -/
theorem isSome_encodeCommand (i : Instr) : (encodeCommand i).isSome = i.isCommand := by cases i <;> rfl

/-- The eleven micro-operations are encoded at the micro-operation port, and no other instruction is (R96; log 4). -/
theorem isSome_encodeMicro {i : Instr} : (encodeMicro i).isSome = true ↔ ∃ u : MicroOp, i = u.toInstr := by
  constructor
  · intro h
    cases i with
    | regRead r => exact ⟨.regRead r, rfl⟩
    | regWrite r v => exact ⟨.regWrite r v, rfl⟩
    | flashWrite8 a v => exact ⟨.flashWrite8 a v, rfl⟩
    | flashWrite32 a v => exact ⟨.flashWrite32 a v, rfl⟩
    | flashRead32 a => exact ⟨.flashRead32 a, rfl⟩
    | srcRead8 a => exact ⟨.srcRead8 a, rfl⟩
    | waitOp c => exact ⟨.wait c, rfl⟩
    | wdtStop => exact ⟨.wdtStop, rfl⟩
    | wdtStart d => exact ⟨.wdtStart d, rfl⟩
    | irqMask => exact ⟨.irqMask, rfl⟩
    | irqRestore => exact ⟨.irqRestore, rfl⟩
    | _ => cases h
  · rintro ⟨u, rfl⟩
    cases u <;> rfl

theorem isSome_encode (i : Instr) :
    (encode i).isSome = true ↔ (encodeCommand i).isSome = true ∨ (encodeMicro i).isSome = true := by
  unfold encode
  cases encodeCommand i <;> cases encodeMicro i <;> simp

/-- Settles O3: one encoder has a word for the commands, the other for the micro-operations, and the command decoder
answers commands only. -/
theorem onlyCommandsAndMicroOpsAreEncoded : Obligations.OnlyCommandsAndMicroOpsAreEncoded := by
  refine ⟨fun i => by rw [isSome_encode, isSome_encodeCommand, isSome_encodeMicro], fun w i h => ?_⟩
  simp only [decode] at h
  split at h
  · cases h
    exact isCommand_decodeCommand _
  · cases h

/-- Settles O4: each word is one closed run of the decoder. -/
theorem specWordsDecode : Obligations.SpecWordsDecode := by
  unfold Obligations.SpecWordsDecode
  decide

end Sys2Proof
end

section
/-! The command port: what the acceptance of a word leaves and loads, and that nothing is taken from the port while a
command runs (30_encoding.md R90, R92, R94; log 22). -/

namespace Sys2Proof.Machine

/-! ### The end of a stretch takes nothing from the port -/

theorem nextPageOrEnd_cmds {s t : State} (h : nextPageOrEnd s = .next t) : t.port.cmds = s.port.cmds := by
  rcases nextPageOrEnd_eq_next h with ⟨-, rfl⟩ | ⟨-, -, rfl⟩ <;> rfl

/-- `Validate` takes nothing from the port (R90). -/
theorem validate_cmds {s t : State} (h : validateCommand s = .next t) : t.port.cmds = s.port.cmds := by
  unfold validateCommand at h
  cases hop : s.seq.op with
  | init | unprotect =>
    rw [hop] at h
    cases h
    rfl
  | eraseBlock =>
    simp only [hop] at h
    repeat' split at h
    all_goals cases h
    · rfl
    · rfl
    · simp
  | writeRange =>
    simp only [hop] at h
    repeat' split at h
    · cases h
      rfl
    · cases h
      rfl
    · exact (nextPageOrEnd_cmds h).trans rfl

/-- Only the end of `Idle` takes a word from the port (R90). -/
theorem finish_cmds {g : Seg} (hg : g ≠ .idle) {s t : State} (h : g.finish s = .next t) :
    t.port.cmds = s.port.cmds := by
  cases g with
  | idle => exact absurd rfl hg
  | validate => exact validate_cmds h
  | nextPage =>
    simp only [Seg.finish] at h
    split at h
    · exact (nextPageOrEnd_cmds h).trans rfl
    · cases h
      rfl
  | ePre | wPre | wSwe =>
    simp only [Seg.finish] at h
    split at h <;> cases h <;> simp
  | pvWord =>
    simp only [Seg.finish] at h
    repeat' split at h
    all_goals
      cases h
      simp
  | pvExit =>
    simp only [Seg.finish] at h
    split at h <;> cases h <;> rfl
  | _ =>
    cases h
    simp [scanNext, afterAttempt]

/-! ### The step of an idle block -/

theorem step_of_cmdReady {s : State} (hr : s.port.resetPin = false) (hu : s.port.uword = none)
    (h : s.cmdReady = true) : step s = stepIdle s := by
  have hg := seg_idle_of_cmdReady h
  have hact : s.act = none := by rw [State.act, hg]; rfl
  rw [step_of_point hr hu, runPoint, hact, hg]
  rfl

theorem whenReady_eq_next {s t : State} {r : Res} (h : whenReady s r = .next t) : r = .next t := by
  unfold whenReady at h
  split at h
  · cases h
  · split at h
    · exact h
    · cases h

/-- What the acceptance of a command word leaves and loads (R92; log 22). -/
structure Accepted (s : State) (w : BitVec 98) (t : State) : Prop where
  port : t.port = { s.port with rspValid := false }
  st : t.st = .validate
  trace : t.trace = s.trace
  env : t.env = s.env
  regs : t.regs = s.regs
  opr : t.opr =
    if cmdOp w = 2#2 then { s.opr with index := cmdA w }
    else if cmdOp w = 3#2 then { s.opr with dest := cmdA w, src := cmdB w, len := cmdC w }
    else s.opr

theorem accepted (s : State) (w : BitVec 98) : Accepted s w (accept (decodeCommand w) s) := by
  have hcases : ∀ x : BitVec 2, x = 0#2 ∨ x = 1#2 ∨ x = 2#2 ∨ x = 3#2 := by decide
  unfold decodeCommand
  rcases hcases (cmdOp w) with h | h | h | h
  all_goals
    rw [h]
    constructor <;> simp [h, accept, State.st, Seg.st]

/-- Settles O8: a busy block performs an act or ends a stretch other than `Idle`, and an idle one takes the response
back or accepts the first word. -/
theorem commandPortHandshake : Obligations.CommandPortHandshake := by
  intro s t hr hu h
  refine ⟨fun hb => ?_, fun hi hc => ?_, fun hi w l hc => ?_⟩
  · have hg : s.seq.seg ≠ .idle := fun e => by simp [State.cmdReady, State.st, e, Seg.st] at hb
    rcases step_cases hr hu h with ⟨-, hf⟩ | ⟨a, -, -, -, ⟨-, rfl⟩ | ⟨-, hf⟩⟩
    · exact finish_cmds hg hf
    · exact congrArg Port.cmds (act_after_fields a s).2.1
    · exact (finish_cmds hg hf).trans (congrArg Port.cmds (act_after_fields a s).2.1)
  · rw [step_of_cmdReady hr hu hi, stepIdle, hc] at h
    cases h
    rfl
  · rw [step_of_cmdReady hr hu hi, stepIdle, hc] at h
    obtain rfl := Host.Outcome.next.inj (whenReady_eq_next h)
    have ht := accepted (s.withCmds l) w
    exact ⟨by rw [ht.port]; rfl, ht.st, by rw [ht.port], ht.trace, ht.env, ht.regs, ht.opr⟩

end Sys2Proof.Machine
end

section
/-! `write_page` completes whatever the flash answers: every point of it has the watchdog stopped, the control bits of
its stretch and everything the page leaves alone, so that each run of acts fits (R61, R143, R146, R163, R191, R200). -/

namespace Sys2Proof.Machine

/-! ### The interrupt mask and the control bits of a run -/

/-- No micro-operation but `IrqMask` and `IrqRestore` changes the interrupt mask (R118, R119). -/
theorem act_after_irq {b : Act} (s : State) (h : b.code ≠ 0x9 ∧ b.code ≠ 0xA) : (b.after s).irq = s.irq := by
  cases b with
  | irqMask => exact absurd rfl h.1
  | irqRestore => exact absurd rfl h.2
  | write r _ => cases r <;> rfl
  | _ => rfl

theorem afterActs_irq {l : List Act} {s : State} (h : ∀ b ∈ l, b.code ≠ 0x9 ∧ b.code ≠ 0xA) :
    (afterActs l s).irq = s.irq := by
  induction l generalizing s with
  | nil => rfl
  | cons b l ih => rw [afterActs_cons, ih fun c hc => h c (by simp [hc]), act_after_irq s (h b (by simp))]

section

variable {d : Divisor} {k : Bank} {c : List Field} {g f : Field} {setup width hold setupHold : Word} {s : State}

/-- A pulse leaves the control bits as they were (R171, R192). -/
theorem bits_pulse (hl : s.profile.regLayout.wf = true) (h : Bits k c s) (hgf : g ≠ f) (hg : g ∉ c) (hf : f ∉ c) :
    Bits k c (afterActs (pulseActs d k g f setup width hold setupHold) s) := by
  rw [pulseActs, afterActs_append, afterActs_append]
  have hhead := bits_pulseHead (d := d) (setup := setup) (width := width) (g := g) (f := f) hl h
  have hoff := hhead.off (layout_afterActs hl) (by simp [hf, hgf.symm])
  exact bits_pulseTail (layout_afterActs (layout_afterActs hl)) hoff hg

/-- A pulse leaves the block-enable registers as they were (R34, R171, R192). -/
theorem ebr_pulse (hl : s.profile.regLayout.wf = true) (he : g ≠ .e) (hp : g ≠ .p) (j : Bank) :
    (afterActs (pulseActs d k g f setup width hold setupHold) s).ebr j = s.ebr j := by
  rw [pulseActs, afterActs_append, afterActs_append,
    (harmless_pulseTail k he hp _ _ _ (layout_afterActs (layout_afterActs hl))).ebr, ebr_bitOff,
    (harmless_pulseHead d k g f setup width s hl).ebr]

/-- A pulse restores the interrupt mask that it found (R118, R119, R269). -/
theorem irqMask_pulse : (afterActs (pulseActs d k g f setup width hold setupHold) s).irq.mask = s.irq.mask := rfl

/-- A pulse leaves the watchdog stopped (R142). -/
theorem stopped_pulse : (afterActs (pulseActs d k g f setup width hold setupHold) s).wdt.run = false := rfl

end

/-! ### Points of a page write -/

/-- What `write_page` and the page loop leave as they find it, and the watchdog stopped (R145). -/
structure Unmoved (s₀ t : State) : Prop where
  profile : t.profile = s₀.profile
  port : t.port = s₀.port
  seq : t.seq = s₀.seq
  armed : t.armed = s₀.armed
  mask : t.irq.mask = s₀.irq.mask
  ebr : ∀ k, t.ebr k = s₀.ebr k
  stopped : t.wdt.run = false

theorem Unmoved.trans {s t u : State} (h : Unmoved s t) (g : Unmoved t u) : Unmoved s u :=
  ⟨g.profile.trans h.profile, g.port.trans h.port, g.seq.trans h.seq, g.armed.trans h.armed, g.mask.trans h.mask,
    fun k => (g.ebr k).trans (h.ebr k), g.stopped⟩

/-- A point of `write_page(dest, …)` begun at `s₀`, with the control bits `c` in the page's bank alone. -/
structure PagePoint (s₀ : State) (dest : Word) (c : List Field) (t : State) : Prop extends Unmoved s₀ t where
  opr : t.opr = s₀.opr
  bits : Bits (s₀.profile.bankOf dest) c t
  pgDest : t.ctx.pgDest = dest
  bank : t.ctx.bank = s₀.profile.bankOf dest

/-- The statuses a page can end with (R191). -/
def pageStatuses : List Status := [.ok, .deviceError, .programVerifyFatal, .writeMaxRetries]

/-- The end of a page: the device locked, one of the statuses (R191, R200). -/
def PageEnd (s₀ : State) (dest : Word) (t : State) : Prop := PagePoint s₀ dest [] t ∧ t.loc.result ∈ pageStatuses

section

variable {s₀ s : State} {dest : Word} {c : List Field}

/-- A move of the sequencer within a page. -/
theorem PagePoint.move (h : PagePoint s₀ dest c s) {x : PulseContext} {l : Locals} (hd : x.pgDest = s.ctx.pgDest)
    (hb : x.bank = s.ctx.bank) : PagePoint s₀ dest c { s with ctx := x, loc := l } :=
  ⟨⟨h.profile, h.port, h.seq, h.armed, h.mask, h.ebr, h.stopped⟩, h.opr, h.bits, hd.trans h.pgDest, hb.trans h.bank⟩

theorem PagePoint.layout (hwf : s₀.profile.wf = true) (h : PagePoint s₀ dest c s) : s.profile.regLayout.wf = true :=
  layout_of_wf (by rw [h.profile]; exact hwf)

/-- A run of acts that ends with the watchdog stopped, the mask and the block-enable registers as they were. -/
theorem PagePoint.acts (h : PagePoint s₀ dest c s) {l : List Act} {c' : List Field}
    (hw : (afterActs l s).wdt.run = false) (hm : (afterActs l s).irq.mask = s.irq.mask)
    (he : ∀ k, (afterActs l s).ebr k = s.ebr k) (hb : Bits (s₀.profile.bankOf dest) c' (afterActs l s)) :
    PagePoint s₀ dest c' (afterActs l s) := by
  obtain ⟨hp, hq, hs, ho, ha, -⟩ := afterActs_fields l s
  have hx := (afterActs_ctx l s).1
  exact ⟨⟨hp.trans h.profile, hq.trans h.port, hs.trans h.seq, ha.trans h.armed, hm.trans h.mask,
    fun k => (he k).trans (h.ebr k), hw⟩, ho.trans h.opr, hb, by rw [hx]; exact h.pgDest, by rw [hx]; exact h.bank⟩

/-- A run of acts that write no register and touch neither the watchdog nor the mask. -/
theorem PagePoint.quiet (h : PagePoint s₀ dest c s) {l : List Act}
    (hl : ∀ b ∈ l, b.code ∉ [0x1#4, 0x8#4, 0x9#4, 0xA#4]) (hr : ∀ b ∈ l, b.reaches s = true) :
    Attains (PagePoint s₀ dest c) (runActs l s) := by
  simp only [List.mem_cons, List.not_mem_nil, or_false, not_or] at hl
  have hstart : ∀ b ∈ l, ∀ d, b ≠ .wdtStart d := fun b hb d e => (hl b hb).2.1 (by rw [e]; rfl)
  refine attains_runActs (fits_of_stopped h.stopped hstart hr) (h.acts ?_ ?_ ?_ ?_)
  · exact stopped_afterActs h.stopped fun b hb => (hl b hb).2.1
  · rw [afterActs_irq fun b hb => (hl b hb).2.2]
  · exact afterActs_ebr fun b hb => (hl b hb).1
  · exact h.bits.keep fun b hb => (hl b hb).1

/-- `BitSet` and its delay (R112). -/
theorem PagePoint.on (hwf : s₀.profile.wf = true) (h : PagePoint s₀ dest c s) (f : Field) (d : Word) :
    Attains (PagePoint s₀ dest (f :: c)) (runActs (bitOn s.ctx.bank f ++ [.wait d]) s) := by
  have ht := toggled_on (h.layout hwf) h.stopped s.ctx.bank f d
  refine attains_runActs (fits_on_wait h.stopped _ _ _) (h.acts (by rw [ht.wdt, h.stopped]) (by rw [ht.irq]) ht.ebr ?_)
  rw [h.bank, afterActs_append]
  exact (h.bits.on (h.layout hwf) f).keep (by simp [Act.code])

/-- `BitClr` of a bit that is no pulse bit, and its delay (R113). -/
theorem PagePoint.off (hwf : s₀.profile.wf = true) {f : Field} (h : PagePoint s₀ dest (f :: c) s) (hc : f ∉ c)
    (he : f ≠ .e) (hp : f ≠ .p) (d : Word) :
    Attains (PagePoint s₀ dest c) (runActs (bitOff s.ctx.bank f ++ [.wait d]) s) := by
  have ht := toggled_off (h.layout hwf) h.stopped s.ctx.bank he hp d
  refine attains_runActs (fits_off_wait h.stopped _ _ _) (h.acts (by rw [ht.wdt, h.stopped]) (by rw [ht.irq]) ht.ebr ?_)
  rw [h.bank, afterActs_append]
  exact (h.bits.off (h.layout hwf) hc).keep (by simp [Act.code])

/-- A program pulse of a width of the profile (R146, R192). -/
theorem PagePoint.pulse (hpage : PageAt s₀.profile dest) (h : PagePoint s₀ dest [.swe] s) {width : Word}
    (hw : width.toNat ≤
      max (max s₀.profile.delays.pShort.toNat s₀.profile.delays.pLong.toNat) s₀.profile.delays.pAdd.toNat) :
    Attains (PagePoint s₀ dest [.swe]) (execProgramPulse s.ctx.bank width s) := by
  have hl := h.layout hpage.wf
  rw [execProgramPulse, h.profile]
  refine attains_runActs (programPulse_fits hpage.guard h.profile _ hw)
    (h.acts stopped_pulse irqMask_pulse (ebr_pulse (g := .psu) (f := .p) hl (by decide) (by decide)) ?_)
  rw [h.bank]
  exact bits_pulse (g := .psu) (f := .p) hl h.bits (by decide) (by decide) (by decide)

/-! ### The pulses of an attempt (R191 steps 3a, 3b, 3e) -/

/-- A latch pass and its pulse. -/
theorem PagePoint.latchPulse (hpage : PageAt s₀.profile dest) (h : PagePoint s₀ dest [.swe] s) {f : Nat → Act}
    {x : Nat → Byte} (hf : Latches s f x) {width : State → Word} (hw : ∀ t, t.profile = s₀.profile → (width t).toNat ≤
      max (max s₀.profile.delays.pShort.toNat s₀.profile.delays.pLong.toNat) s₀.profile.delays.pAdd.toNat) :
    Attains (PagePoint s₀ dest [.swe]) (andThen (runActs ((List.range s.profile.pageBytes).map f) s) fun t =>
      execProgramPulse t.ctx.bank (width t) t) := by
  refine (h.quiet (fun b hb => ?_) fun b hb => ?_).bind fun t ht => ht.pulse hpage (hw t ht.profile)
  · rw [latches_codes hf hb]
    decide
  · obtain ⟨i, hi, rfl⟩ := List.mem_map.1 hb
    rw [h.profile] at hi
    rw [hf.reaches, h.profile, h.pgDest]
    exact hpage.hasFlashByte (List.mem_range.1 hi)

theorem PagePoint.programAttempt (hpage : PageAt s₀.profile dest) (h : PagePoint s₀ dest [.swe] s) :
    Attains (PagePoint s₀ dest [.swe]) (programAttempt s) :=
  h.latchPulse hpage (latches_rbuf s) (width := fun t => t.profile.pulseWidth t.ctx.n) fun t ht => by
    rw [ht]
    exact pulseWidth_le _ _

theorem PagePoint.overwriteAttempt (hpage : PageAt s₀.profile dest) (h : PagePoint s₀ dest [.swe] s) :
    Attains (PagePoint s₀ dest [.swe]) (overwriteAttempt s) := by
  unfold Machine.overwriteAttempt
  split
  · exact h.latchPulse hpage (latches_obuf s) (width := fun t => t.profile.delays.pAdd) fun t ht => by rw [ht]; omega
  · exact attains_next h

/-! ### The verify pass (R191 step 3c) -/

/-- A verify word of the page is a flash word (R61, R163). -/
theorem PageAt.wordReachable {p : DeviceProfile} (hpage : PageAt p dest) {j : Nat} (hj : j < p.pageWords) :
    p.wordReachable (offset dest (4 * j)) = true := by
  have hwords := pageBytes_eq_words p
  have hlast := hpage.last
  have hal := mod_four_of_aligned hpage.aligned
  simp only [DeviceProfile.wordReachable, DeviceProfile.hasFlashWord, hpage.offset_toNat (i := 4 * j) (by omega),
    Bool.and_eq_true, decide_eq_true_eq]
  omega

theorem PagePoint.judgeWord (h : PagePoint s₀ dest c s) (j : Nat) (n : Word) :
    PagePoint s₀ dest c (s.judgeWord j n) := by
  unfold State.judgeWord
  split <;> exact h.move rfl rfl

theorem PagePoint.verifyWord (hpage : PageAt s₀.profile dest) (h : PagePoint s₀ dest c s) {j : Nat}
    (hj : j < s₀.profile.pageWords) (k : Bank) (n : Word) :
    Attains (PagePoint s₀ dest c) (execVerifyWord k j n s) := by
  have hstart : PagePoint s₀ dest c (s.startWord j) := h.move rfl rfl
  have hreach : s.profile.wordReachable (offset s.ctx.pgDest (4 * j)) = true := by
    rw [h.profile, h.pgDest]
    exact hpage.wordReachable hj
  rw [execVerifyWord, if_neg (by rw [h.profile]; exact Nat.not_le.2 hj)]
  refine (hstart.quiet (by simp [pvWordActs, srcWordActs, Act.code]) ?_).bind fun t ht =>
    attains_next (ht.judgeWord j n)
  simpa [pvWordActs, srcWordActs, Act.reaches] using hreach

theorem PagePoint.verifyWords (hpage : PageAt s₀.profile dest) {left j : Nat} (hj : j + left = s₀.profile.pageWords)
    (h : PagePoint s₀ dest c s) : Attains (PagePoint s₀ dest c) (verifyWords left j s) := by
  induction left generalizing j s with
  | zero => exact attains_next h
  | succ left ih =>
    refine (h.verifyWord hpage (by omega) _ _).bind fun t ht => ?_
    split
    · exact attains_next ht
    · exact ih (by omega) ht

theorem PagePoint.verifyAttempt (hpage : PageAt s₀.profile dest) (h : PagePoint s₀ dest [.swe] s) :
    Attains (PagePoint s₀ dest [.pv, .swe]) (verifyAttempt s) :=
  (h.on hpage.wf .pv _).bind fun t ht => by
    rw [ht.profile]
    exact ht.verifyWords hpage (Nat.zero_add _)

/-! ### The exits (R191 step 3f, 4; R200) -/

theorem PagePoint.lockPage (hwf : s₀.profile.wf = true) (h : PagePoint s₀ dest [.swe] s) {r : Status}
    (hr : r ∈ pageStatuses) : Attains (PageEnd s₀ dest) (lockPage r s) :=
  (h.off hwf (by decide) (by decide) (by decide) _).bind fun _ ht => attains_next ⟨ht.move rfl rfl, hr⟩

theorem PagePoint.pvExit (hwf : s₀.profile.wf = true) (h : PagePoint s₀ dest [.pv, .swe] s) :
    Attains (PagePoint s₀ dest [.swe]) (runActs (pvExitActs s.profile s.ctx.bank) s) :=
  h.off hwf (by decide) (by decide) (by decide) _

/-- The attempts that are left end the page, whatever the flash answers. -/
theorem PagePoint.writeAttempts (hpage : PageAt s₀.profile dest) (h : PagePoint s₀ dest [.swe] s) (left : Nat) :
    Attains (PageEnd s₀ dest) (writeAttempts left s) := by
  induction left generalizing s with
  | zero => exact h.lockPage hpage.wf (by decide)
  | succ left ih =>
    have hclear : PagePoint s₀ dest [.swe] s.clearMismatch := h.move rfl rfl
    refine (hclear.programAttempt hpage).bind fun t ht => (ht.verifyAttempt hpage).bind fun u hu => ?_
    split
    · exact (hu.pvExit hpage.wf).bind fun v hv => hv.lockPage hpage.wf (by decide)
    · have hfinish : Attains (PagePoint s₀ dest [.swe]) (finishAttempt u) :=
        (hu.pvExit hpage.wf).bind fun v hv => hv.overwriteAttempt hpage
      refine hfinish.bind fun v hv => ?_
      split
      · split
        · exact ih hv
        · exact ih (hv.move rfl rfl)
      · exact hv.lockPage hpage.wf (by decide)

theorem PagePoint.firstAttempt (h : PagePoint s₀ dest c s) (budget : Word) :
    PagePoint s₀ dest c (s.firstAttempt budget) := by
  unfold State.firstAttempt
  split
  · exact h
  · exact h.move rfl rfl

theorem PagePoint.writeUnlocked (hpage : PageAt s₀.profile dest) (h : PagePoint s₀ dest [] s) :
    Attains (PageEnd s₀ dest) (writeUnlocked s) := by
  have hcopy : Attains (PagePoint s₀ dest []) (runActs (copyActs s.profile) s) :=
    h.quiet (by simp [copyActs, Act.code]) (by simp [copyActs, Act.reaches])
  refine hcopy.bind fun t ht => (ht.on hpage.wf .swe _).bind fun u hu => ?_
  exact (hu.firstAttempt _).writeAttempts hpage _

end

/-- `write_page` of an aligned page of the flash ends with one of its statuses, the device locked again (R191, R200). -/
theorem writePage_attains {s : State} {dest : Word} (hpage : PageAt s.profile dest) (hw : s.wdt.run = false)
    (hb : ∀ k, Bits k [] s) (src : Word) : Attains (PageEnd s dest) (execWritePage dest src s) := by
  have henter : PagePoint s dest [] (s.enterPage dest src) :=
    ⟨⟨rfl, rfl, rfl, rfl, rfl, fun _ => rfl, hw⟩, rfl, hb _, rfl, rfl⟩
  have hprecond : Attains (PagePoint s dest []) (execPrecond (s.enterPage dest src)) :=
    (henter.quiet (by simp [precondActs, Act.code]) (by simp [precondActs, Act.reaches])).bind fun t ht =>
      attains_next (ht.move rfl rfl)
  rw [execWritePage, if_neg (BitVec.not_lt.2 hpage.le)]
  refine hprecond.bind fun t ht => ?_
  split
  · exact ht.writeUnlocked hpage
  · exact attains_next ⟨ht.move rfl rfl, (by decide : Status.deviceError ∈ pageStatuses)⟩

end Sys2Proof.Machine
end

section
/-! The page loop: its recursion, whose bound it never meets, and its completion on a range of the flash (R100, R162,
R164; log 31). -/

namespace Sys2Proof.Machine

/-! ### What a page leaves of the profile and the operands -/

/-- A memory lists no address from some bound on. -/
theorem exists_find_eq_none (m : Memory) : ∃ n, ∀ a, n ≤ a → m.find a = none := by
  induction m with
  | nil => exact ⟨0, fun _ _ => rfl⟩
  | cons c m ih =>
    obtain ⟨n, hn⟩ := ih
    refine ⟨max n (c.1 + 1), fun a ha => ?_⟩
    rw [Memory.find, if_neg (by omega)]
    exact hn a (by omega)

/-- `write_page` keeps the profile and the operand registers, and is refused above the flash (R164, R191): what it keeps
is seen from an address beyond its page that is not latched. -/
theorem writePage_keeps {s t : State} {dest src : Word} (hwf : s.profile.wf = true)
    (h : execWritePage dest src s = .next t) :
    dest ≤ s.profile.flashMax ∧ t.profile = s.profile ∧ t.opr = s.opr := by
  obtain ⟨n, hn⟩ := exists_find_eq_none s.env.latch
  have hout := writePage_flash src hwf (hn (max n (dest.toNat + s.profile.pageBytes)) (Nat.le_max_left _ _))
    (.inr (Nat.le_max_right _ _)) t h
  refine ⟨BitVec.not_lt.1 fun hd => ?_, hout.profile, hout.opr⟩
  rw [execWritePage, if_pos hd] at h
  cases h

/-! ### The recursion of the loop (R162) -/

/-- A page of the flash is followed by the page after it: stepping does not wrap (R164). -/
theorem stepPage_dest {s t : State} (hwf : s.profile.wf = true) (hd : s.opr.dest ≤ s.profile.flashMax)
    (hp : t.profile = s.profile) (ho : t.opr = s.opr) :
    t.stepPage.opr.dest.toNat = s.opr.dest.toNat + s.profile.pageBytes := by
  have hmax := flashMax_add_page hwf
  rw [BitVec.le_def] at hd
  show (t.opr.dest + t.profile.pageWord).toNat = _
  rw [ho, hp, BitVec.toNat_add_of_lt (by rw [pageWord_toNat]; omega), pageWord_toNat]

/-- Two bounds that both exceed the pages up to the end of the flash give the same loop (log 31). -/
theorem pages_congr {n m : Nat} {s : State} (hwf : s.profile.wf = true)
    (hn : s.profile.flashMax.toNat < s.opr.dest.toNat + n * s.profile.pageBytes)
    (hm : s.profile.flashMax.toNat < s.opr.dest.toNat + m * s.profile.pageBytes) :
    pages (n + 1) s = pages (m + 1) s := by
  induction n generalizing m s with
  | zero =>
    have hd : s.profile.flashMax < s.opr.dest := by rw [BitVec.lt_def]; omega
    simp only [pages, execWritePage, if_pos hd, andThen_of_refused]
  | succ n ih =>
    simp only [pages]
    split
    · rfl
    refine andThen_congr fun t ht => ?_
    obtain ⟨hd, hp, ho⟩ := writePage_keeps hwf ht
    obtain ⟨m, rfl⟩ : ∃ k, m = k + 1 := Nat.exists_eq_succ_of_ne_zero fun e => by
      rw [BitVec.le_def] at hd
      rw [e] at hm
      omega
    have hstep : t.stepPage.profile = s.profile := hp
    split
    · refine ih (m := m) (by rw [hstep]; exact hwf) ?_ ?_ <;> rw [hstep, stepPage_dest hwf hd hp ho]
      · rw [Nat.succ_mul] at hn
        omega
      · rw [Nat.succ_mul] at hm
        omega
    · rfl

/-- The bound of `exec` exceeds the pages of the flash. -/
theorem flashMax_lt_pages (p : DeviceProfile) :
    p.flashMax.toNat < (p.flashMax.toNat / p.pageBytes + 1) * p.pageBytes := by
  rw [Nat.mul_comm]
  exact Nat.lt_mul_div_succ _ (by rcases pageBytes_cases p with hp | hp <;> omega)

theorem pages_eq_execPageLoop {n : Nat} {s : State} (hwf : s.profile.wf = true)
    (hn : s.profile.flashMax.toNat < s.opr.dest.toNat + n * s.profile.pageBytes) :
    pages (n + 1) s = execPageLoop s :=
  pages_congr hwf hn (Nat.lt_of_lt_of_le (flashMax_lt_pages s.profile) (Nat.le_add_left _ _))

theorem pageLoop_of_empty {s : State} (h : s.opr.len = 0) : execPageLoop s = .next (s.withResult .ok) := by
  rw [execPageLoop, maxPages, pages, if_pos h]

/-- A page, and the loop again from the page after it (R162). -/
theorem pageLoop_of_page {s : State} (hwf : s.profile.wf = true) (h : s.opr.len ≠ 0) : execPageLoop s =
    andThen (execWritePage s.opr.dest s.opr.src s) fun t =>
      if t.loc.result = .ok then execPageLoop t.stepPage else .next t := by
  rw [execPageLoop, maxPages, pages, if_neg h]
  refine andThen_congr fun t ht => ?_
  obtain ⟨hd, hp, ho⟩ := writePage_keeps hwf ht
  have hstep : t.stepPage.profile = s.profile := hp
  congr 1
  refine pages_eq_execPageLoop (by rw [hstep]; exact hwf) ?_
  have hmax := flashMax_lt_pages s.profile
  rw [hstep, stepPage_dest hwf hd hp ho]
  rw [Nat.succ_mul] at hmax
  omega

/-! ### The loop on a range of the flash (R100) -/

/-- The operand registers after `m` bytes of a range. -/
def Operands.stepped (o : Operands) (m : Nat) : Operands :=
  { o with dest := offset o.dest m, src := offset o.src m, len := o.len - BitVec.ofNat 32 m }

/-- The loop with `i` pages of its range behind it: the device locked, the operand registers moved by `i` pages. -/
structure LoopPoint (s₀ : State) (i : Nat) (t : State) : Prop extends Unmoved s₀ t where
  opr : t.opr = s₀.opr.stepped (i * s₀.profile.pageBytes)
  locked : ∀ k, Bits k [] t
  le : i * s₀.profile.pageBytes ≤ s₀.opr.len.toNat

/-- The end of the loop: with `ok` it has stepped over the whole range, otherwise it stands at the page that failed. -/
def LoopEnd (s₀ : State) (i : Nat) (t : State) : Prop :=
  LoopPoint s₀ i t ∧
    if t.loc.result = .ok then i * s₀.profile.pageBytes = s₀.opr.len.toNat
    else i * s₀.profile.pageBytes < s₀.opr.len.toNat ∧
      t.loc.result ∈ [Status.deviceError, .programVerifyFatal, .writeMaxRetries]

/-- With no control bit set, the bank does not matter. -/
theorem Bits.bank_of_locked {k : Bank} {s : State} (h : Bits k [] s) (j : Bank) : Bits j [] s :=
  fun i f => by rw [h]; simp

theorem locked_of_bits {s : State} {k : Bank} (h : Bits k [] s) : s.locked = true := by
  simp only [State.locked, List.all_eq_true]
  intro j _ f _
  rw [h j f]
  simp

theorem toNat_len_stepped {o : Operands} {m : Nat} (h : m ≤ o.len.toNat) :
    (o.stepped m).len.toNat = o.len.toNat - m := by
  have hm : (BitVec.ofNat 32 m).toNat = m := Nat.mod_eq_of_lt (Nat.lt_of_le_of_lt h o.len.isLt)
  show (o.len - BitVec.ofNat 32 m).toNat = _
  rw [BitVec.toNat_sub_of_le (by rw [BitVec.le_def, hm]; exact h), hm]

/-- One page further. -/
theorem stepped_stepped (o : Operands) (m n : Nat) : (o.stepped m).stepped n = o.stepped (m + n) := by
  simp only [Operands.stepped, offset_offset, BitVec.ofNat_add, BitVec.sub_sub]

/-- A range of whole pages of the flash (R161, R164). -/
theorem rangeFits_iff {p : DeviceProfile} {dest len : Word} : p.rangeFits dest len = true ↔ dest ≤ p.flashMax ∧
    dest.toNat % p.pageBytes = 0 ∧ len.toNat % p.pageBytes = 0 ∧ dest.toNat + len.toNat ≤ p.flashMax.toNat + 1 := by
  simp only [DeviceProfile.rangeFits, Bool.and_eq_true, decide_eq_true_eq, and_assoc]

section

variable {s₀ s : State} {i : Nat}

/-- With the whole range behind it the loop answers `ok` (R162). -/
theorem LoopPoint.done (h : LoopPoint s₀ i s) (he : i * s₀.profile.pageBytes = s₀.opr.len.toNat) :
    LoopEnd s₀ i (s.withResult .ok) :=
  ⟨⟨⟨h.profile, h.port, h.seq, h.armed, h.mask, h.ebr, h.stopped⟩, h.opr, h.locked, h.le⟩, (if_pos rfl).mpr he⟩

/-- `len` is 0 exactly when the whole range is done. -/
theorem LoopPoint.len_eq_zero_iff (h : LoopPoint s₀ i s) :
    s.opr.len = 0 ↔ i * s₀.profile.pageBytes = s₀.opr.len.toNat := by
  have hlen := toNat_len_stepped h.le
  have hle := h.le
  rw [h.opr, ← BitVec.toNat_inj, hlen]
  simp only [BitVec.ofNat_eq_ofNat, BitVec.toNat_zero]
  omega

/-- What is left of the range is a page at least, or nothing. -/
theorem LoopPoint.page_le (hfits : s₀.profile.rangeFits s₀.opr.dest s₀.opr.len = true) (h : LoopPoint s₀ i s)
    (hlen : s.opr.len ≠ 0) : (i + 1) * s₀.profile.pageBytes ≤ s₀.opr.len.toNat := by
  obtain ⟨-, -, hwhole, -⟩ := rangeFits_iff.1 hfits
  have hlt := Nat.lt_of_le_of_ne h.le (mt h.len_eq_zero_iff.2 hlen)
  obtain ⟨m, hm⟩ := Nat.dvd_of_mod_eq_zero hwhole
  rw [hm, Nat.mul_comm _ m] at hlt ⊢
  exact Nat.mul_le_mul_right _ (Nat.lt_of_mul_lt_mul_right hlt)

/-- The page the loop stands at is a page of the flash (R162, R164). -/
theorem LoopPoint.pageAt (hwf : s₀.profile.wf = true) (hg : s₀.profile.guardWf = true)
    (hfits : s₀.profile.rangeFits s₀.opr.dest s₀.opr.len = true) (h : LoopPoint s₀ i s) (hlen : s.opr.len ≠ 0) :
    PageAt s.profile s.opr.dest := by
  obtain ⟨-, hal, -, hend⟩ := rangeFits_iff.1 hfits
  have hpage := h.page_le hfits hlen
  have hmax := s₀.profile.flashMax.isLt
  have hpos := pageBytes_cases s₀.profile
  rw [Nat.succ_mul] at hpage
  have hd : s.opr.dest.toNat = s₀.opr.dest.toNat + i * s₀.profile.pageBytes := by
    rw [h.opr]
    exact offset_toNat (by omega)
  rw [h.profile]
  refine ⟨hwf, hg, by rw [BitVec.le_def]; omega, ?_⟩
  rw [hd, Nat.add_mul_mod_self_right, hal]

/-- After a page that answered `ok` the loop has one page more behind it (R162). -/
theorem LoopPoint.step (h : LoopPoint s₀ i s) {t : State} (ht : PagePoint s s.opr.dest [] t)
    (hle : (i + 1) * s₀.profile.pageBytes ≤ s₀.opr.len.toNat) : LoopPoint s₀ (i + 1) t.stepPage := by
  obtain ⟨hp, hq, hs, ha, hm, he, hw⟩ := h.toUnmoved.trans ht.toUnmoved
  have hopr : t.stepPage.opr = t.opr.stepped t.profile.pageBytes := rfl
  refine ⟨⟨hp, hq, hs, ha, hm, he, hw⟩, ?_, ht.bits.bank_of_locked, hle⟩
  rw [hopr, ht.opr, h.opr, hp, stepped_stepped, Nat.succ_mul]

/-- After a page that failed the loop stands at it (R162). -/
theorem LoopPoint.stay (h : LoopPoint s₀ i s) {t : State} (ht : PagePoint s s.opr.dest [] t) : LoopPoint s₀ i t :=
  ⟨h.toUnmoved.trans ht.toUnmoved, ht.opr.trans h.opr, ht.bits.bank_of_locked, h.le⟩

/-- The loop ends on every range of the flash (R100, R162). -/
theorem pages_attains (hwf : s₀.profile.wf = true) (hg : s₀.profile.guardWf = true)
    (hfits : s₀.profile.rangeFits s₀.opr.dest s₀.opr.len = true) {n : Nat}
    (hn : s₀.opr.len.toNat ≤ (i + n) * s₀.profile.pageBytes) (h : LoopPoint s₀ i s) :
    Attains (fun t => ∃ i, LoopEnd s₀ i t) (pages n s) := by
  induction n generalizing i s with
  | zero => exact attains_next ⟨i, h.done (Nat.le_antisymm h.le hn)⟩
  | succ n ih =>
    rw [pages]
    split
    · next hlen => exact attains_next ⟨i, h.done (h.len_eq_zero_iff.1 hlen)⟩
    next hlen =>
    have hle := h.page_le hfits hlen
    refine (writePage_attains (h.pageAt hwf hg hfits hlen) h.stopped h.locked s.opr.src).bind fun t ht => ?_
    obtain ⟨hpoint, hstatus⟩ := ht
    split
    · exact ih (by rw [Nat.add_right_comm]; exact hn) (h.step hpoint hle)
    · next hfail =>
      refine attains_next ⟨i, h.stay hpoint, ?_⟩
      rw [if_neg hfail]
      refine ⟨by rw [Nat.succ_mul] at hle; have := pageBytes_cases s₀.profile; omega, ?_⟩
      simpa [pageStatuses, hfail] using hstatus

end

/-- Settles O47: the loop's bound exceeds the pages of the flash, so that it recurs page by page; and every page of a
range of the flash ends, at a point of the loop. -/
theorem pageLoopCompletes : Obligations.PageLoopCompletes := by
  refine ⟨fun s hwf => ⟨fun hlen => pageLoop_of_empty hlen, fun hlen => ?_⟩, fun s hwf hg hw hlocked hfits => ?_⟩
  · refine (pageLoop_of_page hwf hlen).trans (andThen_congr fun t ht => ?_)
    obtain ⟨-, hp, -⟩ := writePage_keeps hwf ht
    rw [State.stepPage, DeviceProfile.pageWord, hp]
    rfl
  · have hstart : LoopPoint s 0 s := by
      refine ⟨⟨rfl, rfl, rfl, rfl, rfl, fun _ => rfl, hw⟩, ?_, bits_of_locked hlocked, by simp⟩
      simp [Operands.stepped, offset]
    have hbound : s.opr.len.toNat ≤ (0 + maxPages s.profile) * s.profile.pageBytes := by
      obtain ⟨-, -, -, hend⟩ := rangeFits_iff.1 hfits
      rw [Nat.zero_add]
      exact le_maxPages (by omega)
    obtain ⟨t, ht, i, hpoint, hresult⟩ := pages_attains hwf hg hfits hbound hstart
    have hopr := hpoint.opr
    refine ⟨t, ht, locked_of_bits (hpoint.locked .b0), hpoint.stopped, hpoint.mask, hpoint.armed, hpoint.port,
      hpoint.seq, hpoint.ebr, by rw [hopr]; rfl, i, by rw [hopr]; rfl, by rw [hopr]; rfl, by rw [hopr]; rfl, ?_⟩
    split at hresult
    · next hok => exact if_pos hok ▸ ⟨hresult, hpoint.len_eq_zero_iff.2 hresult⟩
    · next hfail => exact if_neg hfail ▸ hresult

end Sys2Proof.Machine
end

section
/-! What the register accesses, the source reads, the guard's halves, the mask operations and `Precond` come to (R110 to
R112, R117 to R123, R140, R141). -/

namespace Sys2Proof.Machine

/-! ### Register reads and writes -/

theorem getLsbD_statusMask_of_lt (l : RegLayout) {b : Nat} (hb : b < 8) :
    l.statusMask.getLsbD b = decide (b = l.status.val) :=
  (getLsbD_one_shiftLeft l.status ⟨b, hb⟩).trans (decide_eq_decide.2 Fin.ext_iff)

/-- A byte without its status bit keeps every other bit. -/
theorem getLsbD_and_not_statusMask_of_lt (l : RegLayout) (v : Byte) {b : Nat} (hb : b < 8) :
    (v &&& ~~~l.statusMask).getLsbD b = (v.getLsbD b && decide (b ≠ l.status.val)) := by
  rw [BitVec.getLsbD_and, getLsbD_not _ ⟨b, hb⟩, getLsbD_statusMask_of_lt l hb, decide_not]

/-- A read of `FCR[k]` shows the status input in the status bit, and the stored bits elsewhere (R110). -/
theorem getLsbD_content_of_lt (s : State) (k : Bank) {b : Nat} (hb : b < 8) :
    (s.content (.fcr k)).getLsbD b =
      if b = s.profile.regLayout.status.val then s.statusInput k else (s.fcr k).getLsbD b := by
  split
  · next h => rw [h, getLsbD_content_status]
  · next h =>
    have hinput : (if s.statusInput k then s.profile.regLayout.statusMask else 0).getLsbD b = false := by
      split
      · rw [getLsbD_statusMask_of_lt _ hb, decide_eq_false h]
      · exact BitVec.getLsbD_zero
    rw [State.content, BitVec.getLsbD_or, hinput, getLsbD_and_not_statusMask_of_lt _ _ hb, decide_eq_true h,
      Bool.and_true, Bool.or_false]

/-- A register read moves nothing of the environment but the scripts of the status inputs (R110). -/
theorem afterRead_eq (e : Env) (r : Reg) :
    e.afterRead r = { e with fwe := (e.afterRead r).fwe, fler := (e.afterRead r).fler } := by
  rcases r with (k | k) <;> cases k <;> rfl

/-- Everything that a register read changes (R110). -/
theorem regRead_eq (s : State) (r : Reg) : s.regRead r = { s with
    loc := { s.loc with rd := s.content r, rdPrev := s.loc.rd }
    env := { s.env with fwe := (s.regRead r).env.fwe, fler := (s.regRead r).env.fler }
    trace := s.trace ++ [.rr r (s.content r)]
    moment := s.moment + 1 } := by
  have henv : (s.regRead r).env = { s.env with
      fwe := (s.regRead r).env.fwe, fler := (s.regRead r).env.fler } := afterRead_eq s.env r
  rw [← henv]
  rfl

/-- Everything that a register write changes: of the flash, what the end of a pulse does (R81, R111). -/
theorem regWrite_eq (s : State) (r : Reg) (v : Byte) : s.regWrite r v = { s with
    regs := (s.regWrite r v).regs
    env := { s.env with
      cells := (s.regWrite r v).env.cells
      latch := (s.regWrite r v).env.latch
      view := { s.env.view with pulsed := (s.regWrite r v).env.view.pulsed } }
    trace := s.trace ++ [.rw r v]
    moment := s.moment + 1 } := by
  cases r <;> rfl

/-- Settles O28: the value is the content of the register, and its status bit is the input's level. -/
theorem regReadResult : Obligations.RegReadResult := by
  intro s r hc
  refine ⟨s.regRead r, s.content r, micro_of_calm (u := .regRead r) rfl hc, regRead_eq s r, fun k hr => ?_,
    fun k hr b hb => ?_⟩
  · subst hr
    exact ⟨rfl, rfl⟩
  · subst hr
    exact getLsbD_content_of_lt s k hb

/-- Settles O29: each bank's register is written alone, and a write that ends no pulse leaves the flash. -/
theorem regWriteResult : Obligations.RegWriteResult := by
  intro s r v hc
  have hcalm : (s.regWrite r v).calm = true := by cases r <;> exact hc
  refine ⟨s.regWrite r v, micro_of_calm (u := .regWrite r v) rfl hcalm, regWrite_eq s r v, fun k hr => ?_,
    fun k hr => ?_⟩
  · subst hr
    exact ⟨by simp, by simp [other_ne], fun j => fcr_regWrite_ebr s k j v, rfl⟩
  · subst hr
    refine ⟨by simp [other_ne], fun j => ebr_regWrite_fcr s k j v, fun b hb => ?_, envAfterFcr_of_no_fall⟩
    rw [fcr_regWrite_fcr, if_pos rfl, getLsbD_and_not_statusMask_of_lt _ _ hb]

/-! ### `BitSet` -/

/-- Everything that `BitSet` changes (R112). -/
theorem bitOn_eq {s : State} (hl : s.profile.regLayout.wf = true) (k : Bank) (f : Field) :
    afterActs (bitOn k f) s = { s with
      regs := (afterActs (bitOn k f) s).regs
      loc := { s.loc with rdPrev := s.loc.rd, rd := s.content (.fcr k) }
      env := { s.env with
        fwe := (afterActs (bitOn k f) s).env.fwe, fler := (afterActs (bitOn k f) s).env.fler }
      trace := s.trace ++ [.rr (.fcr k) (s.content (.fcr k)),
        .rw (.fcr k) (s.content (.fcr k) ||| s.profile.regLayout.mask f)]
      moment := s.moment + 2 } := by
  have henv : (afterActs (bitOn k f) s).env = { s.env with
      fwe := (afterActs (bitOn k f) s).env.fwe, fler := (afterActs (bitOn k f) s).env.fler } := by
    rw [bitOn_env hl]
    exact afterRead_eq s.env (.fcr k)
  have htrace : (afterActs (bitOn k f) s).trace = s.trace ++ [.rr (.fcr k) (s.content (.fcr k)),
      .rw (.fcr k) (s.content (.fcr k) ||| s.profile.regLayout.mask f)] := by simp [afterActs_bitOn]
  rw [← henv, ← htrace]
  rfl

/-- Settles O31: `BitSet` is a read and a write, whose write makes no bit fall. -/
theorem bitSetResult : Obligations.BitSetResult := fun s k f hc hl =>
  ⟨afterActs (bitOn k f) s, runActs_of_calm hc (by simp [bitOn, Act.watchdog]) (by simp [bitOn, Act.reaches]),
    bitOn_eq hl k f, bit_bitOn hl k f, fcr_bitOn_other s (other_ne k) f, ebr_bitOn s k f⟩

/-! ### Source reads -/

/-- Settles O35: `SrcWord` is the state `readSource`, its offsets taken from the address. -/
theorem sourceReadResults : Obligations.SourceReadResults := by
  intro s a hc
  refine ⟨micro_of_calm (u := .srcRead8 a) rfl hc, ?_⟩
  have hrun : exec (.srcWord a) s = .next (afterActs (srcWordActs a) s) :=
    runActs_of_calm hc (by simp [srcWordActs, Act.watchdog]) (by simp [srcWordActs, Act.reaches])
  rw [hrun, afterActs_srcWord]
  rfl

/-! ### The watchdog -/

/-- A watchdog just started is calm where its interval is longer than the overhead (R121, R143). -/
theorem calm_of_started {p : DeviceProfile} {d : Divisor} (h : p.guardOverheadMax < p.wdtInterval d) :
    ({ run := true, div := d, rste := true, cnt := 0 } : Watchdog).calm p = true := by
  simp [Watchdog.calm, h]

/-- Settles O37: a stopped watchdog is calm, and so is one just started. -/
theorem watchdogResults : Obligations.WatchdogResults := by
  intro s
  have hstop : ∀ {w : Watchdog}, Watchdog.calm s.profile { w with run := false } = true := calm_of_stopped rfl
  refine ⟨⟨s.wdtStop, micro_of_calm (u := .wdtStop) rfl hstop, ?_, rfl⟩, fun d hd => ⟨?_, ?_⟩⟩
  · refine runActs_of_fits ?_
    simp [State.fits, releaseActs, calmRun, Act.watchdog, Act.reaches, hstop]
  · exact micro_of_calm (u := .wdtStart d) rfl (calm_of_started hd)
  · have hfit : s.fits (acquireActs d) = true := by
      simp [State.fits, acquireActs, calmRun, Act.watchdog, Act.reaches, hstop, calm_of_started hd]
    have htrace : (s.wdtStop.wdtStart d).trace = s.trace ++ [.wdtStop, .wdtStart d] := by simp
    rw [← htrace]
    exact runActs_of_fits hfit

/-! ### The interrupt mask -/

/-- Settles O38: each is one micro-operation, which leaves the watchdog alone. -/
theorem interruptMaskResults : Obligations.InterruptMaskResults := fun _ hc =>
  ⟨micro_of_calm (u := .irqMask) rfl hc, micro_of_calm (u := .irqRestore) rfl hc⟩

/-! ### `Precond` -/

/-- Settles O39: the verdict is judged on the status bits of the two reads, each its input's level. -/
theorem precondResult : Obligations.PrecondResult := by
  intro s hc
  have hrun : exec .precond s = .next (afterActs precondActs s).judgePrecond := by
    have hacts : runActs precondActs s = .next (afterActs precondActs s) :=
      runActs_of_calm hc (by simp [precondActs, Act.watchdog]) (by simp [precondActs, Act.reaches])
    exact congrArg (andThen · fun t => .next t.judgePrecond) hacts
  have hreads : afterActs precondActs s = (s.regRead (.fcr .b0)).regRead (.fcr .b1) := rfl
  have htrace : (afterActs precondActs s).trace =
      s.trace ++ [.rr (.fcr .b0) (s.content (.fcr .b0)),
        .rr (.fcr .b1) ((s.regRead (.fcr .b0)).content (.fcr .b1))] := by simp [hreads]
  refine ⟨_, s.content (.fcr .b0), (s.regRead (.fcr .b0)).content (.fcr .b1), hrun, ?_, getLsbD_content_status s .b0,
    getLsbD_content_status (s.regRead (.fcr .b0)) .b1⟩
  rw [← htrace]
  rfl

end Sys2Proof.Machine
end

section
/-! The calibrated delay and the watchdog: the count of a delay, what a `Wait` leaves, and where the watchdog strikes
(R130 to R133, R143, R240, R275). -/

namespace Sys2Proof.Machine

/-! ### The count of a delay (R133) -/

/-- The count is the library's ceiling quotient. -/
theorem delayCount_eq_ceilDiv {p : DeviceProfile} (h : 0 < p.cycPerUsDen * p.cycPerIter) (t : Nat) :
    p.delayCount t = t * p.cycPerUsNum ⌈/⌉ (p.cycPerUsDen * p.cycPerIter) := by
  rw [Nat.ceilDiv_eq_add_pred_div, Nat.add_sub_assoc h, DeviceProfile.delayCount]

/-- A count lasts `t` microseconds exactly when it is at least the count of `t`. -/
theorem delayCount_le_iff {p : DeviceProfile} (h : 0 < p.cycPerUsDen * p.cycPerIter) {t c : Nat} :
    p.delayCount t ≤ c ↔ t * p.cycPerUsNum ≤ c * (p.cycPerUsDen * p.cycPerIter) := by
  rw [delayCount_eq_ceilDiv h, ceilDiv_le_iff_le_mul h, Nat.mul_comm c]

/-- A well-formed profile's `CYC_PER_US` is `F_CLK / 10^6` (R133). -/
theorem cycPerUs_of_wf {p : DeviceProfile} (h : p.wf = true) : p.cycPerUsNum * 10 ^ 6 = p.fClk * p.cycPerUsDen := by
  simp only [DeviceProfile.wf, DeviceProfile.clockWf, Bool.and_eq_true, decide_eq_true_eq] at h
  obtain ⟨⟨⟨-, -, hclock⟩, -⟩, -⟩ := h
  exact hclock

/-- Settles O27: the count is a ceiling quotient, and the denominator of `CYC_PER_US` cancels. -/
theorem delayCountIsCeiling : Obligations.DelayCountIsCeiling := by
  intro p t hiter hden
  have hpos : 0 < p.cycPerUsDen * p.cycPerIter := Nat.mul_pos hden hiter
  have hlasts := (delayCount_le_iff hpos).1 (Nat.le_refl (p.delayCount t))
  refine ⟨hlasts, fun c => (delayCount_le_iff hpos).2, fun hwf => Nat.le_of_mul_le_mul_right ?_ hden⟩
  calc t * p.fClk * p.cycPerUsDen = t * p.cycPerUsNum * 10 ^ 6 := by
        rw [Nat.mul_assoc, ← cycPerUs_of_wf hwf, Nat.mul_assoc]
    _ ≤ p.delayCount t * (p.cycPerUsDen * p.cycPerIter) * 10 ^ 6 := Nat.mul_le_mul_right _ hlasts
    _ = p.delayCount t * p.cycPerIter * 10 ^ 6 * p.cycPerUsDen := by ring

/-! ### `Wait` (R130) -/

theorem begin_eq (w : Watchdog) (c : Word) :
    w.begin c = { w with cnt := if w.run then w.cnt + c.toNat else w.cnt } := by
  unfold Watchdog.begin
  split <;> rfl

/-- A watchdog is calm after a `Wait` whose floor, with those before it and the overhead, is below the interval. -/
theorem calm_begin {p : DeviceProfile} {w : Watchdog} {c : Word} (h : w.run = true → w.rste = true →
    p.cycPerIter * (w.cnt + c.toNat) + p.guardOverheadMax < p.wdtInterval w.div) : (w.begin c).calm p = true := by
  by_cases hon : w.run = true ∧ w.rste = true
  · simp [begin_eq, Watchdog.calm, hon, h hon.1 hon.2]
  · have hoff : (w.run && w.rste) = false := by simpa using hon
    simp only [begin_eq, Watchdog.calm, hoff, Bool.not_false, Bool.true_or]

/-- Settles O36: both are the one micro-operation, and the watchdog is calm after it. -/
theorem waitResult : Obligations.WaitResult := by
  intro s c h
  have hcalm : ((Act.wait c).watchdog s.wdt).calm s.profile = true := calm_begin h
  refine ⟨s.wait c, micro_of_calm (u := .wait c) rfl hcalm, runActs_of_fits ?_, ?_⟩
  · simp [State.fits, calmRun, Act.reaches, hcalm]
  · rw [← begin_eq]
    rfl

/-! ### Where the watchdog strikes (R143) -/

/-- The outcome is the watchdog's reset (R240). -/
def Struck (r : Res) : Prop := ∃ after, r = .fault (.watchdogReset after)

section

variable {s : State} {p : DeviceProfile} {e : Divisor} {n d : Nat} (hp : s.profile = p)
  (hw : s.wdt = { run := true, div := e, rste := true, cnt := n }) (hd : p.wdtIntervals.lookup e = some d)

include hp hw hd

theorem overflowForced_iff : s.overflowForced = true ↔ d ≤ p.cycPerIter * n := by
  simp [State.overflowForced, DeviceProfile.intervalReached, hp, hw, hd]

theorem overflowAdmitted_iff : s.overflowAdmitted = true ↔ d ≤ p.cycPerIter * n + p.guardOverheadMax := by
  simp [State.overflowAdmitted, DeviceProfile.wdtInterval, hp, hw, hd]

/-- Between the two bounds the strike is the free choice (log 7). -/
theorem overflows_eq_free (hlow : p.cycPerIter * n < d) (hhigh : d ≤ p.cycPerIter * n + p.guardOverheadMax) :
    s.overflows = Config.freeOverflow s.moment := by
  have hforced : s.overflowForced = false :=
    Bool.eq_false_iff.2 fun h => Nat.not_le.2 hlow ((overflowForced_iff hp hw hd).1 h)
  have hadmitted : s.overflowAdmitted = true := (overflowAdmitted_iff hp hw hd).2 hhigh
  rw [State.overflows, hforced, hadmitted, Bool.false_or, Bool.true_and]

end

theorem overflows_of_forced {s : State} (h : s.overflowForced = true) : s.overflows = true := by
  simp [State.overflows, h]

/-- An act whose address exists completes or is struck. -/
theorem perform_of_reaches {a : Act} {s : State} (hr : a.reaches s = true) :
    Struck (perform a s) ∨ perform a s = .next (a.after s) := by
  have hmicro : micro (a.op s) s = settle ((a.op s).after s) := micro_of_reaches (by rw [act_op_reaches, hr])
  rw [perform, hmicro]
  cases ho : ((a.op s).after s).overflows
  · exact .inr (by rw [settle_eq_next.2 ⟨ho, rfl⟩]; rfl)
  · exact .inl ⟨_, by rw [settle_eq_fault.2 ⟨ho, rfl⟩]; rfl⟩

/-- A run of acts whose addresses exist completes or is struck. -/
theorem runActs_of_reaches {l : List Act} {s : State} (hr : ∀ a ∈ l, a.reaches s = true) :
    Struck (runActs l s) ∨ runActs l s = .next (afterActs l s) := by
  induction l generalizing s with
  | nil => exact .inr rfl
  | cons a l ih =>
    rw [runActs_cons]
    rcases perform_of_reaches (hr a (by simp)) with ⟨w, hstruck⟩ | hnext
    · exact .inl ⟨w, by rw [hstruck]; rfl⟩
    · rw [hnext]
      refine ih fun b hb => ?_
      have hctx := (act_after_ctx a s).1
      rw [act_reaches_congr (act_after_fields a s).1 (by rw [hctx]) (by rw [hctx])]
      exact hr b (by simp [hb])

/-- No act completes where its overflow is certain. -/
theorem overflowForced_of_perform {a : Act} {s t : State} (h : perform a s = .next t) : t.overflowForced = false := by
  obtain ⟨rfl, ho, -⟩ := perform_eq_next h
  have hsame : (a.after s).overflowForced = ((a.op s).after s).overflowForced := by
    simp [State.overflowForced, Act.after]
  rw [hsame, Bool.eq_false_iff]
  intro hforced
  simp [overflows_of_forced hforced] at ho

/-- A run of acts is struck where the overflow is certain after one of them. -/
theorem runActs_struck {l m : List Act} {a : Act} {s : State} (hr : ∀ b ∈ l ++ [a] ++ m, b.reaches s = true)
    (hf : (afterActs (l ++ [a]) s).overflowForced = true) : Struck (runActs (l ++ [a] ++ m) s) := by
  refine (runActs_of_reaches hr).resolve_right fun hnext => ?_
  rw [runActs_append, andThen_eq_next] at hnext
  obtain ⟨u, hu, -⟩ := hnext
  obtain rfl := runActs_eq_next hu
  rw [runActs_append, andThen_eq_next] at hu
  obtain ⟨v, -, hlast⟩ := hu
  have hperform : perform a v = .next (afterActs (l ++ [a]) s) := (andThen_next_id _).symm.trans hlast
  simp [overflowForced_of_perform hperform] at hf

/-! ### Pulses and `Wait`s under an interval that their floors reach (R275) -/

/-- The acts of a pulse before its last `Wait` (R171, R192). -/
def pulseBeforeHold (d : Divisor) (k : Bank) (g f : Field) (setup width hold : Word) : List Act :=
  pulseHead d k g f setup width ++ bitOff k f ++ [.irqRestore, .wait hold] ++ bitOff k g

section

variable (d : Divisor) (k : Bank) (g f : Field) (setup width hold setupHold : Word)

theorem pulseActs_eq : pulseActs d k g f setup width hold setupHold =
    pulseBeforeHold d k g f setup width hold ++ [.wait setupHold] ++ releaseActs := by
  simp [pulseActs, pulseTail, pulseBeforeHold]

theorem pulse_reaches (s : State) : ∀ b ∈ pulseActs d k g f setup width hold setupHold, b.reaches s = true := by
  simp [pulseActs, pulseHead, pulseTail, acquireActs, releaseActs, bitOn, bitOff, Act.reaches]

/-- At the end of its guarded body the count of the watchdog is the sum of the four `Wait`s (R143). -/
theorem wdt_pulse (s : State) : (afterActs (pulseBeforeHold d k g f setup width hold ++ [.wait setupHold]) s).wdt =
    { run := true
      div := d
      rste := true
      cnt := setup.toNat + width.toNat + hold.toNat + setupHold.toNat } := by
  obtain ⟨-, -, -, -, -, -, -, hwdt, -⟩ := afterActs_fields
    (pulseBeforeHold d k g f setup width hold ++ [.wait setupHold]) s
  rw [hwdt]
  simp [pulseBeforeHold, pulseHead, acquireActs, bitOn, bitOff, Act.watchdog]

end

/-- A pulse is struck by its last `Wait` at the latest. -/
theorem pulse_struck {d : Divisor} {k : Bank} {g f : Field} {setup width hold setupHold : Word} {s : State} {n : Nat}
    (hd : s.profile.wdtIntervals.lookup d = some n)
    (h : n ≤ s.profile.cycPerIter * (setup.toNat + width.toNat + hold.toNat + setupHold.toNat)) :
    Struck (runActs (pulseActs d k g f setup width hold setupHold) s) := by
  have hr := pulse_reaches d k g f setup width hold setupHold s
  rw [pulseActs_eq] at hr ⊢
  exact runActs_struck hr ((overflowForced_iff (afterActs_fields _ s).1 (wdt_pulse ..) hd).2 h)

/-- The watchdog counts a `Wait` while it runs (R143). -/
theorem wdt_wait {s : State} (hrun : s.wdt.run = true) (hrste : s.wdt.rste = true) (c : Word) :
    (s.wait c).wdt = { run := true, div := s.wdt.div, rste := true, cnt := s.wdt.cnt + c.toNat } := by
  simp [begin_eq, hrun, hrste]

/-- Settles O17: a strike resets a state with the profile and the source of the first; the floors of a `Wait` and of a
pulse make it certain, and between the bounds it is the free choice. -/
theorem watchdogFaultIsReset : Obligations.WatchdogFaultIsReset := by
  refine ⟨fun i s after h => ?_, fun c s d hrun hrste hd => ⟨fun h => ?_, fun hlow hhigh => ?_⟩,
    fun k s d => pulse_struck, fun k width s d => pulse_struck⟩
  · obtain ⟨u, hframed, rfl⟩ := exec_struck framed_chained (fun _ _ => framed_of_eq rfl rfl rfl rfl) h
    exact ⟨rfl, rfl, rfl, rfl, rfl, rfl, hframed.profile, hframed.source⟩
  · have hforced := (overflowForced_iff (s := s.wait c) rfl (wdt_wait hrun hrste c) hd).2 h
    exact ⟨_, settle_eq_fault.2 ⟨overflows_of_forced hforced, rfl⟩⟩
  · refine ⟨(s.wait c).systemReset, s.wait c, ?_, rfl⟩
    have hfree : (s.wait c).overflows = Config.freeOverflow (s.moment + 1) :=
      overflows_eq_free rfl (wdt_wait hrun hrste c) hd hlow hhigh
    rw [← hfree]
    rfl

end Sys2Proof.Machine
end

section
/-! The guard scope (R140 to R142, R145): its three parts, what it appends and that it leaves the watchdog stopped; and
over a whole command, by the retry loops and the page loop, two watchdog stops for every start and a stop last. -/

namespace Sys2Proof.Machine

/-! ### One guard scope -/

/-- A body performed through `exec` act by act is a run of its acts (R67). -/
theorem foldl_exec_eq_runActs (body : List Act) (r : Res) :
    body.foldl (fun r a => andThen r (fun u => andThen (exec (a.op u).toInstr u) (fun v => .next (a.store v)))) r =
      andThen r (runActs body) := by
  induction body generalizing r with
  | nil => exact (andThen_next_id r).symm
  | cons a body ih =>
    have hact : (fun u => andThen (exec (a.op u).toInstr u) fun v => .next (a.store v)) = perform a :=
      funext fun u => by rw [exec_toInstr, perform]
    rw [List.foldl_cons, ih, hact, andThen_assoc]
    rfl

/-- A guard scope leaves the watchdog stopped (R141). -/
theorem guarded_stopped (d : Divisor) (body : List Act) (s : State) :
    (afterActs (guardedActs d body) s).wdt.run = false := by
  rw [guardedActs, afterActs_append]
  rfl

/-- A guard scope appends a stop, a start, the events of its body and a stop (R140 to R142). -/
theorem guarded_trace (d : Divisor) (body : List Act) (s : State) :
    ∃ es, (afterActs (guardedActs d body) s).trace = s.trace ++ [.wdtStop, .wdtStart d] ++ es ++ [.wdtStop] ∧
      es.map Event.code = body.map Act.code := by
  obtain ⟨-, -, -, -, -, -, -, -, -, es, htrace, hcodes⟩ := afterActs_fields body (afterActs (acquireActs d) s)
  have hacquire : (afterActs (acquireActs d) s).trace = s.trace ++ [.wdtStop, .wdtStart d] :=
    List.append_assoc s.trace [.wdtStop] [.wdtStart d]
  have hrelease (t : State) : (afterActs releaseActs t).trace = t.trace ++ [.wdtStop] := rfl
  refine ⟨es, ?_, hcodes⟩
  rw [guardedActs, afterActs_append, afterActs_append, hrelease, htrace, hacquire]

/-- Settles O40: a run of three lists is a run of each after the other, and a run that fits completes. -/
theorem scopedGuardCompletes : Obligations.ScopedGuardCompletes := by
  refine ⟨fun s d body => ?_, fun s d body hfits => ?_⟩
  · rw [foldl_exec_eq_runActs]
    show runActs (acquireActs d ++ body ++ releaseActs) s = _
    rw [runActs_append, runActs_append]
    rfl
  · obtain ⟨hprofile, hport, hseq, hopr, harmed, hsource, -⟩ := afterActs_fields (guardedActs d body) s
    obtain ⟨es, htrace, hcodes⟩ := guarded_trace d body s
    exact ⟨_, es, runActs_of_fits hfits, guarded_stopped d body s, htrace, hcodes, hprofile, hport, hseq, hopr, harmed,
      hsource⟩

/-! ### Whole guard scopes -/

/-- From `s` to `t` the watchdog was touched by whole guard scopes only: two stops for every start, a stop last with the
watchdog then stopped, or no watchdog event at all and the watchdog as it was (R145). -/
def Scoped (s t : State) : Prop :=
  ∃ es, t.trace = s.trace ++ es ∧ es.countP Event.isWdtStop = 2 * es.countP Event.isWdtStart ∧
    ((es.filter (fun e => e.isWdtStop || e.isWdtStart)).getLast? = none ∧ t.wdt.run = s.wdt.run ∨
      (es.filter (fun e => e.isWdtStop || e.isWdtStart)).getLast? = some .wdtStop ∧ t.wdt.run = false)

/-- The acts of a list leave the watchdog alone. -/
def Unwatched (l : List Act) : Prop := ∀ a ∈ l, a.code ≠ 0x7 ∧ a.code ≠ 0x8

theorem isWdtStop_eq (e : Event) : e.isWdtStop = (e.code == 0x7#4) := by cases e <;> rfl

theorem Unwatched.run_watchdog {l : List Act} (hl : Unwatched l) (w : Watchdog) :
    (l.foldl (fun w a => a.watchdog w) w).run = w.run := by
  induction l generalizing w with
  | nil => rfl
  | cons a l ih =>
    have hact : (a.watchdog w).run = w.run := by
      have ha := hl a List.mem_cons_self
      cases a with
      | wdtStop => exact absurd rfl ha.1
      | wdtStart d => exact absurd rfl ha.2
      | wait c => exact begin_run w c
      | _ => rfl
    exact (ih (fun b hb => hl b (List.mem_cons_of_mem a hb)) _).trans hact

/-- The events of acts that leave the watchdog alone are no watchdog events. -/
theorem Unwatched.events {l : List Act} (hl : Unwatched l) {es : List Event}
    (h : es.map Event.code = l.map Act.code) : ∀ e ∈ es, e.isWdtStop = false ∧ e.isWdtStart = false := by
  intro e he
  obtain ⟨a, ha, hcode⟩ : ∃ a ∈ l, a.code = e.code := List.mem_map.1 (h ▸ List.mem_map_of_mem he)
  rw [isWdtStop_eq, isWdtStart_eq, ← hcode, beq_eq_false_iff_ne, beq_eq_false_iff_ne]
  exact hl a ha

section

variable {s₀ s t u : State}

theorem Scoped.trans (h : Scoped s t) (g : Scoped t u) : Scoped s u := by
  obtain ⟨es, ht, hes, hrun⟩ := h
  obtain ⟨fs, hu, hfs, grun⟩ := g
  refine ⟨es ++ fs, by rw [hu, ht, List.append_assoc], by simp only [List.countP_append]; omega, ?_⟩
  rw [List.filter_append, List.getLast?_append]
  rcases grun with ⟨hlast, hu⟩ | ⟨hlast, hu⟩
  · rw [hlast, hu]
    exact hrun
  · rw [hlast]
    exact .inr ⟨rfl, hu⟩

theorem countP_of_no_watchdog {es : List Event} (hes : ∀ e ∈ es, e.isWdtStop = false ∧ e.isWdtStart = false) :
    es.countP Event.isWdtStop = 0 ∧ es.countP Event.isWdtStart = 0 :=
  ⟨List.countP_eq_zero.2 fun e he => by simp [hes e he], List.countP_eq_zero.2 fun e he => by simp [hes e he]⟩

/-- Events other than the watchdog's, which leave it running or not as before. -/
theorem scoped_of_events {es : List Event} (ht : t.trace = s.trace ++ es)
    (hes : ∀ e ∈ es, e.isWdtStop = false ∧ e.isWdtStart = false) (hw : t.wdt.run = s.wdt.run) : Scoped s t := by
  obtain ⟨hstop, hstart⟩ := countP_of_no_watchdog hes
  have hnone : es.filter (fun e => e.isWdtStop || e.isWdtStart) = [] :=
    List.filter_eq_nil_iff.2 fun e he => by simp [hes e he]
  exact ⟨es, ht, by rw [hstop, hstart], .inl ⟨by rw [hnone]; rfl, hw⟩⟩

theorem scoped_afterActs {l : List Act} (hl : Unwatched l) (s : State) : Scoped s (afterActs l s) := by
  obtain ⟨-, -, -, -, -, -, -, hwdt, -, es, htrace, hcodes⟩ := afterActs_fields l s
  exact scoped_of_events htrace (hl.events hcodes) (by rw [hwdt, hl.run_watchdog])

theorem scoped_guarded {body : List Act} (hbody : Unwatched body) (d : Divisor) (s : State) :
    Scoped s (afterActs (guardedActs d body) s) := by
  obtain ⟨es, htrace, hcodes⟩ := guarded_trace d body s
  obtain ⟨hstop, hstart⟩ := countP_of_no_watchdog (hbody.events hcodes)
  refine ⟨[.wdtStop, .wdtStart d] ++ es ++ [.wdtStop], by simp [htrace], ?_, .inr ⟨?_, guarded_stopped d body s⟩⟩
  · simp only [List.countP_append, hstop, hstart]
    rfl
  · rw [List.filter_append]
    exact List.getLast?_concat

/-- A move of the block's own registers. -/
theorem Scoped.move (h : Scoped s₀ s) (ht : t.trace = s.trace ∧ t.wdt = s.wdt) : Scoped s₀ t :=
  h.trans (scoped_of_events (es := []) (by simp [ht]) nofun (by rw [ht.2]))

theorem Scoped.run (h : Scoped s₀ s) {l : List Act} (hl : Unwatched l) : Yields (Scoped s₀) (runActs l s) :=
  yields_runActs (h.trans (scoped_afterActs hl s))

end

/-! ### The straight lines that leave the watchdog alone -/

theorem Unwatched.append {l m : List Act} (hl : Unwatched l) (hm : Unwatched m) : Unwatched (l ++ m) :=
  List.forall_mem_append.2 ⟨hl, hm⟩

theorem unwatched_precond : Unwatched precondActs := by simp [Unwatched, precondActs, Act.code]

theorem unwatched_select (p : DeviceProfile) (i : Nat) : Unwatched (selectActs p i) := by
  simp [Unwatched, selectActs, Act.code]

/-- `BitSet` and its delay: how the unlocking and the verify modes begin (R170, R172, R191). -/
theorem unwatched_on (k : Bank) (f : Field) (c : Word) : Unwatched (bitOn k f ++ [.wait c]) := by
  simp [Unwatched, bitOn, Act.code]

/-- `BitClr` and its delay: how the verify modes and the unlocking end (R170, R172, R191). -/
theorem unwatched_off (k : Bank) (f : Field) (c : Word) : Unwatched (bitOff k f ++ [.wait c]) := by
  simp [Unwatched, bitOff, Act.code]

theorem unwatched_evWord (p : DeviceProfile) : Unwatched (evWordActs p) := by simp [Unwatched, evWordActs, Act.code]

theorem unwatched_pvWord (p : DeviceProfile) (a : Word) : Unwatched (pvWordActs p a) := by
  simp [Unwatched, pvWordActs, srcWordActs, Act.code]

theorem unwatched_copy (p : DeviceProfile) : Unwatched (copyActs p) := by simp [Unwatched, copyActs, Act.code]

theorem unwatched_latch (p : DeviceProfile) : Unwatched (latchActs p) := by simp [Unwatched, latchActs, Act.code]

theorem unwatched_latchOvw (p : DeviceProfile) : Unwatched (latchOvwActs p) := by
  simp [Unwatched, latchOvwActs, Act.code]

theorem unwatched_window (k : Bank) (f : Field) (width : Word) : Unwatched (windowActs k f width) := by
  simp [Unwatched, windowActs, bitOn, bitOff, Act.code]

theorem unwatched_cleanup (k : Bank) (f : Field) (hold setupHold : Word) :
    Unwatched (cleanupActs k f hold setupHold) := by
  simp [Unwatched, cleanupActs, bitOff, Act.code]

theorem unwatched_eraseBody (p : DeviceProfile) (k : Bank) : Unwatched (eraseBody p k) :=
  ((unwatched_on k _ _).append (unwatched_window k _ _)).append (unwatched_cleanup k _ _ _)

theorem unwatched_programBody (p : DeviceProfile) (k : Bank) (width : Word) : Unwatched (programBody p k width) :=
  ((unwatched_on k _ _).append (unwatched_window k _ _)).append (unwatched_cleanup k _ _ _)

/-! ### The operations of a command -/

section

variable {s₀ s : State}

theorem Scoped.precond (h : Scoped s₀ s) : Yields (Scoped s₀) (execPrecond s) :=
  (h.run unwatched_precond).bind fun _ ht => yields_next (ht.move (by simp))

theorem Scoped.erasePulse (h : Scoped s₀ s) (k : Bank) : Yields (Scoped s₀) (execErasePulse k s) :=
  yields_runActs (h.trans (scoped_guarded (unwatched_eraseBody s.profile k) _ s))

theorem Scoped.programPulse (h : Scoped s₀ s) (k : Bank) (width : Word) :
    Yields (Scoped s₀) (execProgramPulse k width s) :=
  yields_runActs (h.trans (scoped_guarded (unwatched_programBody s.profile k width) _ s))

theorem Scoped.selectBlock (h : Scoped s₀ s) (i : Word) : Yields (Scoped s₀) (execSelectBlock i s) := by
  unfold execSelectBlock
  split
  · exact fun t ht => by cases ht
  · exact h.run (unwatched_select _ _)

theorem Scoped.eraseVerify (h : Scoped s₀ s) (k : Bank) (start stop : Word) :
    Yields (Scoped s₀) (execEraseVerify k start stop s) := by
  have hword : ∀ t, Scoped s₀ t → t.scanGoesOn stop = true → Scoped s₀ (afterActs (evWordActs t.profile) t).judgeScan :=
    fun t ht _ => (ht.trans (scoped_afterActs (unwatched_evWord t.profile) t)).move (by simp)
  refine (h.run (unwatched_on k _ _)).bind fun t ht => ?_
  exact (yields_eraseScan hword _ (ht.move (by simp))).bind fun u hu => hu.run (unwatched_off k _ _)

theorem Scoped.eraseAttempt (h : Scoped s₀ s) : Yields (Scoped s₀) (eraseAttempt s) :=
  (h.selectBlock _).bind fun _ ht => (ht.erasePulse _).bind fun _ hu => hu.eraseVerify _ _ _

theorem Scoped.lockAndRespond (h : Scoped s₀ s) (r : Status) : Yields (Scoped s₀) (lockAndRespond r s) :=
  (h.run (unwatched_off _ _ _)).bind fun _ ht => yields_next (ht.move (by simp))

theorem Scoped.eraseUnlocked (h : Scoped s₀ s) : Yields (Scoped s₀) (eraseUnlocked s) :=
  (h.run (unwatched_on _ _ _)).bind fun _ ht =>
    yields_eraseAttempts (fun _ hu => hu.eraseAttempt) (fun r _ hu => hu.lockAndRespond r)
      (fun _ _ hu => hu.move (by simp)) _ (ht.move (by simp))

theorem Scoped.eraseBlock (h : Scoped s₀ s) (index : Word) :
    Yields (Scoped s₀) (execEraseBlock index s) := by
  refine yields_whenReady fun _ => ?_
  unfold eraseAccepted
  split
  · exact yields_next (h.move (by simp))
  split
  · exact yields_next (h.move (by simp))
  refine Yields.bind (Scoped.precond (h.move (by simp))) fun t ht => ?_
  split
  · exact ht.eraseUnlocked
  · exact yields_next (ht.move (by simp))

theorem Scoped.verifyWord (h : Scoped s₀ s) (k : Bank) (j : Nat) (n : Word) :
    Yields (Scoped s₀) (execVerifyWord k j n s) := by
  unfold execVerifyWord
  split
  · exact fun t ht => by cases ht
  · exact (Scoped.run (h.move (by simp)) (unwatched_pvWord _ _)).bind fun t ht => yields_next (ht.move (by simp))

theorem Scoped.verifyWords (n j : Nat) (h : Scoped s₀ s) : Yields (Scoped s₀) (verifyWords n j s) := by
  induction n generalizing j s with
  | zero => exact yields_next h
  | succ n ih =>
    refine (h.verifyWord _ j _).bind fun t ht => ?_
    split
    · exact yields_next ht
    · exact ih (j + 1) ht

theorem Scoped.programAttempt (h : Scoped s₀ s) : Yields (Scoped s₀) (programAttempt s) :=
  (h.run (unwatched_latch _)).bind fun _ ht => ht.programPulse _ _

theorem Scoped.verifyAttempt (h : Scoped s₀ s) : Yields (Scoped s₀) (verifyAttempt s) :=
  (h.run (unwatched_on _ _ _)).bind fun _ ht => ht.verifyWords _ 0

theorem Scoped.overwriteAttempt (h : Scoped s₀ s) : Yields (Scoped s₀) (overwriteAttempt s) := by
  unfold Machine.overwriteAttempt
  split
  · exact (h.run (unwatched_latchOvw _)).bind fun t ht => ht.programPulse _ _
  · exact yields_next h

theorem Scoped.lockPage (h : Scoped s₀ s) (r : Status) : Yields (Scoped s₀) (lockPage r s) :=
  (h.run (unwatched_off _ _ _)).bind fun _ ht => yields_next (ht.move (by simp))

theorem Scoped.fatalExit (h : Scoped s₀ s) : Yields (Scoped s₀) (fatalExit s) :=
  (h.run (unwatched_off _ _ _)).bind fun _ ht => ht.lockPage _

theorem Scoped.finishAttempt (h : Scoped s₀ s) : Yields (Scoped s₀) (finishAttempt s) :=
  (h.run (unwatched_off _ _ _)).bind fun _ ht => ht.overwriteAttempt

theorem Scoped.writeAttempts (n : Nat) (h : Scoped s₀ s) : Yields (Scoped s₀) (writeAttempts n s) := by
  induction n generalizing s with
  | zero => exact h.lockPage _
  | succ n ih =>
    refine (Scoped.programAttempt (h.move (by simp))).bind fun t ht => ht.verifyAttempt.bind fun u hu => ?_
    split
    · exact hu.fatalExit
    refine hu.finishAttempt.bind fun v hv => ?_
    split
    · split
      · exact ih hv
      · exact ih (hv.move (by simp))
    · exact hv.lockPage _

theorem Scoped.writeUnlocked (h : Scoped s₀ s) : Yields (Scoped s₀) (writeUnlocked s) :=
  (h.run (unwatched_copy _)).bind fun _ ht => (ht.run (unwatched_on _ _ _)).bind fun _ hu =>
    Scoped.writeAttempts _ (hu.move (by simp))

theorem Scoped.writePage (h : Scoped s₀ s) (dest src : Word) : Yields (Scoped s₀) (execWritePage dest src s) := by
  unfold execWritePage
  split
  · exact fun t ht => by cases ht
  refine (Scoped.precond (h.move (by simp))).bind fun t ht => ?_
  split
  · exact ht.writeUnlocked
  · exact yields_next (ht.move (by simp))

theorem Scoped.pages (n : Nat) (h : Scoped s₀ s) : Yields (Scoped s₀) (pages n s) := by
  induction n generalizing s with
  | zero => exact yields_next (h.move (by simp))
  | succ n ih =>
    unfold Machine.pages
    split
    · exact yields_next (h.move (by simp))
    refine (h.writePage _ _).bind fun t ht => ?_
    split
    · exact ih (ht.move (by simp))
    · exact yields_next ht

theorem Scoped.writeRange (h : Scoped s₀ s) (dest src len : Word) :
    Yields (Scoped s₀) (execWriteRange dest src len s) := by
  refine yields_whenReady fun _ => ?_
  unfold writeAccepted execValidateRange
  rw [andThen_of_next]
  split
  · exact yields_next (h.move (by simp))
  split
  · exact yields_next (h.move (by simp))
  exact (Scoped.pages _ (h.move (by simp))).bind fun t ht => yields_next (ht.move (by simp))

theorem Scoped.init (h : Scoped s₀ s) : Yields (Scoped s₀) (execInit s) :=
  yields_whenReady fun _ => (Scoped.precond (h.move (by simp))).bind fun _ ht => yields_next (ht.move (by simp))

theorem Scoped.unprotect (h : Scoped s₀ s) : Yields (Scoped s₀) (execUnprotect s) :=
  yields_whenReady fun _ => yields_next (h.move (by simp))

end

/-- Settles O49: the pulses of a command are its only watchdog acts, each a whole guard scope. -/
theorem guardStopsTwicePerStart : Obligations.GuardStopsTwicePerStart := by
  intro i s t hi he
  have hs : Scoped s s := scoped_afterActs (l := []) nofun s
  cases i with
  | init => exact hs.init t he
  | unprotect => exact hs.unprotect t he
  | eraseBlock index => exact hs.eraseBlock index t he
  | writeRange dest src len => exact hs.writeRange dest src len t he
  | _ => simp [Instr.isCommand] at hi

end Sys2Proof.Machine
end

section
/-! The block table and the page mapper: what `resolve_block`, `SelectBlock` and `resolve_address_range` come to, and that
blocks and pages lie whole in one bank (R34, R150 to R154, R160, R163). -/

namespace Sys2Proof.Machine

/-- Settles O24: each answers its register moves at once. -/
theorem resolveResults : Obligations.ResolveResults := by
  refine fun s => ⟨fun index h => ?_, fun index h => ?_, fun dest len => rfl⟩
  · show Host.Outcome.next (s.resolveBlock index) = _
    rw [State.resolveBlock, if_pos h]
    rfl
  · show Host.Outcome.next (s.resolveBlock index) = _
    rw [resolveBlock_of_lt h]
    rfl

/-! ### The selection (R34, R153, R154) -/

/-- `SelectBlock` completes where no overflow is admitted. -/
theorem selectBlock_runs {s : State} {index : Word} (hi : index.toNat < s.profile.blockCount) (hc : s.calm = true) :
    execSelectBlock index s = .next (afterActs (selectActs s.profile index.toNat) s) := by
  rw [execSelectBlock, if_neg (Nat.not_le.2 hi)]
  exact runActs_of_calm hc (by simp [selectActs, Act.watchdog]) (by simp [selectActs, Act.reaches])

theorem ebrBit_lt_of_wf {p : DeviceProfile} (h : p.wf = true) {i : Nat} (hi : i < p.blockCount) : p.ebrBit i < 8 := by
  simp only [DeviceProfile.wf, DeviceProfile.ebrWf, Bool.and_eq_true, List.all_eq_true, decide_eq_true_eq,
    List.mem_range] at h
  obtain ⟨⟨⟨⟨-, -, hlt⟩, -⟩, -⟩, -⟩ := h
  exact hlt i hi

/-- With the one-hot value of `SelectBlock` in the registers, its block is selected and no other. -/
theorem selected_iff_of_oneHot {s : State} (h : s.profile.wf = true) {i j : Nat} (hi : i < s.profile.blockCount)
    (hone : s.ebr (s.profile.blockBank i) = s.profile.ebrMask i) (hzero : s.ebr (s.profile.blockBank i).other = 0)
    (hj : j < s.profile.blockCount) : s.selected j = true ↔ j = i := by
  refine ⟨eq_of_selected h hi hone hzero hj, fun he => ?_⟩
  have hb := ebrBit_lt_of_wf h hi
  rw [he, State.selected, hone, DeviceProfile.ebrMask, getLsbD_one_shiftLeft_nat hb hb, decide_eq_true rfl]

/-- Settles O25: `SelectBlock` is two register writes, of which the second leaves the first register as it is. -/
theorem selectBlockResult : Obligations.SelectBlockResult := by
  intro s index hi hc
  have hacts : afterActs (selectActs s.profile index.toNat) s =
      (s.regWrite (.ebr (s.profile.blockBank index.toNat).other) 0).regWrite (.ebr (s.profile.blockBank index.toNat))
        (s.profile.ebrMask index.toNat) := rfl
  have htrace : (afterActs (selectActs s.profile index.toNat) s).trace = s.trace ++
      [.rw (.ebr (s.profile.blockBank index.toNat).other) 0,
        .rw (.ebr (s.profile.blockBank index.toNat)) (1#8 <<< s.profile.ebrBit index.toNat)] :=
    List.append_assoc s.trace [_] [_]
  have hprofile : (afterActs (selectActs s.profile index.toNat) s).profile = s.profile := (afterActs_fields _ s).1
  obtain ⟨-, hone, hzero⟩ := select_flash s s.profile index.toNat
  refine ⟨_, selectBlock_runs hi hc, ?_, hone, hzero, fun k => ?_, fun hwf i hb => ?_⟩
  · rw [← htrace]
    rfl
  · rw [hacts, fcr_regWrite_ebr, fcr_regWrite_ebr]
  · rw [← hprofile] at hwf hi hb hone hzero
    exact selected_iff_of_oneHot hwf hi hone hzero hb

/-! ### Pages (R151, R163) -/

/-- A page that begins in a block ends in it, since the ends of blocks are multiples of the page. -/
theorem inBlock_of_page {p : DeviceProfile} (h : p.wf = true) {b : Nat} (hb : b < p.blockCount) {dest a : Nat}
    (hal : dest % p.pageBytes = 0) (hin : p.inBlock b dest = true) (hle : dest ≤ a) (hlt : a < dest + p.pageBytes) :
    p.inBlock b a = true := by
  have hend := tableAt_aligned h (Nat.succ_le_of_lt hb)
  rw [Nat.succ_eq_add_one] at hend
  simp only [DeviceProfile.inBlock, Bool.and_eq_true, decide_eq_true_eq] at hin ⊢
  rcases pageBytes_cases p with hp | hp <;> rw [hp] at hal hlt hend <;> omega

/-- Settles O26: a bank begins at the end of a block, and a block ends at a multiple of the page. -/
theorem pagesAndBlocksInOneBank : Obligations.PagesAndBlocksInOneBank := by
  intro p hwf
  refine ⟨fun i hi a ha => bankOf_inBlock hwf hi ha, fun dest hle hal i hi => ?_⟩
  have hlast := page_le_flashMax hwf hal (BitVec.le_def.1 hle)
  have hbyte : (offset dest i).toNat = dest.toNat + i := offset_toNat (by have := p.flashMax.isLt; omega)
  refine ⟨?_, bankOf_inPage hwf hal (by omega) (by omega),
    fun b hb hin => inBlock_of_page hwf hb hal hin (by omega) (by omega)⟩
  rw [DeviceProfile.hasFlashByte, decide_eq_true_eq, BitVec.le_def, hbyte]
  omega

end Sys2Proof.Machine
end

section
/-! The events of runs of acts: in full, and with the accesses of the control registers counted and all the others shown in
order (R47, R67, R280). -/

namespace Sys2Proof.Machine

/-- The events of a run of acts, in order. -/
def actEvents : List Act → State → List Event
  | [], _ => []
  | a :: l, s => (a.op s).event s :: actEvents l (a.after s)

theorem afterActs_trace (l : List Act) (s : State) : (afterActs l s).trace = s.trace ++ actEvents l s := by
  induction l generalizing s with
  | nil => exact (List.append_nil _).symm
  | cons a l ih =>
    obtain ⟨-, -, -, -, -, -, -, -, htrace, -⟩ := act_after_fields a s
    rw [afterActs_cons, ih, htrace, List.append_assoc]
    rfl

/-! ### What the events shown say of all events -/

theorem length_eq_shown (es : List Event) : es.length = (shown es).length + es.countP Event.isControl := by
  rw [shown, ← List.countP_eq_length_filter, List.length_eq_countP_add_countP Event.isControl, Nat.add_comm]
  simp only [Bool.not_eq_true, Bool.decide_eq_false]

/-- Events that are no accesses of the control registers are shown. -/
theorem countP_shown {q : Event → Bool} (hq : ∀ e : Event, q e = true → e.isControl = false) (es : List Event) :
    (shown es).countP q = es.countP q := by
  rw [shown, List.countP_filter]
  refine List.countP_congr fun e _ => ?_
  rw [Bool.and_eq_true, Bool.not_eq_true']
  exact and_iff_left_of_imp (hq e)

theorem isControl_of_isWdtStart (e : Event) (h : e.isWdtStart = true) : e.isControl = false := by
  cases e with
  | wdtStart d => rfl
  | _ => cases h

theorem isControl_of_isBlockEnable (e : Event) (h : e.isBlockEnable = true) : e.isControl = false := by
  cases e with
  | rw r v => cases r with
    | ebr k => rfl
    | fcr k => cases h
  | _ => cases h

theorem wordsRead_shown (es : List Event) : wordsRead (shown es) = wordsRead es := by
  induction es with
  | nil => rfl
  | cons e es ih =>
    cases e with
    | rr r v => exact ih
    | rw r v => cases r <;> exact ih
    | fr32 a v => exact congrArg ((a, v) :: ·) ih
    | _ => exact ih

/-! ### What an operation records -/

/-- Between `s` and `t` the trace grew by `c` accesses of the control registers and otherwise by `l`, in that order. -/
def Logged (c : Nat) (l : List Event) (s t : State) : Prop :=
  ∃ es, t.trace = s.trace ++ es ∧ es.countP Event.isControl = c ∧ shown es = l

section

variable {c d : Nat} {l m : List Event} {s t u : State}

theorem Logged.trans (h : Logged c l s t) (g : Logged d m t u) : Logged (c + d) (l ++ m) s u := by
  obtain ⟨es, ht, hc, hl⟩ := h
  obtain ⟨fs, hu, hd, hm⟩ := g
  exact ⟨es ++ fs, by rw [hu, ht, List.append_assoc], by rw [List.countP_append, hc, hd],
    by rw [shown, List.filter_append]; exact congr (congrArg _ hl) hm⟩

theorem logged_of_trace (h : t.trace = s.trace) : Logged 0 [] s t := ⟨[], by rw [h, List.append_nil], rfl, rfl⟩

/-- A move of the block's own registers records nothing. -/
theorem Logged.move (h : Logged c l s t) (hu : u.trace = t.trace) : Logged c l s u := by
  obtain ⟨es, ht, hes⟩ := h
  exact ⟨es, hu.trans ht, hes⟩

end

/-- What an operation records within one attempt, which keeps the registers of the attempt (R170, R191). -/
structure Records (c : Nat) (l : List Event) (s t : State) : Prop extends SameAttempt s t where
  log : Logged c l s t

section

variable {c d : Nat} {l m : List Event} {s t u : State}

theorem Records.trans (h : Records c l s t) (g : Records d m t u) : Records (c + d) (l ++ m) s u :=
  ⟨h.toSameAttempt.trans g.toSameAttempt, h.log.trans g.log⟩

theorem Records.move (h : Records c l s t) (hs : SameAttempt t u) (hu : u.trace = t.trace) : Records c l s u :=
  ⟨h.toSameAttempt.trans hs, h.log.move hu⟩

/-- What a run of acts records, where its events are known. -/
theorem records_acts {a : List Act} (hc : (actEvents a s).countP Event.isControl = c) (hl : shown (actEvents a s) = l) :
    Records c l s (afterActs a s) :=
  ⟨(sameStretch_afterActs a s).toSameAttempt, _, afterActs_trace a s, hc, hl⟩

theorem yields_acts {a : List Act} (hc : (actEvents a s).countP Event.isControl = c) (hl : shown (actEvents a s) = l) :
    Yields (Records c l s) (runActs a s) :=
  yields_runActs (records_acts hc hl)

end

end Sys2Proof.Machine
end

section
/-! The events of an armed erase: those of an attempt, the retry loop as `eraseRun` tells it from the words its scans read,
and their number (R154, R170 to R172, R177, R178, R237, R280). -/

namespace Sys2Proof.Machine

/-! ### The scan (R172) -/

/-- A scan of `n` words that `Records` its probes, delays and reads. -/
theorem eraseScan_records {stop : Word} {n : Nat} {s : State} (hflag : s.loc.flag = true)
    (hn : s.ctx.vaddr.toNat + 4 * n = stop.toNat) :
    Yields (fun t => ∃ vs, Records 0 (scanEvents s.profile.delays.evRead s.ctx.vaddr vs) s t ∧
      ScanVerdict n vs t.loc.flag) (eraseScan stop n s) := by
  induction n generalizing s with
  | zero => exact yields_next ⟨[], ⟨.refl s, logged_of_trace rfl⟩, by rw [hflag]; exact scanVerdict_nil⟩
  | succ n ih =>
    have hgo : s.scanGoesOn stop = true := by
      simp only [State.scanGoesOn, hflag, Bool.and_true, decide_eq_true_eq, BitVec.lt_def]
      omega
    have hword : Records 0 [.fw32 s.ctx.vaddr ones32, .wait s.profile.delays.evRead,
        .fr32 s.ctx.vaddr (afterActs (evWordActs s.profile) s).loc.fword] s (afterActs (evWordActs s.profile) s) :=
      records_acts rfl rfl
    have hvaddr : (afterActs (evWordActs s.profile) s).ctx.vaddr = s.ctx.vaddr := rfl
    have hkeep : (afterActs (evWordActs s.profile) s).loc.flag = true := hflag
    rw [eraseScan, if_pos hgo]
    refine (yields_runActs (P := fun u => u = afterActs (evWordActs s.profile) s) rfl).bind fun u hu => ?_
    rw [← hu] at hword hvaddr hkeep
    have hnext : u.judgeScan.ctx.vaddr = s.ctx.vaddr + 4 := congrArg (· + 4) hvaddr
    have hmove := hword.move (sameAttempt_judgeScan u) rfl
    by_cases hv : u.loc.fword = ones32
    · have hend : u.judgeScan.ctx.vaddr.toNat + 4 * n = stop.toNat := by
        have := stop.isLt
        rw [hnext, BitVec.toNat_add_of_lt (by simp; omega)]
        simp
        omega
      refine (ih (by simp [hkeep, hv]) hend).mono fun t ht => ?_
      obtain ⟨vs, hlog, hverdict⟩ := ht
      rw [hmove.profile, hnext] at hlog
      rw [hv] at hmove
      exact ⟨ones32 :: vs, hmove.trans hlog, hverdict.cons⟩
    · have hfail : u.judgeScan.loc.flag = false := by simp [hv]
      rw [eraseScan_of_failed hfail]
      exact yields_next ⟨[u.loc.fword], hmove, by rw [hfail]; exact scanVerdict_fail hv n⟩

/-- `EraseVerify` of a range of whole words: the verify mode entered, the scan, and the verify mode left. -/
theorem eraseVerify_records {start stop : Word} (hwords : start.toNat + 4 * scanWords start stop = stop.toNat)
    (k : Bank) (s : State) : Yields (fun t => ∃ vs, Records 4 ([.wait s.profile.delays.evSetup] ++
      scanEvents s.profile.delays.evRead start vs ++ [.wait s.profile.delays.evHold]) s t ∧
      ScanVerdict (scanWords start stop) vs t.loc.flag) (execEraseVerify k start stop s) := by
  refine (yields_acts (c := 2) (l := [.wait s.profile.delays.evSetup]) rfl rfl).bind fun e he => ?_
  have hstart := he.move (sameAttempt_startScan e start) rfl
  refine (eraseScan_records (s := e.startScan start) rfl hwords).bind fun u hu => ?_
  obtain ⟨vs, hscan, hverdict⟩ := hu
  rw [hstart.profile] at hscan
  have hscanned := hstart.trans hscan
  have hexit : Records 2 [.wait s.profile.delays.evHold] u (afterActs (evExitActs s.profile k) u) :=
    records_acts rfl rfl
  rw [hscanned.profile]
  exact yields_runActs ⟨vs, hscanned.trans hexit, hverdict⟩

/-! ### The attempt (R170 step 4) -/

/-- A point of an erase of block `i`: the block's registers are loaded. -/
structure AtBlock (p : DeviceProfile) (i : Nat) (s : State) : Prop where
  profile : s.profile = p
  index : s.opr.index.toNat = i
  bank : s.ctx.bank = p.blockBank i
  blkStart : s.ctx.blkStart = p.tableAt i
  blkEnd : s.ctx.blkEnd = p.tableAt (i + 1)

theorem AtBlock.same {p : DeviceProfile} {i : Nat} {s t : State} (h : AtBlock p i s) (g : SameAttempt s t) :
    AtBlock p i t :=
  ⟨g.profile.trans h.profile, by rw [g.opr, h.index], g.bank.trans h.bank, g.blkStart.trans h.blkStart,
    g.blkEnd.trans h.blkEnd⟩

/-- Numbering the next attempt, if there is one, moves no register of the block and records nothing (R23, R170). -/
theorem AtBlock.numbered {p : DeviceProfile} {i : Nat} {s : State} (h : AtBlock p i s) (b : Prop) [Decidable b]
    (v : Word) : AtBlock p i (if b then s else s.setN v) ∧ (if b then s else s.setN v).trace = s.trace := by
  split
  · exact ⟨h, rfl⟩
  · exact ⟨⟨h.profile, h.index, h.bank, h.blkStart, h.blkEnd⟩, rfl⟩

/-- The number of words of block `i`. -/
def blockWords (p : DeviceProfile) (i : Nat) : Nat := ((p.tableAt (i + 1)).toNat - (p.tableAt i).toNat) / 4

/-- A block begins and ends at a word, so that its scan has no more words (R151, R172). -/
theorem scanWords_eq_blockWords {p : DeviceProfile} (hwf : p.wf = true) {i : Nat} (hi : i < p.blockCount) :
    scanWords (p.tableAt i) (p.tableAt (i + 1)) = blockWords p i := by
  have hend := (scanWords_block hwf hi).2
  unfold blockWords
  omega

/-- The words of a scan, numbered from its first address. -/
theorem scanEvents_eq_flatMap (d a : Word) (vs : List Word) (j : Nat) : scanEvents d (offset a (4 * j)) vs =
    (vs.zipIdx j).flatMap (fun c =>
      [Event.fw32 (offset a (4 * c.2)) ones32, .wait d, .fr32 (offset a (4 * c.2)) c.1]) := by
  induction vs generalizing j with
  | nil => rfl
  | cons v vs ih =>
    have hnext : offset a (4 * j) + 4 = offset a (4 * (j + 1)) := offset_offset a (4 * j) 4
    rw [scanEvents, hnext, ih, List.zipIdx_cons, List.flatMap_cons]
    rfl

theorem eraseAttemptEvents_eq (p : DeviceProfile) (i : Nat) (vs : List Word) : eraseAttemptEvents p i vs =
    [.rw (.ebr (p.blockBank i).other) 0, .rw (.ebr (p.blockBank i)) (p.ebrMask i)] ++
      (pulseEvents p.wdtDivErase p.delays.esuSetup p.delays.ePulse p.delays.eHold p.delays.esuHold ++
        ([.wait p.delays.evSetup] ++ scanEvents p.delays.evRead (p.tableAt i) vs ++ [.wait p.delays.evHold])) := by
  have hscan := scanEvents_eq_flatMap p.delays.evRead (p.tableAt i) vs 0
  rw [Nat.mul_zero, offset, BitVec.add_zero] at hscan
  rw [hscan]
  simp only [eraseAttemptEvents, DeviceProfile.ebrMask, List.append_assoc]

/-! ### The status, from the words of the scans (R170, R177, R237) -/

theorem allOnes_iff {vs : List Word} : allOnes vs = true ↔ ∀ v ∈ vs, v = ones32 := by
  simp [allOnes]

/-- A run ends with a scan that passes. -/
theorem eraseRun_of_pass {p : DeviceProfile} {words n : Nat} {vs : List Word} (hn : n < p.maxEraseRetries.toNat)
    (h : ScanVerdict words vs true) : eraseRun p words n [vs] .ok := by
  obtain ⟨hlen, hones⟩ := h.pass.1 rfl
  rw [eraseRun, if_pos (allOnes_iff.2 hones)]
  exact ⟨hn, hlen, rfl, rfl⟩

/-- A run goes on after a scan that fails. -/
theorem eraseRun_of_fail {p : DeviceProfile} {words n : Nat} {vs : List Word} {vss : List (List Word)} {r : Status}
    (hn : n < p.maxEraseRetries.toNat) (h : ScanVerdict words vs false) (hrun : eraseRun p words (n + 1) vss r) :
    eraseRun p words n (vs :: vss) r := by
  obtain ⟨v, hlast, hne⟩ := h.fail rfl
  rw [eraseRun, if_neg fun hones => hne (allOnes_iff.1 hones v (List.mem_of_getLast? hlast))]
  exact ⟨hn, h.length_le, allOnes_iff.2 h.init, hrun⟩

/-- A run keeps to the retry budget, and its scans to the words of the block. -/
theorem eraseRun_bounds {p : DeviceProfile} {words n : Nat} {vss : List (List Word)} {r : Status}
    (h : eraseRun p words n vss r) : n + vss.length ≤ p.maxEraseRetries.toNat ∧
      vss.flatten.length ≤ vss.length * words := by
  induction vss generalizing n with
  | nil => exact ⟨Nat.le_of_eq h.2, Nat.zero_le _⟩
  | cons vs vss ih =>
    rw [List.length_cons, List.flatten_cons, List.length_append, Nat.succ_mul]
    rw [eraseRun] at h
    obtain ⟨hn, h⟩ := h
    split at h
    · obtain ⟨hlen, rfl, -⟩ := h
      simp only [List.length_nil, List.flatten_nil]
      omega
    · obtain ⟨hlen, -, hrun⟩ := h
      have := ih hrun
      omega

/-! ### The attempts and what follows them (R170 steps 4, 5) -/

/-- `SWE` cleared and the command completed. -/
theorem lockAndRespond_logs {p : DeviceProfile} {i : Nat} {s : State} (h : AtBlock p i s) (r : Status) :
    Yields (fun t => Logged 2 [.wait p.delays.sweHold] s t ∧ t.port.status = p.statusEnc.code r)
      (lockAndRespond r s) := by
  rw [lockAndRespond, h.profile]
  refine (yields_acts rfl rfl).bind fun t ht => yields_next ⟨ht.log.move rfl, ?_⟩
  rw [← (h.same ht.toSameAttempt).profile]
  rfl

/-- What the retry loop records and answers from attempt `n` on, as the words of its scans tell. -/
def RunsFrom (p : DeviceProfile) (i n : Nat) (s t : State) : Prop :=
  ∃ vss r, Logged (12 * vss.length + 2) (vss.flatMap (eraseAttemptEvents p i) ++ [.wait p.delays.sweHold]) s t ∧
    eraseRun p (blockWords p i) n vss r ∧ t.port.status = p.statusEnc.code r

section

variable {p : DeviceProfile} {i : Nat} {s : State} (hwf : p.wf = true) (hi : i < p.blockCount)
include hwf hi

/-- An attempt records the events that the words of its scan give, with the accesses of six `BitSet`s and `BitClr`s. -/
theorem eraseAttempt_records (h : AtBlock p i s) :
    Yields (fun t => ∃ vs, Records 12 (eraseAttemptEvents p i vs) s t ∧ ScanVerdict (blockWords p i) vs t.loc.flag)
      (eraseAttempt s) := by
  unfold eraseAttempt execSelectBlock
  rw [h.profile, h.index, if_neg (Nat.not_le.2 hi)]
  refine (yields_acts (c := 0) rfl rfl).bind fun t ht => ?_
  rw [execErasePulse, (h.same ht.toSameAttempt).profile]
  refine (yields_acts (c := 8) rfl rfl).bind fun u hu => ?_
  have hb := (h.same ht.toSameAttempt).same hu.toSameAttempt
  rw [hb.blkStart, hb.blkEnd]
  refine (eraseVerify_records (scanWords_block hwf hi).2 u.ctx.bank u).mono fun v hv => ?_
  obtain ⟨vs, hverify, hverdict⟩ := hv
  rw [hb.profile] at hverify
  rw [scanWords_eq_blockWords hwf hi] at hverdict
  refine ⟨vs, ?_, hverdict⟩
  rw [eraseAttemptEvents_eq]
  exact ht.trans (hu.trans hverify)

/-- The retry loop runs as the words of its scans tell. -/
theorem eraseAttempts_runsFrom {n left : Nat} (hn : n + left = p.maxEraseRetries.toNat) (h : AtBlock p i s) :
    Yields (RunsFrom p i n s) (eraseAttempts left s) := by
  induction left generalizing n s with
  | zero => exact (lockAndRespond_logs h _).mono fun t ht => ⟨[], _, ht.1, ⟨rfl, hn⟩, ht.2⟩
  | succ left ih =>
    refine (eraseAttempt_records hwf hi h).bind fun t ht => ?_
    obtain ⟨vs, hattempt, hverdict⟩ := ht
    have hb := h.same hattempt.toSameAttempt
    cases hflag : t.loc.flag with
    | true =>
      rw [hflag] at hverdict
      refine (lockAndRespond_logs hb _).mono fun u hu => ⟨[vs], _, ?_, eraseRun_of_pass (by omega) hverdict, hu.2⟩
      rw [List.flatMap_singleton]
      exact hattempt.log.trans hu.1
    | false =>
      rw [hflag] at hverdict
      obtain ⟨hnext, htrace⟩ := hb.numbered (left = 0) (t.ctx.n + 1)
      refine (ih (n := n + 1) (by omega) hnext).mono fun u hu => ?_
      obtain ⟨vss, r, hlog, hrun, hstatus⟩ := hu
      refine ⟨vs :: vss, r, ?_, eraseRun_of_fail (by omega) hverdict hrun, hstatus⟩
      rw [List.flatMap_cons, List.append_assoc, List.length_cons,
        show 12 * (vss.length + 1) + 2 = 12 + (12 * vss.length + 2) by omega]
      exact (hattempt.log.move htrace).trans hlog

/-- `SWE` set, the retry loop from its first attempt on. -/
theorem eraseUnlocked_runsFrom (h : AtBlock p i s) : Yields (fun t => ∃ u, Logged 2 [.wait p.delays.sweSetup] s u ∧
    RunsFrom p i 0 u t) (eraseUnlocked s) := by
  rw [eraseUnlocked, h.profile]
  refine (yields_acts (c := 2) (l := [.wait p.delays.sweSetup]) rfl rfl).bind fun t ht => ?_
  have hb := h.same ht.toSameAttempt
  obtain ⟨hfirst, htrace⟩ := hb.numbered (t.profile.maxEraseRetries = 0) 1
  refine (eraseAttempts_runsFrom hwf hi (n := 0) ?_ hfirst).mono fun u hu => ⟨_, ht.log.move htrace, hu⟩
  rw [hb.profile, Nat.zero_add]

end

/-! ### The command -/

/-- The verdict of `Precond` is the one its two reads will find (R122). -/
theorem flag_precond (s : State) : (afterActs precondActs s).judgePrecond.loc.flag = s.precondNow := by
  show ((s.content (.fcr .b0)).getLsbD s.profile.regLayout.status.val &&
    !((s.regRead (.fcr .b0)).content (.fcr .b1)).getLsbD s.profile.regLayout.status.val) = _
  rw [getLsbD_content_status]
  exact congrArg (fun b => s.statusInput .b0 && !b) (getLsbD_content_status (s.regRead (.fcr .b0)) .b1)

theorem sameAttempt_judgePrecond (s : State) : SameAttempt s s.judgePrecond :=
  ⟨⟨rfl, rfl, rfl⟩, rfl, rfl, rfl, rfl, rfl⟩

/-- `Precond` records its two reads (R122). -/
theorem precond_records (s : State) :
    Yields (fun t => Records 2 [] s t ∧ t.loc.flag = s.precondNow) (execPrecond s) := by
  have hreads : Records 2 [] s (afterActs precondActs s) := records_acts rfl rfl
  refine Yields.bind (Q := fun t => Records 2 [] s t.judgePrecond ∧ t.judgePrecond.loc.flag = s.precondNow) ?_
    fun t ht => yields_next ht
  exact yields_runActs ⟨hreads.move (sameAttempt_judgePrecond _) rfl, flag_precond s⟩

/-- An armed, well-conditioned erase of a block: the precondition, `SWE` set, and the run of its attempts (R170). -/
theorem eraseBlock_runsFrom {s : State} {index : Word} (harmed : s.armed = true)
    (hi : index.toNat < s.profile.blockCount) (hpre : s.precondNow = true) :
    Yields (fun t => ∃ u, Logged 4 [.wait s.profile.delays.sweSetup] s u ∧ RunsFrom s.profile index.toNat 0 u t)
      (execEraseBlock index s) := by
  refine yields_whenReady fun hwf => ?_
  have hai : index.toNat < (s.acceptErase index).profile.blockCount := hi
  have haa : ¬ (s.acceptErase index).armed = false := ne_of_eq_of_ne harmed (by decide)
  rw [eraseAccepted, if_neg (Nat.not_le.2 hai), if_neg haa, resolveBlock_of_lt hai]
  have hloaded : AtBlock s.profile index.toNat (((s.acceptErase index).loadBlock index).withResult .ok) :=
    ⟨rfl, rfl, rfl, rfl, rfl⟩
  refine (precond_records _).bind fun t ht => ?_
  obtain ⟨hreads, hflag⟩ := ht
  rw [if_pos (hflag.trans hpre)]
  refine (eraseUnlocked_runsFrom hwf hi (hloaded.same hreads.toSameAttempt)).mono fun v hv => ?_
  obtain ⟨u, hunlock, hrun⟩ := hv
  exact ⟨u, hreads.log.trans hunlock, hrun⟩

/-! ### Counting the events -/

theorem countP_isBlockEnable_scanEvents (d a : Word) (vs : List Word) :
    (scanEvents d a vs).countP Event.isBlockEnable = 0 := by
  induction vs generalizing a with
  | nil => rfl
  | cons v vs ih => exact ih (a + 4)

theorem length_scannedWords (a : Word) (vs : List Word) : (scannedWords a vs).length = vs.length := by
  rw [← List.length_map (f := Prod.snd), map_snd_scannedWords]

/-- What the events `es` shown of attempts count for, `vss` being the words the attempts read (R280). -/
structure AttemptCounts (vss : List (List Word)) (es : List Event) : Prop where
  length : es.length = 13 * vss.length + 3 * vss.flatten.length
  starts : es.countP Event.isWdtStart = vss.length
  enables : es.countP Event.isBlockEnable = 2 * vss.length
  words : (wordsRead es).length = vss.flatten.length

theorem AttemptCounts.append {vss wss : List (List Word)} {es fs : List Event} (h : AttemptCounts vss es)
    (g : AttemptCounts wss fs) : AttemptCounts (vss ++ wss) (es ++ fs) := by
  obtain ⟨h1, h2, h3, h4⟩ := h
  obtain ⟨g1, g2, g3, g4⟩ := g
  constructor <;>
    simp only [List.length_append, List.flatten_append, List.countP_append, wordsRead_append] <;> omega

theorem counts_attempt (p : DeviceProfile) (i : Nat) (vs : List Word) :
    AttemptCounts [vs] (eraseAttemptEvents p i vs) := by
  rw [eraseAttemptEvents_eq]
  constructor
  · simp only [List.length_append, length_scanEvents, pulseEvents, List.length_cons, List.length_nil,
      List.flatten_cons, List.flatten_nil]
    omega
  · simp only [List.countP_append, countP_scanEvents]
    rfl
  · simp only [List.countP_append, countP_isBlockEnable_scanEvents]
    rfl
  · simp only [wordsRead_append, wordsRead_scanEvents]
    simp [pulseEvents, wordsRead, length_scannedWords]

theorem counts_attempts (p : DeviceProfile) (i : Nat) (vss : List (List Word)) :
    AttemptCounts vss (vss.flatMap (eraseAttemptEvents p i)) := by
  induction vss with
  | nil => exact ⟨rfl, rfl, rfl, rfl⟩
  | cons vs vss ih => exact (counts_attempt p i vs).append ih

/-- Settles O50: the run of the attempts gives the events shown, and every event that is counted but the accesses of the
control registers is shown. -/
theorem eraseEventCount : Obligations.EraseEventCount := by
  intro s t index harmed hi hpre he
  obtain ⟨u, hhead, vss, r, hattempts, hrun, hstatus⟩ := eraseBlock_runsFrom harmed hi hpre t he
  obtain ⟨es, htrace, hcontrol, hshown⟩ := hhead.trans hattempts
  rw [← List.append_assoc] at hshown
  obtain ⟨hlength, hstarts, henables, hwords⟩ := counts_attempts s.profile index.toNat vss
  have hes : es.length = 8 + 25 * vss.length + 3 * vss.flatten.length := by
    rw [length_eq_shown, hshown, hcontrol]
    simp only [List.length_append, List.length_singleton, hlength]
    omega
  have hstart : es.countP Event.isWdtStart = vss.length := by
    rw [← countP_shown isControl_of_isWdtStart, hshown, List.countP_append, List.countP_append, hstarts]
    simp [Event.isWdtStart]
  have henable : es.countP Event.isBlockEnable = 2 * vss.length := by
    rw [← countP_shown isControl_of_isBlockEnable, hshown, List.countP_append, List.countP_append, henables]
    simp [Event.isBlockEnable]
  have hword : (wordsRead es).length = vss.flatten.length := by
    rw [← wordsRead_shown, hshown, wordsRead_append, wordsRead_append, List.length_append, List.length_append, hwords]
    simp [wordsRead]
  obtain ⟨hbudget, hscans⟩ := eraseRun_bounds hrun
  rw [← hstart] at henable hbudget hscans hes
  rw [← hword] at hscans hes
  refine ⟨es, htrace, hes, by omega, ?_, henable, vss, r, hstatus, hrun, hshown⟩
  calc 4 * (wordsRead es).length
    _ ≤ 4 * (es.countP Event.isWdtStart * blockWords s.profile index.toNat) := Nat.mul_le_mul_left 4 hscans
    _ = es.countP Event.isWdtStart * (4 * blockWords s.profile index.toNat) := Nat.mul_left_comm ..
    _ ≤ _ := Nat.mul_le_mul_left _ (Nat.mul_div_le _ 4)

end Sys2Proof.Machine
end

section
/-! The argument checks of `write_range`: the status of each failing check, and what they answer at the end of the flash
(R161). -/

namespace Sys2Proof.Machine

section
variable {p : DeviceProfile} {dest len : Word}

theorem rangeStatus_of_beyond (hd : p.flashMax < dest) : rangeStatus p dest len = .outOfBounds := if_pos hd

theorem rangeStatus_of_misaligned (hd : dest ≤ p.flashMax) (hal : dest.toNat % p.pageBytes ≠ 0) :
    rangeStatus p dest len = .misaligned := by
  rw [rangeStatus, if_neg (BitVec.not_lt.2 hd), if_pos hal]

theorem rangeStatus_of_badLength (hd : dest ≤ p.flashMax) (hal : dest.toNat % p.pageBytes = 0)
    (hlen : len.toNat % p.pageBytes ≠ 0) : rangeStatus p dest len = .badLength := by
  rw [rangeStatus, if_neg (BitVec.not_lt.2 hd), if_neg (not_not_intro hal), if_pos hlen]

theorem rangeStatus_of_aligned (hd : dest ≤ p.flashMax) (hal : dest.toNat % p.pageBytes = 0)
    (hlen : len.toNat % p.pageBytes = 0) : rangeStatus p dest len = .ok := by
  rw [rangeStatus, if_neg (BitVec.not_lt.2 hd), if_neg (not_not_intro hal), if_neg (not_not_intro hlen)]

end

/-- No page begins at the last byte of the flash: it would end beyond it. -/
theorem flashMax_not_aligned {p : DeviceProfile} (h : p.wf = true) : p.flashMax.toNat % p.pageBytes ≠ 0 := by
  intro hal
  have hpage := page_le_flashMax h hal (Nat.le_refl _)
  rcases pageBytes_cases p with hp | hp <;> omega

/-- One past the flash does not wrap, as a whole page past it does not. -/
theorem flashMax_lt_succ {p : DeviceProfile} (h : p.wf = true) : p.flashMax < p.flashMax + 1 := by
  have hmax := flashMax_add_page h
  have hone : p.flashMax.toNat + 1 < 2 ^ 32 := by rcases pageBytes_cases p with hp | hp <;> omega
  rw [BitVec.lt_def, BitVec.toNat_add_of_lt hone]
  exact Nat.lt_succ_self _

/-- Settles O23: the result is the status of the first check that fails; the last byte of the flash passes the bound and
begins no page, and the address after it, which does not wrap to 0, fails the bound. -/
theorem validateRangeResult : Obligations.ValidateRangeResult := by
  refine fun s dest len => ⟨rangeStatus s.profile dest len, rfl, rangeStatus_of_beyond, rangeStatus_of_misaligned,
    rangeStatus_of_badLength, rangeStatus_of_aligned, fun hwf hd => ?_, fun hwf hd => ?_⟩
  · rw [hd]
    exact rangeStatus_of_misaligned (BitVec.le_refl _) (flashMax_not_aligned hwf)
  · rw [hd]
    exact rangeStatus_of_beyond (flashMax_lt_succ hwf)

end Sys2Proof.Machine
end

section
/-! `erase_block` completes whatever the flash answers: every point of it has the watchdog stopped, the control bits of
its stretch, and the block-enable registers untouched or holding the block alone (R143, R146, R154, R170, R174,
R178). -/

namespace Sys2Proof.Machine

/-! ### Control bits over a `BitSet` or a `BitClr` and its delay -/

theorem Bits.on_wait {k : Bank} {c : List Field} {s : State} (hl : s.profile.regLayout.wf = true) (h : Bits k c s)
    (f : Field) (d : Word) : Bits k (f :: c) (afterActs (bitOn k f ++ [.wait d]) s) := by
  rw [afterActs_append]
  exact (h.on hl f).keep (by simp [Act.code])

theorem Bits.off_wait {k : Bank} {c : List Field} {s : State} (hl : s.profile.regLayout.wf = true) {f : Field}
    (h : Bits k (f :: c) s) (hc : f ∉ c) (d : Word) : Bits k c (afterActs (bitOff k f ++ [.wait d]) s) := by
  rw [afterActs_append]
  exact (h.off hl hc).keep (by simp [Act.code])

/-- `SelectBlock` writes no control register (R154). -/
theorem Bits.select {k : Bank} {c : List Field} {s : State} (h : Bits k c s) (p : DeviceProfile) (i : Nat) :
    Bits k c (afterActs (selectActs p i) s) := fun j f => by
  have hacts : afterActs (selectActs p i) s =
      (s.regWrite (.ebr (p.blockBank i).other) 0).regWrite (.ebr (p.blockBank i)) (p.ebrMask i) := rfl
  rw [bit_other_of_fcr (afterActs_fields _ s).1 (by rw [hacts, fcr_regWrite_ebr, fcr_regWrite_ebr]), h]

/-! ### Points of an erase -/

/-- The block-enable registers are those of `s₀`, or hold the bit of block `i` alone (R34, R154). -/
def Selects (s₀ : State) (i : Nat) (t : State) : Prop :=
  (∀ k, t.ebr k = s₀.ebr k) ∨
    (t.ebr (s₀.profile.blockBank i) = s₀.profile.ebrMask i ∧ t.ebr (s₀.profile.blockBank i).other = 0)

theorem Selects.of_ebr {s₀ s t : State} {i : Nat} (h : Selects s₀ i s) (he : ∀ k, t.ebr k = s.ebr k) :
    Selects s₀ i t := by
  unfold Selects
  simp only [he]
  exact h

/-- A point of the erase of block `i` with the control bits `c` in the block's bank alone: what the erase leaves as it
was at `s₀`, and the watchdog stopped. -/
structure BlockPoint (s₀ : State) (i : Nat) (c : List Field) (t : State) : Prop extends AtBlock s₀.profile i t where
  port : t.port = s₀.port
  opr : t.opr = s₀.opr
  armed : t.armed = s₀.armed
  mask : t.irq.mask = s₀.irq.mask
  stopped : t.wdt.run = false
  bits : Bits (s₀.profile.blockBank i) c t
  selects : Selects s₀ i t

section

variable {s₀ s t : State} {i : Nat} {c : List Field}

theorem BlockPoint.layout (hwf : s₀.profile.wf = true) (h : BlockPoint s₀ i c s) : s.profile.regLayout.wf = true :=
  layout_of_wf (by rw [h.profile]; exact hwf)

/-- A part of the erase that leaves the block's registers and what the erase leaves as they were. -/
theorem BlockPoint.step (h : BlockPoint s₀ i c s)
    (hf : t.profile = s.profile ∧ t.port = s.port ∧ t.opr = s.opr ∧ t.armed = s.armed ∧ t.irq.mask = s.irq.mask)
    (hx : t.ctx.bank = s.ctx.bank ∧ t.ctx.blkStart = s.ctx.blkStart ∧ t.ctx.blkEnd = s.ctx.blkEnd)
    (hw : t.wdt.run = false) (hs : Selects s₀ i t) {c' : List Field} (hb : Bits (s₀.profile.blockBank i) c' t) :
    BlockPoint s₀ i c' t := by
  obtain ⟨hp, hq, ho, ha, hm⟩ := hf
  obtain ⟨hbank, hstart, hend⟩ := hx
  exact ⟨⟨hp.trans h.profile, by rw [ho, h.index], hbank.trans h.bank, hstart.trans h.blkStart, hend.trans h.blkEnd⟩,
    hq.trans h.port, ho.trans h.opr, ha.trans h.armed, hm.trans h.mask, hw, hb, hs⟩

/-- A part of the erase that keeps every register but those of the PulseContext that are not the block's. -/
theorem BlockPoint.kept (h : BlockPoint s₀ i c s) (hk : Kept s t) (hx : t.ctx.bank = s.ctx.bank ∧
    t.ctx.blkStart = s.ctx.blkStart ∧ t.ctx.blkEnd = s.ctx.blkEnd) : BlockPoint s₀ i c t :=
  h.step ⟨hk.profile, hk.port, hk.opr, hk.armed, by rw [hk.irq]⟩ hx (by rw [hk.wdt, h.stopped])
    (h.selects.of_ebr (ebr_of_regs hk.regs)) fun j f => (bit_of_regs hk.profile hk.regs j f).trans (h.bits j f)

/-- A move of the sequencer within the erase. -/
theorem BlockPoint.move (h : BlockPoint s₀ i c s) {x : PulseContext} {l : Locals} (hx : x.bank = s.ctx.bank ∧
    x.blkStart = s.ctx.blkStart ∧ x.blkEnd = s.ctx.blkEnd) : BlockPoint s₀ i c { s with ctx := x, loc := l } :=
  h.kept ⟨rfl, rfl, rfl, rfl, rfl, rfl, rfl, rfl, rfl, rfl, rfl, rfl⟩ hx

/-- A run of acts that ends with the watchdog stopped and the mask as it was. -/
theorem BlockPoint.acts (h : BlockPoint s₀ i c s) {l : List Act} {c' : List Field}
    (hw : (afterActs l s).wdt.run = false) (hm : (afterActs l s).irq.mask = s.irq.mask)
    (hs : Selects s₀ i (afterActs l s)) (hb : Bits (s₀.profile.blockBank i) c' (afterActs l s)) :
    BlockPoint s₀ i c' (afterActs l s) := by
  obtain ⟨hp, hq, -, ho, ha, -⟩ := afterActs_fields l s
  exact h.step ⟨hp, hq, ho, ha, hm⟩ (by rw [(afterActs_ctx l s).1]; exact ⟨rfl, rfl, rfl⟩) hw hs hb

theorem BlockPoint.toggled (h : BlockPoint s₀ i c s) {k : Bank} {d : Word} {c' : List Field} (ht : Toggled s k d t)
    (hb : Bits (s₀.profile.blockBank i) c' t) : BlockPoint s₀ i c' t :=
  h.step ⟨ht.profile, ht.port, ht.opr, ht.armed, by rw [ht.irq]⟩ (by rw [ht.ctx]; exact ⟨rfl, rfl, rfl⟩)
    (by rw [ht.wdt, h.stopped]) (h.selects.of_ebr ht.ebr) hb

/-- `BitSet` and its delay (R112). -/
theorem BlockPoint.on (hwf : s₀.profile.wf = true) (h : BlockPoint s₀ i c s) (f : Field) (d : Word) :
    Attains (BlockPoint s₀ i (f :: c)) (runActs (bitOn s.ctx.bank f ++ [.wait d]) s) := by
  rw [h.bank]
  exact attains_runActs (fits_on_wait h.stopped _ _ _)
    (h.toggled (toggled_on (h.layout hwf) h.stopped _ f d) (h.bits.on_wait (h.layout hwf) f d))

/-- `BitClr` of a bit that is no pulse bit, and its delay (R113). -/
theorem BlockPoint.off (hwf : s₀.profile.wf = true) {f : Field} (h : BlockPoint s₀ i (f :: c) s) (hc : f ∉ c)
    (he : f ≠ .e) (hp : f ≠ .p) (d : Word) :
    Attains (BlockPoint s₀ i c) (runActs (bitOff s.ctx.bank f ++ [.wait d]) s) := by
  rw [h.bank]
  exact attains_runActs (fits_off_wait h.stopped _ _ _)
    (h.toggled (toggled_off (h.layout hwf) h.stopped _ he hp d) (h.bits.off_wait (h.layout hwf) hc d))

/-! ### The attempt (R170 step 4) -/

theorem BlockPoint.selectBlock (hi : i < s₀.profile.blockCount) (h : BlockPoint s₀ i c s) :
    Attains (BlockPoint s₀ i c) (execSelectBlock s.opr.index s) := by
  have hidx : s.opr.index.toNat < s.profile.blockCount := by rw [h.index, h.profile]; exact hi
  refine ⟨_, selectBlock_runs hidx (calm_of_stopped h.stopped), ?_⟩
  rw [h.index, h.profile]
  exact h.acts h.stopped rfl (.inr (select_flash s s₀.profile i).2) (h.bits.select s₀.profile i)

theorem BlockPoint.erasePulse (hwf : s₀.profile.wf = true) (hg : s₀.profile.guardWf = true)
    (h : BlockPoint s₀ i [.swe] s) : Attains (BlockPoint s₀ i [.swe]) (execErasePulse s.ctx.bank s) := by
  have hl := h.layout hwf
  rw [execErasePulse, h.profile]
  refine attains_runActs (erasePulse_fits hg h.profile _) (h.acts stopped_pulse irqMask_pulse
    (h.selects.of_ebr (ebr_pulse (g := .esu) (f := .e) hl (by decide) (by decide))) ?_)
  rw [h.bank]
  exact bits_pulse (g := .esu) (f := .e) hl h.bits (by decide) (by decide) (by decide)

/-- The scan of a block ends, whatever the flash answers (R172). -/
theorem BlockPoint.scan (hwf : s₀.profile.wf = true) (hi : i < s₀.profile.blockCount) (h : BlockPoint s₀ i c s) :
    Attains (BlockPoint s₀ i c) (eraseScan (s₀.profile.tableAt (i + 1))
      (scanWords (s₀.profile.tableAt i) (s₀.profile.tableAt (i + 1))) (s.startScan (s₀.profile.tableAt i))) := by
  obtain ⟨hal, hend⟩ := scanWords_block hwf hi
  have hstart : BlockPoint s₀ i c (s.startScan (s₀.profile.tableAt i)) := h.move ⟨rfl, rfl, rfl⟩
  have hfit := scanFits_of_range hal (hend.trans_le (tableAt_le_flashMax hwf hi))
  obtain ⟨vs, t, hrun, ht⟩ := eraseScan_runs hstart.stopped rfl (by rw [hstart.profile]; exact hfit)
  exact ⟨t, hrun, hstart.kept ht.toKept (by rw [ht.ctx]; exact ⟨rfl, rfl, rfl⟩)⟩

theorem BlockPoint.eraseVerify (hwf : s₀.profile.wf = true) (hi : i < s₀.profile.blockCount)
    (h : BlockPoint s₀ i [.swe] s) :
    Attains (BlockPoint s₀ i [.swe]) (execEraseVerify s.ctx.bank s.ctx.blkStart s.ctx.blkEnd s) := by
  rw [h.blkStart, h.blkEnd]
  refine (h.on hwf .ev _).bind fun t ht => (ht.scan hwf hi).bind fun u hu => ?_
  rw [h.bank, ← hu.bank]
  exact hu.off hwf (by decide) (by decide) (by decide) _

theorem BlockPoint.eraseAttempt (hwf : s₀.profile.wf = true) (hg : s₀.profile.guardWf = true)
    (hi : i < s₀.profile.blockCount) (h : BlockPoint s₀ i [.swe] s) :
    Attains (BlockPoint s₀ i [.swe]) (eraseAttempt s) :=
  (h.selectBlock hi).bind fun _ ht => (ht.erasePulse hwf hg).bind fun _ hu => hu.eraseVerify hwf hi

/-! ### The exits (R170 step 5, R174) -/

/-- The statuses an erase can end with (R170). -/
def eraseStatuses : List Status := [.ok, .badBlock, .deviceError, .eraseVerifyFailed]

/-- The end of an erase: one of its statuses on the response port, the device locked, the rest as at `s₀`. -/
structure EraseEnd (s₀ : State) (i : Nat) (t : State) : Prop where
  st : t.st = .idle
  status : ∃ r ∈ eraseStatuses,
    t.port = { s₀.port with status := s₀.profile.statusEnc.code r, rspValid := true }
  locked : t.locked = true
  stopped : t.wdt.run = false
  mask : t.irq.mask = s₀.irq.mask
  armed : t.armed = s₀.armed
  opr : t.opr = s₀.opr
  selects : Selects s₀ i t

theorem BlockPoint.respond (h : BlockPoint s₀ i [] s) {r : Status} (hr : r ∈ eraseStatuses) :
    EraseEnd s₀ i (s.respond r) where
  st := rfl
  status := ⟨r, hr, by rw [← h.profile, ← h.port]; rfl⟩
  locked := locked_of_bits h.bits
  stopped := h.stopped
  mask := h.mask
  armed := h.armed
  opr := h.opr
  selects := h.selects

theorem BlockPoint.lockAndRespond (hwf : s₀.profile.wf = true) (h : BlockPoint s₀ i [.swe] s) {r : Status}
    (hr : r ∈ eraseStatuses) : Attains (EraseEnd s₀ i) (lockAndRespond r s) :=
  (h.off hwf (by decide) (by decide) (by decide) _).bind fun _ ht => attains_next (ht.respond hr)

/-- The attempts that are left end the erase, whatever the flash answers (R178). -/
theorem BlockPoint.eraseAttempts (hwf : s₀.profile.wf = true) (hg : s₀.profile.guardWf = true)
    (hi : i < s₀.profile.blockCount) (h : BlockPoint s₀ i [.swe] s) (left : Nat) :
    Attains (EraseEnd s₀ i) (eraseAttempts left s) := by
  induction left generalizing s with
  | zero => exact h.lockAndRespond hwf (by decide)
  | succ left ih =>
    refine (h.eraseAttempt hwf hg hi).bind fun t ht => ?_
    split
    · exact ht.lockAndRespond hwf (by decide)
    · split
      · exact ih ht
      · exact ih (ht.move ⟨rfl, rfl, rfl⟩)

theorem BlockPoint.eraseUnlocked (hwf : s₀.profile.wf = true) (hg : s₀.profile.guardWf = true)
    (hi : i < s₀.profile.blockCount) (h : BlockPoint s₀ i [] s) : Attains (EraseEnd s₀ i) (eraseUnlocked s) := by
  refine (h.on hwf .swe _).bind fun t ht => ?_
  have hfirst : BlockPoint s₀ i [.swe] (t.firstAttempt t.profile.maxEraseRetries) := by
    unfold State.firstAttempt
    split
    · exact ht
    · exact ht.move ⟨rfl, rfl, rfl⟩
  exact hfirst.eraseAttempts hwf hg hi _

end

/-! ### The command -/

/-- An erase whose arguments or gate end it at once leaves a locked device as it was (R170 step 1, R222). -/
theorem eraseEnd_of_respond {s : State} (i : Nat) (hw : s.wdt.run = false) (hlocked : s.locked = true) {r : Status}
    (hr : r ∈ eraseStatuses) : EraseEnd s i (s.respond r) :=
  ⟨rfl, ⟨r, hr, rfl⟩, hlocked, hw, rfl, rfl, rfl, .inl fun _ => rfl⟩

/-- An accepted `erase_block` of a locked device ends, whatever the flash answers (R170). -/
theorem eraseAccepted_attains {s : State} (hwf : s.profile.wf = true) (hg : s.profile.guardWf = true)
    (hw : s.wdt.run = false) (hlocked : s.locked = true) :
    Attains (EraseEnd s s.opr.index.toNat) (eraseAccepted s.opr.index s) := by
  unfold eraseAccepted
  split
  · exact attains_next (eraseEnd_of_respond _ hw hlocked (by decide))
  · next hidx =>
    have hi := Nat.not_le.1 hidx
    split
    · exact attains_next (eraseEnd_of_respond _ hw hlocked (by decide))
    · rw [resolveBlock_of_lt hi]
      have hloaded : BlockPoint s s.opr.index.toNat [] ((s.loadBlock s.opr.index).withResult .ok) :=
        ⟨⟨rfl, rfl, rfl, rfl, rfl⟩, rfl, rfl, rfl, rfl, hw, bits_of_locked hlocked _, .inl fun _ => rfl⟩
      refine (precond_runs hloaded.stopped).bind fun t ht => ?_
      have hpoint := hloaded.kept ht.toKept (by rw [ht.ctx]; exact ⟨rfl, rfl, rfl⟩)
      split
      · exact hpoint.eraseUnlocked hwf hg hi
      · exact attains_next (hpoint.respond (by decide))

/-- Without its precondition an armed erase of a block makes the two reads of `Precond` and answers `device-error`
(R170 step 2, R236). -/
theorem eraseBlock_of_not_precond {s : State} {index : Word} (hready : s.ready = true) (hc : s.calm = true)
    (harmed : s.armed = true) (hi : index.toNat < s.profile.blockCount) (hpre : s.precondNow = false) :
    execEraseBlock index s = .next ((afterActs precondActs
      (((s.acceptErase index).loadBlock index).withResult .ok)).judgePrecond.respond .deviceError) := by
  have hai : index.toNat < (s.acceptErase index).profile.blockCount := hi
  have haa : ¬ (s.acceptErase index).armed = false := ne_of_eq_of_ne harmed (by decide)
  rw [execEraseBlock, whenReady_of_ready hready, eraseAccepted, if_neg (Nat.not_le.2 hai), if_neg haa,
    resolveBlock_of_lt hai, execPrecond,
    runActs_of_calm (s := ((s.acceptErase index).loadBlock index).withResult .ok) hc
      (by simp [precondActs, Act.watchdog]) (by simp [precondActs, Act.reaches]),
    andThen_of_next, andThen_of_next, if_neg]
  rw [flag_precond]
  exact ne_of_eq_of_ne hpre (by decide)

/-- Settles O45: every attempt begins and ends with `SWE` alone, so that each exit leaves the device locked; and where
the precondition fails, the two reads of `Precond` are all that was done. -/
theorem eraseBlockCompletes : Obligations.EraseBlockCompletes := by
  refine ⟨fun s index hready hg hw hlocked => ?_, fun s index hready hc harmed hi hpre => ?_⟩
  · have hwf := wf_of_ready hready
    obtain ⟨t, hrun, ht⟩ := eraseAccepted_attains (s := s.acceptErase index) hwf hg hw hlocked
    obtain ⟨r, hr, hport⟩ := ht.status
    exact ⟨t, (whenReady_of_ready hready _).trans hrun, ht.st, by rw [hport], ⟨r, hr, by rw [hport]; rfl⟩, ht.locked,
      ht.stopped, ht.mask, ht.armed, ht.opr, by rw [hport]; rfl, ht.selects⟩
  · exact ⟨_, _, _, eraseBlock_of_not_precond hready hc harmed hi hpre, rfl, rfl, rfl, afterActs_trace precondActs _,
      rfl, rfl, rfl, rfl, rfl, rfl⟩

end Sys2Proof.Machine
end

section
/-! The arrows of the state register (R173, R201), and the moment of a pulse: the guard, the mask and the selection
while a pulse bit is set, and that no step but those of `SelectBlock` writes a block-enable register (R175, R264, R266,
R269). -/

namespace Sys2Proof.Machine

/-! ### The state register -/

/-- The stretches that can come after a stretch have its state, or one that an arrow leads to. -/
theorem arrow_of_successor (g : Seg) : ∀ h ∈ g.successors, h.st = g.st ∨ (g.st, h.st) ∈ arrows := by
  cases g <;> decide

/-- An idle block stays idle or accepts a command (R90). -/
theorem st_of_stepIdle {s t : State} (h : stepIdle s = .next t) : t.st = s.st ∨ t.st = .validate := by
  unfold stepIdle at h
  split at h
  · cases h
    exact .inl rfl
  · obtain rfl := Host.Outcome.next.inj (whenReady_eq_next h)
    exact .inr (accepted _ _).st

theorem arrow_of_finish {s t : State} (h : s.seq.seg.finish s = .next t) : t.st = s.st ∨ (s.st, t.st) ∈ arrows := by
  by_cases hg : s.seq.seg = .idle
  · rw [hg] at h
    refine (st_of_stepIdle h).imp_right fun ht => ?_
    rw [ht, State.st, hg]
    decide
  · exact arrow_of_successor _ _ (finish_moved (fun e => absurd e hg) rfl h).seg

/-- Settles O9: an act leaves the stretch, and the end of a stretch goes to one that can come after it. -/
theorem transitionsAllowed : Obligations.TransitionsAllowed := by
  intro s t hr hu h
  rcases step_cases hr hu h with ⟨-, hf⟩ | ⟨a, -, -, -, ⟨-, rfl⟩ | ⟨-, hf⟩⟩
  · exact arrow_of_finish hf
  · exact .inl rfl
  · have hseq := (act_after_fields a s).2.2.1
    rw [← hseq] at hf
    have harrow := arrow_of_finish hf
    rwa [State.st, State.st, hseq] at harrow

/-! ### The block-enable registers along a step -/

/-- Only `SelectBlock` writes a register with a constant (R154). -/
theorem ne_write_of_act {s : State} {a : Act} (hg : s.seq.seg ≠ .eSelect) (ha : s.act = some a) (r : Reg) (v : Byte) :
    a ≠ .write r v := by
  obtain ⟨h, q, hnext⟩ := exists_next_point s
  obtain ⟨-, -, -, -, hwrite⟩ := order_of_act ha hnext
  exact fun e => hg (hwrite r v e)

theorem act_after_ebr {a : Act} (s : State) (h : ∀ r v, a ≠ .write r v) (j : Bank) : (a.after s).ebr j = s.ebr j := by
  cases a with
  | write r v => exact absurd rfl (h r v)
  | setBit k f | clrBit k f => exact ebr_regWrite_fcr s k j _
  | _ => rfl

theorem act_event_isBlockEnable {a : Act} (s : State) (h : ∀ r v, a ≠ .write r v) :
    ((a.op s).event s).isBlockEnable = false := by
  cases a with
  | write r v => exact absurd rfl (h r v)
  | _ => rfl

/-- `t` comes after `s` without a write of a block-enable register (R154). -/
def Unselected (s t : State) : Prop :=
  (∀ e ∈ t.trace.drop s.trace.length, e.isBlockEnable = false) ∧ ∀ j, t.ebr j = s.ebr j

theorem unselected_of_act {a : Act} {s t : State} (h : ∀ r v, a ≠ .write r v) (ht : t.trace = (a.after s).trace)
    (hr : t.regs = (a.after s).regs) : Unselected s t := by
  refine ⟨fun e he => ?_, fun j => (ebr_of_regs hr j).trans (act_after_ebr s h j)⟩
  rw [ht, (act_after_fields a s).2.2.2.2.2.2.2.2.1, List.drop_left, List.mem_singleton] at he
  rw [he, act_event_isBlockEnable s h]

/-- No step outside `SelectBlock` writes a block-enable register. -/
theorem unselected_of_step {s t : State} (hg : s.seq.seg ≠ .eSelect) (hr : s.port.resetPin = false)
    (hu : s.port.uword = none) (h : step s = .next t) : Unselected s t := by
  rcases step_cases hr hu h with ⟨-, hf⟩ | ⟨a, ha, -, -, ⟨-, rfl⟩ | ⟨-, hf⟩⟩
  · have hq := (finish_fields hf).1
    have htrace : t.trace = s.trace := hq.trace
    exact ⟨by simp [htrace], ebr_of_regs hq.regs⟩
  · exact unselected_of_act (ne_write_of_act hg ha) rfl rfl
  · have hq := (finish_fields hf).1
    exact unselected_of_act (ne_write_of_act hg ha) hq.trace hq.regs

/-! ### The points of a pulse -/

/-- The points at which a pulse bit is set lie inside the guard scope and the mask window, with `SWE` and the setup bit
set; for `E` the block is selected, and none of them is in `SelectBlock` (R33, R142, R265, R269). -/
structure PulsePoint (g : Seg) (p : Nat) (setup : Field) : Prop where
  guarded : guardedAt g p = true
  masked : maskedAt g p = true
  swe : .swe ∈ controlAt g p
  setup : setup ∈ controlAt g p
  seg : g ≠ .eSelect

theorem pulsePoint_of_erase {g : Seg} {p : Nat} (h : .e ∈ controlAt g p) :
    PulsePoint g p .esu ∧ g.selectedBlock = true := by
  cases g with
  | ePulse =>
    have hp : ¬ p ≤ 2 := fun hle => by simp [controlAt, hle] at h
    exact ⟨⟨rfl, decide_eq_true (by omega), by simp [controlAt, hp], by simp [controlAt, hp], by decide⟩, rfl⟩
  | _ =>
    exfalso
    revert h
    simp only [controlAt]
    repeat' split
    all_goals decide

theorem pulsePoint_of_program {g : Seg} {p : Nat} (h : .p ∈ controlAt g p) : PulsePoint g p .psu := by
  cases g with
  | wPulse | oPulse =>
    have hp : ¬ p ≤ 2 := fun hle => by simp [controlAt, hle] at h
    exact ⟨rfl, decide_eq_true (by omega), by simp [controlAt, hp], by simp [controlAt, hp], by decide⟩
  | _ =>
    exfalso
    revert h
    simp only [controlAt]
    repeat' split
    all_goals decide

theorem getLsbD_ebr_of_one {s : State} (hwf : s.profile.wf = true) {i : Nat} (hi : i < s.profile.blockCount)
    (hone : s.ebr (s.profile.blockBank i) = s.profile.ebrMask i) (hzero : s.ebr (s.profile.blockBank i).other = 0)
    (j : Bank) {b : Nat} (hb : b < 8) :
    (s.ebr j).getLsbD b = true ↔ j = s.profile.blockBank i ∧ b = s.profile.ebrBit i := by
  rcases bank_eq_or_other (s.profile.blockBank i) j with rfl | rfl
  · rw [hone, DeviceProfile.ebrMask, getLsbD_one_shiftLeft_nat (ebrBit_lt_of_wf hwf hi) hb]
    simp
  · rw [hzero]
    simp [other_ne]

/-- Settles O14: a pulse bit is set in the selected bank alone, at points of the pulse window only. -/
theorem pulseMomentIsSafe : Obligations.PulseMomentIsSafe := by
  intro s hinv
  obtain ⟨hs, hsel, -⟩ := inv_iff.1 hinv
  have hset : ∀ k f, s.bit k f = true → k = s.ctx.bank ∧ f ∈ controlAt s.seq.seg s.seq.pos := fun k f h => by
    simpa [hs.control] using h
  have hbit : ∀ f ∈ controlAt s.seq.seg s.seq.pos, s.bit s.ctx.bank f = true := fun f hf => by
    simp [hs.control, hf]
  have herase : ∀ {k}, s.bit k .e = true →
      PulsePoint s.seq.seg s.seq.pos .esu ∧ s.seq.seg.selectedBlock = true := fun h =>
    pulsePoint_of_erase (hset _ _ h).2
  have hprogram : ∀ {k}, s.bit k .p = true → PulsePoint s.seq.seg s.seq.pos .psu := fun h =>
    pulsePoint_of_program (hset _ _ h).2
  refine ⟨fun k hk => ?_, fun hg hr t ht => unselected_of_step (fun e => by rw [e] at hg; cases hg) hr hs.uword ht⟩
  obtain rfl : k = s.ctx.bank := hk.elim (fun h => (hset k _ h).1) fun h => (hset k _ h).1
  obtain ⟨f, hpoint⟩ : ∃ f, PulsePoint s.seq.seg s.seq.pos f :=
    hk.elim (fun h => ⟨_, (herase h).1⟩) fun h => ⟨_, hprogram h⟩
  have hguard := hs.guard
  rw [State.guards, if_pos hpoint.guarded] at hguard
  refine ⟨by rw [hguard], by rw [hguard], hs.mask hpoint.masked, hbit _ hpoint.swe, fun he => ?_, fun hp => ?_⟩
  · obtain ⟨hpulse, hblock⟩ := herase he
    obtain ⟨hi, hbank⟩ := hsel.block (erasing_of_selectedBlock hblock)
    obtain ⟨hone, hzero⟩ := hsel.one hblock
    rw [hbank] at hone hzero
    exact ⟨hbit _ hpulse.setup, fun j b hb => getLsbD_ebr_of_one hs.profile hi hone hzero j hb⟩
  · exact ⟨hbit _ (hprogram hp).setup, fun hr t ht => unselected_of_step hpoint.seg hr hs.uword ht⟩

end Sys2Proof.Machine
end

section
/-! What an erase pulse comes to from every state: its events, the control bits and the registers it leaves, and the
blocks it worked on (R34, R81, R171). -/

namespace Sys2Proof.Machine

/-! ### What control accesses change -/

/-- `s` with everything taken from `t` that accesses of the control registers, delays, the guard and the interrupt mask
can change. -/
def State.withControl (s t : State) : State :=
  { s with
    dlyCnt := t.dlyCnt, irq := t.irq, regs := t.regs, wdt := t.wdt, trace := t.trace, moment := t.moment
    loc := { s.loc with rd := t.loc.rd, rdPrev := t.loc.rdPrev }
    env := { s.env with
      cells := t.env.cells, latch := t.env.latch, fwe := t.env.fwe, fler := t.env.fler
      view := { s.env.view with waited := t.env.view.waited, pulsed := t.env.view.pulsed } } }

theorem act_after_withControl {b : Act} (s : State) (h : b.code ∉ [0x2#4, 0x3#4, 0x4#4, 0x5#4]) :
    b.after s = s.withControl (b.after s) := by
  cases b with
  | latch _ | latchOvw _ | probe | readBack | copy _ | srcByte _ => simp [Act.code] at h
  | read r => rcases r with (k | k) <;> cases k <;> rfl
  | write r v => cases r <;> rfl
  | _ => rfl

/-- A run of acts that neither access the flash nor read the source changes nothing else. -/
theorem afterActs_withControl {l : List Act} {s : State} (h : ∀ b ∈ l, b.code ∉ [0x2#4, 0x3#4, 0x4#4, 0x5#4]) :
    afterActs l s = s.withControl (afterActs l s) := by
  induction l generalizing s with
  | nil => rfl
  | cons b l ih =>
    have hb := congrArg (State.withControl · (afterActs l (b.after s))) (act_after_withControl s (h b (by simp)))
    exact (ih fun c hc => h c (by simp [hc])).trans hb

section

variable {d : Divisor} {k : Bank} {g f : Field} {setup width hold setupHold : Word} {s : State}

/-! ### The control registers over a pulse (R171, R192) -/

theorem bit_pulseHead (hl : s.profile.regLayout.wf = true) (x : Field) :
    (afterActs (pulseHead d k g f setup width) s).bit k x = (decide (x = f) || (decide (x = g) || s.bit k x)) := by
  have hacquire : (afterActs (acquireActs d) s).bit k x = s.bit k x :=
    bit_afterActs (by simp [acquireActs, Act.code]) k x
  have hlayout : ∀ l, (afterActs l s).profile.regLayout.wf = true := fun l => layout_afterActs hl
  simp only [pulseHead, afterActs_append]
  rw [bit_afterActs (by simp [Act.code]), bit_bitOn (by simp only [← afterActs_append]; exact hlayout _),
    bit_afterActs (by simp [Act.code]), bit_afterActs (by simp [Act.code]), bit_bitOn (hlayout _), hacquire]

theorem bit_pulseTail (hl : s.profile.regLayout.wf = true) (x : Field) :
    (afterActs (pulseTail k g hold setupHold) s).bit k x = (decide (x ≠ g) && s.bit k x) := by
  simp only [pulseTail, afterActs_append]
  rw [bit_afterActs (by simp [releaseActs, Act.code]), bit_afterActs (by simp [Act.code]),
    bit_bitOff (layout_afterActs hl), bit_afterActs (by simp [Act.code])]

/-- A pulse leaves its pulse bit and its setup bit 0, and every other control bit of its bank as it was. -/
theorem bit_pulse (hl : s.profile.regLayout.wf = true) (x : Field) :
    (afterActs (pulseActs d k g f setup width hold setupHold) s).bit k x =
      (decide (x ≠ f) && decide (x ≠ g) && s.bit k x) := by
  rw [pulseActs, afterActs_append, afterActs_append, bit_pulseTail (layout_afterActs (layout_afterActs hl)),
    bit_bitOff (layout_afterActs hl), bit_pulseHead hl]
  by_cases hf : x = f <;> by_cases hg : x = g <;> simp [hf, hg]

/-- A pulse accesses the control register of its own bank only. -/
theorem fcr_pulse {j : Bank} (hj : j ≠ k) :
    (afterActs (pulseActs d k g f setup width hold setupHold) s).fcr j = s.fcr j := by
  have hkeep : ∀ {l : List Act} {u : State}, (∀ b ∈ l, b.code ≠ 0x1) → (afterActs l u).fcr j = u.fcr j :=
    fun hl => fcr_of_regs (afterActs_regs hl) j
  simp only [pulseActs, pulseHead, pulseTail, afterActs_append]
  rw [hkeep (by simp [releaseActs, Act.code]), hkeep (by simp [Act.code]), fcr_bitOff_other _ hj,
    hkeep (by simp [Act.code]), fcr_bitOff_other _ hj, hkeep (by simp [Act.code]), fcr_bitOn_other _ hj,
    hkeep (by simp [Act.code]), hkeep (by simp [Act.code]), fcr_bitOn_other _ hj,
    hkeep (by simp [acquireActs, Act.code])]

/-! ### Everything else -/

/-- Everything that a pulse changes (R171, R192). -/
theorem pulse_eq : let t := afterActs (pulseActs d k g f setup width hold setupHold) s
    t = { s with
      regs := t.regs, irq := t.irq, wdt := t.wdt, trace := t.trace, dlyCnt := 0
      loc := { s.loc with rd := t.loc.rd, rdPrev := t.loc.rdPrev }
      env := { s.env with
        cells := t.env.cells, latch := t.env.latch, fwe := t.env.fwe, fler := t.env.fler
        view := { s.env.view with
          waited := s.env.view.waited + setup.toNat + width.toNat + hold.toNat + setupHold.toNat
          pulsed := t.env.view.pulsed } }
      moment := s.moment + 17 } := by
  have hframe := afterActs_withControl (l := pulseActs d k g f setup width hold setupHold) (s := s)
    (by simp [pulseActs, pulseHead, pulseTail, acquireActs, releaseActs, bitOn, bitOff, Act.code])
  have hdelay : (afterActs (pulseActs d k g f setup width hold setupHold) s).dlyCnt = 0 := rfl
  have hwaited : (afterActs (pulseActs d k g f setup width hold setupHold) s).env.view.waited =
      s.env.view.waited + setup.toNat + width.toNat + hold.toNat + setupHold.toNat := by cases k <;> rfl
  obtain ⟨-, -, -, -, -, -, -, -, hmoment, -⟩ := afterActs_fields (pulseActs d k g f setup width hold setupHold) s
  rwa [State.withControl, hdelay, hwaited, hmoment] at hframe

/-- The seventeen events of a pulse, with the four values it reads (R171, R192). -/
theorem pulse_trace : ∃ v1 v2 v3 v4, (afterActs (pulseActs d k g f setup width hold setupHold) s).trace = s.trace ++
    [.wdtStop, .wdtStart d, .rr (.fcr k) v1, .rw (.fcr k) (v1 ||| s.profile.regLayout.mask g), .wait setup, .irqMask,
      .rr (.fcr k) v2, .rw (.fcr k) (v2 ||| s.profile.regLayout.mask f), .wait width, .rr (.fcr k) v3,
      .rw (.fcr k) (v3 &&& ~~~s.profile.regLayout.mask f), .irqRestore, .wait hold, .rr (.fcr k) v4,
      .rw (.fcr k) (v4 &&& ~~~s.profile.regLayout.mask g), .wait setupHold, .wdtStop] :=
  ⟨_, _, _, _, afterActs_trace _ s⟩

end

/-! ### The blocks of an erase pulse (R34; log 35) -/

theorem selectedRanges_congr {s t : State} (hp : t.profile = s.profile) (he : ∀ j, t.ebr j = s.ebr j) :
    t.selectedRanges = s.selectedRanges := by
  have hsel : t.selected = s.selected := funext fun i => by rw [State.selected, State.selected, hp, he]
  rw [State.selectedRanges, State.selectedRanges, hp, hsel]

/-- The end of an erase pulse is remembered with the selected blocks. -/
theorem pulsed_bitOff_erase {s : State} (hl : s.profile.regLayout.wf = true) {k : Bank} (hb : s.bit k .e = true) :
    (afterActs (bitOff k .e) s).env.view.pulsed = s.selectedRanges := by
  have he := falls_bitOff hl k .e .e
  have hp := falls_bitOff hl k .e .p
  rw [hb] at he
  rw [show (_ && decide (Field.p = .e)) = false from Bool.and_false _] at hp
  rw [env_bitOff, State.envAfterFcr, State.pulsedAfter, he, hp]
  exact List.append_nil _

theorem pulsed_pulseTail {s : State} (hl : s.profile.regLayout.wf = true) (k : Bank) {g : Field} (he : g ≠ .e)
    (hp : g ≠ .p) (hold setupHold : Word) :
    (afterActs (pulseTail k g hold setupHold) s).env.view.pulsed = s.env.view.pulsed := by
  have hoff := bitOff_env (s := afterActs [.irqRestore, .wait hold] s) hl k he hp
  show (afterActs (bitOff k g) (afterActs [.irqRestore, .wait hold] s)).env.view.pulsed = _
  rw [hoff, afterRead_view]
  rfl

/-- An erase pulse is remembered with the blocks selected when it began. -/
theorem pulsed_erasePulse {s : State} (hl : s.profile.regLayout.wf = true) (p : DeviceProfile) (k : Bank) :
    (afterActs (erasePulseActs p k) s).env.view.pulsed = s.selectedRanges := by
  have hbit : (afterActs (pulseHead p.wdtDivErase k .esu .e p.delays.esuSetup p.delays.ePulse) s).bit k .e = true :=
    bit_pulseHead hl .e
  have hhead := harmless_pulseHead p.wdtDivErase k .esu .e p.delays.esuSetup p.delays.ePulse s hl
  rw [erasePulseActs_eq, afterActs_append, afterActs_append,
    pulsed_pulseTail (layout_afterActs (layout_afterActs hl)) k (by decide) (by decide),
    pulsed_bitOff_erase (layout_afterActs hl) hbit, selectedRanges_congr hhead.profile hhead.ebr]

/-- Settles O41: a pulse is a setup, a window and a cleanup; its end changes cells of the selected blocks only. -/
theorem erasePulseResult : Obligations.ErasePulseResult := by
  intro s k hl hbody
  have hrun : exec (.erasePulse k) s = .next (afterActs (erasePulseActs s.profile k) s) :=
    runActs_of_fits (pulse_fits hbody)
  have hacts : erasePulseActs s.profile k = pulseActs s.profile.wdtDivErase k .esu .e s.profile.delays.esuSetup
      s.profile.delays.ePulse s.profile.delays.eHold s.profile.delays.esuHold := rfl
  obtain ⟨hlatch, hcells⟩ := erasePulse_flash hl s.profile k
  have hpulsed := pulsed_erasePulse hl s.profile k
  rw [hacts] at hrun hlatch hcells hpulsed
  obtain ⟨v1, v2, v3, v4, htrace⟩ : ∃ v1 v2 v3 v4, (afterActs (erasePulseActs s.profile k) s).trace = _ := pulse_trace
  refine ⟨_, v1, v2, v3, v4, hrun, htrace, bit_pulse hl, fcr_pulse (other_ne k),
    ebr_pulse (g := .esu) (f := .e) hl (by decide) (by decide), rfl, rfl, hlatch,
    fun a ha => hcells a (not_inSelected.2 ha), ?_⟩
  refine Eq.trans pulse_eq ?_
  rw [hlatch, hpulsed]

end Sys2Proof.Machine
end

section
/-! Commands with a budget of 0: `SWE` opened and closed again, with nothing between (R170, R186, R191, R204). -/

namespace Sys2Proof.Machine

/-! ### Runs that leave the guard, the interrupt mask and the flash alone -/

/-- The watchdog, the interrupt mask, the cells, the latch and the block-enable registers are as they were. -/
structure Untouched (s t : State) : Prop extends SameFlash s t where
  wdt : t.wdt = s.wdt
  irq : t.irq = s.irq

theorem Untouched.trans {s t u : State} (h : Untouched s t) (g : Untouched t u) : Untouched s u :=
  ⟨h.toSameFlash.trans g.toSameFlash, g.wdt.trans h.wdt, g.irq.trans h.irq⟩

theorem untouched_of_quiet {s t : State} (h : Quiet s t) : Untouched s t :=
  ⟨⟨h.profile, by rw [h.env], by rw [h.env], ebr_of_regs h.regs⟩, h.wdt, h.irq⟩

/-- A stopped watchdog is left as it is by acts that neither start nor stop it (R120, R130). -/
theorem wdt_afterActs {l : List Act} {s : State} (hw : s.wdt.run = false) (hl : ∀ b ∈ l, b.code ≠ 0x7 ∧ b.code ≠ 0x8) :
    (afterActs l s).wdt = s.wdt := by
  induction l generalizing s with
  | nil => rfl
  | cons b l ih =>
    obtain ⟨-, -, -, -, -, -, -, hwdt, -⟩ := act_after_fields b s
    have hb : (b.after s).wdt = s.wdt := by
      rw [hwdt]
      cases b with
      | wait c => exact begin_of_stopped hw c
      | wdtStop => exact absurd rfl (hl _ List.mem_cons_self).1
      | wdtStart d => exact absurd rfl (hl _ List.mem_cons_self).2
      | _ => rfl
    rw [afterActs_cons, ih (by rw [hb, hw]) fun c hc => hl c (by simp [hc]), hb]

theorem untouched_afterActs {l : List Act} {s : State} (hflash : Harmless l) (hs : s.profile.regLayout.wf = true)
    (hw : s.wdt.run = false) (hl : ∀ b ∈ l, b.code ∉ [0x7#4, 0x8#4, 0x9#4, 0xA#4]) : Untouched s (afterActs l s) := by
  simp only [List.mem_cons, List.not_mem_nil, or_false, not_or] at hl
  exact ⟨hflash s hs, wdt_afterActs hw fun b hb => ⟨(hl b hb).1, (hl b hb).2.1⟩,
    afterActs_irq fun b hb => (hl b hb).2.2⟩

/-! ### `SWE` set and cleared -/

/-- `SWE` set and cleared again (R170, R191 with no attempt between). -/
def passActs (p : DeviceProfile) (k : Bank) : List Act := unlockActs p k ++ lockActs p k

/-- From `s` to `t` nothing was done but to make the events `es` and then to set and clear `SWE` of bank `k`. -/
structure Passed (s : State) (k : Bank) (es : List Event) (t : State) : Prop extends Untouched s t where
  locked : t.locked = true
  trace : ∃ v1 v2, t.trace = s.trace ++ es ++ [.rr (.fcr k) v1, .rw (.fcr k) (v1 ||| s.profile.regLayout.mask .swe),
    .wait s.profile.delays.sweSetup, .rr (.fcr k) v2, .rw (.fcr k) (v2 &&& ~~~s.profile.regLayout.mask .swe),
    .wait s.profile.delays.sweHold]

theorem passed_passActs {s u : State} {k : Bank} {es : List Event} (hl : s.profile.regLayout.wf = true)
    (hw : s.wdt.run = false) (h : Untouched s u) (hlocked : Bits k [] u) (htrace : u.trace = s.trace ++ es) :
    Passed s k es (afterActs (passActs s.profile k) u) := by
  have hlu : u.profile.regLayout.wf = true := by rw [h.profile, hl]
  have hpass : Untouched u (afterActs (passActs s.profile k) u) :=
    untouched_afterActs ((harmless_unlock _ k).append (harmless_lock _ k)) hlu (by rw [h.wdt, hw])
      (by simp [passActs, unlockActs, lockActs, bitOn, bitOff, Act.code])
  refine ⟨h.trans hpass, ?_, ?_⟩
  · rw [passActs, afterActs_append]
    exact locked_of_bits ((hlocked.on_wait hlu .swe _).off_wait (layout_afterActs hlu) (by decide) _)
  · rw [← htrace, ← h.profile]
    exact ⟨_, _, afterActs_trace _ u⟩

/-- `SWE` set and then cleared is one run (R170, R191). -/
theorem unlock_then_lock {s : State} (hw : s.wdt.run = false) (f : State → Res) :
    andThen (runActs (unlockActs s.profile s.ctx.bank) s)
      (fun t => andThen (runActs (lockActs t.profile t.ctx.bank) t) f) =
      f (afterActs (passActs s.profile s.ctx.bank) s) := by
  have hpass : runActs (passActs s.profile s.ctx.bank) s = .next (afterActs (passActs s.profile s.ctx.bank) s) :=
    runActs_of_fits (fits_of_stopped hw (by simp [passActs, unlockActs, lockActs, bitOn, bitOff])
      (by simp [passActs, unlockActs, lockActs, bitOn, bitOff, Act.reaches]))
  rw [← andThen_of_next _ f, ← hpass, passActs, runActs_append, andThen_assoc]
  refine andThen_congr fun t ht => ?_
  obtain rfl := runActs_eq_next ht
  rw [(afterActs_fields _ s).1, (afterActs_ctx _ s).1]

/-! ### `Precond` and the copy -/

/-- `t` comes after `s` by the two reads of `Precond` (R122). -/
structure PrecondRead (s t : State) : Prop extends Untouched s t where
  ctx : t.ctx = s.ctx
  source : t.env.source = s.env.source
  bits : ∀ {k c}, Bits k c s → Bits k c t
  flag : t.loc.flag = s.precondNow
  trace : ∃ a b, t.trace = s.trace ++ [.rr (.fcr .b0) a, .rr (.fcr .b1) b]

theorem precond_reads {s : State} (hl : s.profile.regLayout.wf = true) (hw : s.wdt.run = false) :
    Attains (PrecondRead s) (execPrecond s) := by
  have hrun : runActs precondActs s = .next (afterActs precondActs s) :=
    runActs_of_fits (fits_of_stopped hw (by simp [precondActs]) (by simp [precondActs, Act.reaches]))
  have hacts : Untouched s (afterActs precondActs s) :=
    untouched_afterActs harmless_precond hl hw (by simp [precondActs, Act.code])
  refine ⟨(afterActs precondActs s).judgePrecond, by rw [execPrecond, hrun, andThen_of_next],
    hacts.trans (untouched_of_quiet (quiet_judgePrecond _)), rfl, rfl, fun h => ?_, flag_precond s, _, _,
    afterActs_trace precondActs s⟩
  exact h.keep (l := precondActs) (by simp [precondActs, Act.code])

/-- The events of the copy of the source page (R117, R191 step 2). -/
theorem actEvents_copy (l : List Nat) (s : State) : actEvents (l.map Act.copy) s =
    l.map fun i => .sr8 (offset s.ctx.pgSrc i) (s.env.source.read (offset s.ctx.pgSrc i).toNat) := by
  induction l generalizing s with
  | nil => rfl
  | cons i l ih => exact congrArg (_ :: ·) (ih _)

/-! ### The erase (R170, R186) -/

/-- An erase without attempts sets and clears `SWE`. -/
theorem eraseUnlocked_of_no_budget {s : State} (hw : s.wdt.run = false) (hb : s.profile.maxEraseRetries = 0) :
    eraseUnlocked s = .next ((afterActs (passActs s.profile s.ctx.bank) s).respond .eraseVerifyFailed) := by
  rw [eraseUnlocked, ← unlock_then_lock hw fun t => .next (t.respond .eraseVerifyFailed)]
  refine andThen_congr fun t ht => ?_
  obtain rfl := runActs_eq_next ht
  rw [(afterActs_fields _ s).1, hb]
  rfl

theorem eraseBlock_of_no_budget {s : State} {index : Word} (hready : s.ready = true) (hw : s.wdt.run = false)
    (hlocked : s.locked = true) (hpre : s.precondNow = true) (harmed : s.armed = true)
    (hb : s.profile.maxEraseRetries = 0) (hi : index.toNat < s.profile.blockCount) :
    ∃ t a b, execEraseBlock index s = .next (t.respond .eraseVerifyFailed) ∧
      Passed s (s.profile.blockBank index.toNat) [.rr (.fcr .b0) a, .rr (.fcr .b1) b] t := by
  have hai : index.toNat < (s.acceptErase index).profile.blockCount := hi
  have haa : ¬ (s.acceptErase index).armed = false := ne_of_eq_of_ne harmed (by decide)
  have hl := layout_of_wf (wf_of_ready hready)
  have hloaded : Untouched s (((s.acceptErase index).loadBlock index).withResult .ok) :=
    ⟨⟨rfl, rfl, rfl, fun _ => rfl⟩, rfl, rfl⟩
  obtain ⟨t, hrun, ht⟩ := precond_reads (s := ((s.acceptErase index).loadBlock index).withResult .ok) hl hw
  obtain ⟨a, b, htrace⟩ := ht.trace
  have hread := hloaded.trans ht.toUntouched
  have hbank : t.ctx.bank = s.profile.blockBank index.toNat := congrArg (·.bank) ht.ctx
  rw [execEraseBlock, whenReady_of_ready hready, eraseAccepted, if_neg (Nat.not_le.2 hai), if_neg haa,
    resolveBlock_of_lt hai, hrun, andThen_of_next, if_pos (ht.flag.trans hpre),
    eraseUnlocked_of_no_budget (by rw [hread.wdt, hw]) (by rw [hread.profile, hb]), hbank, hread.profile]
  exact ⟨_, a, b, rfl, passed_passActs hl hw hread (ht.bits (bits_of_locked hlocked _)) htrace⟩

/-! ### The page (R191, R204) -/

/-- A page without attempts is copied, and `SWE` set and cleared. -/
theorem writeUnlocked_of_no_budget {s : State} (hw : s.wdt.run = false) (hb : s.profile.maxWriteRetries = 0) :
    writeUnlocked s = .next ((afterActs (passActs s.profile s.ctx.bank)
      (afterActs (copyActs s.profile) s)).withResult .writeMaxRetries) := by
  have hcopy : runActs (copyActs s.profile) s = .next (afterActs (copyActs s.profile) s) :=
    runActs_of_fits (fits_of_stopped hw (by simp [copyActs]) (by simp [copyActs, Act.reaches]))
  have hprofile := (afterActs_fields (copyActs s.profile) s).1
  have hbank : (afterActs (copyActs s.profile) s).ctx.bank = s.ctx.bank := by
    rw [(afterActs_ctx (copyActs s.profile) s).1]
  have hstopped : (afterActs (copyActs s.profile) s).wdt.run = false :=
    stopped_afterActs hw (by simp [copyActs, Act.code])
  rw [writeUnlocked, hcopy, andThen_of_next]
  generalize afterActs (copyActs s.profile) s = u at hprofile hbank hstopped
  rw [← hbank, ← hprofile, ← unlock_then_lock hstopped fun t => .next (t.withResult .writeMaxRetries)]
  refine andThen_congr fun t ht => ?_
  obtain rfl := runActs_eq_next ht
  have hbudget : (afterActs (unlockActs u.profile u.ctx.bank) u).profile.maxWriteRetries = 0 := by
    rw [(afterActs_fields _ u).1, hprofile, hb]
  rw [hbudget]
  rfl

/-- What a page without attempts does before `SWE`: the two reads of the precondition and the copy. -/
def copyEvents (s : State) (src : Word) (a b : Byte) : List Event :=
  [.rr (.fcr .b0) a, .rr (.fcr .b1) b] ++ (List.range s.profile.pageBytes).map fun i =>
    .sr8 (offset src i) (s.env.source.read (offset src i).toNat)

theorem writePage_of_no_budget {s : State} {dest src : Word} (hready : s.ready = true) (hw : s.wdt.run = false)
    (hlocked : s.locked = true) (hpre : s.precondNow = true) (hb : s.profile.maxWriteRetries = 0)
    (hle : dest ≤ s.profile.flashMax) :
    ∃ t a b, execWritePage dest src s = .next (t.withResult .writeMaxRetries) ∧
      Passed s (s.profile.bankOf dest) (copyEvents s src a b) t := by
  have hl := layout_of_wf (wf_of_ready hready)
  have hentered : Untouched s (s.enterPage dest src) := ⟨⟨rfl, rfl, rfl, fun _ => rfl⟩, rfl, rfl⟩
  obtain ⟨t, hrun, ht⟩ := precond_reads (s := s.enterPage dest src) hl hw
  obtain ⟨a, b, htrace⟩ := ht.trace
  have hread := hentered.trans ht.toUntouched
  have hbank : t.ctx.bank = s.profile.bankOf dest := congrArg (·.bank) ht.ctx
  have hsrc : t.ctx.pgSrc = src := congrArg (·.pgSrc) ht.ctx
  have hsource : t.env.source = s.env.source := ht.source
  have hstopped : t.wdt.run = false := by rw [hread.wdt, hw]
  rw [execWritePage, if_neg (BitVec.not_lt.2 hle), hrun, andThen_of_next, if_pos (ht.flag.trans hpre),
    writeUnlocked_of_no_budget hstopped (by rw [hread.profile, hb]), hbank, hread.profile]
  have hcopied : Untouched t (afterActs (copyActs s.profile) t) :=
    untouched_afterActs (harmless_copy _) (by rw [hread.profile, hl]) hstopped (by simp [copyActs, Act.code])
  refine ⟨_, a, b, rfl, passed_passActs hl hw (hread.trans hcopied) ?_ ?_⟩
  · exact (ht.bits (bits_of_locked hlocked _)).keep (by simp [copyActs, Act.code])
  · rw [afterActs_trace, copyActs, actEvents_copy, hsrc, hsource, htrace, List.append_assoc]
    rfl

/-- Settles O57: without a budget the attempts are the lock alone. -/
theorem zeroBudgets : Obligations.ZeroBudgets := by
  intro s hready hw hlocked hpre
  refine ⟨fun index harmed hb hi => ?_, fun dest src hb hle => ?_⟩
  · obtain ⟨t, a, b, hrun, ht⟩ := eraseBlock_of_no_budget hready hw hlocked hpre harmed hb hi
    obtain ⟨v1, v2, htrace⟩ := ht.trace
    refine ⟨_, a, b, v1, v2, hrun, ?_, ?_, ht.locked, ht.wdt, ht.irq, ht.cells, ht.latch, ht.ebr⟩
    · rw [← ht.profile]
      rfl
    · exact htrace.trans (by simp)
  · obtain ⟨t, a, b, hrun, ht⟩ := writePage_of_no_budget hready hw hlocked hpre hb hle
    obtain ⟨v1, v2, htrace⟩ := ht.trace
    refine ⟨_, a, b, v1, v2, hrun, rfl, ?_, ht.locked, ht.wdt, ht.irq, ht.cells, ht.latch, ht.ebr⟩
    exact htrace.trans (by simp [copyEvents])

end Sys2Proof.Machine
end

section
/-! `write_page` and `write_range` complete whatever the flash answers, and a page whose precondition fails makes the two
reads of `Precond` and no other access (R190, R191, R200, R230, R236, R243). -/

namespace Sys2Proof.Machine

/-! ### The page -/

/-- Without its precondition a page of the flash makes the two reads of `Precond` and answers `device-error` (R191 step 1,
R236). -/
theorem writePage_of_not_precond {s : State} {dest : Word} (src : Word) (hc : s.calm = true)
    (hd : dest ≤ s.profile.flashMax) (hpre : s.precondNow = false) : execWritePage dest src s =
      .next ((afterActs precondActs (s.enterPage dest src)).judgePrecond.withResult .deviceError) := by
  rw [execWritePage, if_neg (BitVec.not_lt.2 hd), execPrecond,
    runActs_of_calm (s := s.enterPage dest src) hc (by simp [precondActs, Act.watchdog])
      (by simp [precondActs, Act.reaches]),
    andThen_of_next, andThen_of_next, if_neg]
  rw [flag_precond]
  exact ne_of_eq_of_ne hpre (by decide)

/-- Settles O46: every page ends at a point without control bits; and where the precondition fails, the two reads of
`Precond` are all that was done. -/
theorem writePageCompletes : Obligations.WritePageCompletes := by
  refine ⟨fun s dest src hwf hg hw hlocked hle hal => ?_, fun s dest src hc hle hpre => ?_⟩
  · obtain ⟨t, hrun, hpoint, hstatus⟩ := writePage_attains ⟨hwf, hg, hle, hal⟩ hw (bits_of_locked hlocked) src
    exact ⟨t, hrun, hstatus, locked_of_bits hpoint.bits, hpoint.stopped, hpoint.mask, hpoint.armed, hpoint.opr,
      hpoint.port, hpoint.seq, hpoint.ebr⟩
  · obtain ⟨-, hport, hseq, hopr, harmed, -⟩ := afterActs_fields precondActs (s.enterPage dest src)
    exact ⟨_, _, _, writePage_of_not_precond src hc hle hpre, rfl, afterActs_trace precondActs _, rfl, rfl, rfl, rfl,
      harmed, hport, hseq, hopr, rfl⟩

/-! ### The range -/

/-- The statuses a range can end with (R190). -/
def rangeStatuses : List Status :=
  [.ok, .outOfBounds, .misaligned, .badLength, .deviceError, .programVerifyFatal, .writeMaxRetries]

theorem rangeStatus_mem (p : DeviceProfile) (dest len : Word) : rangeStatus p dest len ∈ rangeStatuses := by
  unfold rangeStatus
  repeat' split
  all_goals decide

/-- A range whose checks succeed is one of the flash, but where the block is disarmed or the range overruns `FLASH_MAX`
(R161, R164). -/
theorem rangeFits_of_rangeStatus {p : DeviceProfile} {dest len : Word} {disarmed : Prop}
    (h : p.rangeFits dest len = true ∨ disarmed ∨ p.flashMax < dest ∨ dest.toNat % p.pageBytes ≠ 0 ∨
      len.toNat % p.pageBytes ≠ 0) (hok : rangeStatus p dest len = .ok) (harmed : ¬ disarmed) :
    p.rangeFits dest len = true := by
  obtain ⟨hal, hlen⟩ := aligned_of_rangeStatus hok
  rcases h with hfits | hdis | hbeyond | hmis | hbad
  · exact hfits
  · exact absurd hdis harmed
  · rw [rangeStatus_of_beyond hbeyond] at hok
    cases hok
  · exact absurd hal hmis
  · exact absurd hlen hbad

/-- A locked device between two operations of a range begun at `s₀` (R200). -/
structure RangeRest (s₀ t : State) : Prop extends Unmoved s₀ t where
  locked : t.locked = true
  index : t.opr.index = s₀.opr.index

/-- `t` completes a command from a point at rest, with one of the statuses of a range (R190, R230). -/
def RangeEnd (s₀ t : State) : Prop := ∃ u, ∃ r ∈ rangeStatuses, RangeRest s₀ u ∧ t = u.respond r

/-- The page loop of a range of the flash ends at rest (R162). -/
theorem pageLoop_rests {s : State} (hwf : s.profile.wf = true) (hg : s.profile.guardWf = true)
    (hw : s.wdt.run = false) (hlocked : s.locked = true) (hfits : s.profile.rangeFits s.opr.dest s.opr.len = true) :
    Attains (fun t => RangeRest s t ∧ t.loc.result ∈ rangeStatuses) (execPageLoop s) := by
  obtain ⟨t, hrun, hlock, hstop, hmask, harmed, hport, hseq, hebr, hindex, i, -, -, -, hresult⟩ :=
    pageLoopCompletes.2 s hwf hg hw hlocked hfits
  have hprofile : t.profile = s.profile := (exec_framed (by decide) hrun).profile
  refine ⟨t, hrun, ⟨⟨hprofile, hport, hseq, harmed, hmask, hebr, hstop⟩, hlock, hindex⟩, ?_⟩
  by_cases hok : t.loc.result = .ok
  · rw [hok]
    decide
  · rw [if_neg hok] at hresult
    exact List.Sublist.subset (by decide) hresult.2

/-- An accepted `write_range` of a locked device ends, whatever the flash answers, but for a range that the loop would
refuse (R190, R164). -/
theorem writeAccepted_attains {s : State} (hwf : s.profile.wf = true) (hg : s.profile.guardWf = true)
    (hw : s.wdt.run = false) (hlocked : s.locked = true)
    (hargs : s.profile.rangeFits s.opr.dest s.opr.len = true ∨ s.armed = false ∨ s.profile.flashMax < s.opr.dest ∨
      s.opr.dest.toNat % s.profile.pageBytes ≠ 0 ∨ s.opr.len.toNat % s.profile.pageBytes ≠ 0) :
    Attains (RangeEnd s) (writeAccepted s.opr.dest s.opr.len s) := by
  have hmem := rangeStatus_mem s.profile s.opr.dest s.opr.len
  have hchecked : RangeRest s (s.withResult (rangeStatus s.profile s.opr.dest s.opr.len)) :=
    ⟨⟨rfl, rfl, rfl, rfl, rfl, fun _ => rfl, hw⟩, hlocked, rfl⟩
  rw [writeAccepted, execValidateRange, andThen_of_next]
  split
  · exact attains_next ⟨_, _, hmem, hchecked, rfl⟩
  next hok =>
  split
  · exact attains_next ⟨_, _, (by decide : Status.ok ∈ rangeStatuses), hchecked, rfl⟩
  next harmed =>
  have hfits := rangeFits_of_rangeStatus hargs (of_not_not hok) harmed
  refine (pageLoop_rests (s := s.withResult (rangeStatus s.profile s.opr.dest s.opr.len)) hwf hg hw hlocked
    hfits).bind fun t ht => ?_
  obtain ⟨hrest, hstatus⟩ := ht
  exact attains_next ⟨t, _, hstatus, ⟨hchecked.toUnmoved.trans hrest.toUnmoved, hrest.locked, hrest.index⟩, rfl⟩

/-- Settles O48: the checks and the gate answer at once, and the page loop of a range of the flash ends with the device
locked. -/
theorem writeRangeCompletes : Obligations.WriteRangeCompletes := by
  intro s dest src len hready hg hw hlocked hargs
  have hwf := wf_of_ready hready
  obtain ⟨t, hrun, u, r, hr, hu, rfl⟩ := writeAccepted_attains (s := s.acceptWrite dest src len) hwf hg hw hlocked hargs
  refine ⟨_, (whenReady_of_ready hready _).trans hrun, rfl, rfl, ⟨r, hr, ?_⟩, hu.locked, hu.stopped, hu.mask, hu.armed,
    hu.index, (congrArg Port.cmds hu.port :), hu.ebr⟩
  exact congrArg (fun p : DeviceProfile => p.statusEnc.code r) hu.profile

end Sys2Proof.Machine
end

section
/-! What a program pulse comes to from every state: its events, the control bits and the registers it leaves, and the
latched cells it worked on (R44, R81, R192). -/

namespace Sys2Proof.Machine

section

variable {s : State} (hl : s.profile.regLayout.wf = true)
include hl

/-- The end of a program pulse is remembered with the latched cells (R44; log 35). -/
theorem pulsed_bitOff_program {k : Bank} (hb : s.bit k .p = true) :
    (afterActs (bitOff k .p) s).env.view.pulsed = latchedRanges s.env.latch := by
  have he := falls_bitOff hl k .p .e
  have hp := falls_bitOff hl k .p .p
  rw [show (_ && decide (Field.e = .p)) = false from Bool.and_false _] at he
  rw [hb] at hp
  rw [env_bitOff, State.envAfterFcr, State.pulsedAfter, he, hp]
  exact congrArg latchedRanges (afterRead_flash s.env (.fcr k)).2

/-- A program pulse empties the latch, and is remembered with the cells latched when it began (log 13, log 35). -/
theorem latch_pulsed_programPulse (p : DeviceProfile) (k : Bank) (width : Word) :
    (afterActs (programPulseActs p k width) s).env.latch = [] ∧
      (afterActs (programPulseActs p k width) s).env.view.pulsed = latchedRanges s.env.latch := by
  have hbit : (afterActs (pulseHead p.wdtDivProgram k .psu .p p.delays.psuSetup width) s).bit k .p = true :=
    bit_pulseHead hl .p
  have hhead := harmless_pulseHead p.wdtDivProgram k .psu .p p.delays.psuSetup width s hl
  have hlayout := layout_afterActs (l := pulseHead p.wdtDivProgram k .psu .p p.delays.psuSetup width) hl
  rw [programPulseActs_eq, afterActs_append, afterActs_append,
    (harmless_pulseTail k (by decide) (by decide) _ _ _ (layout_afterActs hlayout)).latch,
    pulsed_pulseTail (layout_afterActs hlayout) k (by decide) (by decide),
    pulsed_bitOff_program hlayout hbit, hhead.latch]
  exact ⟨latch_bitOff_program hlayout hbit, rfl⟩

end

/-- Settles O42: a pulse is a setup, a window and a cleanup; its end changes latched cells only, and empties the latch. -/
theorem programPulseResult : Obligations.ProgramPulseResult := by
  intro s k width hl hbody
  have hrun : exec (.programPulse k width) s = .next (afterActs (programPulseActs s.profile k width) s) :=
    runActs_of_fits (pulse_fits hbody)
  have hcells : ∀ a, s.env.latch.find a = none → (afterActs (programPulseActs s.profile k width) s).env.cells.read a =
      s.env.cells.read a := fun a ha => (programPulse_flash hl s.profile k width ha).2
  obtain ⟨hlatch, hpulsed⟩ := latch_pulsed_programPulse hl s.profile k width
  obtain ⟨v1, v2, v3, v4, htrace⟩ : ∃ v1 v2 v3 v4, (afterActs (programPulseActs s.profile k width) s).trace = _ :=
    pulse_trace
  refine ⟨_, v1, v2, v3, v4, hrun, htrace, bit_pulse hl, fcr_pulse (other_ne k),
    ebr_pulse (g := .psu) (f := .p) hl (by decide) (by decide), rfl, rfl, hcells, ?_⟩
  refine Eq.trans pulse_eq ?_
  rw [← hlatch, ← hpulsed]
  rfl

end Sys2Proof.Machine
end

section
/-! The events of a page: runs that leave its registers alone, the copy of the source page, the latch passes and the pulses
(R191, R192, R198, R280). -/

namespace Sys2Proof.Machine

/-! ### Words of a buffer and of the source (R10, R60) -/

/-- `left` words of a buffer from word `j` on. -/
def wordsFrom (buf : List Byte) (j left : Nat) : List Word := (List.range' j left).map (bufWord buf)

/-- Word `j` of the source page at `src`. -/
def sourceWord (m : Memory) (src : Word) (j : Nat) : Word :=
  m.read (offset src (4 * j)).toNat ++ m.read (offset src (4 * j + 1)).toNat ++ m.read (offset src (4 * j + 2)).toNat
    ++ m.read (offset src (4 * j + 3)).toNat

/-- `left` words of the source page from word `j` on. -/
def sourceFrom (m : Memory) (src : Word) (j left : Nat) : List Word := (List.range' j left).map (sourceWord m src)

theorem sourceWords_eq (p : DeviceProfile) (m : Memory) (src : Word) :
    sourceWords p m src = sourceFrom m src 0 p.pageWords := by
  rw [sourceFrom, ← List.range_eq_range']
  rfl

theorem sourceWordAt_eq {s : State} {m : Memory} (hm : s.env.source = m) (src : Word) (j : Nat) :
    s.sourceWordAt (offset src (4 * j)) = sourceWord m src j := by
  simp only [State.sourceWordAt, State.sourceByte, offset_offset, hm]
  rfl

@[simp] theorem length_sourceFrom (m : Memory) (src : Word) (j left : Nat) : (sourceFrom m src j left).length = left := by
  simp [sourceFrom]

@[simp] theorem wordsFrom_zero (buf : List Byte) (j : Nat) : wordsFrom buf j 0 = [] := rfl

@[simp] theorem wordsFrom_succ (buf : List Byte) (j left : Nat) :
    wordsFrom buf j (left + 1) = bufWord buf j :: wordsFrom buf (j + 1) left := rfl

@[simp] theorem sourceFrom_succ (m : Memory) (src : Word) (j left : Nat) :
    sourceFrom m src j (left + 1) = sourceWord m src j :: sourceFrom m src (j + 1) left := rfl

theorem wordsFrom_congr {buf buf' : List Byte} {j left : Nat}
    (h : ∀ i, j ≤ i → i < j + left → bufWord buf i = bufWord buf' i) : wordsFrom buf j left = wordsFrom buf' j left :=
  List.map_congr_left fun i hi => by
    rw [List.mem_range'_1] at hi
    exact h i hi.1 hi.2

/-! ### Runs of acts that leave the page's registers alone -/

/-- From `s` to `t` `c` accesses of the control registers and otherwise the events `l` were made, and no register of the
PulseContext was written (R23). -/
structure Notes (c : Nat) (l : List Event) (s t : State) : Prop where
  profile : t.profile = s.profile
  source : t.env.source = s.env.source
  ctx : t.ctx = s.ctx
  log : Logged c l s t

section

variable {c d : Nat} {l l' : List Event} {s t u : State}

theorem Notes.trans (h : Notes c l s t) (g : Notes d l' t u) : Notes (c + d) (l ++ l') s u :=
  ⟨g.profile.trans h.profile, g.source.trans h.source, g.ctx.trans h.ctx, h.log.trans g.log⟩

/-- What a run of acts that reads no source byte notes, where its events are known. -/
theorem notes_acts {a : List Act} (ha : ∀ b ∈ a, b.code ≠ 0x5) (hc : (actEvents a s).countP Event.isControl = c)
    (hl : shown (actEvents a s) = l) : Notes c l s (afterActs a s) :=
  ⟨(afterActs_fields a s).1, (framed_afterActs a s).source, afterActs_ctx_of_codes ha, _, afterActs_trace a s, hc, hl⟩

theorem yields_notes {a : List Act} (ha : ∀ b ∈ a, b.code ≠ 0x5) (hc : (actEvents a s).countP Event.isControl = c)
    (hl : shown (actEvents a s) = l) : Yields (Notes c l s) (runActs a s) :=
  yields_runActs (notes_acts ha hc hl)

/-- `BitSet` and its delay (R112). -/
theorem notes_on (k : Bank) (f : Field) (d : Word) : Yields (Notes 2 [.wait d] s) (runActs (bitOn k f ++ [.wait d]) s) :=
  yields_notes (by simp [bitOn, Act.code]) rfl rfl

/-- `BitClr` and its delay (R113). -/
theorem notes_off (k : Bank) (f : Field) (d : Word) : Yields (Notes 2 [.wait d] s) (runActs (bitOff k f ++ [.wait d]) s) :=
  yields_notes (by simp [bitOff, Act.code]) rfl rfl

theorem notes_programPulse (k : Bank) (width : Word) :
    Yields (Notes 8 (programEvents s.profile width) s) (execProgramPulse k width s) :=
  yields_notes (by simp [programPulseActs, guardedActs, programBody, acquireActs, releaseActs, windowActs, cleanupActs,
    bitOn, bitOff, Act.code]) rfl rfl

end

/-! ### Latch passes (R114, R191, R198) -/

theorem event_of_latches {s t : State} {f : Nat → Act} {x : Nat → Byte} (hf : Latches s f x) (ht : t.ctx = s.ctx)
    (i : Nat) : ((f i).op t).event t = .fw8 (offset s.ctx.pgDest i) (x i) := by
  obtain ⟨-, -, -, -, -, -, -, -, htrace, -⟩ := act_after_fields (f i) t
  have hlatched : ((f i).after t).trace = t.trace ++ [.fw8 (offset s.ctx.pgDest i) (x i)] := by
    rw [hf.after i t ht]
    rfl
  rw [hlatched, List.append_cancel_left_eq, List.singleton_inj] at htrace
  exact htrace.symm

theorem actEvents_latches {s t : State} {f : Nat → Act} {x : Nat → Byte} (hf : Latches s f x) (ht : t.ctx = s.ctx)
    (l : List Nat) : actEvents (l.map f) t = l.map fun i => .fw8 (offset s.ctx.pgDest i) (x i) := by
  induction l generalizing t with
  | nil => rfl
  | cons i l ih =>
    have hctx : ((f i).after t).ctx = s.ctx := by
      rw [hf.after i t ht]
      exact ht
    rw [List.map_cons, actEvents, event_of_latches hf ht, ih hctx, List.map_cons]

/-- The four bytes of a word of a buffer (R10, R60). -/
theorem bytes_bufWord (buf : List Byte) (j : Nat) :
    [(bufWord buf j).extractLsb' 24 8, (bufWord buf j).extractLsb' 16 8, (bufWord buf j).extractLsb' 8 8,
      (bufWord buf j).extractLsb' 0 8] = [bufByte buf (4 * j), bufByte buf (4 * j + 1), bufByte buf (4 * j + 2),
      bufByte buf (4 * j + 3)] := by
  obtain ⟨h, h3⟩ := append_inj ((append_extract (bufWord buf j)).trans rfl)
  obtain ⟨h, h2⟩ := append_inj h
  obtain ⟨h0, h1⟩ := append_inj h
  rw [h0, h1, h2, h3]

/-- The bytes of the words of a buffer are the bytes of the buffer. -/
theorem bytes_wordsFrom (buf : List Byte) (n : Nat) : ((List.range n).map (bufWord buf)).flatMap (fun w =>
    [w.extractLsb' 24 8, w.extractLsb' 16 8, w.extractLsb' 8 8, w.extractLsb' 0 8]) =
    (List.range (4 * n)).map (bufByte buf) := by
  induction n with
  | zero => rfl
  | succ n ih =>
    rw [List.range_succ, List.map_append, List.flatMap_append, ih, Nat.mul_succ, List.range_add, List.map_append,
      List.map_singleton, List.flatMap_singleton, bytes_bufWord]
    rfl

theorem latchEvents_eq (dest : Word) (buf : List Byte) (n : Nat) : latchEvents dest (wordsFrom buf 0 n) =
    (List.range (4 * n)).map fun i => .fw8 (offset dest i) (bufByte buf i) := by
  rw [latchEvents, wordsFrom, ← List.range_eq_range', bytes_wordsFrom]
  refine List.ext_getElem (by simp) fun i _ _ => ?_
  simp

end Sys2Proof.Machine
end

section
/-! The verify pass of a page: the words it reads back, its verdict, and what it leaves of the buffers and the mismatch flag
(R191 step 3c, R193 to R197). -/

namespace Sys2Proof.Machine

/-! ### The verdict, from the words read back (R193, R197) -/

/-- What a pass over the source words `ws` that read back `vs` answers: fatal at its last word and at none before it, or
every word read and none fatal (R197). -/
def PassVerdict (ws vs : List Word) (r : Status) : Prop :=
  if anyFatal ws vs then r = .programVerifyFatal ∧ anyFatal ws vs.dropLast = false ∧ vs.length ≤ ws.length
  else r = .ok ∧ vs.length = ws.length

section

variable {w v : Word} {ws vs : List Word} {r : Status}

theorem anyFatal_cons (w v : Word) (ws vs : List Word) :
    anyFatal (w :: ws) (v :: vs) = (decide (w &&& ~~~v ≠ 0) || anyFatal ws vs) := rfl

theorem anyFatal_nil (ws : List Word) : anyFatal ws [] = false := by rw [anyFatal, List.zip_nil_right, List.any_nil]

theorem passVerdict_nil : PassVerdict [] [] .ok := ⟨rfl, rfl⟩

theorem PassVerdict.eq_ok (h : PassVerdict ws vs r) (hr : r ≠ .programVerifyFatal) : r = .ok := by
  rw [PassVerdict] at h
  split at h
  · exact absurd h.1 hr
  · exact h.1

/-- A pass ends at its first fatal word. -/
theorem passVerdict_fatal (h : w &&& ~~~v ≠ 0) (ws : List Word) : PassVerdict (w :: ws) [v] .programVerifyFatal := by
  rw [PassVerdict, anyFatal_cons, decide_eq_true h]
  exact ⟨rfl, anyFatal_nil _, Nat.le_add_left 1 _⟩

/-- A word that is not fatal leaves the verdict to the words after it. -/
theorem PassVerdict.cons (h : w &&& ~~~v = 0) (hr : PassVerdict ws vs r) : PassVerdict (w :: ws) (v :: vs) r := by
  have hword : decide (w &&& ~~~v ≠ 0) = false := decide_eq_false (not_not_intro h)
  rw [PassVerdict] at hr ⊢
  rw [anyFatal_cons, hword, Bool.false_or]
  split at hr
  · next hf =>
    obtain ⟨hres, hinit, hlen⟩ := hr
    have hne : vs ≠ [] := fun e => by
      rw [e, anyFatal_nil] at hf
      cases hf
    rw [if_pos hf, List.dropLast_cons_of_ne_nil hne, anyFatal_cons, hword, hinit]
    exact ⟨hres, rfl, Nat.succ_le_succ hlen⟩
  · next hf =>
    rw [if_neg hf]
    exact ⟨hr.1, congrArg Nat.succ hr.2⟩

end

/-! ### What a pass leaves of the buffers (R193 to R196) -/

/-- The words the mismatch test compares with: those latched in this attempt, or those of the source (R196). -/
def referenceWords (p : DeviceProfile) (r ws : List Word) : List Word :=
  match p.mismatchRef with
  | .reprogram => r
  | .source => ws

/-- From `s` to `t` the words from `j` on were judged, none of them fatal: against the source words `ws` they read back
`vs`. Every other word of the buffers is as it was. -/
structure Rewritten (p : DeviceProfile) (j : Nat) (ws vs : List Word) (s t : State) : Prop where
  buffers : t.buffersWf = true
  n : t.ctx.n = s.ctx.n
  mismatch : t.ctx.m = true ↔ s.ctx.m = true ∨ vs ≠ referenceWords p (wordsFrom s.ctx.rbuf j ws.length) ws
  reprogram : wordsFrom t.ctx.rbuf j ws.length = nextReprogram ws vs
  overwrite : p.overwritePass s.ctx.n = true →
    wordsFrom t.ctx.obuf j ws.length = List.zipWith (fun v w => v ||| w) vs (wordsFrom s.ctx.rbuf j ws.length)
  frame : ∀ i, i < j ∨ j + ws.length ≤ i →
    bufWord t.ctx.rbuf i = bufWord s.ctx.rbuf i ∧ bufWord t.ctx.obuf i = bufWord s.ctx.obuf i

theorem rewritten_nil (p : DeviceProfile) (j : Nat) {s : State} (h : s.buffersWf = true) : Rewritten p j [] [] s s := by
  refine ⟨h, rfl, ?_, rfl, fun _ => rfl, fun _ _ => ⟨rfl, rfl⟩⟩
  cases hr : p.mismatchRef <;> simp [referenceWords, hr]

theorem Rewritten.cons {p : DeviceProfile} {j : Nat} {w v : Word} {ws vs : List Word} {s u t : State}
    (h : Rewritten p j [w] [v] s u) (g : Rewritten p (j + 1) ws vs u t) : Rewritten p j (w :: ws) (v :: vs) s t := by
  have hrest : wordsFrom u.ctx.rbuf (j + 1) ws.length = wordsFrom s.ctx.rbuf (j + 1) ws.length :=
    wordsFrom_congr fun i hi _ => (h.frame i (.inr hi)).1
  obtain ⟨hr, ho⟩ := g.frame j (.inl (Nat.lt_succ_self j))
  refine ⟨g.buffers, g.n.trans h.n, ?_, ?_, fun hp => ?_, fun i hi => ?_⟩
  · rw [g.mismatch, h.mismatch, hrest, or_assoc]
    cases href : p.mismatchRef <;> simp [referenceWords, href, imp_iff_not_or]
  · rw [List.length_cons, wordsFrom_succ, hr, g.reprogram]
    exact congrArg (· ++ nextReprogram ws vs) h.reprogram
  · rw [List.length_cons, wordsFrom_succ, ho, g.overwrite (by rw [h.n, hp]), hrest]
    exact congrArg (· ++ List.zipWith _ vs _) (h.overwrite hp)
  · rw [List.length_cons] at hi
    obtain ⟨hr', ho'⟩ := g.frame i (by omega)
    obtain ⟨hr, ho⟩ := h.frame i (by rw [List.length_singleton]; omega)
    exact ⟨hr'.trans hr, ho'.trans ho⟩

/-! ### Points of a page -/

/-- A point of a page, whatever its buffers: the profile, the source space and the page's addresses (R191 step 1). -/
structure AtPage (p : DeviceProfile) (m : Memory) (dest src : Word) (s : State) : Prop where
  profile : s.profile = p
  source : s.env.source = m
  pgDest : s.ctx.pgDest = dest
  pgSrc : s.ctx.pgSrc = src

section

variable {p : DeviceProfile} {m : Memory} {dest src : Word} {s t x : State} {j : Nat} {v : Word}

theorem AtPage.notes {c : Nat} {l : List Event} (h : AtPage p m dest src s) (g : Notes c l s t) : AtPage p m dest src t :=
  ⟨g.profile.trans h.profile, g.source.trans h.source, by rw [g.ctx, h.pgDest], by rw [g.ctx, h.pgSrc]⟩

/-! ### One word (R193) -/

/-- The events of a verify pass that reads back `vs` from word `j` on. -/
def verifyEvents (p : DeviceProfile) (m : Memory) (dest src : Word) (j : Nat) (vs : List Word) : List Event :=
  (vs.zipIdx j).flatMap fun c =>
    [Event.fw32 (offset dest (4 * c.2)) ones32, .wait p.delays.pvRead, .fr32 (offset dest (4 * c.2)) c.1]
      ++ sourceEvents m src (4 * c.2) 4

/-- `x` is ready for the checks of word `j`: `v` was read back, and the source word afresh (R193). -/
structure WordRead (p : DeviceProfile) (m : Memory) (dest src : Word) (j : Nat) (v : Word) (s x : State) : Prop extends
    AtPage p m dest src x where
  ctx : x.ctx = { s.ctx with vaddr := offset s.ctx.pgDest (4 * j) }
  fword : x.loc.fword = v
  sword : x.loc.sword = sourceWord m src j
  log : Logged 0 (verifyEvents p m dest src j [v]) s x

theorem AtPage.wordRead (h : AtPage p m dest src s) (j : Nat) :
    Yields (fun x => ∃ v, WordRead p m dest src j v s x)
      (runActs (pvWordActs s.profile (offset s.ctx.pgSrc (4 * j))) (s.startWord j)) := by
  have hacts : afterActs (pvWordActs s.profile (offset s.ctx.pgSrc (4 * j))) (s.startWord j) =
      (afterActs [.probe, .wait s.profile.delays.pvRead, .readBack] (s.startWord j)).readSource
        (offset s.ctx.pgSrc (4 * j)) := by
    rw [pvWordActs, afterActs_append, afterActs_srcWord]
  have hread : Notes 0 [.fw32 (offset s.ctx.pgDest (4 * j)) ones32, .wait s.profile.delays.pvRead,
      .fr32 (offset s.ctx.pgDest (4 * j))
        (afterActs [.probe, .wait s.profile.delays.pvRead, .readBack] (s.startWord j)).loc.fword] (s.startWord j)
      (afterActs [.probe, .wait s.profile.delays.pvRead, .readBack] (s.startWord j)) :=
    notes_acts (by simp [Act.code]) rfl rfl
  refine yields_runActs (hacts ▸ ?_)
  generalize afterActs [.probe, .wait s.profile.delays.pvRead, .readBack] (s.startWord j) = u at hread
  obtain ⟨hprofile, hsource, hctx, hlog⟩ := hread
  have hm : u.env.source = m := hsource.trans h.source
  have hsrc : Logged 0 (sourceEvents m src (4 * j) 4) u (u.readSource (offset src (4 * j))) := by
    refine ⟨_, rfl, rfl, ?_⟩
    simp only [State.sourceByte, hm, offset_offset]
    rfl
  rw [h.profile, h.pgDest] at hlog
  rw [h.pgSrc]
  refine ⟨u.loc.fword, ⟨hprofile.trans h.profile, hm, ?_, ?_⟩, hctx, rfl, sourceWordAt_eq hm src j, ?_⟩
  · exact (congrArg PulseContext.pgDest hctx).trans h.pgDest
  · exact (congrArg PulseContext.pgSrc hctx).trans h.pgSrc
  · exact hlog.trans hsrc

/-- What a verify pass of the `left` words from word `j` on comes to, `vs` being the words it read back; `c` and `l` are
what was noted since `s`. -/
structure VerifyPass (p : DeviceProfile) (m : Memory) (dest src : Word) (j left : Nat) (vs : List Word) (c : Nat)
    (l : List Event) (s t : State) : Prop extends AtPage p m dest src t where
  n : t.ctx.n = s.ctx.n
  log : Logged c l s t
  verdict : PassVerdict (sourceFrom m src j left) vs t.loc.result
  rewritten : s.buffersWf = true → t.loc.result = .ok → Rewritten p j (sourceFrom m src j left) vs s t

theorem buffersWf_iff {s : State} : s.buffersWf = true ↔
    s.ctx.rbuf.length = s.profile.pageBytes ∧ s.ctx.obuf.length = s.profile.obufBytes := by
  simp [State.buffersWf]

/-- The verdict on one word (R197). -/
theorem WordRead.verdict (hx : WordRead p m dest src j v s x) (n : Word) :
    PassVerdict [sourceWord m src j] [v] (x.judgeWord j n).loc.result := by
  have hfatal := fatalWord_iff (s := x)
  rw [hx.sword, hx.fword] at hfatal
  cases hf : x.fatalWord with
  | true =>
    rw [judgeWord_of_fatal hf]
    exact passVerdict_fatal (hfatal.1 hf) []
  | false =>
    rw [judgeWord_of_not_fatal hf]
    exact passVerdict_nil.cons (not_not.1 fun h => by rw [hfatal.2 h] at hf; cases hf)

/-- What the checks of a word that is not fatal leave of the buffers (R193 to R196). -/
theorem WordRead.rewritten (h : AtPage p m dest src s) (hj : j < p.pageWords) (hx : WordRead p m dest src j v s x)
    (hb : s.buffersWf = true) (hok : (x.judgeWord j s.ctx.n).loc.result = .ok) :
    Rewritten p j [sourceWord m src j] [v] s (x.judgeWord j s.ctx.n) := by
  obtain ⟨hrbuf, hobuf⟩ := buffersWf_iff.1 hb
  rw [h.profile] at hrbuf hobuf
  have hwords := pageBytes_eq_words p
  obtain ⟨hxr, hxo, hxm⟩ : x.ctx.rbuf = s.ctx.rbuf ∧ x.ctx.obuf = s.ctx.obuf ∧ x.ctx.m = s.ctx.m := by simp [hx.ctx]
  obtain ⟨hp, -⟩ := judgeWord_fields x j s.ctx.n
  obtain ⟨hlr, hlo, -, hn⟩ := judgeWord_ctx x j s.ctx.n
  obtain ⟨hm, hbad, hgood⟩ := judgeWord_result (s := x) (j := j) (by rw [hxr, hrbuf]; omega) s.ctx.n
  rw [hx.sword, hx.fword, hxr, hxo] at hgood
  rw [hx.sword, hx.fword] at hbad
  obtain ⟨-, hr, ho, hno⟩ := hgood (not_not.1 fun hne => by rw [(hbad hne).1] at hok; cases hok)
  rw [hx.profile] at ho hno
  have hovw : p.overwritePass s.ctx.n = true → 4 * j + 4 ≤ s.ctx.obuf.length := fun hpass => by
    rw [hobuf, DeviceProfile.obufBytes, if_pos (overwritePass_iff.1 hpass).1]
    omega
  have hother : ∀ i, i < j ∨ j + [sourceWord m src j].length ≤ i → i ≠ j := fun i hi => by
    rw [List.length_singleton] at hi
    omega
  refine ⟨buffersWf_iff.2 ⟨?_, ?_⟩, by rw [hn, hx.ctx], ?_, ?_, fun hpass => ?_, fun i hi => ⟨?_, ?_⟩⟩
  · rw [hlr, hxr, hrbuf, hp, hx.profile]
  · rw [hlo, hxo, hobuf, hp, hx.profile]
  · rw [hm, hxm, hx.fword]
    cases href : p.mismatchRef <;> simp [State.reference, referenceWords, hx.profile, href, hxr, hx.sword]
  · simp [hr, nextReprogram]
  · simp [ho hpass (hovw hpass)]
  · rw [hr, if_neg (hother i hi)]
  · cases hpass : p.overwritePass s.ctx.n with
    | true => rw [ho hpass (hovw hpass), if_neg (hother i hi)]
    | false => rw [hno hpass]

/-- A verify word is a pass of one word (R193). -/
theorem AtPage.verifyWord (h : AtPage p m dest src s) (hj : j < p.pageWords) (k : Bank) :
    Yields (fun t => ∃ v, VerifyPass p m dest src j 1 [v] 0 (verifyEvents p m dest src j [v]) s t)
      (execVerifyWord k j s.ctx.n s) := by
  rw [execVerifyWord, if_neg (by rw [h.profile]; exact Nat.not_le.2 hj)]
  refine (h.wordRead j).bind fun x hx => ?_
  obtain ⟨v, hx⟩ := hx
  obtain ⟨hp, -, -, -, -, -, -, -, -, henv, htrace, -⟩ := judgeWord_fields x j s.ctx.n
  have hctx := judgeWord_ctx_eq x j s.ctx.n
  exact yields_next ⟨v, ⟨hp.trans hx.profile, by rw [henv, hx.source], by rw [hctx, ← hx.pgDest],
    by rw [hctx, ← hx.pgSrc]⟩, by rw [hctx, hx.ctx], hx.log.move htrace, hx.verdict _, hx.rewritten h hj⟩

/-! ### The pass (R191 step 3c) -/

theorem VerifyPass.cons {u : State} {left c d : Nat} {l l' : List Event} {vs : List Word}
    (h : VerifyPass p m dest src j 1 [v] c l s u) (hok : u.loc.result = .ok)
    (g : VerifyPass p m dest src (j + 1) left vs d l' u t) :
    VerifyPass p m dest src j (left + 1) (v :: vs) (c + d) (l ++ l') s t := by
  have hword : sourceWord m src j &&& ~~~v = 0 := not_not.1 fun hne => by
    have hv := h.verdict
    rw [sourceFrom_succ, PassVerdict, anyFatal_cons, decide_eq_true hne, Bool.true_or, if_pos rfl, hok] at hv
    cases hv.1
  refine ⟨g.toAtPage, g.n.trans h.n, h.log.trans g.log, g.verdict.cons hword, fun hb hend => ?_⟩
  have hfirst := h.rewritten hb hok
  exact hfirst.cons (g.rewritten hfirst.buffers hend)

/-- A pass ends at a fatal word (R197). -/
theorem VerifyPass.stop {u : State} {c : Nat} {l : List Event} (h : VerifyPass p m dest src j 1 [v] c l s u)
    (hfatal : u.loc.result = .programVerifyFatal) (left : Nat) :
    VerifyPass p m dest src j (left + 1) [v] c l s u := by
  have hword : sourceWord m src j &&& ~~~v ≠ 0 := fun h0 => by
    have hv := h.verdict
    rw [sourceFrom_succ, PassVerdict, anyFatal_cons, h0, hfatal] at hv
    simp [anyFatal_nil] at hv
  refine ⟨h.toAtPage, h.n, h.log, ?_, fun _ hok => by rw [hfatal] at hok; cases hok⟩
  rw [hfatal]
  exact passVerdict_fatal hword _

theorem AtPage.verifyWords {left : Nat} (hj : j + left = p.pageWords) (h : AtPage p m dest src s)
    (hr : left = 0 → s.loc.result = .ok) :
    Yields (fun t => ∃ vs, VerifyPass p m dest src j left vs 0 (verifyEvents p m dest src j vs) s t)
      (verifyWords left j s) := by
  induction left generalizing j s with
  | zero =>
    refine yields_next ⟨[], h, rfl, logged_of_trace rfl, ?_, fun hb _ => rewritten_nil p j hb⟩
    rw [hr rfl]
    exact passVerdict_nil
  | succ left ih =>
    refine (h.verifyWord (by omega) _).bind fun u hu => ?_
    obtain ⟨v, hu⟩ := hu
    split
    · next hfatal => exact yields_next ⟨[v], hu.stop hfatal left⟩
    · next hgood =>
      have hok := hu.verdict.eq_ok hgood
      refine (ih (by omega) hu.toAtPage fun _ => hok).mono fun t ht => ?_
      obtain ⟨vs, ht⟩ := ht
      refine ⟨v :: vs, ?_⟩
      rw [verifyEvents, List.zipIdx_cons, List.flatMap_cons]
      exact hu.cons hok ht

/-- A pass after a run that leaves the page's registers alone. -/
theorem VerifyPass.after {u : State} {left c d : Nat} {l l' : List Event} {vs : List Word} (h : Notes c l s t)
    (g : VerifyPass p m dest src j left vs d l' t u) : VerifyPass p m dest src j left vs (c + d) (l ++ l') s u := by
  refine ⟨g.toAtPage, by rw [g.n, h.ctx], h.log.trans g.log, g.verdict, fun hb hok => ?_⟩
  obtain ⟨hbuffers, hn, hm, hr, ho, hframe⟩ := g.rewritten (by rwa [State.buffersWf, h.profile, h.ctx]) hok
  rw [h.ctx] at hn hm ho hframe
  exact ⟨hbuffers, hn, hm, hr, ho, hframe⟩

/-- The verify pass of a page: `PV` set, and its words (R191 step 3c). -/
theorem AtPage.verifyAttempt (h : AtPage p m dest src s) :
    Yields (fun t => ∃ vs, VerifyPass p m dest src 0 p.pageWords vs 2
      ([.wait p.delays.pvSetup] ++ verifyEvents p m dest src 0 vs) s t) (verifyAttempt s) := by
  have hpos : p.pageWords ≠ 0 := by
    have := pageBytes_eq_words p
    rcases pageBytes_cases p with hp | hp <;> omega
  rw [Machine.verifyAttempt, h.profile]
  refine (notes_on _ _ _).bind fun t ht => ?_
  have hpage := h.notes ht
  rw [hpage.profile]
  refine (hpage.verifyWords (Nat.zero_add _) fun e => absurd e hpos).mono fun u hu => ?_
  obtain ⟨vs, hu⟩ := hu
  exact ⟨vs, hu.after ht⟩

end

end Sys2Proof.Machine
end

section
/-! The attempts of a page: the events of each, the status as the words they read back tell it, and how many events a page
makes (R191 to R199, R238, R239, R280). -/

namespace Sys2Proof.Machine

/-! ### The events of an attempt -/

/-- Whether the attempt after `n` others has the overwrite pass (R195, R198). -/
def passAt (p : DeviceProfile) (n : Nat) : Bool := p.hasOverwrite && decide (n < p.overwriteCount.toNat)

/-- The latch pass of the buffer `r`, the main pulse and the verify pass (R191 steps 3a to 3c). -/
def attemptHead (p : DeviceProfile) (m : Memory) (dest src : Word) (n : Nat) (r vs : List Word) : List Event :=
  latchEvents dest r ++ programEvents p (if n < p.overwriteCount.toNat then p.delays.pShort else p.delays.pLong) ++
    ([.wait p.delays.pvSetup] ++ verifyEvents p m dest src 0 vs)

/-- The latch pass of the buffer `o` and the supplemental pulse, where `b` (R191 step 3e, R198). -/
def overwriteEvents (p : DeviceProfile) (dest : Word) (b : Bool) (o : List Word) : List Event :=
  if b then latchEvents dest o ++ programEvents p p.delays.pAdd else []

theorem pageAttemptEvents_eq (p : DeviceProfile) (m : Memory) (dest src : Word) (n : Nat) (r vs : List Word) :
    pageAttemptEvents p m dest src n r vs = attemptHead p m dest src n r vs ++ ([.wait p.delays.pvHold] ++
      overwriteEvents p dest (passAt p n && !anyFatal (sourceFrom m src 0 p.pageWords) vs)
        (List.zipWith (fun v w => v ||| w) vs r)) := by
  rw [← sourceWords_eq]
  simp only [attemptHead, List.append_assoc]
  simp only [pageAttemptEvents, List.append_assoc]
  rfl

/-! ### The number of the attempt -/

section

variable {p : DeviceProfile} {n : Nat} {v : Word}

theorem le_overwriteCount_iff (h : v.toNat = n + 1) : v ≤ p.overwriteCount ↔ n < p.overwriteCount.toNat := by
  rw [BitVec.le_def, h, Nat.succ_le_iff]

theorem overwritePass_eq (h : v.toNat = n + 1) : p.overwritePass v = passAt p n := by
  rw [DeviceProfile.overwritePass, passAt, decide_eq_decide.2 (le_overwriteCount_iff h)]

theorem pulseWidth_eq (h : v.toNat = n + 1) :
    p.pulseWidth v = if n < p.overwriteCount.toNat then p.delays.pShort else p.delays.pLong :=
  if_congr (le_overwriteCount_iff h) rfl rfl

end

/-! ### The parts of an attempt -/

section

variable {p : DeviceProfile} {m : Memory} {dest src : Word} {s : State} {n : Nat}

/-- A latch pass of a buffer and its pulse (R191, R192, R198). -/
theorem AtPage.latchPulse (h : AtPage p m dest src s) {f : Nat → Act} {buf : List Byte} (hf : Latches s f (bufByte buf))
    {width : State → Word} {w : Word} (hw : ∀ t, t.profile = p → t.ctx = s.ctx → width t = w) :
    Yields (Notes 8 (latchEvents dest (wordsFrom buf 0 p.pageWords) ++ programEvents p w) s)
      (andThen (runActs ((List.range p.pageBytes).map f) s) fun t =>
        execProgramPulse t.ctx.bank (width t) t) := by
  have hevents : actEvents ((List.range p.pageBytes).map f) s =
      latchEvents dest (wordsFrom buf 0 p.pageWords) := by
    rw [actEvents_latches hf rfl, latchEvents_eq, h.pgDest, pageBytes_eq_words]
  have hlatch : Yields (Notes 0 (latchEvents dest (wordsFrom buf 0 p.pageWords)) s)
      (runActs ((List.range p.pageBytes).map f) s) := by
    refine yields_notes (fun b hb => by rw [latches_codes hf hb]; decide) ?_ ?_ <;> rw [hevents, latchEvents_eq]
    · simp [List.countP_map, Function.comp_def, Event.isControl]
    · simp [shown, List.filter_map, Function.comp_def, Event.isControl]
  refine hlatch.bind fun t ht => ?_
  have hprofile := (h.notes ht).profile
  have hpulse := notes_programPulse (s := t) t.ctx.bank w
  rw [hprofile] at hpulse
  rw [hw t hprofile ht.ctx]
  exact hpulse.mono fun u hu => ht.trans hu

theorem AtPage.programAttempt (h : AtPage p m dest src s) (hn : s.ctx.n.toNat = n + 1) :
    Yields (Notes 8 (latchEvents dest (wordsFrom s.ctx.rbuf 0 p.pageWords) ++
      programEvents p (if n < p.overwriteCount.toNat then p.delays.pShort else p.delays.pLong)) s) (programAttempt s) := by
  rw [Machine.programAttempt, h.profile]
  exact h.latchPulse (latches_rbuf s) (width := fun t => t.profile.pulseWidth t.ctx.n) fun t hp hx => by
    rw [hp, hx, pulseWidth_eq hn]

theorem AtPage.overwriteAttempt (h : AtPage p m dest src s) (hn : s.ctx.n.toNat = n + 1) :
    Yields (Notes (if passAt p n then 8 else 0)
      (overwriteEvents p dest (passAt p n) (wordsFrom s.ctx.obuf 0 p.pageWords)) s) (overwriteAttempt s) := by
  rw [Machine.overwriteAttempt, h.profile, overwritePass_eq hn, overwriteEvents]
  split
  · exact h.latchPulse (latches_obuf s) (width := fun t => t.profile.delays.pAdd) fun t hp _ => by rw [hp]
  · exact yields_next ⟨rfl, rfl, rfl, logged_of_trace rfl⟩

/-- The end of an attempt without a fatal word (R191 steps 3d, 3e). -/
theorem AtPage.finishAttempt (h : AtPage p m dest src s) (hn : s.ctx.n.toNat = n + 1) :
    Yields (Notes (2 + if passAt p n then 8 else 0) ([.wait p.delays.pvHold] ++
      overwriteEvents p dest (passAt p n) (wordsFrom s.ctx.obuf 0 p.pageWords)) s) (finishAttempt s) := by
  rw [Machine.finishAttempt, h.profile]
  refine (notes_off _ _ _).bind fun t ht => ?_
  refine ((h.notes ht).overwriteAttempt (n := n) (by rw [ht.ctx, hn])).mono fun u hu => ?_
  rw [ht.ctx] at hu
  exact ht.trans hu

theorem AtPage.lockPage (h : AtPage p m dest src s) (r : Status) :
    Yields (fun t => Logged 2 [.wait p.delays.sweHold] s t ∧ t.loc.result = r) (lockPage r s) := by
  rw [Machine.lockPage, h.profile]
  exact (notes_off _ _ _).bind fun t ht => yields_next ⟨ht.log, rfl⟩

theorem AtPage.fatalExit (h : AtPage p m dest src s) :
    Yields (fun t => Logged (2 + 2) ([.wait p.delays.pvHold] ++ [.wait p.delays.sweHold]) s t ∧
      t.loc.result = .programVerifyFatal) (fatalExit s) := by
  rw [Machine.fatalExit, h.profile]
  refine (notes_off _ _ _).bind fun t ht => ((h.notes ht).lockPage _).mono fun u hu => ?_
  exact ⟨ht.log.trans hu.1, hu.2⟩

end

end Sys2Proof.Machine
end

section
/-! A page as the words its attempts read back tell it: its status, its events in order, and their number (R191, R196 to
R199, R238, R239, R280). -/

namespace Sys2Proof.Machine

/-! ### The status, from the words of the attempts (R196, R197, R238, R239) -/

section

variable {p : DeviceProfile} {ws r vs : List Word} {vss : List (List Word)} {n : Nat} {res : Status}

theorem pageRun_cons : pageRun p ws n r (vs :: vss) res ↔ n < p.maxWriteRetries.toNat ∧
    if anyFatal ws vs then
      anyFatal ws vs.dropLast = false ∧ vs.length ≤ ws.length ∧ vss = [] ∧ res = .programVerifyFatal
    else vs.length = ws.length ∧ if vs = referenceWords p r ws then vss = [] ∧ res = .ok
      else pageRun p ws (n + 1) (nextReprogram ws vs) vss res := Iff.rfl

/-- A run ends with an attempt that has a fatal word. -/
theorem pageRun_of_fatal (hn : n < p.maxWriteRetries.toNat) (h : PassVerdict ws vs .programVerifyFatal) :
    anyFatal ws vs = true ∧ pageRun p ws n r [vs] .programVerifyFatal := by
  rw [PassVerdict] at h
  split at h
  · next hf =>
    obtain ⟨-, hinit, hlen⟩ := h
    exact ⟨hf, pageRun_cons.2 ⟨hn, by rw [if_pos hf]; exact ⟨hinit, hlen, rfl, rfl⟩⟩⟩
  · cases h.1

theorem complete_of_verdict (h : PassVerdict ws vs .ok) : anyFatal ws vs = false ∧ vs.length = ws.length := by
  rw [PassVerdict] at h
  split at h
  · cases h.1
  · next hf => exact ⟨Bool.eq_false_iff.2 hf, h.2⟩

/-- A run ends with a complete attempt without a mismatch. -/
theorem pageRun_of_match (hn : n < p.maxWriteRetries.toNat) (h : PassVerdict ws vs .ok)
    (hm : vs = referenceWords p r ws) : pageRun p ws n r [vs] .ok := by
  obtain ⟨hf, hlen⟩ := complete_of_verdict h
  refine pageRun_cons.2 ⟨hn, ?_⟩
  rw [hf, if_neg Bool.false_ne_true, if_pos hm]
  exact ⟨hlen, rfl, rfl⟩

/-- A run goes on after a complete attempt with a mismatch. -/
theorem pageRun_of_mismatch (hn : n < p.maxWriteRetries.toNat) (h : PassVerdict ws vs .ok)
    (hm : vs ≠ referenceWords p r ws) (hrun : pageRun p ws (n + 1) (nextReprogram ws vs) vss res) :
    pageRun p ws n r (vs :: vss) res := by
  obtain ⟨hf, hlen⟩ := complete_of_verdict h
  refine pageRun_cons.2 ⟨hn, ?_⟩
  rw [hf, if_neg Bool.false_ne_true, if_neg hm]
  exact ⟨hlen, hrun⟩

end

/-! ### The number of events (R280) -/

/-- How many of the `a` attempts after `n` others have the overwrite pass (R198). -/
def passesFrom (p : DeviceProfile) (n a : Nat) : Nat :=
  if p.hasOverwrite then min (n + a) p.overwriteCount.toNat - min n p.overwriteCount.toNat else 0

theorem passesFrom_succ (p : DeviceProfile) (n a : Nat) :
    passesFrom p n (a + 1) = (if passAt p n then 1 else 0) + passesFrom p (n + 1) a := by
  unfold passesFrom passAt
  cases p.hasOverwrite with
  | false => rfl
  | true =>
    by_cases h : n < p.overwriteCount.toNat <;> simp [h] <;> omega

/-- The events `es` are `k`, among them `a` starts of the watchdog. -/
def Makes (k a : Nat) (es : List Event) : Prop := es.length = k ∧ es.countP Event.isWdtStart = a

theorem Makes.append {k a l b : Nat} {es fs : List Event} (h : Makes k a es) (g : Makes l b fs) :
    Makes (k + l) (a + b) (es ++ fs) :=
  ⟨by rw [List.length_append, h.1, g.1], by rw [List.countP_append, h.2, g.2]⟩

theorem makes_wait (d : Word) : Makes 1 0 [.wait d] := ⟨rfl, rfl⟩

theorem makes_program (p : DeviceProfile) (width : Word) : Makes 9 1 (programEvents p width) := ⟨rfl, rfl⟩

theorem makes_source (m : Memory) (src : Word) (first n : Nat) : Makes n 0 (sourceEvents m src first n) := by
  refine ⟨by simp [sourceEvents], ?_⟩
  simp [sourceEvents, List.countP_map, Function.comp_def, Event.isWdtStart]

theorem makes_latch (dest : Word) (buf : List Byte) (n : Nat) :
    Makes (4 * n) 0 (latchEvents dest (wordsFrom buf 0 n)) := by
  rw [latchEvents_eq]
  refine ⟨by simp, ?_⟩
  simp [List.countP_map, Function.comp_def, Event.isWdtStart]

theorem makes_verify (p : DeviceProfile) (m : Memory) (dest src : Word) (j : Nat) (vs : List Word) :
    Makes (7 * vs.length) 0 (verifyEvents p m dest src j vs) := by
  induction vs generalizing j with
  | nil => exact ⟨rfl, rfl⟩
  | cons v vs ih =>
    have hword : Makes 3 0 [.fw32 (offset dest (4 * j)) ones32, .wait p.delays.pvRead, .fr32 (offset dest (4 * j)) v] :=
      ⟨rfl, rfl⟩
    have hall := (hword.append (makes_source m src (4 * j) 4)).append (ih (j + 1))
    rw [verifyEvents, List.zipIdx_cons, List.flatMap_cons, List.length_cons, Nat.mul_succ, Nat.add_comm]
    exact hall

theorem makes_overwrite (p : DeviceProfile) (dest : Word) (b : Bool) (buf : List Byte) (n : Nat) :
    Makes (if b then 4 * n + 9 else 0) (if b then 1 else 0) (overwriteEvents p dest b (wordsFrom buf 0 n)) := by
  cases b with
  | false => exact ⟨rfl, rfl⟩
  | true => exact (makes_latch dest buf n).append (makes_program p _)

/-- The attempts after `n` others made the events `l` and `c` accesses of the control registers: a latch pass, a pulse and
a verify pass each, and a second latch pass and pulse in the overwrite passes (R280). -/
def Counted (p : DeviceProfile) (n c : Nat) (l : List Event) : Prop :=
  ∃ a, n + a ≤ p.maxWriteRetries.toNat ∧ c + l.length = a * (p.pageBytes + 23 + 7 * p.pageWords) +
    passesFrom p n a * (p.pageBytes + 17) ∧ l.countP Event.isWdtStart = a + passesFrom p n a

theorem counted_nil {p : DeviceProfile} {n : Nat} (hn : n ≤ p.maxWriteRetries.toNat) : Counted p n 0 [] := by
  refine ⟨0, hn, ?_⟩
  simp [passesFrom]

/-- A complete attempt. -/
theorem Counted.attempt {p : DeviceProfile} {n c : Nat} {l : List Event} (h : Counted p (n + 1) c l) (m : Memory)
    (dest src : Word) (x y : List Byte) {vs : List Word} (hvs : vs.length = p.pageWords) :
    Counted p n (8 + 2 + (2 + if passAt p n then 8 else 0) + c)
      (attemptHead p m dest src n (wordsFrom x 0 p.pageWords) vs ++ ([.wait p.delays.pvHold] ++
        overwriteEvents p dest (passAt p n) (wordsFrom y 0 p.pageWords)) ++ l) := by
  obtain ⟨a, ha, hlen, hcount⟩ := h
  have hhead := ((makes_latch dest x p.pageWords).append (makes_program p
    (if n < p.overwriteCount.toNat then p.delays.pShort else p.delays.pLong))).append
    ((makes_wait p.delays.pvSetup).append (makes_verify p m dest src 0 vs))
  have htail := (makes_wait p.delays.pvHold).append (makes_overwrite p dest (passAt p n) y p.pageWords)
  obtain ⟨hk, hs⟩ := (hhead.append htail).append ⟨rfl, hcount⟩
  have hwords := pageBytes_eq_words p
  refine ⟨a + 1, by omega, ?_, ?_⟩
  · rw [attemptHead, hk, hvs, passesFrom_succ, Nat.add_mul _ _ (p.pageBytes + 17), Nat.succ_mul a]
    cases passAt p n <;> simp only [Bool.false_eq_true, if_true, if_false] <;> omega
  · rw [attemptHead, hs, passesFrom_succ]
    omega

end Sys2Proof.Machine
end

section
/-! The retry loop of `write_page` as the words its attempts read back tell it: its events and its status (R191, R199,
R238, R239, R280). -/

namespace Sys2Proof.Machine

/-! ### The retry loop (R191 steps 3, 4) -/

/-- What the retry loop notes and answers from attempt `n` on: the events `l` of its attempts, then the end of `SWE`. Their
number does not depend on the buffers; with the buffers at their lengths, the words read back tell the events and the
status. -/
structure PageRuns (p : DeviceProfile) (m : Memory) (dest src : Word) (n c : Nat) (l : List Event) (s t : State) :
    Prop where
  log : Logged (c + 2) (l ++ [.wait p.delays.sweHold]) s t
  counted : t.loc.result ≠ .programVerifyFatal → Counted p n c l
  run : s.buffersWf = true → ∃ vss,
    l = pageAttemptsEvents p m dest src n (wordsFrom s.ctx.rbuf 0 p.pageWords) vss ∧
      pageRun p (sourceFrom m src 0 p.pageWords) n (wordsFrom s.ctx.rbuf 0 p.pageWords) vss t.loc.result

section

variable {p : DeviceProfile} {m : Memory} {dest src : Word} {s t u : State} {n : Nat} {vs : List Word}

/-- The run of the loop is told by the trace and the buffers that it begins with. -/
theorem PageRuns.congr {s' : State} {c : Nat} {l : List Event} (h : PageRuns p m dest src n c l s' t)
    (ht : s'.trace = s.trace) (hp : s'.profile = s.profile) (hr : s'.ctx.rbuf = s.ctx.rbuf)
    (ho : s'.ctx.obuf = s.ctx.obuf) : PageRuns p m dest src n c l s t := by
  obtain ⟨hlog, hcounted, hrun⟩ := h
  rw [Logged, ht] at hlog
  rw [State.buffersWf, hp, hr, ho] at hrun
  exact ⟨hlog, hcounted, hrun⟩

/-- Numbering the next attempt, if there is one, writes no other register (R23, R191). -/
theorem AtPage.numbered (h : AtPage p m dest src s) (b : Prop) [Decidable b] (v : Word) :
    AtPage p m dest src (if b then s else s.setN v) ∧ (if b then s else s.setN v).trace = s.trace ∧
      (if b then s else s.setN v).ctx = { s.ctx with n := if b then s.ctx.n else v } := by
  split
  · exact ⟨h, rfl, rfl⟩
  · exact ⟨⟨h.profile, h.source, h.pgDest, h.pgSrc⟩, rfl, rfl⟩

theorem pageAttemptsEvents_cons (r : List Word) (vss : List (List Word)) :
    pageAttemptsEvents p m dest src n r (vs :: vss) = pageAttemptEvents p m dest src n r vs ++
      pageAttemptsEvents p m dest src (n + 1) (nextReprogram (sourceFrom m src 0 p.pageWords) vs) vss := by
  rw [pageAttemptsEvents, sourceWords_eq]

/-- The events of an attempt that ends with a fatal word (R197). -/
theorem fatalAttemptEvents (r : List Word) (hf : anyFatal (sourceFrom m src 0 p.pageWords) vs = true) :
    attemptHead p m dest src n r vs ++ [.wait p.delays.pvHold] = pageAttemptEvents p m dest src n r vs := by
  rw [pageAttemptEvents_eq, hf, Bool.not_true, Bool.and_false]
  rfl

/-- An attempt that ends with a fatal word ends the page (R191, R197). -/
theorem pageRuns_of_fatal (hmax : n < p.maxWriteRetries.toNat) (h : VerifyPass p m dest src 0 p.pageWords vs (8 + 2)
    (attemptHead p m dest src n (wordsFrom s.ctx.rbuf 0 p.pageWords) vs) s u)
    (hfatal : u.loc.result = .programVerifyFatal)
    (hlog : Logged (2 + 2) ([.wait p.delays.pvHold] ++ [.wait p.delays.sweHold]) u t)
    (hres : t.loc.result = .programVerifyFatal) : PageRuns p m dest src n (8 + 2 + 2)
      (attemptHead p m dest src n (wordsFrom s.ctx.rbuf 0 p.pageWords) vs ++ [.wait p.delays.pvHold]) s t := by
  have hverdict := h.verdict
  rw [hfatal] at hverdict
  obtain ⟨hf, hrun⟩ := pageRun_of_fatal (r := wordsFrom s.ctx.rbuf 0 p.pageWords) hmax hverdict
  refine ⟨?_, fun hne => absurd hres hne, fun _ => ⟨[vs], ?_, by rw [hres]; exact hrun⟩⟩
  · rw [List.append_assoc]
    exact h.log.trans hlog
  · rw [pageAttemptsEvents_cons, fatalAttemptEvents _ hf, pageAttemptsEvents, List.append_nil]

/-- From `s` to `t` an attempt after `n` others read back the words `vs`, none of them fatal (R191 steps 3a to 3e). -/
structure Complete (p : DeviceProfile) (m : Memory) (dest src : Word) (n : Nat) (vs : List Word) (s t : State) : Prop where
  log : Logged (8 + 2 + (2 + if passAt p n then 8 else 0))
    (attemptHead p m dest src n (wordsFrom s.ctx.rbuf 0 p.pageWords) vs ++ ([.wait p.delays.pvHold] ++
      overwriteEvents p dest (passAt p n) (wordsFrom t.ctx.obuf 0 p.pageWords))) s t
  verdict : PassVerdict (sourceFrom m src 0 p.pageWords) vs .ok
  rewritten : s.buffersWf = true → Rewritten p 0 (sourceFrom m src 0 p.pageWords) vs s t

theorem VerifyPass.complete {v : State} {c : Nat} {l : List Event} (h : VerifyPass p m dest src 0 p.pageWords vs (8 + 2)
    (attemptHead p m dest src n (wordsFrom s.ctx.rbuf 0 p.pageWords) vs) s u) (hok : u.loc.result = .ok)
    (hc : c = 2 + if passAt p n then 8 else 0) (hl : l = [.wait p.delays.pvHold] ++
      overwriteEvents p dest (passAt p n) (wordsFrom u.ctx.obuf 0 p.pageWords)) (hv : Notes c l u v) :
    Complete p m dest src n vs s v := by
  subst hc hl
  have hverdict := h.verdict
  rw [hok] at hverdict
  refine ⟨by rw [hv.ctx]; exact h.log.trans hv.log, hverdict, fun hb => ?_⟩
  obtain ⟨hbuffers, hn, hm, hr, ho, hframe⟩ := h.rewritten hb hok
  rw [← hv.ctx] at hn hm hr ho hframe
  exact ⟨by rwa [State.buffersWf, hv.profile, hv.ctx], hn, hm, hr, ho, hframe⟩

section

variable (hmax : n < p.maxWriteRetries.toNat) (hn : s.ctx.n.toNat = n + 1) (h : Complete p m dest src n vs s u)
include hn h

/-- The events of an attempt that does not end with a fatal word (R194, R195). -/
theorem Complete.events (hb : s.buffersWf = true) :
    attemptHead p m dest src n (wordsFrom s.ctx.rbuf 0 p.pageWords) vs ++ ([.wait p.delays.pvHold] ++
      overwriteEvents p dest (passAt p n) (wordsFrom u.ctx.obuf 0 p.pageWords)) =
    pageAttemptEvents p m dest src n (wordsFrom s.ctx.rbuf 0 p.pageWords) vs := by
  rw [pageAttemptEvents_eq, (complete_of_verdict h.verdict).1, Bool.not_false, Bool.and_true]
  cases hp : passAt p n with
  | false => rfl
  | true =>
    have ho := (h.rewritten hb).overwrite ((overwritePass_eq hn).trans hp)
    rw [length_sourceFrom] at ho
    rw [ho]

include hmax

/-- A complete attempt with a mismatch is followed by the attempts after it (R191 step 3f). -/
theorem Complete.next {c : Nat} {l : List Event} (hm : s.ctx.m = false) (hmis : u.ctx.m = true)
    (g : PageRuns p m dest src (n + 1) c l u t) :
    ∃ c l, PageRuns p m dest src n c l s t := by
  obtain ⟨-, hlen⟩ := complete_of_verdict h.verdict
  rw [length_sourceFrom] at hlen
  refine ⟨_, _, ?_, fun hne => (g.counted hne).attempt m dest src s.ctx.rbuf u.ctx.obuf hlen, fun hb => ?_⟩
  · rw [List.append_assoc, Nat.add_assoc]
    exact h.log.trans g.log
  · have hrew := h.rewritten hb
    have hnext := hrew.reprogram
    have hne := (hrew.mismatch.1 hmis).resolve_left (by rw [hm]; decide)
    rw [length_sourceFrom] at hnext hne
    obtain ⟨vss, hl, hrun⟩ := g.run hrew.buffers
    rw [hnext] at hl hrun
    refine ⟨vs :: vss, ?_, pageRun_of_mismatch hmax h.verdict hne hrun⟩
    rw [h.events hn hb, pageAttemptsEvents_cons, hl]

/-- A complete attempt without a mismatch ends the page (R191 step 3f). -/
theorem Complete.last (hmis : u.ctx.m = false)
    (hlock : Logged 2 [.wait p.delays.sweHold] u t) (hres : t.loc.result = .ok) :
    ∃ c l, PageRuns p m dest src n c l s t := by
  obtain ⟨-, hlen⟩ := complete_of_verdict h.verdict
  rw [length_sourceFrom] at hlen
  refine ⟨_, _, ?_, fun _ => (counted_nil hmax).attempt m dest src s.ctx.rbuf u.ctx.obuf hlen, fun hb => ?_⟩
  · rw [List.append_nil]
    exact h.log.trans hlock
  · have heq := not_not.1 (mt (fun hne => (h.rewritten hb).mismatch.2 (.inr hne)) (by rw [hmis]; decide))
    rw [length_sourceFrom] at heq
    refine ⟨[vs], ?_, by rw [hres]; exact pageRun_of_match hmax h.verdict heq⟩
    rw [h.events hn hb, pageAttemptsEvents_cons, pageAttemptsEvents]

end

/-- The attempts of a page after `n` others, and its end (R191 steps 3, 4). -/
theorem AtPage.writeAttempts {left : Nat} (hleft : n + left = p.maxWriteRetries.toNat) (h : AtPage p m dest src s)
    (hn : left ≠ 0 → s.ctx.n.toNat = n + 1) :
    Yields (fun t => ∃ c l, PageRuns p m dest src n c l s t) (writeAttempts left s) := by
  induction left generalizing n s with
  | zero =>
    refine (h.lockPage _).mono fun t ht => ⟨0, [], ?_⟩
    obtain ⟨hlog, hres⟩ := ht
    exact ⟨by rwa [Nat.zero_add], fun _ => counted_nil (Nat.le_of_eq hleft), fun _ => ⟨[], rfl, hres, hleft⟩⟩
  | succ left ih =>
    have hclear : AtPage p m dest src s.clearMismatch := ⟨h.profile, h.source, h.pgDest, h.pgSrc⟩
    have hnum : s.clearMismatch.ctx.n.toNat = n + 1 := hn (Nat.succ_ne_zero left)
    have hmax : n < p.maxWriteRetries.toNat := by omega
    refine Yields.mono (P := fun t => ∃ c l, PageRuns p m dest src n c l s t)
      (Q := fun t => ∃ c l, PageRuns p m dest src n c l s.clearMismatch t) ?_ fun t ht => ?_
    · refine (hclear.programAttempt hnum).bind fun t ht => (hclear.notes ht).verifyAttempt.bind fun u hu => ?_
      obtain ⟨vs, hu⟩ := hu
      have hpass := hu.after ht
      split
      · next hfatal =>
        exact hu.toAtPage.fatalExit.mono fun v hv => ⟨_, _, pageRuns_of_fatal hmax hpass hfatal hv.1 hv.2⟩
      · next hgood =>
        have hunum : u.ctx.n.toNat = n + 1 := by rw [hpass.n, hnum]
        refine (hu.toAtPage.finishAttempt hunum).bind fun v hv => ?_
        have hpage := hu.toAtPage.notes hv
        have hdone := hpass.complete (hu.verdict.eq_ok hgood) rfl rfl hv
        cases hmis : v.ctx.m with
        | true =>
          obtain ⟨hnext, htrace, hctx⟩ := hpage.numbered (left = 0) (v.ctx.n + 1)
          refine (ih (n := n + 1) (by omega) hnext fun hpos => ?_).mono fun w hw => ?_
          · rw [hctx, if_neg hpos, hv.ctx, toNat_succ_of_lt (b := p.maxWriteRetries) (by omega), hunum]
          · obtain ⟨c, l, hruns⟩ := hw
            refine hdone.next hmax hnum rfl hmis (hruns.congr htrace (hnext.profile.trans hpage.profile.symm) ?_ ?_)
            · rw [hctx]
            · rw [hctx]
        | false =>
          exact (hpage.lockPage _).mono fun w hw => hdone.last hmax hnum hmis hw.1 hw.2
    · obtain ⟨c, l, hruns⟩ := ht
      exact ⟨c, l, hruns.congr rfl rfl rfl rfl⟩

end

end Sys2Proof.Machine
end

section
/-! `write_page` from its start: the precondition, the copy of the source page, and the count and order of all its events
(R122, R191, R280). -/

namespace Sys2Proof.Machine

section

variable {p : DeviceProfile} {m : Memory} {dest src : Word} {s t : State}

/-! ### The copy of the source page (R191 step 2) -/

/-- The first `k` bytes of the source page, copied into an `rbuf` that holds as many. -/
theorem bufByte_copied {k : Nat} (hk : k ≤ s.ctx.rbuf.length) :
    ∀ i < k, bufByte (afterActs ((List.range k).map .copy) s).ctx.rbuf i = s.sourceByte (offset s.ctx.pgSrc i) := by
  induction k with
  | zero => nofun
  | succ k ih =>
    obtain ⟨hctx, hlen⟩ := afterActs_ctx ((List.range k).map .copy) s
    have hsource := (framed_afterActs ((List.range k).map .copy) s).source
    rw [List.range_succ, List.map_append, afterActs_append]
    have hprev := ih (by omega)
    generalize afterActs ((List.range k).map .copy) s = t at hprev hctx hlen hsource
    intro i hi
    refine (bufByte_copy (by omega) i).trans ?_
    by_cases hik : i = k
    · rw [if_pos hik, State.sourceByte, State.sourceByte, hsource, hctx, hik]
    · rw [if_neg hik]
      exact hprev i (by omega)

/-- From `s` to `t` the source page was copied into `rbuf`. -/
structure Copied (p : DeviceProfile) (m : Memory) (dest src : Word) (s t : State) : Prop extends AtPage p m dest src t where
  log : Logged 0 (sourceEvents m src 0 p.pageBytes) s t
  obuf : t.ctx.obuf = s.ctx.obuf
  length : t.ctx.rbuf.length = s.ctx.rbuf.length
  words : s.ctx.rbuf.length = p.pageBytes → wordsFrom t.ctx.rbuf 0 p.pageWords = sourceFrom m src 0 p.pageWords

theorem AtPage.copied (h : AtPage p m dest src s) :
    Copied p m dest src s (afterActs (copyActs s.profile) s) := by
  obtain ⟨hctx, hlen⟩ := afterActs_ctx (copyActs s.profile) s
  have hevents : actEvents (copyActs s.profile) s = sourceEvents m src 0 p.pageBytes := by
    rw [copyActs, actEvents_copy, h.profile, h.source, h.pgSrc]
    simp [sourceEvents]
  refine ⟨⟨(afterActs_fields _ s).1.trans h.profile, (framed_afterActs _ s).source.trans h.source, ?_, ?_⟩, ?_, ?_,
    hlen, fun hb => ?_⟩
  · rw [hctx, h.pgDest]
  · rw [hctx, h.pgSrc]
  · refine ⟨_, afterActs_trace _ s, ?_, ?_⟩ <;> rw [hevents]
    · simp [sourceEvents, List.countP_map, Function.comp_def, Event.isControl]
    · simp [shown, sourceEvents, List.filter_map, Function.comp_def, Event.isControl]
  · rw [hctx]
  · have hbytes : HoldsSource s src (afterActs (copyActs s.profile) s).ctx.rbuf := by
      rw [← h.pgSrc]
      exact bufByte_copied (by rw [hb, h.profile])
    refine List.map_congr_left fun j hj => ?_
    rw [List.mem_range'_1, Nat.zero_add, ← h.profile] at hj
    rw [holdsSource_iff.1 hbytes j hj.2, sourceWordAt_eq h.source]

/-! ### The page -/

/-- What `write_page` notes and answers where it finds its precondition: the copy, `SWE` set, and the retry loop from a state
`u` whose buffers hold the source page, if they have their lengths. -/
def PageWritten (p : DeviceProfile) (m : Memory) (dest src : Word) (s t : State) : Prop :=
  ∃ u c l, Logged 2 (sourceEvents m src 0 p.pageBytes ++ [.wait p.delays.sweSetup]) s u ∧
    PageRuns p m dest src 0 c l u t ∧ (s.ctx.rbuf.length = p.pageBytes → s.ctx.obuf.length = p.obufBytes →
      u.buffersWf = true ∧ wordsFrom u.ctx.rbuf 0 p.pageWords = sourceFrom m src 0 p.pageWords)

theorem AtPage.writeUnlocked (h : AtPage p m dest src s) : Yields (PageWritten p m dest src s) (writeUnlocked s) := by
  refine (yields_runActs h.copied).bind fun t ht => ?_
  rw [ht.profile]
  refine (notes_on _ _ _).bind fun u hu => ?_
  have hpage := ht.toAtPage.notes hu
  rw [hpage.profile]
  obtain ⟨hfirst, htrace, hctx⟩ := hpage.numbered (p.maxWriteRetries = 0) 1
  have hn : p.maxWriteRetries.toNat ≠ 0 → (u.firstAttempt p.maxWriteRetries).ctx.n.toNat = 0 + 1 := fun hpos => by
    rw [State.firstAttempt, hctx, if_neg fun e => hpos (by rw [e]; rfl)]
    rfl
  refine (hfirst.writeAttempts (Nat.zero_add _) hn).mono fun v hv => ?_
  obtain ⟨c, l, hruns⟩ := hv
  refine ⟨_, c, l, (ht.log.trans hu.log).move htrace, hruns, fun hr ho => ?_⟩
  rw [buffersWf_iff, hfirst.profile, hctx, hu.ctx]
  exact ⟨⟨ht.length.trans hr, by rw [ht.obuf, ho]⟩, ht.words hr⟩

/-- `Precond` notes its two reads and leaves the page's registers alone (R122). -/
theorem precond_notes (s : State) :
    Yields (fun t => Notes 2 [] s t ∧ t.loc.flag = s.precondNow) (execPrecond s) := by
  have hreads : Notes 2 [] s (afterActs precondActs s) := notes_acts (by simp [precondActs, Act.code]) rfl rfl
  refine Yields.bind (Q := fun t => Notes 2 [] s t.judgePrecond ∧ t.judgePrecond.loc.flag = s.precondNow) ?_
    fun t ht => yields_next ht
  exact yields_runActs ⟨⟨hreads.profile, hreads.source, hreads.ctx, hreads.log⟩, flag_precond s⟩

/-- A well-conditioned `write_page`: its two reads, then the page (R191). -/
theorem writePage_written (hpre : s.precondNow = true) :
    Yields (fun t => ∃ u, Logged 2 [] s u ∧ u.ctx.rbuf = s.ctx.rbuf ∧ u.ctx.obuf = s.ctx.obuf ∧
      PageWritten s.profile s.env.source dest src u t) (execWritePage dest src s) := by
  rw [execWritePage]
  split
  · exact fun t ht => by cases ht
  · have hpage : AtPage s.profile s.env.source dest src (s.enterPage dest src) := ⟨rfl, rfl, rfl, rfl⟩
    refine (precond_notes _).bind fun t ht => ?_
    obtain ⟨hnotes, hflag⟩ := ht
    rw [if_pos (hflag.trans hpre)]
    refine (hpage.notes hnotes).writeUnlocked.mono fun u hu => ⟨t, hnotes.log, ?_, ?_, hu⟩ <;> rw [hnotes.ctx] <;> rfl

end

/-- Settles O51: the retry loop gives the events shown and their number, and the words it reads back give the status. -/
theorem pageEventCount : Obligations.PageEventCount := by
  intro s t dest src hpre he
  obtain ⟨w, hreads, hrbuf, hobuf, u, c, l, hhead, hruns, hbuffers⟩ := writePage_written hpre t he
  obtain ⟨es, htrace, hcontrol, hshown⟩ := (hreads.trans hhead).trans hruns.log
  refine ⟨fun hres => ?_, fun hr ho => ?_⟩
  · have hne : t.loc.result ≠ .programVerifyFatal := by
      rcases hres with h | h <;> rw [h] <;> decide
    obtain ⟨a, ha, hcount, hstart⟩ := hruns.counted hne
    obtain ⟨hk, hw⟩ := ((makes_source s.env.source src 0 s.profile.pageBytes).append
      (makes_wait s.profile.delays.sweSetup)).append (Makes.append ⟨rfl, hstart⟩ (makes_wait s.profile.delays.sweHold))
    have hpasses : passesFrom s.profile 0 a =
        if s.profile.hasOverwrite then min a s.profile.overwriteCount.toNat else 0 := by
      rw [passesFrom, Nat.zero_add, Nat.zero_min, Nat.sub_zero]
    refine ⟨es, a, passesFrom s.profile 0 a, htrace, by omega, hpasses, ?_, ?_⟩
    · rw [length_eq_shown, hshown, hcontrol, List.nil_append, hk]
      omega
    · rw [← countP_shown isControl_of_isWdtStart, hshown, List.nil_append, hw, Nat.zero_add, Nat.add_zero]
  · obtain ⟨hwf, hwords⟩ := hbuffers (by rw [hrbuf, hr]) (by rw [hobuf, ho])
    obtain ⟨vss, hl, hrun⟩ := hruns.run hwf
    rw [hwords, ← sourceWords_eq] at hl hrun
    refine ⟨es, vss, htrace, hrun, ?_⟩
    rw [hshown, hl, List.nil_append, List.append_assoc _ _ [_]]

end Sys2Proof.Machine
end

section
/-! The gate (R220 to R223): where `Validate` ends a command without an access, by `exec` and by the sequencer; what
`init` and `unprotect` leave; and that nothing but `init`, `unprotect` and a reset writes `armed`. -/

namespace Sys2Proof.Machine

/-! ### `Validate` (R170 step 1, R190) -/

/-- `Validate` has no micro-operation: its one step is the end of the stretch. -/
theorem step_of_validate {s : State} (hr : s.port.resetPin = false) (hu : s.port.uword = none)
    (hg : s.seq.seg = .validate) : step s = validateCommand s := by
  have hact : s.act = none := by rw [State.act, hg]; rfl
  rw [step_of_point hr hu, runPoint, hact, hg]
  rfl

/-- The status with which `Validate` ends an `erase_block` that makes no access (R222, R232). -/
def indexStatus (p : DeviceProfile) (index : Word) : Status := if p.blockCount ≤ index.toNat then .badBlock else .ok

theorem indexStatus_of_beyond {p : DeviceProfile} {index : Word} (h : p.blockCount ≤ index.toNat) :
    indexStatus p index = .badBlock := if_pos h

section
variable {s : State} {index dest src len : Word}

/-- The index check fails, or the gate is closed: the response is all there is. -/
theorem eraseAccepted_of_no_access (h : s.profile.blockCount ≤ index.toNat ∨ s.armed = false) :
    eraseAccepted index s = .next (s.respond (indexStatus s.profile index)) := by
  unfold eraseAccepted indexStatus
  split
  · rfl
  · next hi => rw [if_pos (h.resolve_left hi)]

theorem validateCommand_of_badBlock (hop : s.seq.op = .eraseBlock)
    (h : s.profile.blockCount ≤ s.opr.index.toNat) : validateCommand s = .next (s.respond .badBlock) := by
  simp only [validateCommand, hop]
  exact if_pos h

/-- An argument check fails, or the gate is closed: the status is held and answered. -/
theorem writeAccepted_of_no_access (h : rangeStatus s.profile dest len ≠ .ok ∨ s.armed = false) :
    writeAccepted dest len s = .next
      ((s.withResult (rangeStatus s.profile dest len)).respond (rangeStatus s.profile dest len)) := by
  simp only [writeAccepted, execValidateRange, andThen_of_next, withResult_fields]
  split
  · rfl
  · next hok => rw [if_pos (h.resolve_left hok), of_not_not hok]

theorem validateCommand_of_badRange (hop : s.seq.op = .writeRange)
    (h : rangeStatus s.profile s.opr.dest s.opr.len ≠ .ok) :
    validateCommand s = .next ((s.withResult (rangeStatus s.profile s.opr.dest s.opr.len)).respond
      (rangeStatus s.profile s.opr.dest s.opr.len)) := by
  simp only [validateCommand, hop]
  exact if_pos h

/-! ### Commands that make no access (R222, R232 to R235) -/

theorem eraseBlock_of_no_access (hready : s.ready = true)
    (h : s.profile.blockCount ≤ index.toNat ∨ s.armed = false) :
    exec (.eraseBlock index) s =
      .next (s.completed .eraseBlock { s.opr with index := index } (indexStatus s.profile index)) :=
  (whenReady_of_ready hready _).trans (eraseAccepted_of_no_access (s := s.acceptErase index) h)

theorem writeRange_of_no_access (hready : s.ready = true)
    (h : rangeStatus s.profile dest len ≠ .ok ∨ s.armed = false) :
    exec (.writeRange dest src len) s = .next
      ({ s with loc := { s.loc with result := rangeStatus s.profile dest len } }.completed .writeRange
        { s.opr with dest := dest, src := src, len := len } (rangeStatus s.profile dest len)) :=
  (whenReady_of_ready hready _).trans (writeAccepted_of_no_access (s := s.acceptWrite dest src len) h)

end

/-- Settles O20: the gate stands behind the argument checks, so that a closed one ends the command with their status;
`init` and `unprotect` write the gate before anything reads it. -/
theorem disarmedCommandsDoNothing : Obligations.DisarmedCommandsDoNothing := fun _ hready harmed =>
  ⟨fun _ => eraseBlock_of_no_access hready (.inr harmed),
    fun _ _ _ => ⟨_, rfl, writeRange_of_no_access hready (.inr harmed)⟩, rfl, rfl⟩

/-- Settles O21: the index check is the first of `Validate`, before the gate. -/
theorem badBlockStatus : Obligations.BadBlockStatus := by
  intro s index hready hi
  refine ⟨?_, rfl, fun hr hu => ?_⟩
  · rw [← indexStatus_of_beyond hi]
    exact eraseBlock_of_no_access hready (.inl hi)
  · exact (step_of_validate (s := s.acceptErase index) hr hu rfl).trans (validateCommand_of_badBlock rfl hi)

/-- Settles O22: the argument checks stand in their order before the gate. -/
theorem rangeArgumentStatuses : Obligations.RangeArgumentStatuses := by
  intro s dest src len r hready hr
  have hcheck : r = rangeStatus s.profile dest len ∧ r ≠ .ok := by
    rcases hr with ⟨rfl, hd⟩ | ⟨rfl, hd, hal⟩ | ⟨rfl, hd, hal, hlen⟩
    · exact ⟨(rangeStatus_of_beyond hd).symm, by decide⟩
    · exact ⟨(rangeStatus_of_misaligned hd hal).symm, by decide⟩
    · exact ⟨(rangeStatus_of_badLength hd hal hlen).symm, by decide⟩
  obtain ⟨rfl, hbad⟩ := hcheck
  refine ⟨writeRange_of_no_access hready (.inl hbad), rfl, fun hr hu => ?_⟩
  exact (step_of_validate (s := s.acceptWrite dest src len) hr hu rfl).trans (validateCommand_of_badRange rfl hbad)

/-! ### `init` and `unprotect` (R220, R221) -/

/-- `init` where no overflow is admitted: the two reads of `Precond`, judged and answered. -/
theorem init_of_calm {s : State} (hready : s.ready = true) (hc : s.calm = true) :
    exec .init s = .next
      ((afterActs precondActs s.acceptInit.disarm).judgePrecond.respond (precondStatus s.precondNow)) := by
  have hreads : runActs precondActs s.acceptInit.disarm = .next (afterActs precondActs s.acceptInit.disarm) :=
    runActs_of_calm hc (by simp [precondActs, Act.watchdog]) (by simp [precondActs, Act.reaches])
  have hflag : (afterActs precondActs s.acceptInit.disarm).judgePrecond.loc.flag = s.precondNow := flag_precond _
  rw [← hflag]
  show whenReady s _ = _
  rw [whenReady_of_ready hready, execPrecond, hreads]
  rfl

/-- Settles O18: `unprotect` answers at once; `init` makes the two reads of `Precond` with the gate closed, and the
verdict on them is the one the inputs give now. -/
theorem gateCommandResults : Obligations.GateCommandResults := by
  intro s hready
  refine ⟨whenReady_of_ready hready _, fun hc => ⟨_, _, _, init_of_calm hready hc, rfl, rfl, ?_⟩⟩
  have hflag : (afterActs precondActs s.acceptInit.disarm).precondHolds = s.precondNow :=
    flag_precond s.acceptInit.disarm
  have htrace : (afterActs precondActs s.acceptInit.disarm).trace = s.trace ++
      [.rr (.fcr .b0) (s.content (.fcr .b0)), .rr (.fcr .b1) ({ s with moment := s.moment + 1 }.content (.fcr .b1))] :=
    afterActs_trace precondActs s.acceptInit.disarm
  rw [State.judgePrecond, hflag, ← htrace]
  rfl

/-! ### The writers of the gate (R223) -/

/-- The gate is as it was. -/
def SameGate (s t : State) : Prop := t.armed = s.armed

/-- Neither a micro-operation nor a quiet move writes the gate. -/
theorem sameGate_chained : Chained SameGate := by
  refine ⟨fun h g => g.trans h, fun u s => ?_, fun q => q.armed⟩
  obtain ⟨-, -, -, -, -, harmed, -⟩ := after_fields u s
  exact harmed

theorem precond_sameGate {s t : State} (h : execPrecond s = .next t) : SameGate s t := by
  have hleads := leads_precond sameGate_chained s
  rwa [h] at hleads

theorem init_disarms {s t : State} (h : exec .init s = .next t) : t.armed = false := by
  obtain ⟨u, hu, ht⟩ := andThen_eq_next.1 (whenReady_eq_next h)
  cases ht
  exact precond_sameGate hu

theorem unprotect_arms {s t : State} (h : exec .unprotect s = .next t) : t.armed = true := by
  cases whenReady_eq_next h
  rfl

theorem nextPageOrEnd_armed {s t : State} (h : nextPageOrEnd s = .next t) : t.armed = s.armed := by
  rcases nextPageOrEnd_eq_next h with ⟨-, rfl⟩ | ⟨-, -, rfl⟩ <;> rfl

/-- `Validate` writes the gate for `init` and `unprotect` only. -/
theorem validate_armed {s t : State} (h : validateCommand s = .next t) :
    t.armed = s.armed ∨ s.seq.op = .init ∨ s.seq.op = .unprotect := by
  cases hop : s.seq.op with
  | init | unprotect => simp
  | eraseBlock =>
    left
    simp only [validateCommand, hop] at h
    repeat' split at h
    all_goals
      cases h
      simp
  | writeRange =>
    left
    simp only [validateCommand, hop] at h
    repeat' split at h
    · cases h
      rfl
    · cases h
      rfl
    · exact (nextPageOrEnd_armed h).trans rfl

/-- The end of a stretch that writes the gate is that of `Validate`, of `init` or `unprotect`. -/
theorem finish_writes_gate {g : Seg} {s t : State} (h : g.finish s = .next t) (hne : t.armed ≠ s.armed) :
    g = .validate ∧ (s.seq.op = .init ∨ s.seq.op = .unprotect) := by
  obtain rfl : g = .validate := Decidable.byContradiction fun hg => hne ((finish_fields h).2 hg)
  exact ⟨rfl, (validate_armed h).resolve_left hne⟩

/-- Settles O19: the other instructions are chains of micro-operations and quiet moves, which leave the gate; a step
writes it at the end of `Validate` only, since an act leaves it. -/
theorem gateLifecycle : Obligations.GateLifecycle := by
  refine ⟨fun i s t h => ⟨?_, ?_, fun hi hr hu => exec_chained_ungated sameGate_chained hr hi hu h⟩,
    fun s t hr hu h hne => ?_⟩
  · rintro (rfl | rfl)
    · exact init_disarms h
    · cases h
      rfl
  · rintro rfl
    exact unprotect_arms h
  · rcases step_cases hr hu h with ⟨-, hf⟩ | ⟨a, -, -, -, ⟨-, rfl⟩ | ⟨-, hf⟩⟩
    · obtain ⟨hg, hop⟩ := finish_writes_gate hf hne
      exact ⟨congrArg Seg.st hg, hop⟩
    · obtain ⟨-, -, -, -, harmed, -⟩ := act_after_fields a s
      exact absurd harmed hne
    · obtain ⟨-, -, hseq, -, harmed, -⟩ := act_after_fields a s
      obtain ⟨hg, hop⟩ := finish_writes_gate hf (by rwa [harmed])
      exact ⟨congrArg Seg.st hg, by rwa [hseq] at hop⟩

end Sys2Proof.Machine
end
